-- ==== Sys2Proof/Word.lean ====
section
/-! DEFINITION. The words of the block: 32-bit registers, bytes of the input stream, 16-bit samples (00_scope.md R6, R7). -/

namespace Sys2Proof

/-- A register, and a command word: 32 bits (REG_WIDTH of R6). -/
abbrev Word := BitVec 32

/-- A byte of the input stream (R71). -/
abbrev Byte := BitVec 8

/-- A PCM sample: 16 bits, read as a two's complement number (SAMPLE_BITS of R6). -/
abbrev Sample := BitVec 16

end Sys2Proof
end

