-- ==== Sys2Proof/Syntax.lean ====
section
/-! DEFINITION. The commands of the block (one constructor for each row of the opcode table) and the turns of the block's agents (00_scope.md R9). -/

namespace Sys2Proof

/-- The commands of 30_encoding.md R104.
`c` is a clip slot number and `v` a voice slot number (the IDX field), `loop` the LOOP bit. -/
inductive Instr where
  | nop
  | resetStream
  | readFrame
  | decodeFrame
  | loadClip (c : Nat)
  | playStream
  | clipDefine (c : Nat)
  | clipFreeAll
  | mixerStart
  | mixerStop
  | mixerSync
  | playVoice (c : Nat) (loop : Bool)
  | pauseVoice (v : Nat)
  | resumeVoice (v : Nat)
  | stopVoice (v : Nat)
  | setVolume (v : Nat)
  | setLoop (v : Nat) (loop : Bool)
  | bypassWrite (c : Nat)
  deriving DecidableEq, Repr, Inhabited

/-- The width of a host access; only 32 bits is defined (20_memory.md R81). -/
inductive AccessWidth where
  | w8 | w16 | w32
  deriving DecidableEq, Repr, Inhabited

/-- One bus access of the host, at a byte offset of the 8192-byte register space (20_memory.md R70). -/
inductive HostAccess where
  | read (offset : BitVec 13) (width : AccessWidth)
  | write (offset : BitVec 13) (width : AccessWidth) (value : Word)
  deriving DecidableEq, Repr, Inhabited

/-- The answer of the line-failure oracle to one line write (42_mixer.md R263). -/
inductive LineDraw where
  | ok | fail
  deriving DecidableEq, Repr, Inhabited

/-- One turn of one agent, with the draws of the environment that its step may consult (00_scope.md R9).
The oracle's answer stands in the turns that may write to the line.
`timeout` is the draw of MIXER_STOP's drain (42_mixer.md R244). -/
inductive Turn where
  | host (access : HostAccess)
  | sequencer (draw : LineDraw) (timeout : Bool)
  | mixer (draw : LineDraw)
  | line
  deriving DecidableEq, Repr, Inhabited

end Sys2Proof
end

