-- ==== Sys2Proof/WellFormed.lean ====
section
/-! DEFINITION. Which terms of Instr are commands: those whose IDX operand fits the eight bits of the command word (30_encoding.md R100). -/

namespace Sys2Proof

/-- A slot number that the IDX field can hold.
Whether such a slot exists is checked when the command runs, not here (30_encoding.md R106). -/
def fitsIdx (n : Nat) : Bool := decide (n < 256)

/-- The command has an encoding. -/
def Instr.wf : Instr → Bool
  | .nop => true
  | .resetStream => true
  | .readFrame => true
  | .decodeFrame => true
  | .loadClip c => fitsIdx c
  | .playStream => true
  | .clipDefine c => fitsIdx c
  | .clipFreeAll => true
  | .mixerStart => true
  | .mixerStop => true
  | .mixerSync => true
  | .playVoice c _ => fitsIdx c
  | .pauseVoice v => fitsIdx v
  | .resumeVoice v => fitsIdx v
  | .stopVoice v => fitsIdx v
  | .setVolume v => fitsIdx v
  | .setLoop v _ => fitsIdx v
  | .bypassWrite c => fitsIdx c

end Sys2Proof
end

