-- ==== Sys2Proof/Decode.lean ====
section
/-! DEFINITION. The command word (30_encoding.md R100 to R105): its decoder, total on every word and rejecting by name, and its encoder. -/

namespace Sys2Proof

/-- The OP field, bits 7:0. -/
def opField (w : Word) : Byte := w.extractLsb' 0 8

/-- The IDX field, bits 15:8. -/
def idxField (w : Word) : Byte := w.extractLsb' 8 8

/-- The LOOP field, bit 16. -/
def loopField (w : Word) : Bool := w.getLsbD 16

/-- A row of the opcode map R104: the opcode, and whether IDX and LOOP are used. -/
structure OpRow where
  op : Byte
  usesIdx : Bool
  usesLoop : Bool
  deriving DecidableEq, Repr

/-- The opcode map of R104. -/
def opTable : List OpRow :=
  [ ⟨0x00, false, false⟩,   -- NOP
    ⟨0x01, false, false⟩,   -- RESET_STREAM
    ⟨0x02, false, false⟩,   -- READ_FRAME
    ⟨0x03, false, false⟩,   -- DECODE_FRAME
    ⟨0x04, true, false⟩,    -- LOAD_CLIP
    ⟨0x05, false, false⟩,   -- PLAY_STREAM
    ⟨0x08, true, false⟩,    -- CLIP_DEFINE
    ⟨0x09, false, false⟩,   -- CLIP_FREE_ALL
    ⟨0x10, false, false⟩,   -- MIXER_START
    ⟨0x11, false, false⟩,   -- MIXER_STOP
    ⟨0x12, false, false⟩,   -- MIXER_SYNC
    ⟨0x13, true, true⟩,     -- PLAY_VOICE
    ⟨0x14, true, false⟩,    -- PAUSE_VOICE
    ⟨0x15, true, false⟩,    -- RESUME_VOICE
    ⟨0x16, true, false⟩,    -- STOP_VOICE
    ⟨0x17, true, false⟩,    -- SET_VOLUME
    ⟨0x18, true, true⟩,     -- SET_LOOP
    ⟨0x19, true, false⟩ ]   -- BYPASS_WRITE

/-- The mask of the bits a row uses (R101). -/
def OpRow.mask (r : OpRow) : Word :=
  0x000000FF#32 ||| (if r.usesIdx then 0x0000FF00#32 else 0#32) ||| (if r.usesLoop then 0x00010000#32 else 0#32)

/-- Why a word is illegal (R101, R105).
Either way the CMD write records BAD_COMMAND. -/
inductive Illegal where
  /-- No row has this OP. -/
  | unassignedOpcode
  /-- A reserved bit, or an IDX or LOOP field that the row does not use, is not zero. -/
  | fieldNotZero
  deriving DecidableEq, Repr

/-- The command of an opcode with its IDX and LOOP fields. -/
def instrOf (op : Byte) (idx : Nat) (loop : Bool) : Option Instr :=
  match op.toNat with
  | 0x00 => some .nop
  | 0x01 => some .resetStream
  | 0x02 => some .readFrame
  | 0x03 => some .decodeFrame
  | 0x04 => some (.loadClip idx)
  | 0x05 => some .playStream
  | 0x08 => some (.clipDefine idx)
  | 0x09 => some .clipFreeAll
  | 0x10 => some .mixerStart
  | 0x11 => some .mixerStop
  | 0x12 => some .mixerSync
  | 0x13 => some (.playVoice idx loop)
  | 0x14 => some (.pauseVoice idx)
  | 0x15 => some (.resumeVoice idx)
  | 0x16 => some (.stopVoice idx)
  | 0x17 => some (.setVolume idx)
  | 0x18 => some (.setLoop idx loop)
  | 0x19 => some (.bypassWrite idx)
  | _ => none

/-- Decoding a command word (R101). -/
def decode (w : Word) : Except Illegal Instr :=
  match opTable.find? (fun r => r.op == opField w) with
  | none => .error .unassignedOpcode
  | some r =>
    if w &&& ~~~ r.mask ≠ 0#32 then .error .fieldNotZero
    else match instrOf (opField w) (idxField w).toNat (loopField w) with
      | some i => .ok i
      | none => .error .unassignedOpcode

/-- The opcode of a command (R104). -/
def Instr.opcode : Instr → Byte
  | .nop => 0x00
  | .resetStream => 0x01
  | .readFrame => 0x02
  | .decodeFrame => 0x03
  | .loadClip _ => 0x04
  | .playStream => 0x05
  | .clipDefine _ => 0x08
  | .clipFreeAll => 0x09
  | .mixerStart => 0x10
  | .mixerStop => 0x11
  | .mixerSync => 0x12
  | .playVoice _ _ => 0x13
  | .pauseVoice _ => 0x14
  | .resumeVoice _ => 0x15
  | .stopVoice _ => 0x16
  | .setVolume _ => 0x17
  | .setLoop _ _ => 0x18
  | .bypassWrite _ => 0x19

/-- The IDX operand of a command, 0 where the command has none (R104). -/
def Instr.idx : Instr → Nat
  | .nop => 0
  | .resetStream => 0
  | .readFrame => 0
  | .decodeFrame => 0
  | .loadClip c => c
  | .playStream => 0
  | .clipDefine c => c
  | .clipFreeAll => 0
  | .mixerStart => 0
  | .mixerStop => 0
  | .mixerSync => 0
  | .playVoice c _ => c
  | .pauseVoice v => v
  | .resumeVoice v => v
  | .stopVoice v => v
  | .setVolume v => v
  | .setLoop v _ => v
  | .bypassWrite c => c

/-- The LOOP operand of a command, false where the command has none (R104). -/
def Instr.loopFlag : Instr → Bool
  | .nop => false
  | .resetStream => false
  | .readFrame => false
  | .decodeFrame => false
  | .loadClip _ => false
  | .playStream => false
  | .clipDefine _ => false
  | .clipFreeAll => false
  | .mixerStart => false
  | .mixerStop => false
  | .mixerSync => false
  | .playVoice _ loop => loop
  | .pauseVoice _ => false
  | .resumeVoice _ => false
  | .stopVoice _ => false
  | .setVolume _ => false
  | .setLoop _ loop => loop
  | .bypassWrite _ => false

/-- The IDX field of a command's word, as ERR.IDX shows it. -/
def Instr.idxByte (i : Instr) : Byte := BitVec.ofNat 8 i.idx

/-- The word of a command: OP, IDX and LOOP in their places (R127), bits 31:17 zero. -/
def encode (i : Instr) : Word :=
  ((0#15 ++ BitVec.ofBool i.loopFlag) ++ i.idxByte) ++ i.opcode

/-- The decoder under the numbering of spec/opcode_table.json: a command is one 32-bit word, and `w` holds its bits. -/
def decodeTableWord (nbits w : Nat) : Option Instr :=
  match decode (BitVec.ofNat 32 (w % 2 ^ nbits)) with
  | .ok i => some i
  | .error _ => none

end Sys2Proof
end

