-- ==== Sys2Proof/Config.lean ====
section
/-! DEFINITION. What an implementation of the block fixes (00_scope.md R6) and the free values: constants without a body. -/

namespace Sys2Proof

/-- The sizes and the launch parameter of R6.
They are plain data that State carries and no step changes (log 5).
N_VOICES and N_CLIPS are the lengths of the voice and descriptor lists; `State.configLegal` bounds them. -/
structure Params where
  clipMemSamples : Nat   -- CLIP_MEM_SAMPLES
  mixBlock : Nat         -- MIX_BLOCK, in frames
  lineCap : Nat          -- LINE_CAP, in frames
  inCap : Nat            -- IN_CAP, in bytes
  maxResync : Nat        -- MAX_RESYNC_BYTES
  ringCap : Nat          -- RING_CAP, in frames
  linePresent : Bool     -- LINE_PRESENT
  deriving DecidableEq, Repr

/-- The ranges of R6, but for N_VOICES and N_CLIPS, which `State.configLegal` adds.
R6 bounds only CLIP_MEM_SAMPLES from above; what a parameter register shows of a larger value is log 20. -/
def Params.legal (p : Params) : Bool :=
  decide (1 ≤ p.clipMemSamples) && decide (p.clipMemSamples < 2 ^ 32) &&
  decide (1 ≤ p.mixBlock) && decide (p.mixBlock ≤ p.lineCap) &&
  decide (1733 ≤ p.inCap) && decide (1 ≤ p.maxResync) && decide (1152 ≤ p.ringCap)

/-- A value of SynthArith, the open number format (41_decoder.md R206), held as an integer code (log 8). -/
abbrev Num := Int

/-- The Layer III context, opaque to the spec (10_state.md R26), held as a list of codes (log 8). -/
abbrev L3Context := List Num

/-- The three MPEG versions (30_encoding.md R111). -/
inductive MpegVersion where
  | v1 | v2 | v25
  deriving DecidableEq, Repr, Inhabited

/-- The three layers (30_encoding.md R112). -/
inductive Layer where
  | I | II | III
  deriving DecidableEq, Repr, Inhabited

/-- The four channel modes, in the order of their codes (30_encoding.md R114). -/
inductive ChannelMode where
  | stereo | jointStereo | dualChannel | mono
  deriving DecidableEq, Repr, Inhabited

/-- The decoded FrameHeader record (40_stream.md R159). -/
structure HeaderFields where
  version : MpegVersion
  layer : Layer
  hasCrc : Bool
  bitrateIndex : Nat
  srateIndex : Nat
  padded : Bool
  priv : Bool
  mode : ChannelMode
  modeExt : Nat
  copyright : Bool
  original : Bool
  emphasis : Nat
  deriving DecidableEq, Repr, Inhabited

/-- What a layer decoder returns when it does not fail (41_decoder.md R200).
`x c t k` is the subband sample of channel c, time slot t, subband k, and `l3` the next Layer III context. -/
structure DecodeOut where
  x : Nat → Nat → Nat → Num
  l3 : L3Context

/-- A layer decoder as a program that reads its frame only through GetBits (41_decoder.md R195, R200).
`main` says which reader: the main-data reader, or else the frame reader (Layer III: the side-information reader).
`done none` is DecodeError (log 9). -/
inductive DecodeProg where
  | done (r : Option DecodeOut)
  | getBits (main : Bool) (n : Fin 33) (k : Word → DecodeProg)
  deriving Inhabited

/-- SynthArith (41_decoder.md R205, R206): the number format of V, X, U, W, N and D_WINDOW, and how sums, products and the final rounding behave. -/
structure SynthArith where
  zero : Num := 0
  mul : Num → Num → Num := fun _ _ => 0
  sum : List Num → Num := fun _ => 0
  /-- The representation of cos(n·π/64). -/
  cos64 : Nat → Num := fun _ => 0
  /-- Round(y × 32768). -/
  roundScaled : Num → Int := fun _ => 0
  deriving Inhabited

/-- N(i, k) = cos((16 + i)·(2k + 1)·π/64); the cosine has period 128 in units of π/64 (41_decoder.md R205). -/
def SynthArith.cosine (a : SynthArith) (i k : Nat) : Num := a.cos64 ((16 + i) * (2 * k + 1) % 128)

/-- The new V[i] of a time slot with the subband samples `x k` (41_decoder.md R205). -/
def SynthArith.newValue (a : SynthArith) (x : Nat → Num) (i : Nat) : Num :=
  a.sum ((List.range 32).map (fun k => a.mul (a.cosine i k) (x k)))

/-- Value n of a delay line that was zero before the last `t` time slots of X = 0 (41_decoder.md R205, R206). -/
def SynthArith.silentValue (a : SynthArith) (t n : Nat) : Num :=
  if n / 64 < t then a.newValue (fun _ => a.zero) (n % 64) else a.zero

/-- The index into V of U[n]: U[64i + j] is V[128i + j] and U[64i + 32 + j] is V[128i + 96 + j] (41_decoder.md R205). -/
def uIndex (n : Nat) : Nat := 128 * (n / 64) + n % 64 + (if n % 64 < 32 then 0 else 64)

/-- The filter bank's configuration: SynthArith and D_WINDOW (R6), with the requirement of 41_decoder.md R206 on them: X = 0 with V = 0 gives y = 0, here in each time slot of X.
The defaults only show that such a configuration exists; they are no values of `Config.synthesis`. -/
structure Synthesis extends SynthArith where
  /-- D_WINDOW, 512 values (41_decoder.md R205). -/
  dWindow : Nat → Num := fun _ => 0
  silent : ∀ t j, 1 ≤ t → j < 32 →
    sum ((List.range 16).map (fun i =>
      mul (toSynthArith.silentValue t (uIndex (j + 32 * i))) (dWindow (j + 32 * i)))) = zero := by
    intros; rfl
  deriving Inhabited

namespace Config

/-- LINE_RATE in Hz (R6). -/
def lineRate : Nat := 44100

/-- The value of ID (10_state.md R30). -/
def idValue : Word := 0x4D504131#32

/-- DecodeL1 (R6, 41_decoder.md R200). -/
opaque decodeL1 : HeaderFields → DecodeProg

/-- DecodeL2 (R6, 41_decoder.md R200). -/
opaque decodeL2 : HeaderFields → DecodeProg

/-- DecodeL3, from the Layer III context before the frame (R6, 41_decoder.md R200). -/
opaque decodeL3 : HeaderFields → L3Context → DecodeProg

/-- The initial Layer III context, all overlap values zero in DecodeL3's own encoding (41_decoder.md R191). -/
opaque l3Initial : L3Context

/-- L2ProtectedBits, part of the DecodeL2 configuration (41_decoder.md R197). -/
opaque l2ProtectedBits : HeaderFields → List Byte → Nat

/-- SynthArith and D_WINDOW (R6), which keep silence (41_decoder.md R206; log 8). -/
opaque synthesis : Synthesis

/-- SynthArith (R6). -/
abbrev synth : SynthArith := synthesis.toSynthArith

/-- D_WINDOW (R6). -/
abbrev dWindow : Nat → Num := synthesis.dWindow

/-- FREE VALUE: what a clip memory cell never written since reset holds (70_reset_and_hazards.md R363; log 6). -/
opaque freeCell : Nat → Sample

/-- FREE VALUE: a sample that the ring takes of a decoded frame whose channel count is not the ring's; the index is 2n or 2n + 1 for the ring's n-th frame (10_state.md R27, 41_decoder.md R210; log 11). -/
opaque freeRingSample : Nat → Sample

/-- FREE VALUE: which agent moves, and what the environment draws, at the n-th turn past the script of State (00_scope.md R9, R10; log 1). -/
opaque freeTurn : Nat → Turn

end Config
end Sys2Proof
end

