-- ==== Sys2Proof/Machine/State.lean ====
section
/-! DEFINITION. The state of the block (10_state.md), as plain data, and its value at reset (70_reset_and_hazards.md R361). -/

namespace Sys2Proof.Machine

/-- The reasons a step can end in a fault.
There is none: the spec gives every behaviour of the block an effect (93_implementation_defined.md has no row with treatment "fault"), so nothing raises a fault. -/
inductive Fault where
  deriving DecidableEq, Repr

/-- The reasons a step can be refused. -/
inductive Refusal where
  /-- The command has no meaning in this model; raised by an arm of exec only.
  Safe: nothing is claimed of such a command. -/
  | notModelled (mnemonic : String)
  deriving DecidableEq, Repr

/-- The error codes of 60_exceptions.md R321. -/
inductive ErrCode where
  | none
  | malformedStream
  | corruptVbrHeader
  | decodeError
  | unknownSoundKey
  | hardwareLineUnavailable
  | lineWriteFail
  | badCommand
  | badIndex
  | cmdBusy
  | noFrame
  | voiceLimit
  | clipBusy
  | formatMismatch
  | clipFull
  | inOverflow
  | badState
  | notMpeg
  | badAccess
  deriving DecidableEq, Repr

/-- ERR (10_state.md R36). -/
structure ErrReg where
  code : ErrCode
  op : Byte
  idx : Byte
  ovf : Bool
  deriving DecidableEq, Repr

/-- A clip descriptor (10_state.md R57). -/
structure ClipDesc where
  valid : Bool
  base : Nat
  len : Nat
  rate : Nat
  ch : Nat
  deriving DecidableEq, Repr

/-- The progress record of LOAD_CLIP (41_decoder.md R215). -/
structure LoadProgress where
  base : Nat
  w : Nat
  nfr : Nat
  ch : Nat
  rate : Nat
  skipped : Nat
  deriving DecidableEq, Repr

/-- How far the command in progress has come (10_state.md R23). -/
inductive Progress where
  /-- Issued; no sequencer step taken yet, and no progress record of its own. -/
  | initial
  /-- READ_FRAME: bytes skipped by this command. -/
  | reading (skipped : Nat)
  /-- LOAD_CLIP. -/
  | loading (l : LoadProgress)
  /-- MIXER_STOP, phase DRAIN. -/
  | draining
  /-- MIXER_SYNC, waiting for a tick. -/
  | syncing
  /-- BYPASS_WRITE: the copied descriptor and the next frame. -/
  | bypass (d : ClipDesc) (i : Nat)
  deriving DecidableEq, Repr

/-- The command in progress with its latched operands (60_exceptions.md R325).
The fields op, idx and loop of the spec's record are those of `instr`. -/
structure Job where
  instr : Instr
  arg0 : Word
  arg1 : Word
  progress : Progress
  deriving DecidableEq, Repr

/-- The sticky STATUS bits that are not views of other state (10_state.md R34). -/
structure StatusFlags where
  frameValid : Bool
  eosSeen : Bool
  crcErr : Bool
  vbrCorrupt : Bool
  deriving DecidableEq, Repr

/-- The counters of 10_state.md R39 (FRAME_COUNT is a view of nframes). -/
structure Counters where
  samplesOut : Word
  crcErrCount : Word
  skipCount : Word
  resyncBytes : Word
  deriving DecidableEq, Repr

/-- The synchroniser modes (10_state.md R24). -/
inductive SyncMode where
  | initial | strict | failed
  deriving DecidableEq, Repr

/-- What the stream was found to be (10_state.md R24). -/
inductive StreamKind where
  | unknown | mpeg | wav
  deriving DecidableEq, Repr

/-- The synchroniser state and the input stream (10_state.md R24).
`input` is the bytes of S at index pos or later; bytes before pos are released. -/
structure Stream where
  input : List Byte
  eos : Bool
  pos : Nat
  mode : SyncMode
  word : Word
  kind : StreamKind
  nframes : Nat
  deriving DecidableEq, Repr

/-- The current frame (10_state.md R25); its fields are computed from `hdr`. -/
structure Frame where
  hdr : Word
  payload : List Byte
  pending : Bool
  deriving DecidableEq, Repr

/-- The frame header registers (10_state.md R40 to R46; SYNC_WORD is a view). -/
structure HdrRegs where
  raw : Word
  fields : Word
  bitrate : Word
  sampleRate : Word
  frameSize : Word
  slotCount : Word
  subbands : Word
  framePos : Word
  crcStored : BitVec 16
  crcComputed : BitVec 16
  samplesPerFrame : Word
  frameLen : Word
  deriving DecidableEq, Repr

/-- The VBR registers (10_state.md R47, R48); `toc` is the 100 bytes of VBR_TOC. -/
structure VbrRegs where
  info : Word
  frames : Word
  bytes : Word
  scale : Word
  toc : List Byte
  deriving DecidableEq, Repr

/-- The decoder state (10_state.md R26). -/
structure Decoder where
  init : Bool
  dch : Nat
  drate : Nat
  delay : List (List Num)
  l3 : L3Context
  res : List Byte
  deriving DecidableEq, Repr

/-- The PcmSink (10_state.md R51); PCM_LEN is the length of `samples`. -/
structure Sink where
  samples : List Sample
  ch : Nat
  addr : BitVec 12
  deriving DecidableEq, Repr

/-- Clip memory (20_memory.md R72): the cells written since reset, by rising index.
A cell that is not listed has never been written. -/
abbrev Memory := List (Nat × Sample)

/-- The clip store (10_state.md R50, R57; 20_memory.md R72). -/
structure ClipStore where
  sel : Byte
  addr : Word
  alloc : Nat
  descs : List ClipDesc
  mem : Memory
  deriving DecidableEq, Repr

/-- The states of a voice (42_mixer.md R230). -/
inductive VoiceState where
  | stopped | playing | paused
  deriving DecidableEq, Repr

/-- A voice slot (10_state.md R56). -/
structure Voice where
  state : VoiceState
  loop : Bool
  stream : Bool
  pending : Bool
  active : Bool
  clip : Nat
  base : Nat
  len : Nat
  ch : Nat
  rate : Nat
  pos : Nat
  vol : Nat
  deriving DecidableEq, Repr

/-- A sample frame of one or of two samples (10_state.md R27). -/
inductive RingFrame where
  | mono (x : Sample)
  | stereo (l r : Sample)
  deriving DecidableEq, Repr

/-- The stream ring (10_state.md R27). -/
structure Ring where
  bound : Bool
  closed : Bool
  voice : Nat
  ch : Nat
  buf : List RingFrame
  deriving DecidableEq, Repr

/-- The mixer state (10_state.md R28). -/
structure Mixer where
  running : Bool
  fifo : List Nat
  syncreq : Bool
  deriving DecidableEq, Repr

/-- A frame of the output line: left and right (00_scope.md R6). -/
structure StereoFrame where
  l : Sample
  r : Sample
  deriving DecidableEq, Repr

/-- The line state (10_state.md R29). -/
structure Line where
  isOpen : Bool
  buf : List StereoFrame
  deriving DecidableEq, Repr

/-- The environment, the model's own: the turns still to come, how many were taken past them, the draws of the turn being taken, and how many frames the ring has taken (logs 1, 2 and 11). -/
structure Env where
  script : List Turn
  taken : Nat
  lineDraw : LineDraw
  timeout : Bool
  ringTaken : Nat
  deriving DecidableEq, Repr

/-- One line write and its outcome (70_reset_and_hazards.md R392). -/
structure LineWrite where
  frames : List StereoFrame
  draw : LineDraw
  deriving DecidableEq, Repr

/-- What the outside sees of the block, the model's own: the value the last host read returned, the line writes in order, and the bytes the line device was sent (log 12). -/
structure Obs where
  readData : Word
  lineWrites : List LineWrite
  lineBytes : List Byte
  deriving DecidableEq, Repr

/-- The state of the block (10_state.md R20), with its configuration and the model's own fields `env` and `obs`. -/
structure State where
  /-- The configuration (00_scope.md R6), which no step changes. -/
  cfg : Params
  /-- The command in progress, none while the sequencer is IDLE (R23). -/
  cur : Option Job
  arg0 : Word
  arg1 : Word
  result : Word
  err : ErrReg
  irqEn : BitVec 5
  irqPend : BitVec 5
  flags : StatusFlags
  counters : Counters
  stream : Stream
  frame : Option Frame
  hdr : HdrRegs
  vbr : VbrRegs
  dec : Decoder
  sink : Sink
  clips : ClipStore
  voices : List Voice
  /-- STOPPED_MASK0 to STOPPED_MASK7: bit v is voice v (R58). -/
  stopped : BitVec 256
  ring : Ring
  mixer : Mixer
  line : Line
  env : Env
  obs : Obs
  deriving DecidableEq, Repr

/-- ERR with no error. -/
def ErrReg.clear : ErrReg := ⟨.none, 0, 0, false⟩

/-- An invalid descriptor, every field 0 (R57). -/
def ClipDesc.invalid : ClipDesc := ⟨false, 0, 0, 0, 0⟩

/-- A voice slot as reset leaves it (R56). -/
def Voice.free : Voice := ⟨.stopped, false, false, false, false, 0, 0, 0, 0, 0, 0, 0⟩

/-- The synchroniser as RESET_STREAM and reset leave it (R24). -/
def Stream.start : Stream := ⟨[], false, 0, .initial, 0, .unknown, 0⟩

/-- The header registers as RESET_STREAM and reset leave them. -/
def HdrRegs.zero : HdrRegs := ⟨0, 0, 0, 0, 0, 0, 0, 0, 0, 0, 0, 0⟩

/-- The VBR registers with no side header (R47, R48). -/
def VbrRegs.absent : VbrRegs := ⟨0, 0xFFFFFFFF, 0xFFFFFFFF, 0xFFFFFFFF, List.replicate 100 0⟩

/-- The configuration of the reset state (log 5). -/
def resetParams : Params :=
  { clipMemSamples := 1048576, mixBlock := 512, lineCap := 4096, inCap := 4096,
    maxResync := 65536, ringCap := 4608, linePresent := true }

/-- The state right after reset (R361).
The configuration is log 5, `dec.dch`, `dec.drate`, `dec.delay` and `dec.l3` are log 7, `env` is logs 1, 2 and 11, `obs` log 12. -/
def State.reset : State where
  cfg := resetParams
  cur := none
  arg0 := 0
  arg1 := 0
  result := 0
  err := .clear
  irqEn := 0
  irqPend := 0
  flags := ⟨false, false, false, false⟩
  counters := ⟨0, 0, 0, 0⟩
  stream := .start
  frame := none
  hdr := .zero
  vbr := .absent
  dec := ⟨false, 0, 0, [], [], []⟩
  sink := ⟨[], 0, 0⟩
  clips := ⟨0, 0, 0, List.replicate 256 .invalid, []⟩
  voices := List.replicate 256 .free
  stopped := 0
  ring := ⟨false, false, 0, 0, []⟩
  mixer := ⟨false, [], false⟩
  line := ⟨false, []⟩
  env := ⟨[], 0, .ok, false, 0⟩
  obs := ⟨0, [], []⟩

end Sys2Proof.Machine
end

