-- ==== Sys2Proof/Machine/Ops.lean ====
section
/-! DEFINITION. The shared operations of the block: clip memory, saturation, big-endian fields, recording and raising an error, ending a command, removing a voice, writing to the line. -/

namespace Sys2Proof.Machine

/-! ### Clip memory (20_memory.md R72) -/

/-- The canonical form: indexes strictly rising.
A listed cell has been written and an unlisted one has not, so no listed cell equals an unlisted one. -/
def Memory.wf : Memory → Bool
  | [] => true
  | [_] => true
  | c :: d :: m => decide (c.1 < d.1) && Memory.wf (d :: m)

/-- The last value written to a cell, none if it was never written since reset. -/
def Memory.read? : Memory → Nat → Option Sample
  | [], _ => none
  | c :: m, a => if c.1 = a then some c.2 else Memory.read? m a

/-- ClipRead (00_scope.md R8): a cell never written holds the free value of its index (70_reset_and_hazards.md R363; log 6). -/
def Memory.read (m : Memory) (a : Nat) : Sample := (Memory.read? m a).getD (Config.freeCell a)

/-- The listed form of the samples `xs` at indexes `base`, `base + 1`, ... -/
def Memory.block (base : Nat) : List Sample → Memory
  | [] => []
  | x :: xs => (base, x) :: Memory.block (base + 1) xs

/-- ClipWrite of `xs[i]` to `base + i` for every i. -/
def Memory.writeBlock (m : Memory) (base : Nat) (xs : List Sample) : Memory :=
  match m with
  | [] => Memory.block base xs
  | c :: m' =>
    if c.1 < base then c :: Memory.writeBlock m' base xs
    else Memory.block base xs ++ (c :: m').dropWhile (fun d => decide (d.1 < base + xs.length))

/-- ClipWrite of one sample (00_scope.md R8). -/
def Memory.write (m : Memory) (a : Nat) (x : Sample) : Memory := Memory.writeBlock m a [x]

/-! ### Saturation and field assembly (00_scope.md R8) -/

/-- clamp16. -/
def clamp16 (x : Int) : Int := min 32767 (max (-32768) x)

/-- clampv. -/
def clampv (x : Int) : Nat := (min 32768 (max 0 x)).toNat

/-- The s16 sample of an integer in its range. -/
def toSample (x : Int) : Sample := BitVec.ofInt 16 x

/-- The big-endian value of four bytes: `{b0, b1, b2, b3}`. -/
def beWord (b0 b1 b2 b3 : Byte) : Word := ((b0 ++ b1) ++ b2) ++ b3

/-- BE32 of a byte list at an index; bytes past the end count as 0 (every rule reads inside). -/
def be32 (p : List Byte) (i : Nat) : Word :=
  beWord (p.getD i 0) (p.getD (i + 1) 0) (p.getD (i + 2) 0) (p.getD (i + 3) 0)

/-! ### Interrupt bits (60_exceptions.md R330) -/

/-- CMD_DONE. -/
def irqCmdDone : BitVec 5 := 0b00001#5
/-- ERROR. -/
def irqError : BitVec 5 := 0b00010#5
/-- VOICE_STOPPED. -/
def irqVoiceStopped : BitVec 5 := 0b00100#5
/-- CRC. -/
def irqCrc : BitVec 5 := 0b01000#5
/-- FRAME. -/
def irqFrame : BitVec 5 := 0b10000#5

/-- An event sets its pending bit, enabled or not (R330). -/
def State.setIrq (bit : BitVec 5) (s : State) : State := { s with irqPend := s.irqPend ||| bit }

/-! ### Errors and the end of a command (60_exceptions.md R322, R325) -/

/-- ERR.OP of an error that no command raised (10_state.md R36). -/
def noOp : Byte := 0xFF

/-- What `record` does to ERR: the first error is kept, a further one sets OVF (R322). -/
def ErrReg.record (e : ErrCode) (op idx : Byte) (r : ErrReg) : ErrReg :=
  if r.code = .none then ⟨e, op, idx, false⟩ else { r with ovf := true }

/-- `record E(op, idx)`, the block's one way of taking an error (R322, R331). -/
def State.record (e : ErrCode) (op idx : Byte) (s : State) : State :=
  { s with err := s.err.record e op idx, irqPend := s.irqPend ||| irqError }

/-- `raise E(op, idx)`: record it and end the command, RESULT unchanged (R322). -/
def State.raise (e : ErrCode) (op idx : Byte) (s : State) : State :=
  { s.record e op idx with cur := none, irqPend := s.irqPend ||| irqError ||| irqCmdDone }

/-- `complete(r)`: write RESULT and end the command (R325). -/
def State.complete (r : Nat) (s : State) : State :=
  { s with result := BitVec.ofNat 32 r, cur := none, irqPend := s.irqPend ||| irqCmdDone }

/-- The host's return from an error: any write to ERR clears it (R332; 43_host_access.md R292). -/
def State.clearErr (s : State) : State := { s with err := .clear }

/-- The host's acknowledge of interrupts: bits written 1 are cleared (R332; 10_state.md R38). -/
def State.ackIrq (v : Word) (s : State) : State :=
  { s with irqPend := s.irqPend &&& ~~~ (v.extractLsb' 0 5) }

/-- The host's acknowledge of stopped voices in STOPPED_MASKk (10_state.md R58). -/
def State.ackStopped (k : Nat) (v : Word) (s : State) : State :=
  { s with stopped := s.stopped &&& ~~~ (v.setWidth 256 <<< (32 * k)) }

/-! ### The command in progress (60_exceptions.md R325) -/

/-- The command `i` as the CMD write starts it: operands latched, nothing done yet (R325, 30_encoding.md R102). -/
def State.latch (i : Instr) (s : State) : State :=
  { s with cur := some { instr := i, arg0 := s.arg0, arg1 := s.arg1, progress := .initial } }

/-- The command in progress goes on with a new progress record. -/
def State.goOn (j : Job) (p : Progress) (s : State) : State :=
  { s with cur := some { j with progress := p } }

/-- One step of a command (log 3).
From an idle sequencer it is the command's part of the CMD write: the operands are latched and the rule's start part runs (R325).
While a command is in progress it is one sequencer step of it. -/
def command (i : Instr) (start : State → State) (body : Job → State → State) (s : State) :
    Host.Outcome State Fault Refusal :=
  match s.cur with
  | none => .next (start (s.latch i))
  | some j => .next (body j s)

/-- The start part of a command whose rule has none. -/
def noStart (s : State) : State := s

/-! ### Voice slots (10_state.md R56) -/

/-- In use: pending or active. -/
def Voice.inUse (x : Voice) : Bool := x.pending || x.active

/-- Slot v; a number past the last slot reads as a free slot (no rule reads one). -/
def State.voiceAt (s : State) (v : Nat) : Voice := s.voices.getD v .free

/-- Slot v replaced; a number past the last slot changes nothing (no rule writes one). -/
def State.setVoice (v : Nat) (x : Voice) (s : State) : State := { s with voices := s.voices.set v x }

/-- The lowest-numbered free slot (42_mixer.md R232). -/
def State.freeSlot (s : State) : Option Nat := s.voices.findIdx? (fun x => !x.inUse)

/-- The slots that satisfy `p`, in increasing number. -/
def State.slotsWhere (p : Voice → Bool) (s : State) : List Nat :=
  (List.range s.voices.length).filter (fun v => p (s.voiceAt v))

/-- The bit of voice v in STOPPED_MASK (10_state.md R58). -/
def stoppedBit (v : Nat) : BitVec 256 := 1#256 <<< v

/-- The slot as Remove leaves it: stopped and free, its other fields kept (42_mixer.md R256). -/
def Voice.removed (x : Voice) : Voice := { x with state := .stopped, pending := false, active := false }

/-- The ring unbound (42_mixer.md R256, R273): as after reset.
R256 and R273 do not name rvoice and rch; that both return to 0 is DEDUCED from the last sentence of 70_reset_and_hazards.md R364 with R361 (log 21). -/
def Ring.unbind (r : Ring) : Ring := { r with bound := false, closed := false, voice := 0, ch := 0, buf := [] }

/-- Remove(v) (42_mixer.md R256). -/
def State.removeVoice (s : State) (v : Nat) : State :=
  { s with
    voices := s.voices.set v (s.voiceAt v).removed
    ring := if (s.voiceAt v).stream then s.ring.unbind else s.ring
    stopped := s.stopped ||| stoppedBit v
    irqPend := s.irqPend ||| irqVoiceStopped }

/-- Remove of every slot of a list, in its order. -/
def State.removeVoices (vs : List Nat) (s : State) : State := vs.foldl State.removeVoice s

/-! ### The output line (42_mixer.md R262, 20_memory.md R80) -/

/-- The four bytes of a frame on the line: left low, left high, right low, right high (R80). -/
def StereoFrame.bytes (f : StereoFrame) : List Byte :=
  [f.l.extractLsb' 0 8, f.l.extractLsb' 8 8, f.r.extractLsb' 0 8, f.r.extractLsb' 8 8]

/-- A frame with the same sample on both channels. -/
def StereoFrame.dup (x : Sample) : StereoFrame := ⟨x, x⟩

/-- The oracle lets this turn's line write succeed (R263). -/
def State.lineOk (s : State) : Bool := decide (s.env.lineDraw = .ok)

/-- LineWrite(frames): one atomic append, or nothing when the oracle says FAIL (R262).
Either way the write and its outcome are observed (70_reset_and_hazards.md R392). -/
def State.lineWrite (fs : List StereoFrame) (s : State) : State :=
  let s1 := { s with obs := { s.obs with lineWrites := s.obs.lineWrites ++ [⟨fs, s.env.lineDraw⟩] } }
  if s.lineOk then
    { s1 with
      line := { s1.line with buf := s1.line.buf ++ fs }
      counters := { s1.counters with samplesOut := s1.counters.samplesOut + BitVec.ofNat 32 fs.length } }
  else s1

/-- Free places in the line buffer, in frames. -/
def State.lineRoom (s : State) : Nat := s.cfg.lineCap - s.line.buf.length

end Sys2Proof.Machine
end

