-- ==== Sys2Proof/Machine/Operands.lean ====
section
/-! DEFINITION. The operand forms of the commands (30_encoding.md R102, R103, R106) and the checks of slot numbers. -/

namespace Sys2Proof.Machine

/-- N_VOICES: the number of voice slots (00_scope.md R6). -/
def State.nVoices (s : State) : Nat := s.voices.length

/-- N_CLIPS: the number of clip descriptors (00_scope.md R6). -/
def State.nClips (s : State) : Nat := s.clips.descs.length

/-- The configuration lies in the ranges of R6: those of `Params.legal`, with N_VOICES and N_CLIPS 1 to 256. -/
def State.configLegal (s : State) : Bool :=
  s.cfg.legal && decide (1 ≤ s.nVoices) && decide (s.nVoices ≤ 256) && decide (1 ≤ s.nClips) && decide (s.nClips ≤ 256)

/-- A slot number as ERR.IDX shows it (10_state.md R36). -/
def idx8 (n : Nat) : Byte := BitVec.ofNat 8 n

/-- A volume operand: ARG0 as a signed Q1.15 value, clamped to [0, 32768] (R102, R103). -/
def volumeOperand (arg0 : Word) : Nat := clampv arg0.toInt

/-- A length operand: ARG0 as an unsigned count of sample frames (R102). -/
def lengthOperand (arg0 : Word) : Nat := arg0.toNat

/-- The RATE field of a format operand, bits 19:0 (R102). -/
def formatRate (arg1 : Word) : Nat := (arg1.extractLsb' 0 20).toNat

/-- The CH field of a format operand, bits 21:20 (R102). -/
def formatCh (arg1 : Word) : Nat := (arg1.extractLsb' 20 2).toNat

/-- A format operand that CLIP_DEFINE accepts: bits 31:22 zero, one or two channels, a rate (R106, 43_host_access.md R300). -/
def formatOk (arg1 : Word) : Bool :=
  decide (arg1.extractLsb' 22 10 = 0#10) && (decide (formatCh arg1 = 1) || decide (formatCh arg1 = 2)) &&
  decide (formatRate arg1 ≠ 0)

/-- Descriptor c; a number past the last one reads as invalid (every rule checks the number first). -/
def State.descAt (s : State) (c : Nat) : ClipDesc := s.clips.descs.getD c .invalid

/-- A clip operand that may sound: the checks of PLAY_VOICE and BYPASS_WRITE in their order (42_mixer.md R232, R266).
The first one that fails names its error. -/
def State.clipError (s : State) (c : Nat) : Option ErrCode :=
  if s.nClips ≤ c then some .badIndex
  else if !(s.descAt c).valid then some .unknownSoundKey
  else if (s.descAt c).rate ≠ Config.lineRate then some .formatMismatch
  else none

/-- A voice command on slot v (42_mixer.md R233): BAD_INDEX past the last slot, RESULT 1 and nothing else on a free slot, and otherwise `act`. -/
def onVoice (op : Byte) (v : Nat) (act : State → State) (s : State) : State :=
  if s.nVoices ≤ v then s.raise .badIndex op (idx8 v)
  else if !(s.voiceAt v).inUse then s.complete 1
  else act s

end Sys2Proof.Machine
end

