-- ==== Sys2Proof/Machine/Header.lean ====
section
/-! DEFINITION. The MPEG frame header: its fields, tables and frame-size arithmetic (30_encoding.md R110 to R118; 40_stream.md R152 to R168).
The bit positions and tables are the spec's own passages from general knowledge (log 14). -/

namespace Sys2Proof.Machine

/-! ### Fields of the header word (30_encoding.md R110) -/

/-- The sync bits 31:21. -/
def hSync (h : Word) : BitVec 11 := h.extractLsb' 21 11
/-- The version code, bits 20:19. -/
def hVersion (h : Word) : BitVec 2 := h.extractLsb' 19 2
/-- The layer code, bits 18:17. -/
def hLayer (h : Word) : BitVec 2 := h.extractLsb' 17 2
/-- The bitrate index, bits 15:12. -/
def hBitrate (h : Word) : BitVec 4 := h.extractLsb' 12 4
/-- The sample-rate index, bits 11:10. -/
def hSrate (h : Word) : BitVec 2 := h.extractLsb' 10 2

/-- HeaderOK(h), the validity filter (40_stream.md R152). -/
def headerOk (h : Word) : Bool :=
  decide (hSync h = 0x7FF#11) && decide (hVersion h ≠ 0b01#2) && decide (hLayer h ≠ 0b00#2) &&
  decide (hBitrate h ≠ 0#4) && decide (hBitrate h ≠ 15#4) && decide (hSrate h ≠ 3#2)

/-- The mask of the frozen fields: sync, version, layer and sample-rate index (40_stream.md R154). -/
def frozenMask : Word := 0xFFFE0C00#32

/-- SyncMark(h, mode) with the frozen word (40_stream.md R153); FAILED accepts nothing. -/
def syncMark (h : Word) (mode : SyncMode) (word : Word) : Bool :=
  match mode with
  | .initial => headerOk h
  | .strict => headerOk h && decide (h &&& frozenMask = word)
  | .failed => false

/-- VERSION of a version code; the reserved code 01 never passes HeaderOK (30_encoding.md R111; log 15). -/
def versionOf (code : BitVec 2) : MpegVersion :=
  if code = 0b11#2 then .v1 else if code = 0b10#2 then .v2 else .v25

/-- LAYER of a layer code; the reserved code 00 never passes HeaderOK (30_encoding.md R112; log 15). -/
def layerOf (code : BitVec 2) : Layer :=
  if code = 0b11#2 then .I else if code = 0b10#2 then .II else .III

/-- MODE of a channel mode code (30_encoding.md R114). -/
def modeOf (code : BitVec 2) : ChannelMode :=
  if code = 0b00#2 then .stereo else if code = 0b01#2 then .jointStereo
  else if code = 0b10#2 then .dualChannel else .mono

/-- Fields(h) (40_stream.md R159). -/
def fieldsOf (h : Word) : HeaderFields where
  version := versionOf (hVersion h)
  layer := layerOf (hLayer h)
  hasCrc := !h.getLsbD 16
  bitrateIndex := (hBitrate h).toNat
  srateIndex := (hSrate h).toNat
  padded := h.getLsbD 9
  priv := h.getLsbD 8
  mode := modeOf (h.extractLsb' 6 2)
  modeExt := (h.extractLsb' 4 2).toNat
  copyright := h.getLsbD 3
  original := h.getLsbD 2
  emphasis := (h.extractLsb' 0 2).toNat

/-- The fields that decoding may depend on: private, copyright, original and emphasis have no effect on it (30_encoding.md R116), and the mode extension is used in joint stereo only (R115). -/
def codingOf (f : HeaderFields) : HeaderFields :=
  { f with
    priv := false, copyright := false, original := false, emphasis := 0
    modeExt := if f.mode = .jointStereo then f.modeExt else 0 }

/-- The fields of the current frame (10_state.md R25). -/
def Frame.fields (f : Frame) : HeaderFields := fieldsOf f.hdr

/-- CHANNELS (40_stream.md R159). -/
def channelsOf (f : HeaderFields) : Nat := if f.mode = .mono then 1 else 2

/-- The code of a version in HDR_FIELDS (10_state.md R41). -/
def versionCode : MpegVersion → Nat
  | .v1 => 0 | .v2 => 1 | .v25 => 2

/-- The number of a layer. -/
def layerNumber : Layer → Nat
  | .I => 1 | .II => 2 | .III => 3

/-- The code of a channel mode (30_encoding.md R114). -/
def modeCode : ChannelMode → Nat
  | .stereo => 0 | .jointStereo => 1 | .dualChannel => 2 | .mono => 3

/-! ### Tables and sizes -/

/-- The bitrate table in kbps, for indexes 1 to 14 (40_stream.md R163). -/
def kbpsTable : MpegVersion → Layer → List Nat
  | .v1, .I => [32, 64, 96, 128, 160, 192, 224, 256, 288, 320, 352, 384, 416, 448]
  | .v1, .II => [32, 48, 56, 64, 80, 96, 112, 128, 160, 192, 224, 256, 320, 384]
  | .v1, .III => [32, 40, 48, 56, 64, 80, 96, 112, 128, 160, 192, 224, 256, 320]
  | .v2, .I => [32, 48, 56, 64, 80, 96, 112, 128, 144, 160, 176, 192, 224, 256]
  | .v25, .I => [32, 48, 56, 64, 80, 96, 112, 128, 144, 160, 176, 192, 224, 256]
  | .v2, .II => [8, 16, 24, 32, 40, 48, 56, 64, 80, 96, 112, 128, 144, 160]
  | .v25, .II => [8, 16, 24, 32, 40, 48, 56, 64, 80, 96, 112, 128, 144, 160]
  | .v2, .III => [8, 16, 24, 32, 40, 48, 56, 64, 80, 96, 112, 128, 144, 160]
  | .v25, .III => [8, 16, 24, 32, 40, 48, 56, 64, 80, 96, 112, 128, 144, 160]

/-- HDR_BITRATE in bits per second (40_stream.md R163). -/
def bitrateOf (f : HeaderFields) : Nat := 1000 * (kbpsTable f.version f.layer).getD (f.bitrateIndex - 1) 0

/-- The sample-rate table in Hz, for indexes 0 to 2 (40_stream.md R164). -/
def srateTable : MpegVersion → List Nat
  | .v1 => [44100, 48000, 32000]
  | .v2 => [22050, 24000, 16000]
  | .v25 => [11025, 12000, 8000]

/-- HDR_SAMPLE_RATE in Hz (40_stream.md R164). -/
def sampleRateOf (f : HeaderFields) : Nat := (srateTable f.version).getD f.srateIndex 0

/-- FrameLen, the whole frame with its header (40_stream.md R160; 90_conflicts.md C2, C10). -/
def frameLenOf (f : HeaderFields) : Nat :=
  let br := bitrateOf f
  let sr := sampleRateOf f
  let pad := if f.padded then 1 else 0
  match f.layer with
  | .I => ((12 * br) / sr + pad) * 4
  | .II => if f.version = .v1 then (144 * br) / sr + pad else ((144 * br) / sr) / 2 + pad
  | .III => if f.version = .v1 then (144 * br) / sr + pad else ((144 * br) / sr) / 2 + pad

/-- FrameLen(h). -/
def frameLen (h : Word) : Nat := frameLenOf (fieldsOf h)

/-- sideInfoSize of Layer III (40_stream.md R162); also the Xing offset (R172). -/
def sideInfoSize (f : HeaderFields) : Nat :=
  match f.version, channelsOf f with
  | .v1, 1 => 17
  | .v1, _ => 32
  | .v2, 1 => 9
  | .v2, _ => 17
  | .v25, 1 => 9
  | .v25, _ => 17

/-- crcSize: 2 × HAS_CRC (40_stream.md R162). -/
def crcSize (f : HeaderFields) : Nat := if f.hasCrc then 2 else 0

/-- slotCount, 0 for Layers I and II (40_stream.md R162). -/
def slotCountOf (f : HeaderFields) : Nat :=
  if f.layer = .III then frameLenOf f - sideInfoSize f - crcSize f - 4 else 0

/-- The per-channel bitrate class of R165. -/
def bitrateClass (f : HeaderFields) : Int :=
  if f.mode ≠ .mono then (if f.bitrateIndex = 4 then 1 else (f.bitrateIndex : Int) - 4) else f.bitrateIndex

/-- SUBBANDS (40_stream.md R165). -/
def subbandsOf (f : HeaderFields) : Nat :=
  if f.layer = .I then 32
  else
    let cb := bitrateClass f
    if cb = 1 ∨ cb = 2 then (if f.srateIndex = 2 then 12 else 8)
    else if f.srateIndex = 1 ∨ (3 ≤ cb ∧ cb ≤ 5) then 27
    else 30

/-- IS_BOUND (40_stream.md R166). -/
def isBoundOf (f : HeaderFields) : Nat :=
  if f.mode = .jointStereo then min (subbandsOf f) (4 * f.modeExt + 4) else 0

/-- HDR_SAMPLES_PER_FRAME (40_stream.md R167). -/
def samplesPerFrameOf (f : HeaderFields) : Nat :=
  match f.layer with
  | .I => 384
  | .II => 1152
  | .III => if f.version = .v1 then 1152 else 576

/-- The checksum carried by a frame, 0 when HAS_CRC = 0 (40_stream.md R168). -/
def storedCrc (f : HeaderFields) (payload : List Byte) : BitVec 16 :=
  if f.hasCrc then payload.getD 0 0 ++ payload.getD 1 0 else 0#16

/-! ### The header registers -/

/-- A flag as a bit of a packed register. -/
def bit (b : Bool) : Nat := if b then 1 else 0

/-- HDR_FIELDS (10_state.md R41). -/
def packFields (f : HeaderFields) : Word :=
  BitVec.ofNat 32
    (versionCode f.version + 2 ^ 2 * layerNumber f.layer + 2 ^ 4 * bit f.hasCrc + 2 ^ 5 * bit f.padded +
     2 ^ 6 * f.bitrateIndex + 2 ^ 10 * f.srateIndex + 2 ^ 12 * modeCode f.mode + 2 ^ 14 * f.modeExt +
     2 ^ 16 * bit f.copyright + 2 ^ 17 * bit f.original + 2 ^ 18 * f.emphasis + 2 ^ 20 * bit f.priv +
     2 ^ 21 * channelsOf f)

/-- WriteHeaderRegisters(h, L, p, payload) (40_stream.md R169). -/
def headerRegisters (h : Word) (p : Nat) (payload : List Byte) : HdrRegs :=
  let f := fieldsOf h
  { raw := h
    fields := packFields f
    bitrate := BitVec.ofNat 32 (bitrateOf f)
    sampleRate := BitVec.ofNat 32 (sampleRateOf f)
    frameSize := BitVec.ofNat 32 (frameLenOf f - 4)
    slotCount := BitVec.ofNat 32 (slotCountOf f)
    subbands := BitVec.ofNat 32 (2 ^ 8 * isBoundOf f + subbandsOf f)
    framePos := BitVec.ofNat 32 p
    crcStored := storedCrc f payload
    crcComputed := 0
    samplesPerFrame := BitVec.ofNat 32 (samplesPerFrameOf f)
    frameLen := BitVec.ofNat 32 (frameLenOf f) }

end Sys2Proof.Machine
end

