-- ==== Sys2Proof/Machine/Stream.lean ====
section
/-! DEFINITION. The synchroniser, the VBR side header, and the commands RESET_STREAM and READ_FRAME (40_stream.md). -/

namespace Sys2Proof.Machine

/-! ### The VBR side header (40_stream.md R170 to R175) -/

/-- What ParseVbr finds: no side header, a corrupt one, or the registers it sets. -/
inductive VbrResult where
  | absent
  | corrupt
  | found (r : VbrRegs)
  deriving DecidableEq, Repr

/-- The four ASCII bytes "Xing" (R172). -/
def xingTag : List Byte := [0x58, 0x69, 0x6E, 0x67]

/-- The four ASCII bytes "VBRI" (R173). -/
def vbriTag : List Byte := [0x56, 0x42, 0x52, 0x49]

/-- The n bytes of P from index i. -/
def slice (p : List Byte) (i n : Nat) : List Byte := (p.drop i).take n

/-- A present VBR field of `n` bytes at offset `o`: its bytes' value by `val` and the offset after it, none when `need` fails (R174).
An absent field has the value `dflt` and takes no bytes. -/
def vbrField {α : Type} (p : List Byte) (present : Bool) (n : Nat) (val : Nat → α) (dflt : α) (o : Nat) :
    Option (α × Nat) :=
  if present then (if p.length < o + n then none else some (val o, o + n)) else some (dflt, o)

/-- ParseXing(P, x) (R172). -/
def parseXing (p : List Byte) (x : Nat) : VbrResult :=
  if p.length < x + 8 then .corrupt
  else
    let fl := be32 p (x + 4)
    match vbrField p (fl.getLsbD 0) 4 (be32 p) 0xFFFFFFFF#32 (x + 8) with
    | none => .corrupt
    | some (frames, o1) =>
      match vbrField p (fl.getLsbD 1) 4 (be32 p) 0xFFFFFFFF#32 o1 with
      | none => .corrupt
      | some (bytes, o2) =>
        match vbrField p (fl.getLsbD 2) 100 (fun o => slice p o 100) (List.replicate 100 0) o2 with
        | none => .corrupt
        | some (toc, o3) =>
          match vbrField p (fl.getLsbD 3) 4 (be32 p) 0xFFFFFFFF#32 o3 with
          | none => .corrupt
          | some (scale, _) =>
            .found
              { info := BitVec.ofNat 32 (1 + 2 ^ 4 * bit (fl.getLsbD 0) + 2 ^ 5 * bit (fl.getLsbD 1) +
                  2 ^ 6 * bit (fl.getLsbD 2) + 2 ^ 7 * bit (fl.getLsbD 3))
                frames := frames, bytes := bytes, scale := scale, toc := toc }

/-- ParseVbri(P, t) (R173). -/
def parseVbri (p : List Byte) (t : Nat) : VbrResult :=
  if p.length < t + 18 then .corrupt
  else
    .found
      { info := BitVec.ofNat 32 (2 + 2 ^ 4 + 2 ^ 5)
        frames := be32 p (t + 14), bytes := be32 p (t + 10), scale := 0xFFFFFFFF
        toc := List.replicate 100 0 }

/-- ParseVbr(P, F) (R170): Xing first, then VBRI. -/
def parseVbr (p : List Byte) (f : HeaderFields) : VbrResult :=
  let x := sideInfoSize f
  if x + 4 ≤ p.length ∧ slice p x 4 = xingTag then parseXing p x
  else if 36 ≤ p.length ∧ slice p 32 4 = vbriTag then parseVbri p 32
  else .absent

/-- The effect of ParseVbr on the state, for the command with opcode `op` (R170, R174). -/
def State.applyVbr (op : Byte) (r : VbrResult) (s : State) : State :=
  match r with
  | .absent => s
  | .corrupt => { s.record .corruptVbrHeader op 0 with flags := { s.flags with vbrCorrupt := true } }
  | .found v => { s with vbr := v }

/-! ### The synchroniser step (40_stream.md R150 to R157) -/

/-- What one call of SyncStep answers (R150). -/
inductive SyncOutcome where
  | hold
  | cont
  | frame
  | ended
  | malformed
  | wav
  deriving DecidableEq, Repr

/-- Accept(h, L) at the cursor (R156), for the command with opcode `op`. -/
def State.accept (op : Byte) (h : Word) (s : State) : State :=
  let len := frameLen h
  let payload := slice s.stream.input 4 (len - 4)
  let first := decide (s.stream.mode = .initial)
  let s1 :=
    { s with
      frame := some { hdr := h, payload := payload, pending := true }
      hdr := headerRegisters h s.stream.pos payload
      stream := { s.stream with
        input := s.stream.input.drop len
        pos := s.stream.pos + len
        mode := if first then .strict else s.stream.mode
        word := if first then h &&& frozenMask else s.stream.word
        nframes := s.stream.nframes + 1 }
      flags := { s.flags with frameValid := true }
      irqPend := s.irqPend ||| irqFrame }
  if first then s1.applyVbr op (parseVbr payload (fieldsOf h)) else s1

/-- The rejection of a candidate (R157): one byte further, or the end of the scan window.
Answers the bytes skipped by this command. -/
def State.reject (skipped : Nat) (s : State) : SyncOutcome × Nat × State :=
  if skipped = s.cfg.maxResync then
    (.malformed, skipped, { s with stream := { s.stream with mode := .failed } })
  else
    (.cont, skipped + 1,
      { s with
        stream := { s.stream with input := s.stream.input.drop 1, pos := s.stream.pos + 1 }
        counters := { s.counters with resyncBytes := s.counters.resyncBytes + 1 } })

/-- What the synchroniser decides of the candidate at the cursor (R150, R155). -/
inductive Candidate where
  | wait
  | ended
  | accepted (h : Word)
  | rejected
  deriving DecidableEq, Repr

/-- The candidate at the cursor of a stream that is neither FAILED nor WAV (R150). -/
def candidate (st : Stream) : Candidate :=
  let n := st.input.length
  if n < 4 then (if st.eos then .ended else .wait)
  else
    let h := be32 st.input 0
    if syncMark h st.mode st.word then
      let len := frameLen h
      if n < len + 4 ∧ !st.eos then .wait
      else if n < len then .ended
      else if n < len + 4 ∨ syncMark (be32 st.input len) st.mode st.word then .accepted h
      else .rejected
    else .rejected

/-- The first four bytes "RIFF", the WAV signature (R151). -/
def riffTag : List Byte := [0x52, 0x49, 0x46, 0x46]

/-- Scanning, once the stream is known to be MPEG (R150). -/
def State.scan (op : Byte) (skipped : Nat) (s : State) : SyncOutcome × Nat × State :=
  match candidate s.stream with
  | .wait => (.hold, skipped, s)
  | .ended => (.ended, skipped, s)
  | .accepted h => (.frame, skipped, s.accept op h)
  | .rejected => s.reject skipped

/-- The stream found to be of a kind (R151). -/
def State.setKind (k : StreamKind) (s : State) : State := { s with stream := { s.stream with kind := k } }

/-- SyncStep (R150), for the command with opcode `op` that has skipped `skipped` bytes. -/
def State.syncStep (op : Byte) (skipped : Nat) (s : State) : SyncOutcome × Nat × State :=
  if s.stream.mode = .failed then (.malformed, skipped, s)
  else match s.stream.kind with
    | .wav => (.wav, skipped, s)
    | .mpeg => s.scan op skipped
    | .unknown =>
      if s.stream.input.length < 4 then
        (if s.stream.eos then (.ended, skipped, s.setKind .mpeg) else (.hold, skipped, s))
      else if s.stream.input.take 4 = riffTag then (.wav, skipped, s.setKind .wav)
      else (s.setKind .mpeg).scan op skipped

/-! ### RESET_STREAM (40_stream.md R140) -/

/-- The effect of RESET_STREAM (R140). -/
def State.resetStream (s : State) : State :=
  { s with
    stream := .start
    frame := none
    hdr := .zero
    vbr := .absent
    flags := ⟨false, false, false, false⟩
    dec := { s.dec with init := false, res := [] }
    sink := ⟨[], 0, 0⟩
    counters := { s.counters with crcErrCount := 0, skipCount := 0, resyncBytes := 0 }
    ring := if s.ring.bound then { s.ring with closed := true, buf := [] } else s.ring }

/-- RESET_STREAM (R140). -/
def execResetStream (s : State) : Host.Outcome State Fault Refusal :=
  command .resetStream noStart (fun _ s => s.resetStream.complete 0) s

/-! ### READ_FRAME (40_stream.md R145, R146) -/

/-- The start part of a read: the frame valid bit and an undecoded frame go (R145). -/
def State.startRead (p : Progress) (s : State) : State :=
  { s with
    flags := { s.flags with frameValid := false }
    frame := none
    cur := s.cur.map (fun j => { j with progress := p }) }

/-- The stream's end, or its abandonment, closes a bound ring (42_mixer.md R272). -/
def State.closeRing (s : State) : State :=
  { s with ring := if s.ring.bound then { s.ring with closed := true } else s.ring }

/-- STATUS.EOS_SEEN. -/
def State.setEosSeen (b : Bool) (s : State) : State := { s with flags := { s.flags with eosSeen := b } }

/-- The bytes that READ_FRAME has skipped; a progress record of another command counts as none (log 16). -/
def Progress.skipped : Progress → Nat
  | .reading n => n
  | .initial => 0
  | .loading _ => 0
  | .draining => 0
  | .syncing => 0
  | .bypass _ _ => 0

/-- One sequencer step of READ_FRAME: SyncStep, then EndRead (R145, R146).
A hold has no effect at all (log 10). -/
def readFrameStep (j : Job) (s : State) : State :=
  let op := Instr.readFrame.opcode
  match s.syncStep op j.progress.skipped with
  | (.hold, _, _) => s
  | (.cont, n, s1) => s1.goOn j (.reading n)
  | (.frame, _, s1) => (s1.setEosSeen false).complete 0
  | (.ended, _, s1) => (s1.setEosSeen true).closeRing.complete 1
  | (.malformed, _, s1) => (((s1.setEosSeen false).closeRing).record .malformedStream op 0).complete 2
  | (.wav, _, s1) => (s1.setEosSeen false).complete 3

/-- READ_FRAME (R145). -/
def execReadFrame (s : State) : Host.Outcome State Fault Refusal :=
  command .readFrame (State.startRead (.reading 0)) readFrameStep s

end Sys2Proof.Machine
end

