-- ==== Sys2Proof/Machine/Decoder.lean ====
section
/-! DEFINITION. The frame bit reader, the CRC, the layer decoder interface, the reservoir, the synthesis filter bank, and the commands DECODE_FRAME and LOAD_CLIP (41_decoder.md). -/

namespace Sys2Proof.Machine

/-! ### The frame bit reader (41_decoder.md R195) -/

/-- A reader over a byte sequence: its bit cursor and its over-read flag (R195). -/
structure Reader where
  bytes : List Byte
  cursor : Nat
  overRead : Bool
  deriving DecidableEq, Repr

/-- A reader at the start of its bytes. -/
def Reader.start (bytes : List Byte) : Reader := ⟨bytes, 0, false⟩

/-- One bit, most significant of each byte first; past the end a 0 and the over-read flag (R195). -/
def Reader.nextBit (r : Reader) : Bool × Reader :=
  if r.cursor < 8 * r.bytes.length then
    ((r.bytes.getD (r.cursor / 8) 0).getLsbD (7 - r.cursor % 8), { r with cursor := r.cursor + 1 })
  else (false, { r with cursor := r.cursor + 1, overRead := true })

/-- The loop of GetBits from the value `v` (R195). -/
def Reader.loop : Nat → Word → Reader → Word × Reader
  | 0, v, r => (v, r)
  | n + 1, v, r => Reader.loop n ((v <<< 1) ||| (BitVec.ofBool r.nextBit.1).setWidth 32) r.nextBit.2

/-- GetBits(R, n) (R195). -/
def Reader.getBits (r : Reader) (n : Nat) : Word × Reader := Reader.loop n 0 r

/-- A layer decoder run on its two readers (R200): its result, and the readers where it left them. -/
def runDecoder : DecodeProg → Reader → Reader → Option DecodeOut × Reader × Reader
  | .done r, side, main => (r, side, main)
  | .getBits false n k, side, main =>
    runDecoder (k (side.getBits n.val).1) (side.getBits n.val).2 main
  | .getBits true n k, side, main =>
    runDecoder (k (main.getBits n.val).1) side (main.getBits n.val).2

/-! ### CRC (41_decoder.md R196 to R198) -/

/-- The bits of a byte, most significant first. -/
def byteBits (b : Byte) : List Bool := (List.range 8).map (fun i => b.getLsbD (7 - i))

/-- The bits of a byte sequence in order. -/
def bytesBits (bs : List Byte) : List Bool := bs.flatMap byteBits

/-- One bit fed to the CRC register (R196). -/
def crcBit (c : BitVec 16) (x : Bool) : BitVec 16 :=
  if xor (c.getLsbD 15) x then (c <<< 1) ^^^ 0x8005#16 else c <<< 1

/-- Crc16 (R196). -/
def crc16 (bits : List Bool) : BitVec 16 := bits.foldl crcBit 0xFFFF#16

/-- The layer data: the payload after the checksum, if there is one (R197). -/
def layerData (f : HeaderFields) (payload : List Byte) : List Byte := payload.drop (crcSize f)

/-- N, the number of protected bits of the layer data (R197); Layer II's is the decoder's own, of the fields it may see (30_encoding.md R116). -/
def protectedBits (f : HeaderFields) (data : List Byte) : Nat :=
  match f.layer with
  | .I =>
    if channelsOf f = 1 then 128
    else
      let b := if f.mode = .jointStereo then isBoundOf f else 32
      4 * (2 * b + (32 - b))
  | .II => Config.l2ProtectedBits (codingOf f) data
  | .III => 8 * sideInfoSize f

/-- The first n bits, missing ones 0 (R197). -/
def takeBits (n : Nat) (bits : List Bool) : List Bool :=
  bits.take n ++ List.replicate (n - bits.length) false

/-- The CRC the decoder computes over a frame (R197, R198). -/
def frameCrc (f : Frame) : BitVec 16 :=
  let data := layerData f.fields f.payload
  crc16 (bytesBits [f.hdr.extractLsb' 8 8, f.hdr.extractLsb' 0 8] ++
    takeBits (protectedBits f.fields data) (bytesBits data))

/-- CheckCrc(F) (R198): nothing when the frame carries no checksum. -/
def State.checkCrc (f : Frame) (s : State) : State :=
  if f.fields.hasCrc then
    let c := frameCrc f
    let s1 := { s with hdr := { s.hdr with crcComputed := c } }
    if c ≠ s.hdr.crcStored then
      { s1 with
        flags := { s1.flags with crcErr := true }
        counters := { s1.counters with crcErrCount := s1.counters.crcErrCount + 1 }
        irqPend := s1.irqPend ||| irqCrc }
    else s1
  else s

/-! ### The Layer III reservoir (41_decoder.md R202) -/

/-- The side information bytes of a Layer III frame. -/
def sideInfo (f : Frame) : List Byte := (layerData f.fields f.payload).take (sideInfoSize f.fields)

/-- The main-data bytes that a Layer III frame carries, `slots` of R202. -/
def slotBytes (f : Frame) : List Byte := (layerData f.fields f.payload).drop (sideInfoSize f.fields)

/-- main_data_begin: the first 9 bits of the side information for MPEG-1, else the first 8 (R202). -/
def mainDataBegin (f : Frame) : Nat :=
  ((Reader.start (sideInfo f)).getBits (if f.fields.version = .v1 then 9 else 8)).1.toNat

/-- The main data of a frame, none when it begins before the oldest byte held (R202). -/
def mainData (f : Frame) (res : List Byte) : Option (List Byte) :=
  if res.length < mainDataBegin f then none
  else some (res.drop (res.length - mainDataBegin f) ++ slotBytes f)

/-- RESERVOIR_CAP (R202). -/
def reservoirCap (f : HeaderFields) : Nat := if f.version = .v1 then 511 else 255

/-- AppendReservoir(F) (R202): the last RESERVOIR_CAP bytes. -/
def appendReservoir (f : Frame) (res : List Byte) : List Byte :=
  (res ++ slotBytes f).drop ((res ++ slotBytes f).length - reservoirCap f.fields)

/-! ### Synthesis (41_decoder.md R205) -/

/-- ToS16(y) (R205). -/
def toS16 (y : Num) : Sample := toSample (clamp16 (Config.synth.roundScaled y))

/-- The delay line of a channel after one time slot with the subband samples `x k` (R205). -/
def shiftDelay (v : List Num) (x : Nat → Num) : List Num :=
  (List.range 64).map (Config.synth.newValue x) ++ v.take 960

/-- U[n], taken from the delay line (R205). -/
def synthU (v : List Num) (n : Nat) : Num := v.getD (uIndex n) Config.synth.zero

/-- The output y of place j in a time slot of a channel, from its delay line after the shift (R205). -/
def slotOutput (v : List Num) (j : Nat) : Num :=
  Config.synth.sum ((List.range 16).map (fun i =>
    Config.synth.mul (synthU v (j + 32 * i)) (Config.dWindow (j + 32 * i))))

/-- The 32 samples of one time slot of a channel, from its delay line after the shift (R205). -/
def slotSamples (v : List Num) : List Sample := (List.range 32).map (fun j => toS16 (slotOutput v j))

/-- The samples of all channels of one slot, interleaved: sample 32·dch positions, channel innermost (R205, R207). -/
def interleave (chans : List (List Sample)) : List Sample :=
  (List.range 32).flatMap (fun j => chans.map (fun c => c.getD j 0))

/-- Synthesise from time slot t on, for `n` slots: the delay lines after it and the samples written (R205). -/
def synthesise (x : Nat → Nat → Nat → Num) : Nat → Nat → List (List Num) → List (List Num) × List Sample
  | 0, _, delay => (delay, [])
  | n + 1, t, delay =>
    let delay1 := delay.mapIdx (fun c v => shiftDelay v (x c t))
    let rest := synthesise x n (t + 1) delay1
    (rest.1, interleave (delay1.map slotSamples) ++ rest.2)

/-! ### DecodeCurrent (41_decoder.md R191, R192, R200) -/

/-- X as it enters the synthesis: for Layers I and II the subbands from SUBBANDS upward are 0 (R200). -/
def maskSubbands (f : HeaderFields) (x : Nat → Nat → Nat → Num) : Nat → Nat → Nat → Num :=
  fun c t k => if f.layer ≠ .III ∧ subbandsOf f ≤ k then Config.synth.zero else x c t k

/-- What the layer decoder of the frame returns (R200): none for DecodeError and for an over-read.
It sees the header through `codingOf` only (30_encoding.md R115, R116). -/
def decodeLayer (f : Frame) (dec : Decoder) : Option DecodeOut :=
  let run (p : DecodeProg) (side main : List Byte) : Option DecodeOut :=
    match runDecoder p (Reader.start side) (Reader.start main) with
    | (r, rs, rm) => if rs.overRead || rm.overRead then none else r
  match f.fields.layer with
  | .I => run (Config.decodeL1 (codingOf f.fields)) (layerData f.fields f.payload) []
  | .II => run (Config.decodeL2 (codingOf f.fields)) (layerData f.fields f.payload) []
  | .III =>
    match mainData f dec.res with
    | none => none
    | some md => run (Config.decodeL3 (codingOf f.fields) dec.l3) (sideInfo f) md

/-- Initialisation on the first frame of a stream (R191). -/
def initDecoder (f : Frame) (drate : Nat) (dec : Decoder) : Decoder :=
  if dec.init then dec
  else
    { dec with
      init := true
      dch := channelsOf f.fields
      drate := drate
      delay := List.replicate (channelsOf f.fields) (List.replicate 1024 Config.synth.zero)
      l3 := Config.l3Initial }

/-- The result of decoding a frame with an initialised decoder: the decoder after it, and the sink's samples unless the frame is skipped (R191, R193, R200).
`spf` is HDR_SAMPLES_PER_FRAME.
The reservoir takes the frame's slots whatever the result (R191). -/
def decodeWith (f : Frame) (spf : Nat) (dec : Decoder) : Decoder × Option (List Sample) :=
  let res1 := if f.fields.layer = .III then appendReservoir f dec.res else dec.res
  match (if channelsOf f.fields = dec.dch then decodeLayer f dec else none) with
  | none => ({ dec with res := res1 }, none)
  | some out =>
    let y := synthesise (maskSubbands f.fields out.x) (spf / 32) 0 dec.delay
    ({ dec with
        delay := y.1
        l3 := if f.fields.layer = .III then out.l3 else dec.l3
        res := res1 },
      some y.2)

/-- DecodeCurrent() on the frame f, for the command with opcode `op` (R191): the state after it, and whether the frame was decoded.
The frame is no longer pending. -/
def State.decodeCurrent (op : Byte) (f : Frame) (s : State) : State × Bool :=
  let s1 := s.checkCrc f
  let d := decodeWith f s.hdr.samplesPerFrame.toNat (initDecoder f s.hdr.sampleRate.toNat s.dec)
  let s2 := { s1 with frame := some { f with pending := false }, dec := d.1 }
  match d.2 with
  | some ys => ({ s2 with sink := ⟨ys, d.1.dch, 0⟩ }, true)
  | none =>
    (({ s2 with
        sink := ⟨[], d.1.dch, 0⟩
        counters := { s2.counters with skipCount := s2.counters.skipCount + 1 } }).record .decodeError op 0, false)

/-! ### DECODE_FRAME (41_decoder.md R190) -/

/-- The sample frames of the sink, by its channel count (R207). -/
def sinkFrames (ch : Nat) (xs : List Sample) : List RingFrame :=
  if ch = 1 then xs.map .mono else pairs xs
where
  /-- Interleaved samples two by two. -/
  pairs : List Sample → List RingFrame
    | l :: r :: rest => .stereo l r :: pairs rest
    | [_] => []
    | [] => []

/-- A ring frame of `rch` free samples; `n` is the number of frames the ring took before it (log 11). -/
def freeRingFrame (rch n : Nat) : RingFrame :=
  if rch = 1 then .mono (Config.freeRingSample (2 * n))
  else .stereo (Config.freeRingSample (2 * n)) (Config.freeRingSample (2 * n + 1))

/-- What the ring takes of a decoded frame: its sample frames, each of `rch` samples (R210, 10_state.md R27).
They are the decoded frame's own where its channel count is rch, and free values where it is not, since no rule says what the ring then holds (log 11). -/
def State.ringFrames (s : State) : List RingFrame :=
  let fs := sinkFrames s.sink.ch s.sink.samples
  if s.sink.ch = s.ring.ch then fs
  else (List.range fs.length).map (fun i => freeRingFrame s.ring.ch (s.env.ringTaken + i))

/-- The ring append of a decoded frame, when a ring is bound and open (R210). -/
def State.ringAppend (s : State) : State :=
  if s.ring.bound && !s.ring.closed then
    { s with
      ring := { s.ring with buf := s.ring.buf ++ s.ringFrames }
      env := { s.env with ringTaken := s.env.ringTaken + s.ringFrames.length } }
  else s

/-- The ring is bound and open and lacks room for a whole frame (R190). -/
def State.ringFull (s : State) : Bool :=
  s.ring.bound && !s.ring.closed &&
    decide (s.cfg.ringCap - s.ring.buf.length < s.hdr.samplesPerFrame.toNat)

/-- The sequencer step of DECODE_FRAME (R190).
RING_FULL does nothing (R190, 93_implementation_defined.md item 21).
The model's choice (DESIGN CHOICE, log 23): where it ends with NO_FRAME, the PcmSink keeps its samples. -/
def decodeFrameStep (_ : Job) (s : State) : State :=
  let op := Instr.decodeFrame.opcode
  match s.frame with
  | none => s.raise .noFrame op 0
  | some f =>
    if !f.pending then s.raise .noFrame op 0
    else if s.ringFull then s.complete 2
    else
      let r := s.decodeCurrent op f
      if r.2 then r.1.ringAppend.complete 0 else r.1.complete 1

/-- DECODE_FRAME (R190). -/
def execDecodeFrame (s : State) : Host.Outcome State Fault Refusal :=
  command .decodeFrame noStart decodeFrameStep s

/-! ### LOAD_CLIP (41_decoder.md R215) -/

/-- The progress record of LOAD_CLIP; a record of another command counts as a fresh one (log 16). -/
def Progress.load (alloc : Nat) : Progress → LoadProgress
  | .loading l => l
  | .initial => ⟨alloc, 0, 0, 0, 0, 0⟩
  | .reading _ => ⟨alloc, 0, 0, 0, 0, 0⟩
  | .draining => ⟨alloc, 0, 0, 0, 0, 0⟩
  | .syncing => ⟨alloc, 0, 0, 0, 0, 0⟩
  | .bypass _ _ => ⟨alloc, 0, 0, 0, 0, 0⟩

/-- The start part of LOAD_CLIP on slot c (R215). -/
def loadClipStart (c : Nat) (s : State) : State :=
  let op := (Instr.loadClip c).opcode
  if s.nClips ≤ c then s.raise .badIndex op (idx8 c)
  else if s.ring.bound then s.raise .badState op (idx8 c)
  else s.startRead (.loading ⟨s.clips.alloc, 0, 0, 0, 0, 0⟩)

/-- A new clip in slot c, allocated up to `alloc` (R215, 43_host_access.md R300). -/
def State.setClip (c : Nat) (d : ClipDesc) (alloc : Nat) (s : State) : State :=
  { s with clips := { s.clips with descs := s.clips.descs.set c d, alloc := alloc } }

/-- The end of the stream in LOAD_CLIP (R215, outcome END). -/
def loadClipEnd (c : Nat) (l : LoadProgress) (s : State) : State :=
  let s1 := s.setEosSeen true
  if l.nfr = 0 then s1.raise .malformedStream (Instr.loadClip c).opcode (idx8 c)
  else
    (s1.setClip c { valid := true, base := l.base, len := l.w / l.ch, rate := l.rate, ch := l.ch }
      (l.base + l.w)).complete (l.w / l.ch)

/-- An accepted frame in LOAD_CLIP (R215, outcome FRAME). -/
def loadClipFrame (c : Nat) (j : Job) (l : LoadProgress) (s : State) : State :=
  let op := (Instr.loadClip c).opcode
  match s.frame with
  | none => s
  | some f =>
    let r := s.decodeCurrent op f
    if r.2 then
      let n := r.1.sink.samples.length
      if s.cfg.clipMemSamples < l.base + l.w + n then r.1.raise .clipFull op (idx8 c)
      else
        ({ r.1 with clips := { r.1.clips with
            mem := Memory.writeBlock r.1.clips.mem (l.base + l.w) r.1.sink.samples } }).goOn j
          (.loading
            { base := l.base, w := l.w + n, nfr := l.nfr + 1
              ch := if l.nfr = 0 then r.1.dec.dch else l.ch
              rate := if l.nfr = 0 then r.1.dec.drate else l.rate
              skipped := 0 })
    else r.1.goOn j (.loading { l with skipped := 0 })

/-- One sequencer step of LOAD_CLIP on slot c (R215); a hold has no effect at all (log 10). -/
def loadClipStep (c : Nat) (j : Job) (s : State) : State :=
  let op := (Instr.loadClip c).opcode
  let l := j.progress.load s.clips.alloc
  match s.syncStep op l.skipped with
  | (.hold, _, _) => s
  | (.cont, n, s1) => s1.goOn j (.loading { l with skipped := n })
  | (.wav, _, s1) => (s1.setEosSeen false).raise .notMpeg op (idx8 c)
  | (.malformed, _, s1) => (s1.setEosSeen false).raise .malformedStream op (idx8 c)
  | (.ended, _, s1) => loadClipEnd c l s1
  | (.frame, _, s1) => loadClipFrame c j l s1

/-- LOAD_CLIP (R215). -/
def execLoadClip (c : Nat) (s : State) : Host.Outcome State Fault Refusal :=
  command (.loadClip c) (loadClipStart c) (loadClipStep c) s

end Sys2Proof.Machine
end

