-- ==== Sys2Proof/Machine/Voices.lean ====
section
/-! DEFINITION. The voice commands: PLAY_VOICE, PAUSE_VOICE, RESUME_VOICE, STOP_VOICE, SET_VOLUME, SET_LOOP and PLAY_STREAM (42_mixer.md R230 to R238, R270). -/

namespace Sys2Proof.Machine

/-- The record of a new clip voice (R232). -/
def newClipVoice (c : Nat) (d : ClipDesc) (loop : Bool) (vol : Nat) : Voice where
  state := .playing
  loop := loop
  stream := false
  pending := true
  active := false
  clip := c
  base := d.base
  len := d.len
  ch := d.ch
  rate := d.rate
  pos := 0
  vol := vol

/-- The record of a new stream voice with `ch` channels (R270). -/
def newStreamVoice (ch vol : Nat) : Voice where
  state := .playing
  loop := false
  stream := true
  pending := true
  active := false
  clip := 0
  base := 0
  len := 0
  ch := ch
  rate := Config.lineRate
  pos := 0
  vol := vol

/-- A new voice in slot v, queued for the mixer (R231). -/
def State.queueVoice (v : Nat) (x : Voice) (s : State) : State :=
  { s with
    voices := s.voices.set v x
    mixer := { s.mixer with fifo := s.mixer.fifo ++ [v] } }

/-- The sequencer step of PLAY_VOICE (R232). -/
def playVoiceStep (c : Nat) (loop : Bool) (j : Job) (s : State) : State :=
  let op := (Instr.playVoice c loop).opcode
  match s.clipError c with
  | some e => s.raise e op (idx8 c)
  | none =>
    match s.freeSlot with
    | none => s.raise .voiceLimit op (idx8 c)
    | some v =>
      (s.queueVoice v (newClipVoice c (s.descAt c) loop (volumeOperand j.arg0))).complete v

/-- PLAY_VOICE (R232). -/
def execPlayVoice (c : Nat) (loop : Bool) (s : State) : Host.Outcome State Fault Refusal :=
  command (.playVoice c loop) noStart (playVoiceStep c loop) s

/-- A slot paused, if it is playing (R234). -/
def Voice.pause (x : Voice) : Voice := if x.state = .playing then { x with state := .paused } else x

/-- A slot resumed, if it is paused (R235). -/
def Voice.resume (x : Voice) : Voice := if x.state = .paused then { x with state := .playing } else x

/-- PAUSE_VOICE (R234). -/
def execPauseVoice (v : Nat) (s : State) : Host.Outcome State Fault Refusal :=
  command (.pauseVoice v) noStart
    (fun _ s => onVoice (Instr.pauseVoice v).opcode v
      (fun s => (s.setVoice v (s.voiceAt v).pause).complete 0) s) s

/-- RESUME_VOICE (R235). -/
def execResumeVoice (v : Nat) (s : State) : Host.Outcome State Fault Refusal :=
  command (.resumeVoice v) noStart
    (fun _ s => onVoice (Instr.resumeVoice v).opcode v
      (fun s => (s.setVoice v (s.voiceAt v).resume).complete 0) s) s

/-- STOP_VOICE (R236): the slot stays in use until the mixer's next tick removes it. -/
def execStopVoice (v : Nat) (s : State) : Host.Outcome State Fault Refusal :=
  command (.stopVoice v) noStart
    (fun _ s => onVoice (Instr.stopVoice v).opcode v
      (fun s => (s.setVoice v { s.voiceAt v with state := .stopped }).complete 0) s) s

/-- SET_VOLUME (R237). -/
def execSetVolume (v : Nat) (s : State) : Host.Outcome State Fault Refusal :=
  command (.setVolume v) noStart
    (fun j s => onVoice (Instr.setVolume v).opcode v
      (fun s => (s.setVoice v { s.voiceAt v with vol := volumeOperand j.arg0 }).complete 0) s) s

/-- The effect of SET_LOOP on a slot in use (R238). -/
def setLoopEffect (v : Nat) (loop : Bool) (s : State) : State :=
  if (s.voiceAt v).stream then s.raise .badState (Instr.setLoop v loop).opcode (idx8 v)
  else (s.setVoice v { s.voiceAt v with loop := loop }).complete 0

/-- SET_LOOP (R238). -/
def execSetLoop (v : Nat) (loop : Bool) (s : State) : Host.Outcome State Fault Refusal :=
  command (.setLoop v loop) noStart
    (fun _ s => onVoice (Instr.setLoop v loop).opcode v (setLoopEffect v loop) s) s

/-- HDR_FIELDS.CHANNELS, bits 22:21 (10_state.md R41). -/
def State.hdrChannels (s : State) : Nat := (s.hdr.fields.extractLsb' 21 2).toNat

/-- The channel count of a new stream voice: the decoder's, or before its initialisation the header's (R270). -/
def State.streamChannels (s : State) : Nat := if s.dec.init then s.dec.dch else s.hdrChannels

/-- The sequencer step of PLAY_STREAM (R270). -/
def playStreamStep (j : Job) (s : State) : State :=
  let op := Instr.playStream.opcode
  if s.ring.bound then s.raise .badState op 0
  else if s.stream.nframes = 0 then s.raise .badState op 0
  else if s.hdr.sampleRate.toNat ≠ Config.lineRate then s.raise .formatMismatch op 0
  else
    match s.freeSlot with
    | none => s.raise .voiceLimit op 0
    | some v =>
      let ch := s.streamChannels
      ({ s.queueVoice v (newStreamVoice ch (volumeOperand j.arg0)) with
          ring := { bound := true, closed := false, voice := v, ch := ch, buf := [] } }).complete v

/-- PLAY_STREAM (R270). -/
def execPlayStream (s : State) : Host.Outcome State Fault Refusal :=
  command .playStream noStart playStreamStep s

end Sys2Proof.Machine
end

