-- ==== Sys2Proof/Machine/Mixer.lean ====
section
/-! DEFINITION. The mixer tick, the line agent, and the commands MIXER_START, MIXER_STOP, MIXER_SYNC and BYPASS_WRITE (42_mixer.md R242 to R268). -/

namespace Sys2Proof.Machine

/-! ### Reading a voice (42_mixer.md R252, R271) -/

/-- Frame `pos` of a clip region: mono duplicated, stereo left then right (R252, R266). -/
def clipFrame (m : Memory) (base ch pos : Nat) : StereoFrame :=
  if ch = 1 then .dup (Memory.read m (base + pos))
  else ⟨Memory.read m (base + 2 * pos), Memory.read m (base + 2 * pos + 1)⟩

/-- The wrap at the start of a frame's read: the position it reads at, none when the voice is exhausted (R252). -/
def wrapPos (lp : Bool) (x : Voice) : Option Nat :=
  if x.len ≤ x.pos then (if lp then some 0 else none) else some x.pos

/-- The loop of ReadClip with n frames still wanted (R252). -/
def readClipLoop (m : Memory) (lp : Bool) : Nat → Voice → Voice × List StereoFrame
  | 0, x => (x, [])
  | n + 1, x =>
    match wrapPos lp x with
    | none => ({ x with state := .stopped }, [])
    | some p =>
      let rest := readClipLoop m lp n { x with pos := p + 1 }
      (rest.1, clipFrame m x.base x.ch p :: rest.2)

/-- ReadClip(v, n, lp): the slot after the read and the frames read (R252). -/
def readClip (m : Memory) (n : Nat) (lp : Bool) (x : Voice) : Voice × List StereoFrame :=
  if x.state ≠ .playing then (x, [])
  else if x.len = 0 then ({ x with state := .stopped }, [])
  else readClipLoop m lp n x

/-- A ring frame on the two line channels (R271). -/
def RingFrame.toStereo : RingFrame → StereoFrame
  | .mono x => .dup x
  | .stereo l r => ⟨l, r⟩

/-- ReadStream(v, n): the slot and the ring after the read, and the frames read (R271). -/
def readStream (n : Nat) (x : Voice) (r : Ring) : Voice × Ring × List StereoFrame :=
  if x.state ≠ .playing then (x, r, [])
  else
    let k := min n r.buf.length
    ({ x with
        pos := x.pos + k
        state := if k < n ∧ r.closed then .stopped else x.state },
      { r with buf := r.buf.drop k },
      (r.buf.take k).map RingFrame.toStereo)

/-! ### The tick (42_mixer.md R250, R253, R255) -/

/-- Scale(x, vol) (R253): an arithmetic shift is floor division by 2^15. -/
def scale (x : Sample) (vol : Nat) : Int := clamp16 ((x.toInt * vol) / 2 ^ 15)

/-- The block accumulator with the scaled frames of one voice added to its first places (R253). -/
def addFrames (vol : Nat) : List (Int × Int) → List StereoFrame → List (Int × Int)
  | a :: as, f :: fs => (a.1 + scale f.l vol, a.2 + scale f.r vol) :: addFrames vol as fs
  | as, [] => as
  | [], _ :: _ => []

/-- The emitted block: each sum clamped once (R255). -/
def emitBlock (acc : List (Int × Int)) : List StereoFrame :=
  acc.map (fun a => ⟨toSample (clamp16 a.1), toSample (clamp16 a.2)⟩)

/-- A tick under way: the state, the accumulator, and C, the voices that supplied a frame (R250). -/
structure Mix where
  s : State
  acc : List (Int × Int)
  contrib : List Nat

/-- One slot of an admitted request becomes active (R250). -/
def Voice.enter (x : Voice) : Voice := { x with pending := false, active := true }

/-- Admission: every queued request, oldest first (R231, R250). -/
def State.admitAll (s : State) : State :=
  { s.mixer.fifo.foldl (fun t v => t.setVoice v (t.voiceAt v).enter) s with
    mixer := { s.mixer with fifo := [] } }

/-- The frames of voice v for this tick, and the state after its read (R250). -/
def State.readVoice (v : Nat) (s : State) : State × List StereoFrame :=
  let x := s.voiceAt v
  if x.stream then
    let r := readStream s.cfg.mixBlock x s.ring
    ({ s.setVoice v r.1 with ring := r.2.1 }, r.2.2)
  else
    let r := readClip s.clips.mem s.cfg.mixBlock x.loop x
    (s.setVoice v r.1, r.2)

/-- The slot removed if it is stopped: exhausted in this read (R250). -/
def State.reap (v : Nat) (s : State) : State :=
  if (s.voiceAt v).state = .stopped then s.removeVoice v else s

/-- The visit of one active slot, its state, volume and loop flag read once (R250, R251). -/
def visit (m : Mix) (v : Nat) : Mix :=
  let x := m.s.voiceAt v
  match x.state with
  | .stopped => { m with s := m.s.removeVoice v }
  | .paused => m
  | .playing =>
    let r := m.s.readVoice v
    { s := r.1.reap v
      acc := addFrames x.vol m.acc r.2
      contrib := if r.2.isEmpty then m.contrib else m.contrib ++ [v] }

/-- The slots of C still in use are removed, in increasing number (R255). -/
def State.removeInUse (vs : List Nat) (s : State) : State :=
  vs.foldl (fun t v => if (t.voiceAt v).inUse then t.removeVoice v else t) s

/-- Emit(acc, C), for a C that is not empty (R255). -/
def State.emit (acc : List (Int × Int)) (contrib : List Nat) (s : State) : State :=
  let s1 := s.lineWrite (emitBlock acc)
  if s.lineOk then s1
  else (s1.removeInUse contrib).record .lineWriteFail noOp (idx8 (contrib.headD 0))

/-- The visits of a tick, over the slots that are active after admission, in increasing number (R250). -/
def State.visits (s : State) : Mix :=
  (s.slotsWhere Voice.active).foldl visit ⟨s, List.replicate s.cfg.mixBlock (0, 0), []⟩

/-- Tick() (R250). -/
def State.tick (s : State) : State :=
  let m := s.admitAll.visits
  let s1 := if m.contrib.isEmpty then m.s else m.s.emit m.acc m.contrib
  { s1 with mixer := { s1.mixer with syncreq := false } }

/-- A voice that gives the tick work, with the ring `r` (R257). -/
def Voice.hasWork (r : Ring) (x : Voice) : Bool :=
  x.active &&
    (decide (x.state = .stopped) ||
     decide (x.state = .playing) && (!x.stream || decide (0 < r.buf.length) || r.closed))

/-- TickEnabled (R257). -/
def State.tickEnabled (s : State) : Bool :=
  s.mixer.running && s.line.isOpen && decide (s.cfg.mixBlock ≤ s.lineRoom) &&
    (!s.mixer.fifo.isEmpty || s.voices.any (Voice.hasWork s.ring))

/-- The mixer's turn: a tick where one is enabled, else nothing (00_scope.md R9, R257). -/
def State.mixerTurn (s : State) : State := if s.tickEnabled then s.tick else s

/-- The line's turn: while open and not empty it takes the head frame, which the device plays (R260, 20_memory.md R80). -/
def State.lineTurn (s : State) : State :=
  if s.line.isOpen then
    match s.line.buf with
    | [] => s
    | f :: rest =>
      { s with
        line := { s.line with buf := rest }
        obs := { s.obs with lineBytes := s.obs.lineBytes ++ f.bytes } }
  else s

/-! ### Mixer lifecycle (42_mixer.md R242, R244, R248) -/

/-- The sequencer step of MIXER_START (R242). -/
def mixerStartStep (_ : Job) (s : State) : State :=
  if s.mixer.running then s.complete 0
  else if !s.cfg.linePresent then s.raise .hardwareLineUnavailable Instr.mixerStart.opcode 0
  else ({ s with line := ⟨true, []⟩, mixer := { s.mixer with running := true } }).complete 0

/-- MIXER_START (R242). -/
def execMixerStart (s : State) : Host.Outcome State Fault Refusal :=
  command .mixerStart noStart mixerStartStep s

/-- Every in-use slot removed, the queue emptied, the mixer no longer running (R244). -/
def State.poison (s : State) : State :=
  let s1 := s.removeVoices (s.slotsWhere Voice.inUse)
  { s1 with mixer := { s1.mixer with fifo := [], running := false } }

/-- One sequencer step of MIXER_STOP (R244): the poison pill first, then the drain, which the line or the timeout draw ends. -/
def mixerStopStep (j : Job) (s : State) : State :=
  if j.progress = .draining then
    (if s.line.buf.isEmpty || s.env.timeout then ({ s with line := ⟨false, []⟩ }).complete 0 else s)
  else if s.mixer.running && s.line.isOpen then s.poison.goOn j .draining
  else s.poison.complete 0

/-- MIXER_STOP (R244). -/
def execMixerStop (s : State) : Host.Outcome State Fault Refusal :=
  command .mixerStop noStart mixerStopStep s

/-- One sequencer step of MIXER_SYNC (R248). -/
def mixerSyncStep (j : Job) (s : State) : State :=
  if j.progress = .syncing then
    (if !s.mixer.syncreq || !s.tickEnabled then s.complete 0 else s)
  else if !s.tickEnabled then s.complete 0
  else ({ s with mixer := { s.mixer with syncreq := true } }).goOn j .syncing

/-- MIXER_SYNC (R248). -/
def execMixerSync (s : State) : Host.Outcome State Fault Refusal :=
  command .mixerSync noStart mixerSyncStep s

/-! ### Bypass writes (42_mixer.md R266) -/

/-- Frames i to i + k − 1 of the clip d at volume 1.0 (R266). -/
def bypassChunk (m : Memory) (d : ClipDesc) (i k : Nat) : List StereoFrame :=
  (List.range k).map (fun n => clipFrame m d.base d.ch (i + n))

/-- The later steps of BYPASS_WRITE on slot c (R266). -/
def bypassLater (c : Nat) (j : Job) (d : ClipDesc) (i : Nat) (s : State) : State :=
  if i = d.len then s.complete d.len
  else
    let k := min s.cfg.mixBlock (d.len - i)
    if s.lineRoom < k then s
    else
      let s1 := s.lineWrite (bypassChunk s.clips.mem d i k)
      if s.lineOk then s1.goOn j (.bypass d (i + k))
      else (s1.record .lineWriteFail (Instr.bypassWrite c).opcode (idx8 c)).complete i

/-- The first step of BYPASS_WRITE on slot c (R266). -/
def bypassFirst (c : Nat) (j : Job) (s : State) : State :=
  let op := (Instr.bypassWrite c).opcode
  match s.clipError c with
  | some e => s.raise e op (idx8 c)
  | none =>
    if !s.line.isOpen then s.raise .badState op (idx8 c)
    else s.goOn j (.bypass (s.descAt c) 0)

/-- One sequencer step of BYPASS_WRITE on slot c (R266). -/
def bypassStep (c : Nat) (j : Job) (s : State) : State :=
  match j.progress with
  | .bypass d i => bypassLater c j d i s
  | .initial => bypassFirst c j s
  | .reading _ => bypassFirst c j s
  | .loading _ => bypassFirst c j s
  | .draining => bypassFirst c j s
  | .syncing => bypassFirst c j s

/-- BYPASS_WRITE (R266). -/
def execBypassWrite (c : Nat) (s : State) : Host.Outcome State Fault Refusal :=
  command (.bypassWrite c) noStart (bypassStep c) s

end Sys2Proof.Machine
end

