-- ==== Sys2Proof/Machine/Clips.lean ====
section
/-! DEFINITION. The commands NOP, CLIP_DEFINE and CLIP_FREE_ALL (43_host_access.md R290, R300, R301). -/

namespace Sys2Proof.Machine

/-- NOP (R290). -/
def execNop (s : State) : Host.Outcome State Fault Refusal :=
  command .nop noStart (fun _ s => s.complete 0) s

/-- The sequencer step of CLIP_DEFINE on slot c (R300). -/
def clipDefineStep (c : Nat) (j : Job) (s : State) : State :=
  let op := (Instr.clipDefine c).opcode
  let len := lengthOperand j.arg0
  let rate := formatRate j.arg1
  let ch := formatCh j.arg1
  let base := s.clips.alloc
  if s.nClips ≤ c then s.raise .badIndex op (idx8 c)
  else if !formatOk j.arg1 then s.raise .badCommand op (idx8 c)
  else if s.cfg.clipMemSamples < base + len * ch then s.raise .clipFull op (idx8 c)
  else
    (({ s with clips := { s.clips with
          mem := Memory.writeBlock s.clips.mem base (List.replicate (len * ch) 0) } }).setClip c
      { valid := true, base := base, len := len, rate := rate, ch := ch } (base + len * ch)).complete base

/-- CLIP_DEFINE (R300). -/
def execClipDefine (c : Nat) (s : State) : Host.Outcome State Fault Refusal :=
  command (.clipDefine c) noStart (clipDefineStep c) s

/-- The sequencer step of CLIP_FREE_ALL (R301); clip memory keeps its contents. -/
def clipFreeAllStep (_ : Job) (s : State) : State :=
  if s.voices.any (fun x => x.inUse && !x.stream) then s.raise .clipBusy Instr.clipFreeAll.opcode 0
  else
    ({ s with clips := { s.clips with
        descs := s.clips.descs.map (fun _ => .invalid), alloc := 0 } }).complete 0

/-- CLIP_FREE_ALL (R301). -/
def execClipFreeAll (s : State) : Host.Outcome State Fault Refusal :=
  command .clipFreeAll noStart clipFreeAllStep s

end Sys2Proof.Machine
end

