-- ==== Sys2Proof/Machine/Dispatch.lean ====
section
/-! DEFINITION. The meaning of every command: one arm for each constructor of Instr, each one call. -/

namespace Sys2Proof.Machine

def exec (i : Instr) (s : State) : Host.Outcome State Fault Refusal :=
  match i with
  | .nop => Sys2Proof.Machine.execNop s
  | .resetStream => Sys2Proof.Machine.execResetStream s
  | .readFrame => Sys2Proof.Machine.execReadFrame s
  | .decodeFrame => Sys2Proof.Machine.execDecodeFrame s
  | .loadClip c => Sys2Proof.Machine.execLoadClip c s
  | .playStream => Sys2Proof.Machine.execPlayStream s
  | .clipDefine c => Sys2Proof.Machine.execClipDefine c s
  | .clipFreeAll => Sys2Proof.Machine.execClipFreeAll s
  | .mixerStart => Sys2Proof.Machine.execMixerStart s
  | .mixerStop => Sys2Proof.Machine.execMixerStop s
  | .mixerSync => Sys2Proof.Machine.execMixerSync s
  | .playVoice c loop => Sys2Proof.Machine.execPlayVoice c loop s
  | .pauseVoice v => Sys2Proof.Machine.execPauseVoice v s
  | .resumeVoice v => Sys2Proof.Machine.execResumeVoice v s
  | .stopVoice v => Sys2Proof.Machine.execStopVoice v s
  | .setVolume v => Sys2Proof.Machine.execSetVolume v s
  | .setLoop v loop => Sys2Proof.Machine.execSetLoop v loop s
  | .bypassWrite c => Sys2Proof.Machine.execBypassWrite c s

end Sys2Proof.Machine
end

