-- ==== Sys2Proof/Machine/Flags.lean ====
section
/-! DEFINITION. The status bits and the packed register views: STATUS, ERR, the IRQ output, and the fields of the other view registers (10_state.md R34 to R58). -/

namespace Sys2Proof.Machine

/-- SYNC_MODE's code (R34). -/
def syncModeCode : SyncMode → Nat
  | .initial => 0 | .strict => 1 | .failed => 2

/-- ERR.CODE of an error (60_exceptions.md R321). -/
def errCodeNumber : ErrCode → Nat
  | .none => 0x00
  | .malformedStream => 0x01
  | .corruptVbrHeader => 0x02
  | .decodeError => 0x03
  | .unknownSoundKey => 0x04
  | .hardwareLineUnavailable => 0x05
  | .lineWriteFail => 0x06
  | .badCommand => 0x10
  | .badIndex => 0x11
  | .cmdBusy => 0x12
  | .noFrame => 0x13
  | .voiceLimit => 0x14
  | .clipBusy => 0x15
  | .formatMismatch => 0x16
  | .clipFull => 0x17
  | .inOverflow => 0x18
  | .badState => 0x19
  | .notMpeg => 0x1A
  | .badAccess => 0x1B

/-- ERR as a word: CODE 7:0, OP 15:8, IDX 23:16, OVF 24 (R36). -/
def ErrReg.toWord (r : ErrReg) : Word :=
  BitVec.ofNat 32 (errCodeNumber r.code + 2 ^ 8 * r.op.toNat + 2 ^ 16 * r.idx.toNat + 2 ^ 24 * bit r.ovf)

/-- STATUS.BUSY: the sequencer is not IDLE (R34). -/
def State.busy (s : State) : Bool := s.cur.isSome

/-- STATUS.FRAME_PENDING (R34). -/
def State.framePending (s : State) : Bool :=
  match s.frame with
  | none => false
  | some f => f.pending

/-- STATUS, every bit a view (R34). -/
def State.statusWord (s : State) : Word :=
  BitVec.ofNat 32
    (bit s.busy + 2 ^ 1 * bit (decide (s.err.code ≠ .none)) + 2 ^ 2 * bit s.flags.frameValid +
     2 ^ 3 * bit s.framePending + 2 ^ 4 * bit s.flags.eosSeen + 2 ^ 5 * syncModeCode s.stream.mode +
     2 ^ 7 * bit (decide (s.stream.kind = .wav)) + 2 ^ 8 * bit s.flags.crcErr +
     2 ^ 9 * bit s.flags.vbrCorrupt + 2 ^ 10 * bit s.dec.init + 2 ^ 11 * bit s.mixer.running +
     2 ^ 12 * bit s.line.isOpen + 2 ^ 13 * bit s.ring.bound + 2 ^ 14 * bit s.ring.closed)

/-- The level interrupt output (60_exceptions.md R330). -/
def State.irqLine (s : State) : Bool := decide (s.irqPend &&& s.irqEn ≠ 0#5)

/-- SYNC_WORD: the frozen word while STRICT, else 0 (R45). -/
def State.syncWord (s : State) : Word := if s.stream.mode = .strict then s.stream.word else 0

/-- HDR_CRC: COMPUTED 31:16, STORED 15:0 (R46). -/
def HdrRegs.crcWord (h : HdrRegs) : Word := h.crcComputed ++ h.crcStored

/-- HDR_SUBBANDS and the other header registers are stored whole; VBR_TOCk is four bytes of the table, byte 4k in bits 7:0 (R48). -/
def VbrRegs.tocWord (v : VbrRegs) (k : Nat) : Word :=
  beWord (v.toc.getD (4 * k + 3) 0) (v.toc.getD (4 * k + 2) 0) (v.toc.getD (4 * k + 1) 0) (v.toc.getD (4 * k) 0)

/-- DEC_INFO: INIT 0, CHANNELS 2:1 (R49). -/
def Decoder.infoWord (d : Decoder) : Word :=
  if d.init then BitVec.ofNat 32 (1 + 2 * d.dch) else 0

/-- DEC_RATE, 0 while uninitialised (R49). -/
def Decoder.rateWord (d : Decoder) : Word := if d.init then BitVec.ofNat 32 d.drate else 0

/-- The descriptor that CLIP_SEL selects; a number past the last slot selects nothing (R50). -/
def State.selected (s : State) : ClipDesc := s.descAt s.clips.sel.toNat

/-- CLIP_INFO: VALID 0, CHANNELS 2:1 (R50). -/
def ClipDesc.infoWord (d : ClipDesc) : Word := BitVec.ofNat 32 (bit d.valid + 2 * d.ch)

/-- RING_INFO: BOUND 0, CLOSED 1, CHANNELS 3:2, VOICE 15:8 (R54). -/
def Ring.infoWord (r : Ring) : Word :=
  BitVec.ofNat 32
    (bit r.bound + 2 * bit r.closed + (if r.bound then 2 ^ 2 * r.ch + 2 ^ 8 * r.voice else 0))

/-- V_STATE.STATE's code (R55). -/
def voiceStateCode : VoiceState → Nat
  | .stopped => 0 | .playing => 1 | .paused => 2

/-- V_STATE (R55). -/
def Voice.stateWord (x : Voice) : Word :=
  BitVec.ofNat 32
    (voiceStateCode x.state + 2 ^ 2 * bit x.loop + 2 ^ 3 * bit x.stream + 2 ^ 4 * bit x.pending +
     2 ^ 5 * bit x.active + 2 ^ 8 * x.clip)

/-- STOPPED_MASKk (R58). -/
def State.stoppedWord (k : Nat) (s : State) : Word := s.stopped.extractLsb' (32 * k) 32

/-- A sample sign-extended to a register (43_host_access.md R305). -/
def sampleWord (x : Sample) : Word := x.signExtend 32

end Sys2Proof.Machine
end

