-- ==== Sys2Proof/Machine/Host.lean ====
section
/-! DEFINITION. The register file: its map, what a host read returns and does, and what a host write does, the CMD write apart (10_state.md R30 to R58, 20_memory.md R76, 43_host_access.md R291 to R298). -/

namespace Sys2Proof.Machine

/-- The mapped registers.
A number is an index of a register array. -/
inductive Reg where
  | id | cmd | arg0 | arg1 | status | result | err | irqEn | irqPend
  | samplesOut | crcErrCount | skipCount | resyncBytes | frameCount
  | hdrRaw | hdrFields | hdrBitrate | hdrSampleRate | hdrFrameSize | hdrSlotCount | hdrSubbands
  | hdrFramePos | hdrCrc | hdrSamplesPerFrame | hdrFrameLen | syncWord
  | vbrInfo | vbrFrames | vbrBytes | vbrScale | vbrToc (k : Nat)
  | decInfo | decRate | reservoirLevel
  | clipSel | clipInfo | clipBase | clipLen | clipRate | clipAddr | clipData | clipAlloc
  | pcmLen | pcmCh | pcmAddr | pcmData
  | inData | inCtrl | inLevel | streamPos
  | ringInfo | ringLevel | lineLevel
  | paramNVoices | paramNClips | paramMixBlock | paramClipMem | paramInCap | paramRingCap
  | paramLineCap | paramMaxResync
  | stoppedMask (k : Nat)
  | vState (v : Nat) | vPos (v : Nat) | vVol (v : Nat) | vLen (v : Nat)
  deriving DecidableEq, Repr

/-- The single registers at offsets 0x000 to 0x07C (R30 to R47). -/
def controlMap : List (Nat × Reg) :=
  [ (0x000, .id), (0x004, .cmd), (0x008, .arg0), (0x00C, .arg1), (0x010, .status), (0x014, .result),
    (0x018, .err), (0x01C, .irqEn), (0x020, .irqPend), (0x028, .samplesOut), (0x02C, .crcErrCount),
    (0x030, .skipCount), (0x034, .resyncBytes), (0x038, .frameCount),
    (0x040, .hdrRaw), (0x044, .hdrFields), (0x048, .hdrBitrate), (0x04C, .hdrSampleRate),
    (0x050, .hdrFrameSize), (0x054, .hdrSlotCount), (0x058, .hdrSubbands), (0x05C, .hdrFramePos),
    (0x060, .hdrCrc), (0x064, .hdrSamplesPerFrame), (0x068, .hdrFrameLen), (0x06C, .syncWord),
    (0x070, .vbrInfo), (0x074, .vbrFrames), (0x078, .vbrBytes), (0x07C, .vbrScale) ]

/-- The single registers at offsets 0x0F0 to 0x17C (R49 to R54). -/
def deviceMap : List (Nat × Reg) :=
  [ (0x0F0, .decInfo), (0x0F4, .decRate), (0x0F8, .reservoirLevel),
    (0x100, .clipSel), (0x104, .clipInfo), (0x108, .clipBase), (0x10C, .clipLen), (0x110, .clipRate),
    (0x114, .clipAddr), (0x118, .clipData), (0x11C, .clipAlloc),
    (0x120, .pcmLen), (0x124, .pcmCh), (0x128, .pcmAddr), (0x12C, .pcmData),
    (0x140, .inData), (0x144, .inCtrl), (0x148, .inLevel), (0x14C, .streamPos),
    (0x150, .ringInfo), (0x154, .ringLevel), (0x158, .lineLevel),
    (0x160, .paramNVoices), (0x164, .paramNClips), (0x168, .paramMixBlock), (0x16C, .paramClipMem),
    (0x170, .paramInCap), (0x174, .paramRingCap), (0x178, .paramLineCap), (0x17C, .paramMaxResync) ]

/-- The register of a voice window at its byte offset (R55). -/
def windowReg (v off : Nat) : Reg :=
  if off = 0 then .vState v else if off = 4 then .vPos v else if off = 8 then .vVol v else .vLen v

/-- The register at an aligned offset, none where the offset is unmapped (20_memory.md R76). -/
def regAt (nVoices a : Nat) : Option Reg :=
  if a < 0x080 then controlMap.lookup a
  else if a < 0x0E4 then some (.vbrToc ((a - 0x080) / 4))
  else if a < 0x400 then deviceMap.lookup a
  else if a < 0x420 then
    (if 32 * ((a - 0x400) / 4) < nVoices then some (.stoppedMask ((a - 0x400) / 4)) else none)
  else if a < 0x1000 then none
  else if (a - 0x1000) / 16 < nVoices then some (windowReg ((a - 0x1000) / 16) ((a - 0x1000) % 16))
  else none

/-- The register that an access reaches, none for an access of another width, a misaligned or an unmapped one (20_memory.md R81). -/
def State.accessed (s : State) (offset : BitVec 13) (width : AccessWidth) : Option Reg :=
  if width = .w32 ∧ offset.toNat % 4 = 0 then regAt s.nVoices offset.toNat else none

/-- A count as a 32-bit register shows it (10_state.md R22, R39; log 17).
The model's choice (DESIGN CHOICE, log 20): a parameter of 2^32 or more is shown modulo 2^32 too. -/
def countWord (n : Nat) : Word := BitVec.ofNat 32 n

/-- The sample CLIP_DATA reads: 0 past the end of clip memory (43_host_access.md R296). -/
def State.clipDataWord (s : State) : Word :=
  if s.clips.addr.toNat < s.cfg.clipMemSamples then sampleWord (Memory.read s.clips.mem s.clips.addr.toNat)
  else 0

/-- The sample PCM_DATA reads: 0 at or past PCM_LEN (43_host_access.md R298). -/
def State.pcmDataWord (s : State) : Word :=
  if s.sink.addr.toNat < s.sink.samples.length then sampleWord (s.sink.samples.getD s.sink.addr.toNat 0)
  else 0

/-- The value a read of a register returns; write-only registers read 0 (43_host_access.md R291). -/
def State.regValue (s : State) : Reg → Word
  | .id => Config.idValue
  | .cmd => 0
  | .arg0 => s.arg0
  | .arg1 => s.arg1
  | .status => s.statusWord
  | .result => s.result
  | .err => s.err.toWord
  | .irqEn => s.irqEn.setWidth 32
  | .irqPend => s.irqPend.setWidth 32
  | .samplesOut => s.counters.samplesOut
  | .crcErrCount => s.counters.crcErrCount
  | .skipCount => s.counters.skipCount
  | .resyncBytes => s.counters.resyncBytes
  | .frameCount => countWord s.stream.nframes
  | .hdrRaw => s.hdr.raw
  | .hdrFields => s.hdr.fields
  | .hdrBitrate => s.hdr.bitrate
  | .hdrSampleRate => s.hdr.sampleRate
  | .hdrFrameSize => s.hdr.frameSize
  | .hdrSlotCount => s.hdr.slotCount
  | .hdrSubbands => s.hdr.subbands
  | .hdrFramePos => s.hdr.framePos
  | .hdrCrc => s.hdr.crcWord
  | .hdrSamplesPerFrame => s.hdr.samplesPerFrame
  | .hdrFrameLen => s.hdr.frameLen
  | .syncWord => s.syncWord
  | .vbrInfo => s.vbr.info
  | .vbrFrames => s.vbr.frames
  | .vbrBytes => s.vbr.bytes
  | .vbrScale => s.vbr.scale
  | .vbrToc k => s.vbr.tocWord k
  | .decInfo => s.dec.infoWord
  | .decRate => s.dec.rateWord
  | .reservoirLevel => countWord s.dec.res.length
  | .clipSel => s.clips.sel.setWidth 32
  | .clipInfo => s.selected.infoWord
  | .clipBase => countWord s.selected.base
  | .clipLen => countWord s.selected.len
  | .clipRate => countWord s.selected.rate
  | .clipAddr => s.clips.addr
  | .clipData => s.clipDataWord
  | .clipAlloc => countWord s.clips.alloc
  | .pcmLen => countWord s.sink.samples.length
  | .pcmCh => countWord s.sink.ch
  | .pcmAddr => s.sink.addr.setWidth 32
  | .pcmData => s.pcmDataWord
  | .inData => 0
  | .inCtrl => countWord (bit s.stream.eos)
  | .inLevel => countWord s.stream.input.length
  | .streamPos => countWord s.stream.pos
  | .ringInfo => s.ring.infoWord
  | .ringLevel => countWord s.ring.buf.length
  | .lineLevel => countWord s.line.buf.length
  | .paramNVoices => countWord s.nVoices
  | .paramNClips => countWord s.nClips
  | .paramMixBlock => countWord s.cfg.mixBlock
  | .paramClipMem => countWord s.cfg.clipMemSamples
  | .paramInCap => countWord s.cfg.inCap
  | .paramRingCap => countWord s.cfg.ringCap
  | .paramLineCap => countWord s.cfg.lineCap
  | .paramMaxResync => countWord s.cfg.maxResync
  | .stoppedMask k => s.stoppedWord k
  | .vState v => (s.voiceAt v).stateWord
  | .vPos v => countWord (s.voiceAt v).pos
  | .vVol v => countWord (s.voiceAt v).vol
  | .vLen v => countWord (s.voiceAt v).len

/-- CLIP_ADDR moves on by one sample, modulo 2^32 (43_host_access.md R296, R297). -/
def State.nextClipAddr (s : State) : State := { s with clips := { s.clips with addr := s.clips.addr + 1 } }

/-- PCM_ADDR moves on by one, saturating at 4095 (43_host_access.md R298). -/
def State.nextPcmAddr (s : State) : State :=
  { s with sink := { s.sink with addr := if s.sink.addr = 4095#12 then 4095#12 else s.sink.addr + 1 } }

/-- The side effect of a read: CLIP_DATA and PCM_DATA only (20_memory.md R83). -/
def State.readEffect (r : Reg) (s : State) : State :=
  if r = .clipData then
    (if s.clips.addr.toNat < s.cfg.clipMemSamples then s.nextClipAddr
     else s.nextClipAddr.record .badAccess noOp 0)
  else if r = .pcmData then s.nextPcmAddr
  else s

/-- The value a host read returns to the host (43_host_access.md R291; log 12). -/
def State.answer (w : Word) (s : State) : State := { s with obs := { s.obs with readData := w } }

/-- HostRead(a, w) (43_host_access.md R291). -/
def State.hostRead (offset : BitVec 13) (width : AccessWidth) (s : State) : State :=
  match s.accessed offset width with
  | none => (s.record .badAccess noOp 0).answer 0
  | some r => (s.readEffect r).answer (s.regValue r)

/-- PushByte(b) (43_host_access.md R293). -/
def State.pushByte (b : Byte) (s : State) : State :=
  if s.stream.eos then s.record .inOverflow noOp 0
  else if s.stream.input.length = s.cfg.inCap then s.record .inOverflow noOp 0
  else { s with stream := { s.stream with input := s.stream.input ++ [b] } }

/-- The cell a lies in the region of a voice's copied descriptor (43_host_access.md R297). -/
def Voice.covers (a : Nat) (x : Voice) : Bool := decide (x.base ≤ a) && decide (a < x.base + x.len * x.ch)

/-- The cell a lies in the region of some in-use clip voice (43_host_access.md R297). -/
def State.cellBusy (a : Nat) (s : State) : Bool :=
  s.voices.any (fun x => x.inUse && !x.stream && x.covers a)

/-- ClipDataWrite(x) (43_host_access.md R297). -/
def State.clipDataWrite (x : Sample) (s : State) : State :=
  let a := s.clips.addr.toNat
  if s.cfg.clipMemSamples ≤ a then s.nextClipAddr.record .badAccess noOp 0
  else if s.cellBusy a then s.nextClipAddr.record .clipBusy noOp 0
  else { s with clips := { s.clips with mem := Memory.write s.clips.mem a x, addr := s.clips.addr + 1 } }

/-- What a host write does to a register other than CMD (43_host_access.md R292).
A register without a case here is read only: the write is ignored, no error. -/
def State.regWrite (r : Reg) (v : Word) (s : State) : State :=
  match r with
  | .arg0 => { s with arg0 := v }
  | .arg1 => { s with arg1 := v }
  | .err => s.clearErr
  | .irqEn => { s with irqEn := v.extractLsb' 0 5 }
  | .irqPend => s.ackIrq v
  | .stoppedMask k => s.ackStopped k v
  | .inData => s.pushByte (v.extractLsb' 0 8)
  | .inCtrl => if v.getLsbD 0 then { s with stream := { s.stream with eos := true } } else s
  | .clipSel => { s with clips := { s.clips with sel := v.extractLsb' 0 8 } }
  | .clipAddr => { s with clips := { s.clips with addr := v } }
  | .clipData => s.clipDataWrite (v.extractLsb' 0 16)
  | .pcmAddr => { s with sink := { s.sink with addr := v.extractLsb' 0 12 } }
  | _ => s

end Sys2Proof.Machine
end

