-- ==== Sys2Proof/Machine/Agents.lean ====
section
/-! DEFINITION. The turns of the agents: issuing a command, the host's accesses, the sequencer's step, and which turn comes next (00_scope.md R9, R10; 60_exceptions.md R325). -/

namespace Sys2Proof.Machine

/-- IssueCommand(w) (60_exceptions.md R325): CMD_BUSY is checked before the word is decoded (R324).
A legal word starts its command: exec from the idle sequencer is the command's part of the CMD write (log 3). -/
def State.issueCommand (w : Word) (s : State) : Host.Outcome State Fault Refusal :=
  if s.busy then .next (s.record .cmdBusy (opField w) (idxField w))
  else
    match decode w with
    | .error _ => .next (s.record .badCommand (opField w) (idxField w))
    | .ok i => exec i s

/-- HostWrite(a, w, v) (43_host_access.md R292). -/
def State.hostWrite (offset : BitVec 13) (width : AccessWidth) (v : Word) (s : State) :
    Host.Outcome State Fault Refusal :=
  match s.accessed offset width with
  | none => .next (s.record .badAccess noOp 0)
  | some r => if r = .cmd then s.issueCommand v else .next (s.regWrite r v)

/-- The sequencer's turn: one step of the command in progress (60_exceptions.md R325), nothing while IDLE. -/
def State.sequencerTurn (s : State) : Host.Outcome State Fault Refusal :=
  match s.cur with
  | none => .next s
  | some j => exec j.instr s

/-- One turn (00_scope.md R9). -/
def State.runTurn (t : Turn) (s : State) : Host.Outcome State Fault Refusal :=
  match t with
  | .host (.read offset width) => .next (s.hostRead offset width)
  | .host (.write offset width v) => s.hostWrite offset width v
  | .sequencer _ _ => s.sequencerTurn
  | .mixer _ => .next s.mixerTurn
  | .line => .next s.lineTurn

/-- The turn that comes next: the head of the script, and past its end a free value (log 1). -/
def Env.nextTurn (e : Env) : Turn :=
  match e.script with
  | t :: _ => t
  | [] => Config.freeTurn e.taken

/-- The environment with the next turn taken, the script shortened or the counter of free turns advanced (log 1). -/
def Env.advance (e : Env) : Env :=
  match e.script with
  | _ :: rest => { e with script := rest }
  | [] => { e with taken := e.taken + 1 }

/-- The draws of a turn, put where its step consults them (log 2). -/
def Env.withDraws (t : Turn) (e : Env) : Env :=
  match t with
  | .host _ => e
  | .sequencer d timeout => { e with lineDraw := d, timeout := timeout }
  | .mixer d => { e with lineDraw := d }
  | .line => e

/-- The state in which the next turn's step runs. -/
def State.taking (s : State) : State :=
  { s with env := s.env.advance.withDraws s.env.nextTurn }

/-- The turn of a host write to CMD (10_state.md R31). -/
def cmdWriteTurn (w : Word) : Turn := .host (.write 0x004#13 .w32 w)

/-- `s` with the turn `t` before all others. -/
def State.withTurn (t : Turn) (s : State) : State :=
  { s with env := { s.env with script := t :: s.env.script } }

/-- The command word `w` put where the sequencer takes its next command (log 4): issued to an idle sequencer, whose turn comes next.
Where the CMD write itself ends the command or refuses the word, that CMD write is the next turn. -/
def State.withCommand (w : Word) (s : State) : State :=
  let idle := { s with cur := none }
  match idle.issueCommand w with
  | .next s1 =>
    if s1.busy then s1.withTurn (.sequencer .ok false) else idle.withTurn (cmdWriteTurn w)
  | .fault _ => idle.withTurn (cmdWriteTurn w)
  | .refused _ => idle.withTurn (cmdWriteTurn w)

end Sys2Proof.Machine
end

