-- ==== Sys2Proof/Machine/Step.lean ====
section
/-! DEFINITION. The step of the block: one turn of one agent. -/

namespace Sys2Proof.Machine

/-- One step: the next turn is taken (00_scope.md R9, R10). -/
def step (s : State) : Host.Outcome State Fault Refusal := s.taking.runTurn s.env.nextTurn

/-- `s` with the command word of `nbits` bits `w` put where the next step runs it (log 4). -/
def State.withFetchWord (s : State) (nbits w : Nat) : State :=
  s.withCommand (BitVec.ofNat 32 (w % 2 ^ nbits))

end Sys2Proof.Machine
end

