-- ==== Sys2Proof/Safety.lean ====
section
/-! DEFINITION. What claims call a sound state of the block: the invariants that every step keeps, the quiescent state and the end of a run (R392 of 70_reset_and_hazards.md), and the fair runs (R391). -/

namespace Sys2Proof.Machine

/-- Clip memory keeps its canonical form. -/
def State.MemOk (s : State) : Prop := Memory.wf s.clips.mem = true

/-- No slot is both pending and active (10_state.md R56), and every volume lies in [0, 32768] (30_encoding.md R103). -/
def State.SlotsOk (s : State) : Prop :=
  ∀ x ∈ s.voices, ¬ (x.pending = true ∧ x.active = true) ∧ x.vol ≤ 32768

/-- No slot of a clip voice stands past the end of its clip (42_mixer.md R252): the positions from which a read starts.
A free slot keeps the values of its last voice (10_state.md R56). -/
def State.PositionsOk (s : State) : Prop := ∀ x ∈ s.voices, x.stream = false → x.pos ≤ x.len

/-- No STOPPED_MASK bit of a slot that does not exist is set (10_state.md R58). -/
def State.StoppedOk (s : State) : Prop := ∀ v, s.voices.length ≤ v → s.stopped.getLsbD v = false

/-- The queue holds each pending slot exactly once and nothing else (42_mixer.md R231). -/
def State.QueueOk (s : State) : Prop :=
  s.mixer.fifo.Nodup ∧ ∀ v, v ∈ s.mixer.fifo ↔ (s.voiceAt v).pending = true

/-- The slot is in use by a stream voice. -/
def Voice.streaming (x : Voice) : Bool := x.inUse && x.stream

/-- The slot is in use by a voice over clip memory. -/
def Voice.onClip (x : Voice) : Bool := x.inUse && !x.stream

/-- The samples of a ring frame. -/
def RingFrame.samples : RingFrame → List Sample
  | .mono x => [x]
  | .stereo l r => [l, r]

/-- The ring is bound exactly while its voice is in use, and an unbound ring is as after reset (10_state.md R27, 42_mixer.md R273, log 21).
A bound ring's rch is 1 or 2, and each of its frames has rch samples (R27). -/
def State.RingOk (s : State) : Prop :=
  (s.ring.bound = true → (s.voiceAt s.ring.voice).streaming = true) ∧
  (∀ v, (s.voiceAt v).streaming = true → s.ring.bound = true ∧ s.ring.voice = v) ∧
  (s.ring.bound = false → s.ring = ⟨false, false, 0, 0, []⟩) ∧
  (s.ring.bound = true → s.ring.ch = 1 ∨ s.ring.ch = 2) ∧
  (∀ f ∈ s.ring.buf, f.samples.length = s.ring.ch)

/-- The three buffers hold no more than their capacities (10_state.md R27, R29; 20_memory.md R71). -/
def State.BuffersOk (s : State) : Prop :=
  s.stream.input.length ≤ s.cfg.inCap ∧ s.ring.buf.length ≤ s.cfg.ringCap ∧
  s.line.buf.length ≤ s.cfg.lineCap

/-- The progress record in `cur` is one of the command in progress (10_state.md R23). -/
def Job.ok (j : Job) : Prop :=
  match j.instr with
  | .nop => j.progress = .initial
  | .resetStream => j.progress = .initial
  | .readFrame => ∃ n, j.progress = .reading n
  | .decodeFrame => j.progress = .initial
  | .loadClip _ => ∃ l, j.progress = .loading l
  | .playStream => j.progress = .initial
  | .clipDefine _ => j.progress = .initial
  | .clipFreeAll => j.progress = .initial
  | .mixerStart => j.progress = .initial
  | .mixerStop => j.progress = .initial ∨ j.progress = .draining
  | .mixerSync => j.progress = .initial ∨ j.progress = .syncing
  | .playVoice _ _ => j.progress = .initial
  | .pauseVoice _ => j.progress = .initial
  | .resumeVoice _ => j.progress = .initial
  | .stopVoice _ => j.progress = .initial
  | .setVolume _ => j.progress = .initial
  | .setLoop _ _ => j.progress = .initial
  | .bypassWrite _ => j.progress = .initial ∨ ∃ d i, j.progress = .bypass d i

/-- The command in progress, if any, is well formed and has its own progress record. -/
def State.JobOk (s : State) : Prop := ∀ j, s.cur = some j → j.instr.wf = true ∧ j.ok

/-- The synchroniser's modes and the frozen word (40_stream.md R153, R154): INITIAL before the first frame; in STRICT a frame was accepted and the word is frozen fields with all sync bits. -/
def State.SyncOk (s : State) : Prop :=
  (s.stream.mode = .initial → s.stream.nframes = 0 ∧ s.stream.word = 0#32) ∧
  (s.stream.mode = .strict →
    0 < s.stream.nframes ∧ s.stream.word &&& frozenMask = s.stream.word ∧ hSync s.stream.word = 0x7FF#11)

/-- A region of clip memory lies below the allocator pointer and has one or two channels. -/
def regionOk (alloc base len ch : Nat) : Prop := (ch = 1 ∨ ch = 2) ∧ base + len * ch ≤ alloc

/-- A clip memory cell has been written since reset. -/
def State.written (s : State) (a : Nat) : Prop := (Memory.read? s.clips.mem a).isSome = true

/-- What the command in progress holds of the clip store: LOAD_CLIP a written region above the allocator pointer (41_decoder.md R215), BYPASS_WRITE a clip below it. -/
def Progress.clipsOk (s : State) : Progress → Prop
  | .loading l =>
    l.base = s.clips.alloc ∧ l.base + l.w ≤ s.cfg.clipMemSamples ∧
    (∀ a, l.base ≤ a → a < l.base + l.w → s.written a) ∧ (0 < l.nfr → l.ch = 1 ∨ l.ch = 2)
  | .bypass d _ => regionOk s.clips.alloc d.base d.len d.ch
  | .initial => True
  | .reading _ => True
  | .draining => True
  | .syncing => True

/-- The clip store: every cell below the allocator pointer has been written, and every valid descriptor, in-use clip voice and running command keeps below it (70_reset_and_hazards.md R363, 10_state.md R57). -/
def State.ClipsOk (s : State) : Prop :=
  s.clips.alloc ≤ s.cfg.clipMemSamples ∧
  (∀ a, a < s.clips.alloc → s.written a) ∧
  (∀ d ∈ s.clips.descs, d.valid = true → regionOk s.clips.alloc d.base d.len d.ch) ∧
  (∀ x ∈ s.voices, x.onClip = true → regionOk s.clips.alloc x.base x.len x.ch) ∧
  (∀ j, s.cur = some j → j.progress.clipsOk s)

/-- The sink and the reservoir keep their bounds (20_memory.md R73, 41_decoder.md R202), with the header registers that the bounds of the sink and of a ring rest on. -/
def State.SinkOk (s : State) : Prop :=
  s.sink.samples.length ≤ 2304 ∧ s.sink.ch ≤ 2 ∧ s.dec.res.length ≤ 511 ∧
  s.hdr.samplesPerFrame.toNat ≤ 1152 ∧ s.hdr.samplesPerFrame.toNat % 32 = 0 ∧
  (s.dec.init = true → (s.dec.dch = 1 ∨ s.dec.dch = 2) ∧ s.dec.delay.length = s.dec.dch) ∧
  (s.stream.nframes ≠ 0 → s.hdrChannels = 1 ∨ s.hdrChannels = 2)

/-- What voice v supplies to a tick that begins in `s`: the frames of its one read (42_mixer.md R250, R252, R271). -/
def State.supplies (s : State) (v : Nat) : List StereoFrame :=
  if (s.voiceAt v).state = .playing then (s.readVoice v).2 else []

/-- Frame i of the mix of the active voices, each scaled by its volume and summed exactly (42_mixer.md R253). -/
def State.mixedFrame (s : State) (i : Nat) : Int × Int :=
  (((s.slotsWhere Voice.active).map (fun v =>
      ((s.supplies v)[i]?.map (fun f => scale f.l (s.voiceAt v).vol)).getD 0)).sum,
   ((s.slotsWhere Voice.active).map (fun v =>
      ((s.supplies v)[i]?.map (fun f => scale f.r (s.voiceAt v).vol)).getD 0)).sum)

/-- Nothing is left to do without the host: the sequencer is idle and no tick is enabled (60_exceptions.md R349, 70_reset_and_hazards.md R392). -/
def State.quiescent (s : State) : Bool := !s.busy && !s.tickEnabled

/-! ### Fair runs (70_reset_and_hazards.md R391) -/

/-- The agents that take turns (00_scope.md R9); the oracle's answers are draws in their turns. -/
inductive Agent where
  | host | sequencer | mixer | line
  deriving DecidableEq, Repr

/-- Whose turn it is. -/
def agentOf : Turn → Agent
  | .host _ => .host
  | .sequencer _ _ => .sequencer
  | .mixer _ => .mixer
  | .line => .line

/-- `s` with the draws of the turn `t` in place. -/
def State.drawing (t : Turn) (s : State) : State := { s with env := s.env.withDraws t }

/-- The turn `t` is an enabled step of its agent: a mixer's while TickEnabled, the line's while it is open and not empty, and the sequencer's where its command does not hold, MIXER_STOP's drain with a timeout among them (R391, 60_exceptions.md R326).
The host is free to move at any time. -/
def State.enables (s : State) (t : Turn) : Prop :=
  match t with
  | .host _ => True
  | .sequencer _ _ => (s.drawing t).sequencerTurn ≠ .next (s.drawing t)
  | .mixer _ => s.tickEnabled = true
  | .line => s.line.isOpen = true ∧ s.line.buf ≠ []

/-- The run `r` takes the turns `σ`, one a step (00_scope.md R9, R10). -/
def Scheduled (σ : Nat → Turn) (r : Nat → State) : Prop := ∀ n, step ((r n).withTurn (σ n)) = .next (r (n + 1))

/-- Weak fairness (R391): an agent with an enabled step in every state from some time on takes one; the host is not constrained. -/
def WeaklyFair (σ : Nat → Turn) (r : Nat → State) : Prop :=
  ∀ (a : Agent) (n : Nat), a ≠ .host → (∀ m, n ≤ m → ∃ t, agentOf t = a ∧ (r m).enables t) →
    ∃ m, n ≤ m ∧ agentOf (σ m) = a ∧ (r m).enables (σ m)

/-! ### The end of a run (70_reset_and_hazards.md R392) -/

/-- From turn n on the host makes no access: its program has made its last one. -/
def HostDone (σ : Nat → Turn) (n : Nat) : Prop := ∀ m, n ≤ m → agentOf (σ m) ≠ .host

/-- The run ends at n, its end state being `r n`: the first point at which the host has made its last access and the block is quiescent (R392). -/
def RunEnds (σ : Nat → Turn) (r : Nat → State) (n : Nat) : Prop :=
  (HostDone σ n ∧ (r n).quiescent = true) ∧ ∀ k, k < n → ¬ (HostDone σ k ∧ (r k).quiescent = true)

/-- What is observed of the run up to n: its line writes in order, with their outcomes (R392). -/
def observedWrites (r : Nat → State) (n : Nat) : List LineWrite :=
  (r n).obs.lineWrites.drop (r 0).obs.lineWrites.length

end Sys2Proof.Machine
end

