-- ==== Sys2Proof/Certificates/Slice0/Obligations.lean ====
section
/-! DEFINITION. The statements for the provers.
Interrupt bits are written out: CMD_DONE 0b00001, ERROR 0b00010, VOICE_STOPPED 0b00100, CRC 0b01000, FRAME 0b10000.
Where the next state is written `{ s with … }`, every field not named is unchanged: that is the statement's frame. -/

open Sys2Proof Sys2Proof.Machine

/-! ### The command word -/

/-- R100, R101, R104, R127: decoding the word of a command gives the command back, with every operand at every value its field holds. -/
def Obligations.DecodeOfEncode : Prop :=
  ∀ i : Instr, i.wf = true → decode (encode i) = .ok i

/-- R100, R101, R104, R105: exactly these words are legal: by opcode, those without operands below 2^8, those with IDX below 2^16, those with IDX and LOOP below 2^17; and a legal word is the word of the command it decodes to, so no bit of it is dropped. -/
def Obligations.LegalWords : Prop :=
  (∀ w : Word, (∃ i, decode w = .ok i) ↔
    (w.toNat % 256 ∈ [0x00, 0x01, 0x02, 0x03, 0x05, 0x09, 0x10, 0x11, 0x12] ∧ w.toNat < 2 ^ 8) ∨
    (w.toNat % 256 ∈ [0x04, 0x08, 0x14, 0x15, 0x16, 0x17, 0x19] ∧ w.toNat < 2 ^ 16) ∨
    (w.toNat % 256 ∈ [0x13, 0x18] ∧ w.toNat < 2 ^ 17)) ∧
  (∀ (w : Word) (i : Instr), decode w = .ok i → encode i = w ∧ i.wf = true)

/-- R104 and the words the command rules write out: one word for each command. -/
def Obligations.ListedWordsDecode : Prop :=
  decode 0x00000000#32 = .ok .nop ∧ decode 0x00000001#32 = .ok .resetStream ∧
  decode 0x00000002#32 = .ok .readFrame ∧ decode 0x00000003#32 = .ok .decodeFrame ∧
  decode 0x00000704#32 = .ok (.loadClip 7) ∧ decode 0x00000005#32 = .ok .playStream ∧
  decode 0x00000508#32 = .ok (.clipDefine 5) ∧ decode 0x00000009#32 = .ok .clipFreeAll ∧
  decode 0x00000010#32 = .ok .mixerStart ∧ decode 0x00000011#32 = .ok .mixerStop ∧
  decode 0x00000012#32 = .ok .mixerSync ∧ decode 0x00010313#32 = .ok (.playVoice 3 true) ∧
  decode 0x00000214#32 = .ok (.pauseVoice 2) ∧ decode 0x00000215#32 = .ok (.resumeVoice 2) ∧
  decode 0x00000116#32 = .ok (.stopVoice 1) ∧ decode 0x0000FF17#32 = .ok (.setVolume 255) ∧
  decode 0x00010018#32 = .ok (.setLoop 0 true) ∧ decode 0x00000119#32 = .ok (.bypassWrite 1)

/-! ### Steps and the command lifecycle -/

/-- R9, R10, R325: a step takes the next turn; when that turn is a CMD write of a legal word to an idle block, or a sequencer turn while a command is in progress, the step is exec of that command, in the state that differs from this one only in the turn taken.
No step ends in a fault or a refusal: the spec gives every behaviour an effect. -/
def Obligations.StepRunsTheCommand : Prop :=
  (∀ (s : State) (w : Word) (i : Instr), s.cur = none → s.env.nextTurn = .host (.write 0x004#13 .w32 w) →
    decode w = .ok i → step s = exec i s.taking) ∧
  (∀ (s : State) (j : Job) (d : LineDraw) (timeout : Bool), s.cur = some j →
    s.env.nextTurn = .sequencer d timeout → step s = exec j.instr s.taking) ∧
  (∀ s : State, s.taking = { s with env := s.taking.env }) ∧
  (∀ s : State, ∃ t, step s = .next t)

/-- The model's choice (log 4): a command word placed for the next step is what that step runs, whatever the state was. -/
def Obligations.PlacedWordRuns : Prop :=
  ∀ (s : State) (i : Instr), i.wf = true →
    step (s.withFetchWord 32 (encode i).toNat) = exec i (s.withFetchWord 32 (encode i).toNat).taking

/-- R102, R325: a legal CMD write latches ARG0 and ARG1 and runs the command's start part: READ_FRAME's (R145), LOAD_CLIP's with its two checks (R215), nothing for the others. -/
def Obligations.CommandStarts : Prop :=
  ∀ (i : Instr) (s : State), s.cur = none → exec i s = .next
    (match i with
    | .readFrame =>
      { s with cur := some ⟨.readFrame, s.arg0, s.arg1, .reading 0⟩, frame := none
               flags := { s.flags with frameValid := false } }
    | .loadClip c =>
      if s.nClips ≤ c then s.raise .badIndex 0x04 (BitVec.ofNat 8 c)
      else if s.ring.bound = true then s.raise .badState 0x04 (BitVec.ofNat 8 c)
      else
        { s with cur := some ⟨.loadClip c, s.arg0, s.arg1, .loading ⟨s.clips.alloc, 0, 0, 0, 0, 0⟩⟩, frame := none
                 flags := { s.flags with frameValid := false } }
    | i => { s with cur := some ⟨i, s.arg0, s.arg1, .initial⟩ })

/-- R101, R105, R324, R325: a CMD write of an illegal word to an idle block records BAD_COMMAND, and one of any word while a command is in progress CMD_BUSY, with the word's OP and IDX bytes, and neither has another effect. -/
def Obligations.RejectedWords : Prop :=
  (∀ (s : State) (w : Word), s.cur = none → s.env.nextTurn = .host (.write 0x004#13 .w32 w) →
    (∀ i, decode w ≠ .ok i) →
    step s = .next { s.taking with
      err := if s.err.code = .none then ⟨.badCommand, w.extractLsb' 0 8, w.extractLsb' 8 8, false⟩
             else { s.err with ovf := true }
      irqPend := s.irqPend ||| 0b00010#5 }) ∧
  (∀ (s : State) (w : Word) (j : Job), s.cur = some j → s.env.nextTurn = .host (.write 0x004#13 .w32 w) →
    step s = .next { s.taking with
      err := if s.err.code = .none then ⟨.cmdBusy, w.extractLsb' 0 8, w.extractLsb' 8 8, false⟩
             else { s.err with ovf := true }
      irqPend := s.irqPend ||| 0b00010#5 })

/-- R322, R325: what recording an error, raising one and completing do; the first error is kept and a later one sets OVF; STATUS.ERR shows whether there is an error. -/
def Obligations.RecordRaiseComplete : Prop :=
  (∀ (s : State) (e : ErrCode) (op idx : Byte), s.err.code = .none →
    s.record e op idx = { s with err := ⟨e, op, idx, false⟩, irqPend := s.irqPend ||| 0b00010#5 }) ∧
  (∀ (s : State) (e : ErrCode) (op idx : Byte), s.err.code ≠ .none →
    s.record e op idx = { s with err := { s.err with ovf := true }, irqPend := s.irqPend ||| 0b00010#5 }) ∧
  (∀ (s : State) (e : ErrCode) (op idx : Byte),
    s.raise e op idx = { s.record e op idx with cur := none, irqPend := s.irqPend ||| 0b00011#5 }) ∧
  (∀ s : State, (s.regValue .status).getLsbD 1 = decide (s.err.code ≠ .none)) ∧
  (∀ (s : State) (r : Nat),
    s.complete r = { s with result := BitVec.ofNat 32 r, cur := none, irqPend := s.irqPend ||| 0b00001#5 })

/-- R84, R325: a command in progress is never replaced: after any step it is the same command with the same latched operands, or it has ended and CMD_DONE is pending; and no command starts but by a step from IDLE. -/
def Obligations.RunningCommandKept : Prop :=
  ∀ (s t : State) (j : Job), s.cur = some j → step s = .next t →
    (∃ p, t.cur = some { j with progress := p }) ∨ (t.cur = none ∧ t.irqPend &&& 0b00001#5 = 0b00001#5)

/-- R326, R391: in a weakly fair run every started command ends, where the host supplies the end of the input to READ_FRAME and LOAD_CLIP.
For BYPASS_WRITE the statement asks that no tick is enabled from some time on: weak fairness alone lets the mixer fill, each time, the room that the line makes (log 13).
R392: so a weakly fair run from an idle block ends, at one point only, where the host has made its last access with the input ended and the ticks cease. -/
def Obligations.StartedCommandsEnd : Prop :=
  (∀ (σ : Nat → Turn) (r : Nat → State) (n : Nat) (j : Job),
    Scheduled σ r → WeaklyFair σ r → (r n).cfg.legal = true → (r n).cur = none → (r (n + 1)).cur = some j →
    (j.instr = .readFrame ∨ (∃ c, j.instr = .loadClip c) → ∃ m, n < m ∧ (r m).stream.eos = true) →
    ((∃ c, j.instr = .bypassWrite c) → ∃ k, ∀ m, k ≤ m → (r m).tickEnabled = false) →
    ∃ m, n < m ∧ (r m).cur = none) ∧
  (∀ (σ : Nat → Turn) (r : Nat → State) (k : Nat),
    Scheduled σ r → WeaklyFair σ r → (r 0).cfg.legal = true → (r 0).cur = none →
    HostDone σ k → (r k).stream.eos = true → (∃ l, ∀ m, l ≤ m → (r m).tickEnabled = false) →
    ∃ n, RunEnds σ r n ∧ (∀ m, RunEnds σ r m → m = n) ∧ (r n).cur = none ∧ (r n).tickEnabled = false ∧
      ∀ m, n ≤ m → agentOf (σ m) ≠ .host)

/-! ### The stream commands -/

/-- R290. -/
def Obligations.NopResult : Prop :=
  ∀ (s : State) (j : Job), s.cur = some j →
    exec .nop s = .next { s with result := 0, cur := none, irqPend := s.irqPend ||| 0b00001#5 }

/-- R140; and the model's choice (log 7): RESET_STREAM leaves the decoder's channel count, rate, delay lines and Layer III context as they were, where R26 gives them no value until the next first frame. -/
def Obligations.ResetStreamResult : Prop :=
  ∀ (s : State) (j : Job), s.cur = some j →
    exec .resetStream s = .next
      { s with
        stream := { input := [], eos := false, pos := 0, mode := .initial, word := 0, kind := .unknown, nframes := 0 }
        frame := none
        hdr := ⟨0, 0, 0, 0, 0, 0, 0, 0, 0, 0, 0, 0⟩
        vbr := ⟨0, 0xFFFFFFFF, 0xFFFFFFFF, 0xFFFFFFFF, List.replicate 100 0⟩
        flags := { frameValid := false, eosSeen := false, crcErr := false, vbrCorrupt := false }
        dec := { s.dec with init := false, res := [] }
        sink := { samples := [], ch := 0, addr := 0 }
        counters := { samplesOut := s.counters.samplesOut, crcErrCount := 0, skipCount := 0, resyncBytes := 0 }
        ring := if s.ring.bound = true then { s.ring with closed := true, buf := [] } else s.ring
        result := 0, cur := none, irqPend := s.irqPend ||| 0b00001#5 }

/-- R145, R146, R150, R153 to R156, R170, R174: READ_FRAME on a confirmed candidate accepts it.
The first frame freezes the sync word and is searched for a VBR side header.
That a progress record of another command, which no run reaches, is read as that of the start is the model's choice (log 16). -/
def Obligations.ReadFrameAccepts : Prop :=
  ∀ (s : State) (j : Job) (h : Word) (n : Nat),
    s.cur = some j → s.stream.mode ≠ .failed →
    (s.stream.kind = .mpeg ∨ s.stream.kind = .unknown ∧ s.stream.input.take 4 ≠ [0x52, 0x49, 0x46, 0x46]) →
    h = be32 s.stream.input 0 → n = frameLen h → syncMark h s.stream.mode s.stream.word = true →
    (n + 4 ≤ s.stream.input.length ∧ syncMark (be32 s.stream.input n) s.stream.mode s.stream.word = true ∨
      s.stream.eos = true ∧ n ≤ s.stream.input.length ∧ s.stream.input.length < n + 4) →
    let payload := (s.stream.input.drop 4).take (n - 4)
    let t : State :=
      { s with
        frame := some { hdr := h, payload := payload, pending := true }
        hdr := headerRegisters h s.stream.pos payload
        stream := { s.stream with
          input := s.stream.input.drop n, pos := s.stream.pos + n, nframes := s.stream.nframes + 1
          mode := .strict, kind := .mpeg
          word := if s.stream.mode = .initial then h &&& 0xFFFE0C00#32 else s.stream.word }
        flags := { s.flags with frameValid := true, eosSeen := false }
        result := 0, cur := none, irqPend := s.irqPend ||| 0b10001#5 }
    exec .readFrame s = .next
      (if s.stream.mode = .initial then
        (match parseVbr payload (fieldsOf h) with
        | .absent => t
        | .found v => { t with vbr := v }
        | .corrupt =>
          { t with
            err := s.err.record .corruptVbrHeader 0x02 0
            flags := { s.flags with frameValid := true, eosSeen := false, vbrCorrupt := true }
            irqPend := s.irqPend ||| 0b10011#5 })
      else t)

/-- R145, R150, R157, R215: on a rejected candidate, with the scan window not used up, READ_FRAME and LOAD_CLIP move the cursor by one byte, count it, and go on. -/
def Obligations.ReadsSkipOneByte : Prop :=
  ∀ (s t : State) (j : Job) (h : Word),
    s.cur = some j → s.stream.mode ≠ .failed →
    (s.stream.kind = .mpeg ∨ s.stream.kind = .unknown ∧ s.stream.input.take 4 ≠ [0x52, 0x49, 0x46, 0x46]) →
    4 ≤ s.stream.input.length → h = be32 s.stream.input 0 →
    (syncMark h s.stream.mode s.stream.word = false ∨
      frameLen h + 4 ≤ s.stream.input.length ∧
        syncMark (be32 s.stream.input (frameLen h)) s.stream.mode s.stream.word = false) →
    t = { s with
          stream := { s.stream with input := s.stream.input.drop 1, pos := s.stream.pos + 1, kind := .mpeg }
          counters := { s.counters with resyncBytes := s.counters.resyncBytes + 1 } } →
    (∀ k, j.progress = .reading k → k ≠ s.cfg.maxResync →
      exec .readFrame s = .next { t with cur := some { j with progress := .reading (k + 1) } }) ∧
    (∀ c l, j.progress = .loading l → l.skipped ≠ s.cfg.maxResync →
      exec (.loadClip c) s = .next
        { t with cur := some { j with progress := .loading { l with skipped := l.skipped + 1 } } })

/-- R145, R150, R179: READ_FRAME and LOAD_CLIP wait, changing nothing, for the bytes of the candidate and the next header while EOS is not set.
That a wait of LOAD_CLIP also leaves the stream kind undecided is the model's reading (log 10): R145 says 'no effect' of READ_FRAME only.
That it holds with a progress record of another command too, which no run reaches, is the model's choice (log 16). -/
def Obligations.ReadsHoldForInput : Prop :=
  ∀ (s : State) (j : Job) (i : Instr),
    s.cur = some j → (i = .readFrame ∨ ∃ c, i = .loadClip c) → s.stream.eos = false → s.stream.mode ≠ .failed →
    s.stream.kind ≠ .wav →
    (s.stream.input.length < 4 ∨
      (s.stream.kind = .mpeg ∨ s.stream.input.take 4 ≠ [0x52, 0x49, 0x46, 0x46]) ∧
        syncMark (be32 s.stream.input 0) s.stream.mode s.stream.word = true ∧
        s.stream.input.length < frameLen (be32 s.stream.input 0) + 4) →
    exec i s = .next s

/-- R145, R146, R150, R151, R157, R176: the ways READ_FRAME ends without a frame.
The end of the stream, reached with fewer than four bytes left or with a frame cut off, ends it with END_OF_STREAM and closes a bound ring; a stream that begins with "RIFF" is WAV, and READ_FRAME ends with RESULT 3 without scanning.
It fails with MALFORMED_STREAM when a candidate is rejected with the scan window used up, and at once in FAILED mode.
That the clauses without a progress record hold with one of another command, which no run reaches, is the model's choice (log 16). -/
def Obligations.ReadFrameEnds : Prop :=
  (∀ (s : State) (j : Job),
    s.cur = some j → s.stream.eos = true → s.stream.mode ≠ .failed → s.stream.kind ≠ .wav →
    (s.stream.input.length < 4 ∨
      (s.stream.kind = .mpeg ∨ s.stream.input.take 4 ≠ [0x52, 0x49, 0x46, 0x46]) ∧
        syncMark (be32 s.stream.input 0) s.stream.mode s.stream.word = true ∧
        s.stream.input.length < frameLen (be32 s.stream.input 0)) →
    exec .readFrame s = .next
      { s with
        stream := { s.stream with kind := .mpeg }
        flags := { s.flags with eosSeen := true }
        ring := if s.ring.bound = true then { s.ring with closed := true } else s.ring
        result := 1, cur := none, irqPend := s.irqPend ||| 0b00001#5 }) ∧
  (∀ (s : State) (j : Job), s.cur = some j → s.stream.mode ≠ .failed →
    (s.stream.kind = .wav ∨
      s.stream.kind = .unknown ∧ s.stream.input.take 4 = [0x52, 0x49, 0x46, 0x46]) →
    exec .readFrame s = .next
      { s with
        stream := { s.stream with kind := .wav }
        flags := { s.flags with eosSeen := false }
        result := 3, cur := none, irqPend := s.irqPend ||| 0b00001#5 }) ∧
  (∀ (s : State) (j : Job), s.cur = some j → s.stream.mode = .failed →
    exec .readFrame s = .next
      { s with
        flags := { s.flags with eosSeen := false }
        ring := if s.ring.bound = true then { s.ring with closed := true } else s.ring
        err := s.err.record .malformedStream 0x02 0
        result := 2, cur := none, irqPend := s.irqPend ||| 0b00011#5 }) ∧
  (∀ (s : State) (j : Job) (h : Word),
    s.cur = some j → j.progress = .reading s.cfg.maxResync → s.stream.mode ≠ .failed →
    (s.stream.kind = .mpeg ∨ s.stream.kind = .unknown ∧ s.stream.input.take 4 ≠ [0x52, 0x49, 0x46, 0x46]) →
    4 ≤ s.stream.input.length → h = be32 s.stream.input 0 →
    (syncMark h s.stream.mode s.stream.word = false ∨
      frameLen h + 4 ≤ s.stream.input.length ∧
        syncMark (be32 s.stream.input (frameLen h)) s.stream.mode s.stream.word = false) →
    exec .readFrame s = .next
      { s with
        stream := { s.stream with mode := .failed, kind := .mpeg }
        flags := { s.flags with eosSeen := false }
        ring := if s.ring.bound = true then { s.ring with closed := true } else s.ring
        err := s.err.record .malformedStream 0x02 0
        result := 2, cur := none, irqPend := s.irqPend ||| 0b00011#5 })

/-- R158, R162: the frame lengths of all legal headers, with both bounds reached, and the slot count of Layer III. -/
def Obligations.FrameLengthBounds : Prop :=
  (∀ h : Word, headerOk h = true → 24 ≤ frameLen h ∧ frameLen h ≤ 1729) ∧
  headerOk 0xFFF21400#32 = true ∧ frameLen 0xFFF21400#32 = 24 ∧
  headerOk 0xFFFCEA00#32 = true ∧ frameLen 0xFFFCEA00#32 = 1729 ∧
  (∀ h : Word, headerOk h = true → (fieldsOf h).layer = .III → 1 ≤ slotCountOf (fieldsOf h))

/-- R41 to R46, R111, R112, R114, R152, R153, R159 to R169: which header words are legal, when a candidate is one, and what each header register shows of an accepted header `h` at stream index `p`. -/
def Obligations.HeaderRegisters : Prop :=
  (∀ h : Word, headerOk h = true ↔
    h.extractLsb' 21 11 = 0x7FF#11 ∧ h.extractLsb' 19 2 ≠ 1#2 ∧ h.extractLsb' 17 2 ≠ 0#2 ∧
    h.extractLsb' 12 4 ≠ 0#4 ∧ h.extractLsb' 12 4 ≠ 15#4 ∧ h.extractLsb' 10 2 ≠ 3#2) ∧
  (∀ h word : Word, syncMark h .initial word = headerOk h ∧ syncMark h .failed word = false ∧
    (syncMark h .strict word = true ↔ headerOk h = true ∧ h &&& 0xFFFE0C00#32 = word)) ∧
  (∀ (h : Word) (p : Nat) (payload : List Byte) (version layer index srate mode ext ch br sr len sub bound : Nat),
    headerOk h = true →
    version = (if h.extractLsb' 19 2 = 3#2 then 0 else if h.extractLsb' 19 2 = 2#2 then 1 else 2) →
    layer = 4 - (h.extractLsb' 17 2).toNat → index = (h.extractLsb' 12 4).toNat →
    srate = (h.extractLsb' 10 2).toNat → mode = (h.extractLsb' 6 2).toNat → ext = (h.extractLsb' 4 2).toNat →
    ch = (if mode = 3 then 1 else 2) →
    br = 1000 * ((if version = 0 then
        (if layer = 1 then [32, 64, 96, 128, 160, 192, 224, 256, 288, 320, 352, 384, 416, 448]
         else if layer = 2 then [32, 48, 56, 64, 80, 96, 112, 128, 160, 192, 224, 256, 320, 384]
         else [32, 40, 48, 56, 64, 80, 96, 112, 128, 160, 192, 224, 256, 320])
      else
        (if layer = 1 then [32, 48, 56, 64, 80, 96, 112, 128, 144, 160, 176, 192, 224, 256]
         else [8, 16, 24, 32, 40, 48, 56, 64, 80, 96, 112, 128, 144, 160]) : List Nat).getD (index - 1) 0) →
    sr = ((if version = 0 then [44100, 48000, 32000] else if version = 1 then [22050, 24000, 16000]
      else [11025, 12000, 8000] : List Nat).getD srate 0) →
    len = (if layer = 1 then (12 * br / sr + (h.extractLsb' 9 1).toNat) * 4
      else if version = 0 then 144 * br / sr + (h.extractLsb' 9 1).toNat
      else 144 * br / sr / 2 + (h.extractLsb' 9 1).toNat) →
    sub = (if layer = 1 then 32
      else if mode ≠ 3 ∧ index ∈ [4, 5, 6] ∨ mode = 3 ∧ index ∈ [1, 2] then (if srate = 2 then 12 else 8)
      else if srate = 1 ∨ mode ≠ 3 ∧ index ∈ [7, 8, 9] ∨ mode = 3 ∧ index ∈ [3, 4, 5] then 27 else 30) →
    bound = (if mode = 1 then min sub (4 * ext + 4) else 0) →
    let r := headerRegisters h p payload
    frameLen h = len ∧ r.raw = h ∧
    (r.fields.extractLsb' 0 2).toNat = version ∧ (r.fields.extractLsb' 2 2).toNat = layer ∧
    r.fields.getLsbD 4 = !h.getLsbD 16 ∧ r.fields.getLsbD 5 = h.getLsbD 9 ∧
    (r.fields.extractLsb' 6 4).toNat = index ∧ (r.fields.extractLsb' 10 2).toNat = srate ∧
    (r.fields.extractLsb' 12 2).toNat = mode ∧ (r.fields.extractLsb' 14 2).toNat = ext ∧
    r.fields.getLsbD 16 = h.getLsbD 3 ∧ r.fields.getLsbD 17 = h.getLsbD 2 ∧
    r.fields.extractLsb' 18 2 = h.extractLsb' 0 2 ∧ r.fields.getLsbD 20 = h.getLsbD 8 ∧
    (r.fields.extractLsb' 21 2).toNat = ch ∧ r.fields.extractLsb' 23 9 = 0#9 ∧
    r.bitrate.toNat = br ∧ r.sampleRate.toNat = sr ∧ r.frameLen.toNat = len ∧ r.frameSize.toNat = len - 4 ∧
    r.slotCount.toNat = (if layer = 3 then
      len - (if version = 0 then (if ch = 1 then 17 else 32) else (if ch = 1 then 9 else 17)) -
        (if h.getLsbD 16 = true then 0 else 2) - 4
      else 0) ∧
    (r.subbands.extractLsb' 0 6).toNat = sub ∧ (r.subbands.extractLsb' 8 6).toNat = bound ∧
    r.subbands.extractLsb' 6 2 = 0#2 ∧ r.subbands.extractLsb' 14 18 = 0#18 ∧
    r.framePos = BitVec.ofNat 32 p ∧
    r.samplesPerFrame.toNat = (if layer = 1 then 384 else if layer = 2 ∨ version = 0 then 1152 else 576) ∧
    r.crcStored = (if h.getLsbD 16 = true then 0#16 else payload.getD 0 0 ++ payload.getD 1 0) ∧ r.crcComputed = 0#16)

/-- R47, R48, R170 to R174: what ParseVbr finds in a payload `p`, all fields big-endian.
The tag "Xing" stands at the Layer III side-information size, and each field that its flags announce after the one before; the tag "VBRI" at 32.
A field that the payload cuts off makes the header corrupt; without a tag there is none. -/
def Obligations.VbrRegisters : Prop :=
  (∀ (p : List Byte) (i : Nat),
    (be32 p i).toNat = (p.getD i 0).toNat * 2 ^ 24 + (p.getD (i + 1) 0).toNat * 2 ^ 16 +
      (p.getD (i + 2) 0).toNat * 2 ^ 8 + (p.getD (i + 3) 0).toNat) ∧
  (∀ (p : List Byte) (f : HeaderFields) (x o1 o2 o3 o4 : Nat) (fl : Word),
    x = (if f.version = .v1 then (if f.mode = .mono then 17 else 32) else (if f.mode = .mono then 9 else 17)) →
    fl = be32 p (x + 4) → o1 = x + 8 + (if fl.getLsbD 0 = true then 4 else 0) →
    o2 = o1 + (if fl.getLsbD 1 = true then 4 else 0) → o3 = o2 + (if fl.getLsbD 2 = true then 100 else 0) →
    o4 = o3 + (if fl.getLsbD 3 = true then 4 else 0) →
    ((p.drop x).take 4 = [0x58, 0x69, 0x6E, 0x67] →
      (p.length < x + 8 ∨ p.length < o4 → parseVbr p f = .corrupt) ∧
      (x + 8 ≤ p.length → o4 ≤ p.length → ∃ info, parseVbr p f = .found
          { info := info
            frames := if fl.getLsbD 0 = true then be32 p (x + 8) else 0xFFFFFFFF#32
            bytes := if fl.getLsbD 1 = true then be32 p o1 else 0xFFFFFFFF#32
            toc := if fl.getLsbD 2 = true then (p.drop o2).take 100 else List.replicate 100 0
            scale := if fl.getLsbD 3 = true then be32 p o3 else 0xFFFFFFFF#32 } ∧
        info.extractLsb' 0 2 = 1#2 ∧ info.extractLsb' 2 2 = 0#2 ∧ info.extractLsb' 4 4 = fl.extractLsb' 0 4 ∧
        info.extractLsb' 8 24 = 0#24)) ∧
    ((p.drop x).take 4 ≠ [0x58, 0x69, 0x6E, 0x67] → (p.drop 32).take 4 = [0x56, 0x42, 0x52, 0x49] →
      (p.length < 50 → parseVbr p f = .corrupt) ∧
      (50 ≤ p.length → parseVbr p f = .found
        { info := 0x32, frames := be32 p 46, bytes := be32 p 42, scale := 0xFFFFFFFF#32
          toc := List.replicate 100 0 })) ∧
    ((p.drop x).take 4 ≠ [0x58, 0x69, 0x6E, 0x67] → (p.drop 32).take 4 ≠ [0x56, 0x42, 0x52, 0x49] →
      parseVbr p f = .absent))

/-- R190, R274: DECODE_FRAME without an undecoded frame raises NO_FRAME; with a bound, open ring that lacks room it completes with RESULT 2 and decodes nothing.
That the PcmSink keeps its samples with NO_FRAME is the model's choice (log 23): R320 and R323 change nothing there, D24 and R207 empty the sink at the start of every DECODE_FRAME. -/
def Obligations.DecodeFrameRefuses : Prop :=
  (∀ (s : State) (j : Job), s.cur = some j → (∀ f, s.frame = some f → f.pending = false) →
    exec .decodeFrame s = .next
      { s with err := s.err.record .noFrame 0x03 0, cur := none, irqPend := s.irqPend ||| 0b00011#5 }) ∧
  (∀ (s : State) (j : Job) (f : Frame), s.cur = some j → s.frame = some f → f.pending = true →
    s.ring.bound = true → s.ring.closed = false →
    s.cfg.ringCap - s.ring.buf.length < s.hdr.samplesPerFrame.toNat →
    exec .decodeFrame s = .next { s with result := 2, cur := none, irqPend := s.irqPend ||| 0b00001#5 })

/-- R190 to R193, R200 to R202, R205 to R207, R210: DECODE_FRAME on an undecoded frame, with room in the ring, completes.
Of a Layer III frame, the reservoir takes the slots, the bytes after the side information, whatever the result, and keeps its last 511 bytes (MPEG-1) or 255; a frame whose main_data_begin exceeds the reservoir before it is skipped.
Either the frame is decoded: RESULT 0, the sink holds spf × dch samples, and a bound open ring takes spf frames, each of rch samples: the decoded frame's own, in order, where dch is rch (where it is not, their values are free: log 11).
It is decoded exactly where its channel count is the decoder's and the layer decoder answers: `d` is the decoder once initialised, `X` the subband samples that enter the synthesis, and the sink and the delay lines are those of `synthesise` (SynthesisAndSilence).
Or it is skipped: RESULT 1, the sink is empty, SKIP_COUNT counts it, DECODE_ERROR is recorded, and the delay lines and the Layer III context of an initialised decoder are unchanged.
The main data of a frame are the last main_data_begin bytes of the reservoir and the slots, and a layer decoder sees nothing else of the reservoir.
It fixes no sample value: those are the open layer decoders' and SynthArith's. -/
def Obligations.DecodeFrameCompletes : Prop :=
  (∀ (s : State) (j : Job) (f : Frame) (side begin cap : Nat) (body res : List Byte) (d : Decoder),
    s.SinkOk → s.cur = some j → s.frame = some f → f.pending = true →
    side = (if f.fields.version = .v1 then (if f.fields.mode = .mono then 17 else 32)
      else (if f.fields.mode = .mono then 9 else 17)) →
    body = f.payload.drop (if f.fields.hasCrc = true then 2 else 0) →
    begin = (if f.fields.version = .v1 then 2 * (body.getD 0 0).toNat + (body.getD 1 0).toNat / 128
      else (body.getD 0 0).toNat) →
    cap = (if f.fields.version = .v1 then 511 else 255) → res = s.dec.res ++ body.drop side →
    d = (if s.dec.init = true then s.dec else
      { init := true, dch := channelsOf f.fields, drate := s.hdr.sampleRate.toNat
        delay := List.replicate (channelsOf f.fields) (List.replicate 1024 Config.synth.zero)
        l3 := Config.l3Initial, res := s.dec.res }) →
    (s.ring.bound = true → s.ring.closed = false →
      s.hdr.samplesPerFrame.toNat ≤ s.cfg.ringCap - s.ring.buf.length) →
    ∃ t, exec .decodeFrame s = .next t ∧
      t = { s with
            cur := none, frame := some { f with pending := false }
            result := t.result, err := t.err, irqPend := t.irqPend, dec := t.dec, sink := t.sink, ring := t.ring
            env := { s.env with ringTaken := t.env.ringTaken }
            flags := { s.flags with crcErr := t.flags.crcErr }
            counters := { s.counters with
              crcErrCount := t.counters.crcErrCount, skipCount := t.counters.skipCount }
            hdr := { s.hdr with crcComputed := t.hdr.crcComputed } } ∧
      t.irqPend &&& 0b00001#5 = 0b00001#5 ∧ t.irqPend &&& 0b10100#5 = s.irqPend &&& 0b10100#5 ∧
      t.dec.init = true ∧ t.sink.ch = t.dec.dch ∧ t.sink.addr = 0 ∧
      t.dec.res = (if f.fields.layer = .III then res.drop (res.length - cap) else s.dec.res) ∧
      t.dec.res.length ≤ 511 ∧
      (f.fields.layer = .III → s.dec.res.length < begin → t.result = 1) ∧
      (s.dec.init = true → t.dec.dch = s.dec.dch ∧ t.dec.drate = s.dec.drate) ∧
      (s.dec.init = false →
        t.dec.dch = channelsOf f.fields ∧ t.dec.drate = s.hdr.sampleRate.toNat) ∧
      t.dec.dch = d.dch ∧ t.dec.drate = d.drate ∧
      (∀ (out : DecodeOut) (X : Nat → Nat → Nat → Sys2Proof.Num), channelsOf f.fields = d.dch → decodeLayer f d = some out →
        (∀ c i k, X c i k =
          if f.fields.layer ≠ .III ∧ subbandsOf f.fields ≤ k then Config.synth.zero else out.x c i k) →
        t.result = 0 ∧ t.dec.l3 = (if f.fields.layer = .III then out.l3 else d.l3) ∧
        (t.dec.delay, t.sink.samples) = synthesise X (s.hdr.samplesPerFrame.toNat / 32) 0 d.delay) ∧
      (channelsOf f.fields ≠ d.dch ∨ decodeLayer f d = none →
        t.result = 1 ∧ t.dec.l3 = d.l3 ∧ t.dec.delay = d.delay) ∧
      (t.result = 0 ∧ t.dec.dch = channelsOf f.fields ∧ t.err = s.err ∧
          t.irqPend &&& 0b00010#5 = s.irqPend &&& 0b00010#5 ∧
          t.sink.samples.length = s.hdr.samplesPerFrame.toNat * t.dec.dch ∧
          t.counters.skipCount = s.counters.skipCount ∧
          (s.ring.bound = true ∧ s.ring.closed = false →
            ∃ fs, fs.length = s.hdr.samplesPerFrame.toNat ∧ t.ring = { s.ring with buf := s.ring.buf ++ fs } ∧
              (s.ring.ch = 1 ∨ s.ring.ch = 2 → ∀ f ∈ fs, f.samples.length = s.ring.ch) ∧
              (t.sink.ch = s.ring.ch → fs.flatMap RingFrame.samples = t.sink.samples)) ∧
          (¬ (s.ring.bound = true ∧ s.ring.closed = false) → t.ring = s.ring) ∨
        t.result = 1 ∧ t.sink.samples = [] ∧ t.err = s.err.record .decodeError 0x03 0 ∧
          t.irqPend &&& 0b00010#5 = 0b00010#5 ∧
          t.counters.skipCount = s.counters.skipCount + 1 ∧ t.ring = s.ring ∧
          (s.dec.init = true → t.dec.delay = s.dec.delay ∧ t.dec.l3 = s.dec.l3))) ∧
  (∀ (f : Frame) (side begin : Nat) (body res : List Byte),
    side = (if f.fields.version = .v1 then (if f.fields.mode = .mono then 17 else 32)
      else (if f.fields.mode = .mono then 9 else 17)) →
    body = f.payload.drop (if f.fields.hasCrc = true then 2 else 0) →
    begin = (if f.fields.version = .v1 then 2 * (body.getD 0 0).toNat + (body.getD 1 0).toNat / 128
      else (body.getD 0 0).toNat) →
    mainData f res =
      if res.length < begin then none else some (res.drop (res.length - begin) ++ body.drop side)) ∧
  (∀ (f : Frame) (dec : Decoder) (res : List Byte),
    (f.fields.layer = .III → mainData f res = mainData f dec.res) →
    decodeLayer f { dec with res := res } = decodeLayer f dec)

/-- R168, R190, R196 to R198: DECODE_FRAME checks the checksum of a frame that carries one: it shows the computed CRC and, on a difference, sets STATUS.CRC_ERR, counts it and sets IRQ_PEND.CRC, recording no error for it.
A frame without a checksum is not checked.
The CRC is that of the header's last 16 bits and the first N bits after the checksum, missing bits 0; Layer II's N is the open decoder's. -/
def Obligations.DecodeFrameChecksCrc : Prop :=
  (∀ (s t : State) (j : Job) (f : Frame),
    s.cur = some j → s.frame = some f → f.pending = true → exec .decodeFrame s = .next t → t.result ≠ 2 →
    (f.fields.hasCrc = true →
      t.hdr = { s.hdr with crcComputed := frameCrc f } ∧
      (frameCrc f = s.hdr.crcStored →
        t.flags = s.flags ∧ t.counters.crcErrCount = s.counters.crcErrCount ∧
        t.irqPend &&& 0b01000#5 = s.irqPend &&& 0b01000#5) ∧
      (frameCrc f ≠ s.hdr.crcStored →
        t.flags = { s.flags with crcErr := true } ∧ t.counters.crcErrCount = s.counters.crcErrCount + 1 ∧
        t.irqPend &&& 0b01000#5 = 0b01000#5)) ∧
    (f.fields.hasCrc = false →
      t.hdr = s.hdr ∧ t.flags = s.flags ∧ t.counters.crcErrCount = s.counters.crcErrCount ∧
      t.irqPend &&& 0b01000#5 = s.irqPend &&& 0b01000#5)) ∧
  crc16 [] = 0xFFFF#16 ∧
  (∀ (bs : List Bool) (x : Bool), crc16 (bs ++ [x]) =
    if (crc16 bs).getLsbD 15 ≠ x then (crc16 bs <<< 1) ^^^ 0x8005#16 else crc16 bs <<< 1) ∧
  crc16 (bytesBits [0x31, 0x32, 0x33, 0x34, 0x35, 0x36, 0x37, 0x38, 0x39]) = 0xAEE7#16 ∧
  (∀ (bs : List Byte) (i : Nat), i < 8 * bs.length →
    (bytesBits bs)[i]? = some ((bs.getD (i / 8) 0).getLsbD (7 - i % 8))) ∧
  (∀ (f : Frame) (n b : Nat), f.fields.hasCrc = true →
    b = (if f.fields.mode = .jointStereo then isBoundOf f.fields else 32) →
    n = (match f.fields.layer with
      | .I => if f.fields.mode = .mono then 128 else 4 * (2 * b + (32 - b))
      | .II => Config.l2ProtectedBits (codingOf f.fields) (f.payload.drop 2)
      | .III => 8 * (if f.fields.version = .v1 then (if f.fields.mode = .mono then 17 else 32)
          else (if f.fields.mode = .mono then 9 else 17))) →
    frameCrc f = crc16 ((List.range 16).map (fun i => f.hdr.getLsbD (15 - i)) ++
      (List.range n).map (fun i => (bytesBits (f.payload.drop 2)).getD i false)))

/-- R205, R206, R207: `synthesise` on the subband samples `x`, over `n` time slots from the delay lines `delay`.
`V t c i` is place i of the delay line of channel c before time slot t, and `U t c i` the vector U of that slot: each slot shifts the line by 64 and writes the 64 new sums of products with the cosine, whose angle has period 128 in units of π/64; U is taken from the line after the shift; the sample of place j of slot t and channel c stands at (32·t + j)·channels + c of the sink, rounded and clamped to 16 bits.
R206: filters created zero keep silence: while every subband sample is zero, every output of every time slot is zero, whatever the number format.
That R206 means every time slot, and not the first alone, is the model's reading (log 8). -/
def Obligations.SynthesisAndSilence : Prop :=
  (∀ (x : Nat → Nat → Nat → Sys2Proof.Num) (n : Nat) (delay : List (List Sys2Proof.Num)), ∃ V U : Nat → Nat → Nat → Sys2Proof.Num,
    (∀ c i, V 0 c i = (delay.getD c []).getD i Config.synth.zero) ∧
    (∀ t c i, i < 64 → V (t + 1) c i = Config.synth.sum ((List.range 32).map (fun k =>
      Config.synth.mul (Config.synth.cos64 ((16 + i) * (2 * k + 1) % 128)) (x c t k)))) ∧
    (∀ t c i, 64 ≤ i → i < 1024 → V (t + 1) c i = V t c (i - 64)) ∧
    (∀ t c i j, i < 8 → j < 32 →
      U t c (64 * i + j) = V (t + 1) c (128 * i + j) ∧ U t c (64 * i + 32 + j) = V (t + 1) c (128 * i + 96 + j)) ∧
    (synthesise x n 0 delay).1.length = delay.length ∧
    (∀ c i, c < delay.length → i < 1024 →
      ((synthesise x n 0 delay).1.getD c []).getD i Config.synth.zero = V n c i) ∧
    (synthesise x n 0 delay).2.length = 32 * n * delay.length ∧
    (∀ t j c, t < n → j < 32 → c < delay.length →
      (synthesise x n 0 delay).2[(32 * t + j) * delay.length + c]? =
        some (BitVec.ofInt 16 (min 32767 (max (-32768) (Config.synth.roundScaled
          (Config.synth.sum ((List.range 16).map (fun i =>
            Config.synth.mul (U t c (j + 32 * i)) (Config.dWindow (j + 32 * i))))))))))) ∧
  (∀ i j, i < 8 → j < 32 → uIndex (64 * i + j) = 128 * i + j ∧ uIndex (64 * i + 32 + j) = 128 * i + 96 + j) ∧
  (∀ (n j : Nat), j < 32 →
    slotOutput ((fun v => shiftDelay v (fun _ => Config.synth.zero))^[n + 1] (List.replicate 1024 Config.synth.zero)) j =
      Config.synth.zero)

/-- R115, R116, R195, R197, R200, R202: the layer decoders and Layer II's protected bits see nothing of the private, copyright and original bits and of the emphasis, and see the mode extension in joint stereo only.
A layer decoder runs on readers over the bytes after the checksum, for Layer III over the side information and the main data; a reader that over-reads makes the frame a skipped one whatever the decoder answered, and so does main data that begins before the reservoir.
GetBits reads n bits, most significant first, a 0 for each bit past the end, where it sets the over-read flag; the cursor moves by n. -/
def Obligations.LayerDecoderContract : Prop :=
  (∀ (f g : Frame) (dec : Decoder), f.payload = g.payload → f.fields.version = g.fields.version →
    f.fields.layer = g.fields.layer → f.fields.hasCrc = g.fields.hasCrc →
    f.fields.bitrateIndex = g.fields.bitrateIndex → f.fields.srateIndex = g.fields.srateIndex →
    f.fields.padded = g.fields.padded → f.fields.mode = g.fields.mode →
    (f.fields.mode = .jointStereo → f.fields.modeExt = g.fields.modeExt) →
    (∀ spf, decodeWith f spf dec = decodeWith g spf dec) ∧
    protectedBits f.fields (layerData f.fields f.payload) = protectedBits g.fields (layerData g.fields g.payload)) ∧
  (∀ (f : Frame) (dec : Decoder) (p : DecodeProg) (side : Nat) (body sideBytes main : List Byte)
    (out : Option DecodeOut) (rs rm : Reader),
    side = (if f.fields.version = .v1 then (if f.fields.mode = .mono then 17 else 32)
      else (if f.fields.mode = .mono then 9 else 17)) →
    body = f.payload.drop (if f.fields.hasCrc = true then 2 else 0) →
    p = (match f.fields.layer with
      | .I => Config.decodeL1 (codingOf f.fields)
      | .II => Config.decodeL2 (codingOf f.fields)
      | .III => Config.decodeL3 (codingOf f.fields) dec.l3) →
    sideBytes = (if f.fields.layer = .III then body.take side else body) →
    (f.fields.layer = .III → mainData f dec.res = some main) → (f.fields.layer ≠ .III → main = []) →
    runDecoder p ⟨sideBytes, 0, false⟩ ⟨main, 0, false⟩ = (out, rs, rm) →
    decodeLayer f dec = if rs.overRead = true ∨ rm.overRead = true then none else out) ∧
  (∀ (f : Frame) (dec : Decoder), f.fields.layer = .III → mainData f dec.res = none → decodeLayer f dec = none) ∧
  (∀ (o : Option DecodeOut) (side main : Reader), runDecoder (.done o) side main = (o, side, main)) ∧
  (∀ (n : Fin 33) (k : Word → DecodeProg) (side main : Reader),
    runDecoder (.getBits false n k) side main = runDecoder (k (side.getBits n.val).1) (side.getBits n.val).2 main ∧
    runDecoder (.getBits true n k) side main = runDecoder (k (main.getBits n.val).1) side (main.getBits n.val).2) ∧
  (∀ (r : Reader) (n : Nat), n ≤ 32 →
    (r.getBits n).2.bytes = r.bytes ∧ (r.getBits n).2.cursor = r.cursor + n ∧
    ((r.getBits n).2.overRead = true ↔ r.overRead = true ∨ 0 < n ∧ 8 * r.bytes.length < r.cursor + n) ∧
    (∀ i, n ≤ i → (r.getBits n).1.getLsbD i = false) ∧
    (∀ i, i < n → (r.getBits n).1.getLsbD (n - 1 - i) =
      if r.cursor + i < 8 * r.bytes.length then
        (r.bytes.getD ((r.cursor + i) / 8) 0).getLsbD (7 - (r.cursor + i) % 8)
      else false))

/-! ### LOAD_CLIP -/

/-- R215: LOAD_CLIP at the end of the stream, with at least one frame decoded, makes the clip: RESULT is its length, the descriptor and CLIP_ALLOC are written, clip memory is unchanged.
LOAD_CLIP fails, leaving every descriptor, CLIP_ALLOC and clip memory alone: MALFORMED_STREAM when the stream ends with no frame decoded or the synchroniser has failed, NOT_MPEG on a WAV stream.
That the clauses without a progress record hold with one of another command, which no run reaches, is the model's choice (log 16). -/
def Obligations.LoadClipEndsOrFails : Prop :=
  (∀ (s : State) (j : Job) (c : Nat) (l : LoadProgress),
    s.cur = some j → j.progress = .loading l → l.nfr ≠ 0 →
    s.stream.eos = true → s.stream.mode ≠ .failed → s.stream.kind ≠ .wav →
    (s.stream.input.length < 4 ∨
      (s.stream.kind = .mpeg ∨ s.stream.input.take 4 ≠ [0x52, 0x49, 0x46, 0x46]) ∧
        syncMark (be32 s.stream.input 0) s.stream.mode s.stream.word = true ∧
        s.stream.input.length < frameLen (be32 s.stream.input 0)) →
    exec (.loadClip c) s = .next
      { s with
        stream := { s.stream with kind := .mpeg }
        flags := { s.flags with eosSeen := true }
        clips := { s.clips with
          descs := s.clips.descs.set c
            { valid := true, base := l.base, len := l.w / l.ch, rate := l.rate, ch := l.ch }
          alloc := l.base + l.w }
        result := BitVec.ofNat 32 (l.w / l.ch), cur := none, irqPend := s.irqPend ||| 0b00001#5 }) ∧
  (∀ (s : State) (j : Job) (c : Nat) (l : LoadProgress),
    s.cur = some j → j.progress = .loading l → l.nfr = 0 →
    s.stream.eos = true → s.stream.mode ≠ .failed → s.stream.kind ≠ .wav →
    (s.stream.input.length < 4 ∨
      (s.stream.kind = .mpeg ∨ s.stream.input.take 4 ≠ [0x52, 0x49, 0x46, 0x46]) ∧
        syncMark (be32 s.stream.input 0) s.stream.mode s.stream.word = true ∧
        s.stream.input.length < frameLen (be32 s.stream.input 0)) →
    exec (.loadClip c) s = .next
      { s with
        stream := { s.stream with kind := .mpeg }, flags := { s.flags with eosSeen := true }
        err := s.err.record .malformedStream 0x04 (BitVec.ofNat 8 c)
        cur := none, irqPend := s.irqPend ||| 0b00011#5 }) ∧
  (∀ (s : State) (j : Job) (c : Nat), s.cur = some j → s.stream.mode = .failed →
    exec (.loadClip c) s = .next
      { s with
        flags := { s.flags with eosSeen := false }
        err := s.err.record .malformedStream 0x04 (BitVec.ofNat 8 c)
        cur := none, irqPend := s.irqPend ||| 0b00011#5 }) ∧
  (∀ (s : State) (j : Job) (c : Nat) (l : LoadProgress) (h : Word),
    s.cur = some j → j.progress = .loading l → l.skipped = s.cfg.maxResync → s.stream.mode ≠ .failed →
    (s.stream.kind = .mpeg ∨ s.stream.kind = .unknown ∧ s.stream.input.take 4 ≠ [0x52, 0x49, 0x46, 0x46]) →
    4 ≤ s.stream.input.length → h = be32 s.stream.input 0 →
    (syncMark h s.stream.mode s.stream.word = false ∨
      frameLen h + 4 ≤ s.stream.input.length ∧
        syncMark (be32 s.stream.input (frameLen h)) s.stream.mode s.stream.word = false) →
    exec (.loadClip c) s = .next
      { s with
        stream := { s.stream with mode := .failed, kind := .mpeg }
        flags := { s.flags with eosSeen := false }
        err := s.err.record .malformedStream 0x04 (BitVec.ofNat 8 c)
        cur := none, irqPend := s.irqPend ||| 0b00011#5 }) ∧
  (∀ (s : State) (j : Job) (c : Nat), s.cur = some j → s.stream.mode ≠ .failed →
    (s.stream.kind = .wav ∨
      s.stream.kind = .unknown ∧ s.stream.input.take 4 = [0x52, 0x49, 0x46, 0x46]) →
    exec (.loadClip c) s = .next
      { s with
        stream := { s.stream with kind := .wav }
        flags := { s.flags with eosSeen := false }
        err := s.err.record .notMpeg 0x04 (BitVec.ofNat 8 c)
        cur := none, irqPend := s.irqPend ||| 0b00011#5 })

/-- R156, R174, R190 to R193, R198, R200 to R202, R205, R207, R215: a LOAD_CLIP step on a confirmed candidate accepts the frame, as READ_FRAME does, and decodes it, as DECODE_FRAME does.
`a` is what acceptance leaves, with the frame no longer pending; a corrupt VBR header of the first frame is recorded with OP 0x04 and IDX 0 (R174; log 19).
The checksum, the decoder and the reservoir are as DECODE_FRAME leaves them, and the frame is decoded exactly where DECODE_FRAME would decode it, into the same samples.
A decoded frame that fits is written at the load's write pointer, cell by cell, and every other cell reads as before; one that does not fit raises CLIP_FULL and writes nothing; a skipped frame changes no cell and the load goes on, with DECODE_ERROR recorded with OP 0x04 and IDX 0 (R192; log 19).
No descriptor and no allocation changes. -/
def Obligations.LoadClipStoresFrame : Prop :=
  ∀ (s a : State) (j : Job) (c n side begin cap spf : Nat) (l : LoadProgress) (h : Word) (f : Frame)
    (payload body res : List Byte) (v : VbrResult) (d : Decoder),
    s.MemOk → s.SinkOk → s.cur = some j → j.progress = .loading l → s.stream.mode ≠ .failed →
    (s.stream.kind = .mpeg ∨ s.stream.kind = .unknown ∧ s.stream.input.take 4 ≠ [0x52, 0x49, 0x46, 0x46]) →
    h = be32 s.stream.input 0 → n = frameLen h → syncMark h s.stream.mode s.stream.word = true →
    (n + 4 ≤ s.stream.input.length ∧ syncMark (be32 s.stream.input n) s.stream.mode s.stream.word = true ∨
      s.stream.eos = true ∧ n ≤ s.stream.input.length ∧ s.stream.input.length < n + 4) →
    payload = (s.stream.input.drop 4).take (n - 4) → f = { hdr := h, payload := payload, pending := true } →
    v = (if s.stream.mode = .initial then parseVbr payload (fieldsOf h) else .absent) →
    a = { s with
          frame := some { hdr := h, payload := payload, pending := false }
          hdr := headerRegisters h s.stream.pos payload
          stream := { s.stream with
            input := s.stream.input.drop n, pos := s.stream.pos + n, nframes := s.stream.nframes + 1
            mode := .strict, kind := .mpeg
            word := if s.stream.mode = .initial then h &&& 0xFFFE0C00#32 else s.stream.word }
          vbr := match v with | .found r => r | _ => s.vbr
          flags := { s.flags with
            frameValid := true, vbrCorrupt := match v with | .corrupt => true | _ => s.flags.vbrCorrupt }
          err := match v with | .corrupt => s.err.record .corruptVbrHeader 0x04 0 | _ => s.err
          irqPend := match v with | .corrupt => s.irqPend ||| 0b10010#5 | _ => s.irqPend ||| 0b10000#5 } →
    side = (if f.fields.version = .v1 then (if f.fields.mode = .mono then 17 else 32)
      else (if f.fields.mode = .mono then 9 else 17)) →
    body = payload.drop (if f.fields.hasCrc = true then 2 else 0) →
    begin = (if f.fields.version = .v1 then 2 * (body.getD 0 0).toNat + (body.getD 1 0).toNat / 128
      else (body.getD 0 0).toNat) →
    cap = (if f.fields.version = .v1 then 511 else 255) → res = s.dec.res ++ body.drop side →
    spf = (if f.fields.layer = .I then 384 else if f.fields.layer = .II ∨ f.fields.version = .v1 then 1152 else 576) →
    d = (if s.dec.init = true then s.dec else
      { init := true, dch := channelsOf f.fields, drate := a.hdr.sampleRate.toNat
        delay := List.replicate (channelsOf f.fields) (List.replicate 1024 Config.synth.zero)
        l3 := Config.l3Initial, res := s.dec.res }) →
    ∃ t, exec (.loadClip c) s = .next t ∧
      t = { a with
            cur := t.cur, clips := { s.clips with mem := t.clips.mem }, dec := t.dec, sink := t.sink
            err := t.err, irqPend := t.irqPend
            hdr := { a.hdr with crcComputed := t.hdr.crcComputed }
            flags := { a.flags with crcErr := t.flags.crcErr }
            counters := { a.counters with
              crcErrCount := t.counters.crcErrCount, skipCount := t.counters.skipCount } } ∧
      t.irqPend &&& 0b10100#5 = a.irqPend &&& 0b10100#5 ∧
      (f.fields.hasCrc = true →
        t.hdr.crcComputed = frameCrc f ∧
        (frameCrc f = a.hdr.crcStored →
          t.flags.crcErr = s.flags.crcErr ∧ t.counters.crcErrCount = s.counters.crcErrCount ∧
          t.irqPend &&& 0b01000#5 = s.irqPend &&& 0b01000#5) ∧
        (frameCrc f ≠ a.hdr.crcStored →
          t.flags.crcErr = true ∧ t.counters.crcErrCount = s.counters.crcErrCount + 1 ∧
          t.irqPend &&& 0b01000#5 = 0b01000#5)) ∧
      (f.fields.hasCrc = false →
        t.hdr.crcComputed = 0 ∧ t.flags.crcErr = s.flags.crcErr ∧
        t.counters.crcErrCount = s.counters.crcErrCount ∧
        t.irqPend &&& 0b01000#5 = s.irqPend &&& 0b01000#5) ∧
      t.dec.init = true ∧ t.sink.ch = t.dec.dch ∧ t.sink.addr = 0 ∧
      (s.dec.init = true → t.dec.dch = s.dec.dch ∧ t.dec.drate = s.dec.drate) ∧
      (s.dec.init = false →
        t.dec.dch = (if f.fields.mode = .mono then 1 else 2) ∧ t.dec.drate = a.hdr.sampleRate.toNat) ∧
      t.dec.res = (if f.fields.layer = .III then res.drop (res.length - cap) else s.dec.res) ∧
      (f.fields.layer = .III → s.dec.res.length < begin → t.sink.samples = []) ∧
      t.dec.dch = d.dch ∧ t.dec.drate = d.drate ∧
      (∀ (out : DecodeOut) (X : Nat → Nat → Nat → Sys2Proof.Num), channelsOf f.fields = d.dch → decodeLayer f d = some out →
        (∀ c i k, X c i k =
          if f.fields.layer ≠ .III ∧ subbandsOf f.fields ≤ k then Config.synth.zero else out.x c i k) →
        t.counters.skipCount = s.counters.skipCount ∧
        t.dec.l3 = (if f.fields.layer = .III then out.l3 else d.l3) ∧
        (t.dec.delay, t.sink.samples) = synthesise X (spf / 32) 0 d.delay) ∧
      (channelsOf f.fields ≠ d.dch ∨ decodeLayer f d = none →
        t.counters.skipCount = s.counters.skipCount + 1 ∧ t.dec.l3 = d.l3 ∧ t.dec.delay = d.delay) ∧
      (t.dec.dch = (if f.fields.mode = .mono then 1 else 2) ∧
          t.sink.samples.length = spf * t.dec.dch ∧ t.counters.skipCount = s.counters.skipCount ∧
          (l.base + l.w + t.sink.samples.length ≤ s.cfg.clipMemSamples →
            t.err = a.err ∧ t.irqPend &&& 0b00011#5 = a.irqPend &&& 0b00011#5 ∧
            t.cur = some ⟨j.instr, j.arg0, j.arg1, .loading
              { base := l.base, w := l.w + t.sink.samples.length, nfr := l.nfr + 1
                ch := if l.nfr = 0 then t.dec.dch else l.ch
                rate := if l.nfr = 0 then t.dec.drate else l.rate
                skipped := 0 }⟩ ∧
            (∀ i x, t.sink.samples[i]? = some x → Memory.read? t.clips.mem (l.base + l.w + i) = some x) ∧
            (∀ i, i < l.base + l.w ∨ l.base + l.w + t.sink.samples.length ≤ i →
              Memory.read? t.clips.mem i = Memory.read? s.clips.mem i)) ∧
          (s.cfg.clipMemSamples < l.base + l.w + t.sink.samples.length →
            t.err = a.err.record .clipFull 0x04 (BitVec.ofNat 8 c) ∧
            t.irqPend &&& 0b00011#5 = 0b00011#5 ∧ t.cur = none ∧ t.clips.mem = s.clips.mem) ∨
        t.sink.samples = [] ∧ t.counters.skipCount = s.counters.skipCount + 1 ∧
          t.err = a.err.record .decodeError 0x04 0 ∧
          t.irqPend &&& 0b00011#5 = a.irqPend &&& 0b00011#5 ||| 0b00010#5 ∧
          t.cur = some { j with progress := .loading { l with skipped := 0 } } ∧ t.clips.mem = s.clips.mem ∧
          (s.dec.init = true → t.dec.delay = s.dec.delay ∧ t.dec.l3 = s.dec.l3))

/-! ### The clip store commands -/

/-- R106, R300, R301: CLIP_DEFINE with a legal format and room makes a zero-filled clip at the allocator pointer; every other cell reads as before.
Its three checks come first, in their order.
CLIP_FREE_ALL empties the store, the contents of clip memory kept, unless a clip voice is in use. -/
def Obligations.ClipDefineAndFreeAll : Prop :=
  (∀ (s : State) (j : Job) (c len rate ch : Nat),
    s.MemOk → s.cur = some j → c < s.nClips →
    len = j.arg0.toNat → rate = j.arg1.toNat % 2 ^ 20 → ch = j.arg1.toNat / 2 ^ 20 → ch = 1 ∨ ch = 2 → rate ≠ 0 →
    s.clips.alloc + len * ch ≤ s.cfg.clipMemSamples →
    ∃ t, exec (.clipDefine c) s = .next t ∧
      t = { s with
            clips := t.clips, result := BitVec.ofNat 32 s.clips.alloc, cur := none
            irqPend := s.irqPend ||| 0b00001#5 } ∧
      t.clips = { s.clips with
        mem := t.clips.mem, alloc := s.clips.alloc + len * ch
        descs := s.clips.descs.set c
          { valid := true, base := s.clips.alloc, len := len, rate := rate, ch := ch } } ∧
      (∀ n, s.clips.alloc ≤ n → n < s.clips.alloc + len * ch → Memory.read? t.clips.mem n = some 0) ∧
      (∀ n, n < s.clips.alloc ∨ s.clips.alloc + len * ch ≤ n →
        Memory.read? t.clips.mem n = Memory.read? s.clips.mem n)) ∧
  (∀ (s : State) (j : Job) (c : Nat), s.cur = some j →
    (s.nClips ≤ c → exec (.clipDefine c) s = .next (s.raise .badIndex 0x08 (BitVec.ofNat 8 c))) ∧
    (c < s.nClips →
      ¬ ((j.arg1.toNat / 2 ^ 20 = 1 ∨ j.arg1.toNat / 2 ^ 20 = 2) ∧ j.arg1.toNat % 2 ^ 20 ≠ 0) →
      exec (.clipDefine c) s = .next (s.raise .badCommand 0x08 (BitVec.ofNat 8 c))) ∧
    (c < s.nClips →
      ((j.arg1.toNat / 2 ^ 20 = 1 ∨ j.arg1.toNat / 2 ^ 20 = 2) ∧ j.arg1.toNat % 2 ^ 20 ≠ 0) →
      s.cfg.clipMemSamples < s.clips.alloc + j.arg0.toNat * (j.arg1.toNat / 2 ^ 20) →
      exec (.clipDefine c) s = .next (s.raise .clipFull 0x08 (BitVec.ofNat 8 c)))) ∧
  (∀ (s : State) (j : Job), s.cur = some j →
    ((∀ x ∈ s.voices, x.onClip = false) →
      exec .clipFreeAll s = .next
        { s with
          clips := { s.clips with descs := List.replicate s.nClips ⟨false, 0, 0, 0, 0⟩, alloc := 0 }
          result := 0, cur := none, irqPend := s.irqPend ||| 0b00001#5 }) ∧
    ((∃ x ∈ s.voices, x.onClip = true) → exec .clipFreeAll s = .next (s.raise .clipBusy 0x09 0)))

/-! ### The voice commands -/

/-- R102, R103, R232: PLAY_VOICE of a valid clip at 44100 Hz puts a new playing voice in the lowest free slot and queues it; the volume is ARG0 as a signed number clamped to [0, 32768].
Its checks come first, in their order. -/
def Obligations.PlayVoice : Prop :=
  (∀ (s : State) (j : Job) (c v : Nat) (loop : Bool) (d : ClipDesc),
    s.cur = some j → s.clips.descs[c]? = some d → d.valid = true → d.rate = 44100 →
    v < s.nVoices → (s.voiceAt v).inUse = false → (∀ u, u < v → (s.voiceAt u).inUse = true) →
    exec (.playVoice c loop) s = .next
      { s with
        voices := s.voices.set v
          { state := .playing, loop := loop, stream := false, pending := true, active := false, clip := c
            base := d.base, len := d.len, ch := d.ch, rate := d.rate, pos := 0
            vol := (min 32768 (max 0 j.arg0.toInt)).toNat }
        mixer := { s.mixer with fifo := s.mixer.fifo ++ [v] }
        result := BitVec.ofNat 32 v, cur := none, irqPend := s.irqPend ||| 0b00001#5 }) ∧
  (∀ (s : State) (j : Job) (c : Nat) (loop : Bool), s.cur = some j →
    (s.nClips ≤ c → exec (.playVoice c loop) s = .next (s.raise .badIndex 0x13 (BitVec.ofNat 8 c))) ∧
    (∀ d, s.clips.descs[c]? = some d →
      (d.valid = false →
        exec (.playVoice c loop) s = .next (s.raise .unknownSoundKey 0x13 (BitVec.ofNat 8 c))) ∧
      (d.valid = true → d.rate ≠ 44100 →
        exec (.playVoice c loop) s = .next (s.raise .formatMismatch 0x13 (BitVec.ofNat 8 c))) ∧
      (d.valid = true → d.rate = 44100 → (∀ u, u < s.nVoices → (s.voiceAt u).inUse = true) →
        exec (.playVoice c loop) s = .next (s.raise .voiceLimit 0x13 (BitVec.ofNat 8 c)))))

/-- R233: PAUSE_VOICE, RESUME_VOICE, STOP_VOICE, SET_VOLUME and SET_LOOP on a slot past the last raise BAD_INDEX; on a free slot they complete with RESULT 1 and no other effect; otherwise, SET_LOOP on a stream voice apart (R238), they complete with RESULT 0. -/
def Obligations.VoiceOperandCheck : Prop :=
  ∀ (s : State) (j : Job) (v : Nat) (loop : Bool) (i : Instr), s.cur = some j →
    i ∈ [Instr.pauseVoice v, .resumeVoice v, .stopVoice v, .setVolume v, .setLoop v loop] →
    (s.nVoices ≤ v → exec i s = .next (s.raise .badIndex i.opcode (BitVec.ofNat 8 v))) ∧
    (v < s.nVoices → (s.voiceAt v).inUse = false →
      exec i s = .next { s with result := 1, cur := none, irqPend := s.irqPend ||| 0b00001#5 }) ∧
    (v < s.nVoices → (s.voiceAt v).inUse = true → (i = .setLoop v loop → (s.voiceAt v).stream = false) →
      ∃ t, exec i s = .next t ∧ t.result = 0 ∧ t.cur = none ∧ t.irqPend = s.irqPend ||| 0b00001#5)

/-- R102, R103, R234 to R238: PAUSE_VOICE, RESUME_VOICE and STOP_VOICE on a slot in use complete with RESULT 0 and change only its state: PLAYING to PAUSED, PAUSED to PLAYING, any to STOPPED.
SET_VOLUME stores the clamped volume; SET_LOOP stores the flag of a clip voice and raises BAD_STATE on a stream voice. -/
def Obligations.VoiceCommandResults : Prop :=
  (∀ (s : State) (j : Job) (v : Nat), s.cur = some j → v < s.nVoices → (s.voiceAt v).inUse = true →
    exec (.pauseVoice v) s = .next
      { s with
        voices := s.voices.set v { s.voiceAt v with
          state := if (s.voiceAt v).state = .playing then .paused else (s.voiceAt v).state }
        result := 0, cur := none, irqPend := s.irqPend ||| 0b00001#5 } ∧
    exec (.resumeVoice v) s = .next
      { s with
        voices := s.voices.set v { s.voiceAt v with
          state := if (s.voiceAt v).state = .paused then .playing else (s.voiceAt v).state }
        result := 0, cur := none, irqPend := s.irqPend ||| 0b00001#5 } ∧
    exec (.stopVoice v) s = .next
      { s with
        voices := s.voices.set v { s.voiceAt v with state := .stopped }
        result := 0, cur := none, irqPend := s.irqPend ||| 0b00001#5 }) ∧
  (∀ (s : State) (j : Job) (v : Nat) (loop : Bool),
    s.cur = some j → v < s.nVoices → (s.voiceAt v).inUse = true →
    exec (.setVolume v) s = .next
      { s with
        voices := s.voices.set v { s.voiceAt v with vol := (min 32768 (max 0 j.arg0.toInt)).toNat }
        result := 0, cur := none, irqPend := s.irqPend ||| 0b00001#5 } ∧
    ((s.voiceAt v).stream = false → exec (.setLoop v loop) s = .next
      { s with
        voices := s.voices.set v { s.voiceAt v with loop := loop }
        result := 0, cur := none, irqPend := s.irqPend ||| 0b00001#5 }) ∧
    ((s.voiceAt v).stream = true →
      exec (.setLoop v loop) s = .next (s.raise .badState 0x18 (BitVec.ofNat 8 v))))

/-- R270: PLAY_STREAM with no ring bound, after a frame of a 44100 Hz stream, binds the ring to a new stream voice in the lowest free slot; and its checks, in their order. -/
def Obligations.PlayStreamResult : Prop :=
  ∀ (s : State) (j : Job) (v ch : Nat), s.cur = some j →
    (s.ring.bound = true → exec .playStream s = .next (s.raise .badState 0x05 0)) ∧
    (s.ring.bound = false → s.stream.nframes = 0 → exec .playStream s = .next (s.raise .badState 0x05 0)) ∧
    (s.ring.bound = false → s.stream.nframes ≠ 0 → s.hdr.sampleRate.toNat ≠ 44100 →
      exec .playStream s = .next (s.raise .formatMismatch 0x05 0)) ∧
    (s.ring.bound = false → s.stream.nframes ≠ 0 → s.hdr.sampleRate.toNat = 44100 →
      (∀ u, u < s.nVoices → (s.voiceAt u).inUse = true) →
      exec .playStream s = .next (s.raise .voiceLimit 0x05 0)) ∧
    (s.ring.bound = false → s.stream.nframes ≠ 0 → s.hdr.sampleRate.toNat = 44100 →
      v < s.nVoices → (s.voiceAt v).inUse = false → (∀ u, u < v → (s.voiceAt u).inUse = true) →
      ch = (if s.dec.init = true then s.dec.dch else s.hdr.fields.toNat / 2 ^ 21 % 4) →
      exec .playStream s = .next
        { s with
          voices := s.voices.set v
            { state := .playing, loop := false, stream := true, pending := true, active := false, clip := 0
              base := 0, len := 0, ch := ch, rate := 44100, pos := 0
              vol := (min 32768 (max 0 j.arg0.toInt)).toNat }
          ring := { bound := true, closed := false, voice := v, ch := ch, buf := [] }
          mixer := { s.mixer with fifo := s.mixer.fifo ++ [v] }
          result := BitVec.ofNat 32 v, cur := none, irqPend := s.irqPend ||| 0b00001#5 })

/-! ### The mixer commands -/

/-- R242, R248, R257, R261: MIXER_START opens the line and starts the mixer; it does nothing when the mixer runs, and raises HARDWARE_LINE_UNAVAILABLE without a line.
MIXER_SYNC completes at once when no tick is enabled; else it asks for a tick and waits until one has run or none is enabled.
That a progress record of another command, which no run reaches, counts as the first step of MIXER_SYNC is the model's choice (log 16). -/
def Obligations.MixerStartAndSync : Prop :=
  (∀ (s : State) (j : Job), s.cur = some j →
    (s.mixer.running = true →
      exec .mixerStart s = .next { s with result := 0, cur := none, irqPend := s.irqPend ||| 0b00001#5 }) ∧
    (s.mixer.running = false → s.cfg.linePresent = false →
      exec .mixerStart s = .next (s.raise .hardwareLineUnavailable 0x10 0)) ∧
    (s.mixer.running = false → s.cfg.linePresent = true →
      exec .mixerStart s = .next
        { s with
          line := { isOpen := true, buf := [] }, mixer := { s.mixer with running := true }
          result := 0, cur := none, irqPend := s.irqPend ||| 0b00001#5 })) ∧
  (∀ (s : State) (j : Job), s.cur = some j →
    (s.tickEnabled = false → exec .mixerSync s = .next
      { s with result := 0, cur := none, irqPend := s.irqPend ||| 0b00001#5 }) ∧
    (j.progress ≠ .syncing → s.tickEnabled = true → exec .mixerSync s = .next
      { s with mixer := { s.mixer with syncreq := true }, cur := some { j with progress := .syncing } }) ∧
    (j.progress = .syncing → s.mixer.syncreq = false → exec .mixerSync s = .next
      { s with result := 0, cur := none, irqPend := s.irqPend ||| 0b00001#5 }) ∧
    (j.progress = .syncing → s.mixer.syncreq = true → s.tickEnabled = true → exec .mixerSync s = .next s))

/-- R244, R256: the first step of MIXER_STOP removes every voice in use, empties the queue and stops the mixer; it ends the command, or, if the mixer ran on an open line, starts the drain.
A slot not in use is unchanged, and a slot in use keeps its other fields.
The drain of MIXER_STOP ends, closing the line, when the line buffer is empty or the timeout is drawn, whichever way the draw falls; else it waits.
Two clauses rest on the model's choice or reading: the ring that is unbound has `voice` and `ch` 0 (log 21: DEDUCED from R364 with R361, for R256 and R273 do not name them), and a progress record of another command, which no run reaches, counts as the first step (log 16). -/
def Obligations.MixerStop : Prop :=
  (∀ (s : State) (j : Job), s.cur = some j → j.progress ≠ .draining →
    ∃ t, exec .mixerStop s = .next t ∧
      t = { s with
            voices := t.voices, stopped := t.stopped, ring := t.ring, irqPend := t.irqPend, result := t.result
            cur := t.cur, mixer := { s.mixer with fifo := [], running := false } } ∧
      t.irqPend &&& 0b11010#5 = s.irqPend &&& 0b11010#5 ∧
      ((∀ v, (s.voiceAt v).inUse = false) → t.irqPend &&& 0b00100#5 = s.irqPend &&& 0b00100#5) ∧
      t.voices.length = s.voices.length ∧
      (∀ v, (s.voiceAt v).inUse = true →
        t.voiceAt v = { s.voiceAt v with state := .stopped, pending := false, active := false } ∧
        (v < 256 → t.stopped.getLsbD v = true) ∧ t.irqPend &&& 0b00100#5 = 0b00100#5) ∧
      (∀ v, (s.voiceAt v).inUse = false →
        t.voiceAt v = s.voiceAt v ∧ t.stopped.getLsbD v = s.stopped.getLsbD v) ∧
      ((∃ v, (s.voiceAt v).streaming = true) →
        t.ring = ⟨false, false, 0, 0, []⟩) ∧
      ((∀ v, (s.voiceAt v).streaming = false) → t.ring = s.ring) ∧
      (s.mixer.running = true ∧ s.line.isOpen = true →
        t.cur = some { j with progress := .draining } ∧ t.result = s.result ∧
        t.irqPend &&& 0b00001#5 = s.irqPend &&& 0b00001#5) ∧
      (¬ (s.mixer.running = true ∧ s.line.isOpen = true) →
        t.cur = none ∧ t.result = 0 ∧ t.irqPend &&& 0b00001#5 = 0b00001#5)) ∧
  (∀ (s : State) (j : Job), s.cur = some j → j.progress = .draining →
    (s.line.buf = [] ∨ s.env.timeout = true →
      exec .mixerStop s = .next
        { s with
          line := { isOpen := false, buf := [] }
          result := 0, cur := none, irqPend := s.irqPend ||| 0b00001#5 }) ∧
    (s.line.buf ≠ [] → s.env.timeout = false → exec .mixerStop s = .next s))

/-- R252, R262, R266: the first step of BYPASS_WRITE makes its checks in their order and copies the descriptor.
A later step completes with the clip's length when all frames are written; else it waits for room for its chunk, appends the chunk at volume 1.0, or, when the line write fails, records LINE_WRITE_FAIL and completes with the frames written before. -/
def Obligations.BypassWrite : Prop :=
  (∀ (s : State) (j : Job) (c : Nat), s.cur = some j → j.progress = .initial →
    (s.nClips ≤ c → exec (.bypassWrite c) s = .next (s.raise .badIndex 0x19 (BitVec.ofNat 8 c))) ∧
    (∀ d, s.clips.descs[c]? = some d →
      (d.valid = false →
        exec (.bypassWrite c) s = .next (s.raise .unknownSoundKey 0x19 (BitVec.ofNat 8 c))) ∧
      (d.valid = true → d.rate ≠ 44100 →
        exec (.bypassWrite c) s = .next (s.raise .formatMismatch 0x19 (BitVec.ofNat 8 c))) ∧
      (d.valid = true → d.rate = 44100 → s.line.isOpen = false →
        exec (.bypassWrite c) s = .next (s.raise .badState 0x19 (BitVec.ofNat 8 c))) ∧
      (d.valid = true → d.rate = 44100 → s.line.isOpen = true →
        exec (.bypassWrite c) s = .next { s with cur := some { j with progress := .bypass d 0 } }))) ∧
  (∀ (s : State) (j : Job) (c i k : Nat) (d : ClipDesc) (chunk : List StereoFrame),
    s.cur = some j → j.progress = .bypass d i → k = min s.cfg.mixBlock (d.len - i) →
    chunk = (List.range k).map (fun n =>
      if d.ch = 1 then ⟨Memory.read s.clips.mem (d.base + (i + n)), Memory.read s.clips.mem (d.base + (i + n))⟩
      else ⟨Memory.read s.clips.mem (d.base + 2 * (i + n)), Memory.read s.clips.mem (d.base + 2 * (i + n) + 1)⟩) →
    (i = d.len → exec (.bypassWrite c) s = .next
      { s with result := BitVec.ofNat 32 d.len, cur := none, irqPend := s.irqPend ||| 0b00001#5 }) ∧
    (i ≠ d.len → s.cfg.lineCap - s.line.buf.length < k → exec (.bypassWrite c) s = .next s) ∧
    (i ≠ d.len → k ≤ s.cfg.lineCap - s.line.buf.length → s.env.lineDraw = .ok →
      exec (.bypassWrite c) s = .next
        { s with
          line := { s.line with buf := s.line.buf ++ chunk }
          counters := { s.counters with samplesOut := s.counters.samplesOut + BitVec.ofNat 32 k }
          obs := { s.obs with lineWrites := s.obs.lineWrites ++ [⟨chunk, .ok⟩] }
          cur := some { j with progress := .bypass d (i + k) } }) ∧
    (i ≠ d.len → k ≤ s.cfg.lineCap - s.line.buf.length → s.env.lineDraw = .fail →
      exec (.bypassWrite c) s = .next
        { s with
          obs := { s.obs with lineWrites := s.obs.lineWrites ++ [⟨chunk, .fail⟩] }
          err := s.err.record .lineWriteFail 0x19 (BitVec.ofNat 8 c)
          result := BitVec.ofNat 32 i, cur := none, irqPend := s.irqPend ||| 0b00011#5 }))

/-! ### The host's accesses -/

/-- R81, R291, R292: an access of another width, misaligned or unmapped is not performed: a read returns 0, a write changes nothing, and BAD_ACCESS is recorded. -/
def Obligations.BadAccess : Prop :=
  ∀ (s : State) (a : BitVec 13) (width : AccessWidth) (v : Word),
    width ≠ .w32 ∨ a.toNat % 4 ≠ 0 ∨ regAt s.nVoices a.toNat = none →
    (s.env.nextTurn = .host (.read a width) → step s = .next
      { s.taking with
        err := s.err.record .badAccess 0xFF 0, irqPend := s.irqPend ||| 0b00010#5
        obs := { s.obs with readData := 0 } }) ∧
    (s.env.nextTurn = .host (.write a width v) → step s = .next
      { s.taking with err := s.err.record .badAccess 0xFF 0, irqPend := s.irqPend ||| 0b00010#5 })

/-- R83, R291, R296, R298: a read of any mapped register but CLIP_DATA (offset 0x118) and PCM_DATA (0x12C) returns the register's value and has no side effect; CLIP_DATA reads a sign-extended sample, or 0 with BAD_ACCESS past the end of clip memory, and moves CLIP_ADDR on; PCM_DATA reads a sign-extended sample, or 0 past PCM_LEN, and moves PCM_ADDR on, up to 4095.
`s.taking` differs from `s` in the turn taken only. -/
def Obligations.ReadSideEffects : Prop :=
  (∀ (s : State) (a : BitVec 13) (r : Reg), s.env.nextTurn = .host (.read a .w32) → a.toNat % 4 = 0 →
    regAt s.nVoices a.toNat = some r → a ≠ 0x118#13 → a ≠ 0x12C#13 →
    step s = .next { s.taking with obs := { s.obs with readData := s.regValue r } }) ∧
  (∀ s : State, s.env.nextTurn = .host (.read 0x118#13 .w32) → s.clips.addr.toNat < s.cfg.clipMemSamples →
    step s = .next
      { s.taking with
        clips := { s.clips with addr := s.clips.addr + 1 }
        obs := { s.obs with readData := (Memory.read s.clips.mem s.clips.addr.toNat).signExtend 32 } }) ∧
  (∀ s : State, s.env.nextTurn = .host (.read 0x118#13 .w32) → s.cfg.clipMemSamples ≤ s.clips.addr.toNat →
    step s = .next
      { s.taking with
        clips := { s.clips with addr := s.clips.addr + 1 }
        err := s.err.record .badAccess 0xFF 0, irqPend := s.irqPend ||| 0b00010#5
        obs := { s.obs with readData := 0 } }) ∧
  (∀ s : State, s.env.nextTurn = .host (.read 0x12C#13 .w32) →
    step s = .next
      { s.taking with
        sink := { s.sink with addr := if s.sink.addr.toNat < 4095 then s.sink.addr + 1 else s.sink.addr }
        obs := { s.obs with readData := ((s.sink.samples[s.sink.addr.toNat]?.map (·.signExtend 32)).getD 0) } })

/-- R30 to R58, R76: the register map: the register at every mapped offset, and every other offset below the voice windows of the slots, and past them, unmapped; `n` is the number of voice slots. -/
def Obligations.RegisterMap : Prop :=
  ∀ n : Nat,
    (∀ a r, (a, r) ∈ ([(0x000, .id), (0x004, .cmd), (0x008, .arg0), (0x00C, .arg1), (0x010, .status), (0x014, .result),
        (0x018, .err), (0x01C, .irqEn), (0x020, .irqPend), (0x028, .samplesOut), (0x02C, .crcErrCount),
        (0x030, .skipCount), (0x034, .resyncBytes), (0x038, .frameCount)] : List (Nat × Reg)) → regAt n a = some r) ∧
    (∀ a r, (a, r) ∈ ([(0x040, .hdrRaw), (0x044, .hdrFields), (0x048, .hdrBitrate), (0x04C, .hdrSampleRate),
        (0x050, .hdrFrameSize), (0x054, .hdrSlotCount), (0x058, .hdrSubbands), (0x05C, .hdrFramePos), (0x060, .hdrCrc),
        (0x064, .hdrSamplesPerFrame), (0x068, .hdrFrameLen), (0x06C, .syncWord), (0x070, .vbrInfo), (0x074, .vbrFrames),
        (0x078, .vbrBytes), (0x07C, .vbrScale)] : List (Nat × Reg)) → regAt n a = some r) ∧
    (∀ k, k < 25 → regAt n (0x080 + 4 * k) = some (.vbrToc k)) ∧
    (∀ a r, (a, r) ∈ ([(0x0F0, .decInfo), (0x0F4, .decRate), (0x0F8, .reservoirLevel), (0x100, .clipSel),
        (0x104, .clipInfo), (0x108, .clipBase), (0x10C, .clipLen), (0x110, .clipRate), (0x114, .clipAddr),
        (0x118, .clipData), (0x11C, .clipAlloc), (0x120, .pcmLen), (0x124, .pcmCh), (0x128, .pcmAddr),
        (0x12C, .pcmData)] : List (Nat × Reg)) → regAt n a = some r) ∧
    (∀ a r, (a, r) ∈ ([(0x140, .inData), (0x144, .inCtrl), (0x148, .inLevel), (0x14C, .streamPos), (0x150, .ringInfo),
        (0x154, .ringLevel), (0x158, .lineLevel), (0x160, .paramNVoices), (0x164, .paramNClips),
        (0x168, .paramMixBlock), (0x16C, .paramClipMem), (0x170, .paramInCap), (0x174, .paramRingCap),
        (0x178, .paramLineCap), (0x17C, .paramMaxResync)] : List (Nat × Reg)) → regAt n a = some r) ∧
    (∀ k, k < 8 → regAt n (0x400 + 4 * k) = if 32 * k < n then some (.stoppedMask k) else none) ∧
    (∀ v, v < n → regAt n (0x1000 + 16 * v) = some (.vState v) ∧ regAt n (0x1004 + 16 * v) = some (.vPos v) ∧
      regAt n (0x1008 + 16 * v) = some (.vVol v) ∧ regAt n (0x100C + 16 * v) = some (.vLen v)) ∧
    (∀ a, a % 4 = 0 → a ∈ [0x024, 0x03C, 0x0FC, 0x15C] ∨ 0x0E4 ≤ a ∧ a ≤ 0x0EC ∨ 0x130 ≤ a ∧ a ≤ 0x13C ∨
      0x180 ≤ a ∧ a < 0x400 ∨ 0x420 ≤ a ∧ a < 0x1000 ∨ 0x1000 + 16 * n ≤ a → regAt n a = none)

/-- R30 to R58, R305, R321, R330: what a read of each register shows of the state, and the interrupt output; write-only registers read 0.
The fields of the packed registers are written out, reserved bits as 0, and every error code as its number.
That PARAM_MIX_BLOCK, PARAM_LINE_CAP, PARAM_IN_CAP, PARAM_RING_CAP and PARAM_MAX_RESYNC show a value of 2^32 or more modulo 2^32 is the model's choice (log 20); that every other count, length and level is shown modulo 2^32 is its reading (log 17). -/
def Obligations.RegisterViews : Prop :=
  (∀ s : State,
    s.regValue .id = 0x4D504131#32 ∧ s.regValue .cmd = 0#32 ∧ s.regValue .inData = 0#32 ∧
    s.regValue .arg0 = s.arg0 ∧ s.regValue .arg1 = s.arg1 ∧ s.regValue .result = s.result ∧
    s.regValue .irqEn = s.irqEn.setWidth 32 ∧ s.regValue .irqPend = s.irqPend.setWidth 32 ∧
    s.irqLine = decide (s.irqPend &&& s.irqEn ≠ 0#5) ∧
    s.regValue .samplesOut = s.counters.samplesOut ∧ s.regValue .crcErrCount = s.counters.crcErrCount ∧
    s.regValue .skipCount = s.counters.skipCount ∧ s.regValue .resyncBytes = s.counters.resyncBytes ∧
    s.regValue .frameCount = BitVec.ofNat 32 s.stream.nframes ∧
    s.regValue .hdrRaw = s.hdr.raw ∧ s.regValue .hdrFields = s.hdr.fields ∧ s.regValue .hdrBitrate = s.hdr.bitrate ∧
    s.regValue .hdrSampleRate = s.hdr.sampleRate ∧ s.regValue .hdrFrameSize = s.hdr.frameSize ∧
    s.regValue .hdrSlotCount = s.hdr.slotCount ∧ s.regValue .hdrSubbands = s.hdr.subbands ∧
    s.regValue .hdrFramePos = s.hdr.framePos ∧ s.regValue .hdrCrc = s.hdr.crcComputed ++ s.hdr.crcStored ∧
    s.regValue .hdrSamplesPerFrame = s.hdr.samplesPerFrame ∧ s.regValue .hdrFrameLen = s.hdr.frameLen ∧
    s.regValue .syncWord = (if s.stream.mode = .strict then s.stream.word else 0#32) ∧
    s.regValue .vbrInfo = s.vbr.info ∧ s.regValue .vbrFrames = s.vbr.frames ∧ s.regValue .vbrBytes = s.vbr.bytes ∧
    s.regValue .vbrScale = s.vbr.scale ∧
    (∀ i, i < 100 → (s.regValue (.vbrToc (i / 4))).extractLsb' (8 * (i % 4)) 8 = s.vbr.toc.getD i 0)) ∧
  (∀ s : State,
    let w := s.regValue .status
    w.getLsbD 0 = s.cur.isSome ∧ w.getLsbD 1 = decide (s.err.code ≠ .none) ∧
    w.getLsbD 2 = s.flags.frameValid ∧ w.getLsbD 3 = (s.frame.map (·.pending)).getD false ∧
    w.getLsbD 4 = s.flags.eosSeen ∧
    w.extractLsb' 5 2 = (match s.stream.mode with | .initial => 0#2 | .strict => 1#2 | .failed => 2#2) ∧
    w.getLsbD 7 = decide (s.stream.kind = .wav) ∧ w.getLsbD 8 = s.flags.crcErr ∧
    w.getLsbD 9 = s.flags.vbrCorrupt ∧ w.getLsbD 10 = s.dec.init ∧ w.getLsbD 11 = s.mixer.running ∧
    w.getLsbD 12 = s.line.isOpen ∧ w.getLsbD 13 = s.ring.bound ∧ w.getLsbD 14 = s.ring.closed ∧
    w.extractLsb' 15 17 = 0#17) ∧
  (∀ s : State,
    let w := s.regValue .err
    w.extractLsb' 0 8 = (match s.err.code with
      | .none => 0x00#8 | .malformedStream => 0x01#8 | .corruptVbrHeader => 0x02#8 | .decodeError => 0x03#8
      | .unknownSoundKey => 0x04#8 | .hardwareLineUnavailable => 0x05#8 | .lineWriteFail => 0x06#8
      | .badCommand => 0x10#8 | .badIndex => 0x11#8 | .cmdBusy => 0x12#8 | .noFrame => 0x13#8
      | .voiceLimit => 0x14#8 | .clipBusy => 0x15#8 | .formatMismatch => 0x16#8 | .clipFull => 0x17#8
      | .inOverflow => 0x18#8 | .badState => 0x19#8 | .notMpeg => 0x1A#8 | .badAccess => 0x1B#8) ∧
    w.extractLsb' 8 8 = s.err.op ∧ w.extractLsb' 16 8 = s.err.idx ∧ w.getLsbD 24 = s.err.ovf ∧
    w.extractLsb' 25 7 = 0#7) ∧
  (∀ s : State,
    (s.dec.init = false → s.regValue .decInfo = 0#32 ∧ s.regValue .decRate = 0#32) ∧
    (s.dec.init = true → s.dec.dch < 4 →
      (s.regValue .decInfo).getLsbD 0 = true ∧ ((s.regValue .decInfo).extractLsb' 1 2).toNat = s.dec.dch ∧
      (s.regValue .decInfo).extractLsb' 3 29 = 0#29 ∧ s.regValue .decRate = BitVec.ofNat 32 s.dec.drate) ∧
    s.regValue .reservoirLevel = BitVec.ofNat 32 s.dec.res.length) ∧
  (∀ s : State,
    s.regValue .clipSel = s.clips.sel.setWidth 32 ∧ s.regValue .clipAddr = s.clips.addr ∧
    s.regValue .clipAlloc = BitVec.ofNat 32 s.clips.alloc ∧
    (s.clips.addr.toNat < s.cfg.clipMemSamples →
      s.regValue .clipData = (Memory.read s.clips.mem s.clips.addr.toNat).signExtend 32) ∧
    (s.nClips ≤ s.clips.sel.toNat → s.regValue .clipInfo = 0#32 ∧ s.regValue .clipBase = 0#32 ∧
      s.regValue .clipLen = 0#32 ∧ s.regValue .clipRate = 0#32) ∧
    (∀ d, s.clips.descs[s.clips.sel.toNat]? = some d →
      s.regValue .clipBase = BitVec.ofNat 32 d.base ∧ s.regValue .clipLen = BitVec.ofNat 32 d.len ∧
      s.regValue .clipRate = BitVec.ofNat 32 d.rate ∧
      (d.ch < 4 → (s.regValue .clipInfo).getLsbD 0 = d.valid ∧
        ((s.regValue .clipInfo).extractLsb' 1 2).toNat = d.ch ∧ (s.regValue .clipInfo).extractLsb' 3 29 = 0#29)) ∧
    s.regValue .pcmLen = BitVec.ofNat 32 s.sink.samples.length ∧ s.regValue .pcmCh = BitVec.ofNat 32 s.sink.ch ∧
    s.regValue .pcmAddr = s.sink.addr.setWidth 32 ∧
    s.regValue .pcmData = ((s.sink.samples[s.sink.addr.toNat]?.map (·.signExtend 32)).getD 0)) ∧
  (∀ s : State,
    s.regValue .inCtrl = (if s.stream.eos = true then 1#32 else 0#32) ∧
    s.regValue .inLevel = BitVec.ofNat 32 s.stream.input.length ∧
    s.regValue .streamPos = BitVec.ofNat 32 s.stream.pos ∧
    s.regValue .ringLevel = BitVec.ofNat 32 s.ring.buf.length ∧
    s.regValue .lineLevel = BitVec.ofNat 32 s.line.buf.length ∧
    s.regValue .paramNVoices = BitVec.ofNat 32 s.nVoices ∧ s.regValue .paramNClips = BitVec.ofNat 32 s.nClips ∧
    s.regValue .paramMixBlock = BitVec.ofNat 32 s.cfg.mixBlock ∧
    s.regValue .paramClipMem = BitVec.ofNat 32 s.cfg.clipMemSamples ∧
    s.regValue .paramInCap = BitVec.ofNat 32 s.cfg.inCap ∧ s.regValue .paramRingCap = BitVec.ofNat 32 s.cfg.ringCap ∧
    s.regValue .paramLineCap = BitVec.ofNat 32 s.cfg.lineCap ∧
    s.regValue .paramMaxResync = BitVec.ofNat 32 s.cfg.maxResync) ∧
  (∀ s : State, s.ring.ch < 4 → s.ring.voice < 256 →
    let w := s.regValue .ringInfo
    w.getLsbD 0 = s.ring.bound ∧ w.getLsbD 1 = s.ring.closed ∧
    (w.extractLsb' 2 2).toNat = (if s.ring.bound = true then s.ring.ch else 0) ∧ w.extractLsb' 4 4 = 0#4 ∧
    (w.extractLsb' 8 8).toNat = (if s.ring.bound = true then s.ring.voice else 0) ∧ w.extractLsb' 16 16 = 0#16) ∧
  (∀ (s : State) (v : Nat),
    s.regValue (.vPos v) = BitVec.ofNat 32 (s.voiceAt v).pos ∧ s.regValue (.vVol v) = BitVec.ofNat 32 (s.voiceAt v).vol ∧
    s.regValue (.vLen v) = BitVec.ofNat 32 (s.voiceAt v).len ∧
    ((s.voiceAt v).clip < 256 →
      let w := s.regValue (.vState v)
      w.extractLsb' 0 2 =
        (match (s.voiceAt v).state with | .stopped => 0#2 | .playing => 1#2 | .paused => 2#2) ∧
      w.getLsbD 2 = (s.voiceAt v).loop ∧ w.getLsbD 3 = (s.voiceAt v).stream ∧
      w.getLsbD 4 = (s.voiceAt v).pending ∧ w.getLsbD 5 = (s.voiceAt v).active ∧ w.extractLsb' 6 2 = 0#2 ∧
      (w.extractLsb' 8 8).toNat = (s.voiceAt v).clip ∧ w.extractLsb' 16 16 = 0#16)) ∧
  (∀ (s : State) (k j : Nat), k < 8 → j < 32 →
    (s.regValue (.stoppedMask k)).getLsbD j = s.stopped.getLsbD (32 * k + j))

/-- R293, R294: a write to IN_DATA (offset 0x140) appends a byte, or records IN_OVERFLOW after the end of the stream or with the buffer full; a write to IN_CTRL (0x144) with bit 0 set sets EOS, and with bit 0 clear does nothing. -/
def Obligations.InputPort : Prop :=
  ∀ (s : State) (v : Word),
    (s.env.nextTurn = .host (.write 0x140#13 .w32 v) →
      (s.stream.eos = true ∨ s.stream.input.length = s.cfg.inCap → step s = .next
        { s.taking with err := s.err.record .inOverflow 0xFF 0, irqPend := s.irqPend ||| 0b00010#5 }) ∧
      (s.stream.eos = false → s.stream.input.length ≠ s.cfg.inCap → step s = .next
        { s.taking with stream := { s.stream with input := s.stream.input ++ [v.extractLsb' 0 8] } })) ∧
    (s.env.nextTurn = .host (.write 0x144#13 .w32 v) →
      (v.getLsbD 0 = true → step s = .next { s.taking with stream := { s.stream with eos := true } }) ∧
      (v.getLsbD 0 = false → step s = .next s.taking))

/-- R297: a write to CLIP_DATA (offset 0x118) stores the sample at CLIP_ADDR and changes no other cell; past the end of clip memory it records BAD_ACCESS, into the region of an in-use clip voice CLIP_BUSY, and stores nothing; CLIP_ADDR moves on in every case. -/
def Obligations.ClipDataWrite : Prop :=
  ∀ (s : State) (v : Word) (a : Nat), s.MemOk → s.env.nextTurn = .host (.write 0x118#13 .w32 v) →
    a = s.clips.addr.toNat →
    (s.cfg.clipMemSamples ≤ a → step s = .next
      { s.taking with
        clips := { s.clips with addr := s.clips.addr + 1 }
        err := s.err.record .badAccess 0xFF 0, irqPend := s.irqPend ||| 0b00010#5 }) ∧
    (a < s.cfg.clipMemSamples →
      (∃ x ∈ s.voices, x.onClip = true ∧ x.base ≤ a ∧ a < x.base + x.len * x.ch) → step s = .next
      { s.taking with
        clips := { s.clips with addr := s.clips.addr + 1 }
        err := s.err.record .clipBusy 0xFF 0, irqPend := s.irqPend ||| 0b00010#5 }) ∧
    (a < s.cfg.clipMemSamples →
      (∀ x ∈ s.voices, x.onClip = true → ¬ (x.base ≤ a ∧ a < x.base + x.len * x.ch)) →
      ∃ m, step s = .next { s.taking with clips := { s.clips with mem := m, addr := s.clips.addr + 1 } } ∧
        Memory.read? m a = some (v.extractLsb' 0 16) ∧
        ∀ n, n ≠ a → Memory.read? m n = Memory.read? s.clips.mem n)

/-- R32, R33, R36, R37, R38, R50, R51, R58, R292, R332: what the host's register writes do, those to CMD, IN_DATA, IN_CTRL and CLIP_DATA apart.
It clears ERR by any write (offset 0x018), pending interrupts by writing ones (0x020), and stopped-voice bits by writing ones to their mask register (0x400 and on).
It sets the interrupt enables (0x01C), ARG0 (0x008), ARG1 (0x00C), CLIP_SEL (0x100), CLIP_ADDR (0x114) and PCM_ADDR (0x128), reserved bits ignored.
A write to any other mapped register is ignored, without error. -/
def Obligations.HostWrites : Prop :=
  ∀ (s : State) (v : Word),
    (s.env.nextTurn = .host (.write 0x018#13 .w32 v) →
      step s = .next { s.taking with err := ⟨.none, 0, 0, false⟩ }) ∧
    (s.env.nextTurn = .host (.write 0x01C#13 .w32 v) →
      step s = .next { s.taking with irqEn := v.setWidth 5 }) ∧
    (s.env.nextTurn = .host (.write 0x020#13 .w32 v) →
      step s = .next { s.taking with irqPend := s.irqPend &&& ~~~ v.setWidth 5 }) ∧
    (∀ k : Nat, 32 * k < s.nVoices → k < 8 →
      s.env.nextTurn = .host (.write (BitVec.ofNat 13 (0x400 + 4 * k)) .w32 v) →
      ∃ m : BitVec 256, step s = .next { s.taking with stopped := m } ∧
        ∀ n, n < 256 → m.getLsbD n =
          (s.stopped.getLsbD n && !(decide (32 * k ≤ n) && decide (n < 32 * k + 32) && v.getLsbD (n - 32 * k)))) ∧
    (s.env.nextTurn = .host (.write 0x008#13 .w32 v) → step s = .next { s.taking with arg0 := v }) ∧
    (s.env.nextTurn = .host (.write 0x00C#13 .w32 v) → step s = .next { s.taking with arg1 := v }) ∧
    (s.env.nextTurn = .host (.write 0x100#13 .w32 v) →
      step s = .next { s.taking with clips := { s.clips with sel := v.extractLsb' 0 8 } }) ∧
    (s.env.nextTurn = .host (.write 0x114#13 .w32 v) →
      step s = .next { s.taking with clips := { s.clips with addr := v } }) ∧
    (s.env.nextTurn = .host (.write 0x128#13 .w32 v) →
      step s = .next { s.taking with sink := { s.sink with addr := v.extractLsb' 0 12 } }) ∧
    (∀ a : BitVec 13, s.env.nextTurn = .host (.write a .w32 v) → a.toNat % 4 = 0 → regAt s.nVoices a.toNat ≠ none →
      a ∉ [0x004#13, 0x008#13, 0x00C#13, 0x018#13, 0x01C#13, 0x020#13, 0x100#13, 0x114#13, 0x118#13, 0x128#13,
        0x140#13, 0x144#13] →
      ¬ (0x400#13 ≤ a ∧ a ≤ 0x41C#13) → step s = .next s.taking)

/-! ### The mixer and the line -/

/-- R103, R253: a volume in range keeps a sample in range, so the clamp in Scale never changes a value; volume 1.0 changes nothing, and the examples of the rule hold. -/
def Obligations.ScaleLaws : Prop :=
  (∀ (x : Sample) (vol : Nat), vol ≤ 32768 →
    scale x vol = (x.toInt * vol) / 32768 ∧ -32768 ≤ scale x vol ∧ scale x vol ≤ 32767) ∧
  (∀ x : Sample, scale x 32768 = x.toInt ∧ scale x 0 = 0) ∧
  scale 1000#16 16384 = 500 ∧ scale 0xFFFF#16 16384 = -1 ∧ scale 0x8000#16 32768 = -32768 ∧
  scale 32767#16 32767 = 32766

/-- R252, R271: one read of n frames by a voice.
A voice that is not PLAYING supplies nothing.
A playing clip voice without loop gives the frames left, up to n, in position order, and stops exactly when fewer than n were left; with loop and a clip that is not empty it gives n frames, wrapping, and goes on playing one past the last frame read; an empty clip stops.
A playing stream voice takes the first min(n, |rbuf|) frames of the ring, a mono frame on both channels, and stops exactly when fewer than n were there and the ring is closed. -/
def Obligations.VoiceReads : Prop :=
  (∀ (m : Memory) (n : Nat) (lp : Bool) (x : Voice) (r : Ring), x.state ≠ .playing →
    readClip m n lp x = (x, []) ∧ readStream n x r = (x, r, [])) ∧
  (∀ (m : Memory) (n : Nat) (lp : Bool) (x : Voice), x.state = .playing → x.pos ≤ x.len →
    (x.len = 0 → readClip m n lp x = ({ x with state := .stopped }, [])) ∧
    (x.len ≠ 0 → lp = false → readClip m n lp x =
      ({ x with
          pos := x.pos + min n (x.len - x.pos)
          state := if x.len - x.pos < n then .stopped else .playing },
        (List.range (min n (x.len - x.pos))).map (fun i => clipFrame m x.base x.ch (x.pos + i)))) ∧
    (x.len ≠ 0 → lp = true → readClip m n lp x =
      ({ x with pos := if n = 0 then x.pos else (x.pos + n - 1) % x.len + 1 },
        (List.range n).map (fun i => clipFrame m x.base x.ch ((x.pos + i) % x.len))))) ∧
  (∀ (m : Memory) (base ch i : Nat), clipFrame m base ch i =
    if ch = 1 then ⟨Memory.read m (base + i), Memory.read m (base + i)⟩
    else ⟨Memory.read m (base + 2 * i), Memory.read m (base + 2 * i + 1)⟩) ∧
  (∀ (n k : Nat) (x : Voice) (r : Ring), x.state = .playing → k = min n r.buf.length →
    readStream n x r =
      ({ x with pos := x.pos + k, state := if k < n ∧ r.closed = true then .stopped else .playing },
        { r with buf := r.buf.drop k },
        (r.buf.take k).map (fun f => match f with | .mono y => ⟨y, y⟩ | .stereo y z => ⟨y, z⟩)))

/-- R250, R255, R257, R262, R321: a tick is enabled exactly while the mixer runs on an open line with room for a block and there is work: a queued request, a STOPPED voice, a PLAYING clip voice, or a PLAYING stream voice with a ring that is not empty or is closed.
Where no tick is enabled the mixer's turn does nothing.
A tick empties the queue, clears syncreq, and touches nothing of the stream, the decoder, the clip store or the command in progress.
When no voice active after admission supplies a frame, it writes nothing.
When some voice does, it appends exactly one block of MIX_BLOCK frames to the line, counted in SAMPLES_OUT; or, with a failing line write, none, recording LINE_WRITE_FAIL with OP 0xFF and the lowest supplying voice.
The premises of the last part are invariants of every step. -/
def Obligations.TickWritesOneBlock : Prop :=
  (∀ s : State, s.tickEnabled = true ↔
    s.mixer.running = true ∧ s.line.isOpen = true ∧ s.cfg.mixBlock ≤ s.cfg.lineCap - s.line.buf.length ∧
    (s.mixer.fifo ≠ [] ∨ ∃ x ∈ s.voices, x.active = true ∧
      (x.state = .stopped ∨
        x.state = .playing ∧ (x.stream = false ∨ s.ring.buf ≠ [] ∨ s.ring.closed = true)))) ∧
  (∀ (s : State) (d : LineDraw), s.env.nextTurn = .mixer d →
    (s.tickEnabled = false → step s = .next s.taking) ∧
    (s.tickEnabled = true → ∃ t, step s = .next t ∧
      t = { s.taking with
            voices := t.voices, stopped := t.stopped, ring := t.ring, irqPend := t.irqPend, err := t.err
            line := t.line, counters := t.counters, obs := t.obs
            mixer := { s.mixer with fifo := [], syncreq := false } })) ∧
  (∀ (s t : State) (d : LineDraw), s.QueueOk → s.RingOk → s.env.nextTurn = .mixer d → s.tickEnabled = true →
    step s = .next t →
    ((∀ v, (s.admitAll.voiceAt v).active = true → s.admitAll.supplies v = []) →
      t.line = s.line ∧ t.counters = s.counters ∧ t.obs = s.obs ∧ t.err = s.err) ∧
    (∀ v, (s.admitAll.voiceAt v).active = true → s.admitAll.supplies v ≠ [] →
      (∀ u, u < v → (s.admitAll.voiceAt u).active = true → s.admitAll.supplies u = []) →
      ∃ fs : List StereoFrame, fs.length = s.cfg.mixBlock ∧
        t.obs = { s.obs with lineWrites := s.obs.lineWrites ++ [⟨fs, d⟩] } ∧
        (d = .ok →
          t.line = { s.line with buf := s.line.buf ++ fs } ∧ t.err = s.err ∧
          t.counters = { s.counters with
            samplesOut := s.counters.samplesOut + BitVec.ofNat 32 s.cfg.mixBlock }) ∧
        (d = .fail →
          t.line = s.line ∧ t.counters = s.counters ∧
          t.err = s.err.record .lineWriteFail 0xFF (BitVec.ofNat 8 v) ∧
          t.irqPend &&& 0b00010#5 = 0b00010#5)))

/-- R253, R255: the block a tick writes is the mix: each sample is the exact sum, over the voices active after admission, of their scaled samples, clamped once to 16 bits.
The premises are invariants of every step. -/
def Obligations.TickMixesVoices : Prop :=
  ∀ (s t : State) (d : LineDraw) (w : LineWrite),
    s.QueueOk → s.RingOk → s.env.nextTurn = .mixer d → s.tickEnabled = true → step s = .next t →
    t.obs.lineWrites = s.obs.lineWrites ++ [w] →
    ∀ i, i < s.cfg.mixBlock →
      w.frames[i]? = some
        ⟨BitVec.ofInt 16 (min 32767 (max (-32768) (s.admitAll.mixedFrame i).1)),
         BitVec.ofInt 16 (min 32767 (max (-32768) (s.admitAll.mixedFrame i).2))⟩

/-- R86, R231, R236, R250, R252, R255, R256, R271, R273, R372: what a tick does to every slot.
A queued slot becomes active and is visited in the same tick, as `x`.
A slot that was set STOPPED is removed unread: it is free, its STOPPED_MASK bit and VOICE_STOPPED are set.
A PAUSED voice is left as it is.
A PLAYING voice is read once, and removed if that read exhausted it, or if it supplied a frame and the line write fails; else it stays as the read left it.
The ring gives its frames to the stream voice, and is unbound when that voice is removed.
A slot that is not in use is left as it is.
That the ring which is unbound has `voice` and `ch` 0 is the model's reading (log 21: DEDUCED from R364 with R361, for R256 and R273 do not name them).
The premises are invariants of every step. -/
def Obligations.TickVisitsVoices : Prop :=
  ∀ (s t : State) (d : LineDraw) (v : Nat) (x : Voice),
    s.QueueOk → s.RingOk → s.env.nextTurn = .mixer d → s.tickEnabled = true → step s = .next t → v < 256 →
    x = { s.voiceAt v with pending := false, active := true } →
    ((s.voiceAt v).inUse = true →
      (x.state = .stopped →
        t.voiceAt v = { x with active := false } ∧ t.stopped.getLsbD v = true ∧ t.irqPend &&& 0b00100#5 = 0b00100#5 ∧
        (x.stream = true → t.ring = ⟨false, false, 0, 0, []⟩)) ∧
      (x.state = .paused →
        t.voiceAt v = x ∧ t.stopped.getLsbD v = s.stopped.getLsbD v ∧ (x.stream = true → t.ring = s.ring)) ∧
      (∀ (y : Voice) (r : Ring) (fs : List StereoFrame), x.state = .playing →
        (x.stream = true → readStream s.cfg.mixBlock x s.ring = (y, r, fs)) →
        (x.stream = false → readClip s.clips.mem s.cfg.mixBlock x.loop x = (y, fs)) →
        (y.state = .stopped ∨ d = .fail ∧ fs ≠ [] →
          t.voiceAt v = { y with state := .stopped, active := false } ∧ t.stopped.getLsbD v = true ∧
          t.irqPend &&& 0b00100#5 = 0b00100#5 ∧
          (x.stream = true → t.ring = ⟨false, false, 0, 0, []⟩)) ∧
        (¬ (y.state = .stopped ∨ d = .fail ∧ fs ≠ []) →
          t.voiceAt v = y ∧ t.stopped.getLsbD v = s.stopped.getLsbD v ∧ (x.stream = true → t.ring = r)))) ∧
    ((s.voiceAt v).inUse = false → t.voiceAt v = s.voiceAt v ∧ t.stopped.getLsbD v = s.stopped.getLsbD v) ∧
    ((∀ u, (s.voiceAt u).streaming = false) → t.ring = s.ring)

/-- R80, R260: the line's turn takes the frame at the head of an open line's buffer and sends it as four bytes, left low, left high, right low, right high; with a closed line or an empty buffer it does nothing. -/
def Obligations.LineTakesHead : Prop :=
  ∀ s : State, s.env.nextTurn = .line →
    (s.line.isOpen = false ∨ s.line.buf = [] → step s = .next s.taking) ∧
    (∀ (f : StereoFrame) (rest : List StereoFrame), s.line.isOpen = true → s.line.buf = f :: rest →
      ∃ bs : List Byte, step s = .next
        { s.taking with
          line := { s.line with buf := rest }, obs := { s.obs with lineBytes := s.obs.lineBytes ++ bs } } ∧
        bs.map BitVec.toNat =
          [f.l.toNat % 256, f.l.toNat / 256, f.r.toNat % 256, f.r.toNat / 256])

/-! ### Rules of the whole machine -/

/-- R6, R21, R37, R330: over every step: the configuration and the numbers of slots never change, so that a configuration in the ranges of R6 stays there; ARG0, ARG1, IRQ_EN and CLIP_SEL change only by a host write. -/
def Obligations.OnlyTheHostWrites : Prop :=
  ∀ s t : State, step s = .next t →
    t.cfg = s.cfg ∧ t.nVoices = s.nVoices ∧ t.nClips = s.nClips ∧ t.configLegal = s.configLegal ∧
    ((∀ a w v, s.env.nextTurn ≠ .host (.write a w v)) →
      t.arg0 = s.arg0 ∧ t.arg1 = s.arg1 ∧ t.irqEn = s.irqEn ∧ t.clips.sel = s.clips.sel)

/-- R58, R322, R330, R332: the first error stays in ERR until the host writes ERR (offset 0x018); later ones change only OVF.
A pending interrupt stays pending until the host writes IRQ_PEND (offset 0x020), and a STOPPED_MASK bit stays set until the host writes a mask register; a bit newly set in STOPPED_MASK comes with VOICE_STOPPED pending. -/
def Obligations.ErrorsAndEventsKept : Prop :=
  (∀ s t : State, step s = .next t → s.err.code ≠ .none →
    (∀ w v, s.env.nextTurn ≠ .host (.write 0x018#13 w v)) →
    t.err = s.err ∨ t.err = { s.err with ovf := true }) ∧
  (∀ s t : State, step s = .next t →
    ((∀ w v, s.env.nextTurn ≠ .host (.write 0x020#13 w v)) → s.irqPend &&& t.irqPend = s.irqPend) ∧
    ((∀ a w v, 0x400#13 ≤ a → a ≤ 0x41C#13 → s.env.nextTurn ≠ .host (.write a w v)) →
      s.stopped &&& t.stopped = s.stopped) ∧
    (∀ v, s.stopped.getLsbD v = false → t.stopped.getLsbD v = true → t.irqPend &&& 0b00100#5 = 0b00100#5))

/-- R22, R154, R175: while the command in progress is not RESET_STREAM, the stream cursor never moves back, a frozen sync word stays while the mode stays STRICT, STRICT never returns to INITIAL and FAILED stays, and the VBR registers change only in INITIAL mode. -/
def Obligations.StreamMovesForward : Prop :=
  ∀ s t : State, step s = .next t → (∀ j, s.cur = some j → j.instr ≠ .resetStream) →
    s.stream.pos ≤ t.stream.pos ∧ s.stream.nframes ≤ t.stream.nframes ∧
    (s.stream.mode = .strict → t.stream.mode ≠ .initial ∧ t.stream.word = s.stream.word) ∧
    (s.stream.mode = .failed → t.stream.mode = .failed) ∧
    (s.stream.mode ≠ .initial → t.vbr = s.vbr)

/-- R262, R263, R345: SAMPLES_OUT counts exactly the frames of the line writes that succeeded, and a step makes at most one line write.
R392: over a run, what is observed up to a point is the line writes since its start, and SAMPLES_OUT has grown by the frames of those that succeeded. -/
def Obligations.SamplesOutCountsLineWrites : Prop :=
  (∀ s t : State, step s = .next t →
    ∃ ws : List LineWrite, ws.length ≤ 1 ∧ t.obs.lineWrites = s.obs.lineWrites ++ ws ∧
      t.counters.samplesOut = s.counters.samplesOut +
        BitVec.ofNat 32 ((ws.filter (fun w => decide (w.draw = .ok))).map (fun w => w.frames.length)).sum) ∧
  (∀ (σ : Nat → Turn) (r : Nat → State) (n : Nat), Scheduled σ r →
    (r n).obs.lineWrites = (r 0).obs.lineWrites ++ observedWrites r n ∧
    (r n).counters.samplesOut = (r 0).counters.samplesOut +
      BitVec.ofNat 32 (((observedWrites r n).filter (fun w => decide (w.draw = .ok))).map
        (fun w => w.frames.length)).sum)

/-! ### Invariants -/

/-- The model's choice of form (log 6): every step keeps clip memory in its canonical form. -/
def Obligations.StepKeepsMemOk : Prop :=
  ∀ s t : State, s.MemOk → step s = .next t → t.MemOk

/-- R56, R58, R103, R231, R252: every step keeps each slot from being pending and active at once, and every volume in [0, 32768].
Every step keeps the queue the list, without repeats, of the pending slots.
Every step keeps every clip voice at a position no greater than its clip's length, and every STOPPED_MASK bit of a slot that does not exist 0. -/
def Obligations.StepKeepsSlotsAndQueue : Prop :=
  (∀ s t : State, s.SlotsOk → step s = .next t → t.SlotsOk) ∧
  (∀ s t : State, s.QueueOk → step s = .next t → t.QueueOk) ∧
  (∀ s t : State, s.PositionsOk → step s = .next t → t.PositionsOk) ∧
  (∀ s t : State, s.StoppedOk → step s = .next t → t.StoppedOk)

/-- R27, R270, R272, R273: every step keeps the ring bound exactly while its stream voice is in use, with at most one stream voice; an unbound ring is as after reset (its `voice` and `ch` 0 by the reading of log 21), a bound one has a channel count of 1 or 2, and each of its frames has that many samples.
QueueOk and SinkOk are invariants of their own. -/
def Obligations.StepKeepsRingOk : Prop :=
  ∀ s t : State, s.QueueOk → s.SinkOk → s.RingOk → step s = .next t → t.RingOk

/-- R26, R27, R29, R71, R73, R191, R202, R207, R210, R262: every step keeps the sink within 2304 samples of at most two channels, the reservoir within 511 bytes, an initialised decoder with one delay line for each of its one or two channels, and CHANNELS of an accepted header 1 or 2.
Every step keeps the input, the ring and the line within their capacities. -/
def Obligations.StepKeepsBuffersAndSinkOk : Prop :=
  (∀ s t : State, s.SinkOk → step s = .next t → t.SinkOk) ∧
  (∀ s t : State, s.SinkOk → s.BuffersOk → step s = .next t → t.BuffersOk)

/-- R23, R153, R154: every step keeps the command in progress well formed, with a progress record of its own.
Every step keeps the synchroniser's mode and frozen word in step. -/
def Obligations.StepKeepsJobAndSyncOk : Prop :=
  (∀ s t : State, s.JobOk → step s = .next t → t.JobOk) ∧
  (∀ s t : State, s.SyncOk → step s = .next t → t.SyncOk)

/-- R57, R72, R215, R300, R363: every step keeps every cell below CLIP_ALLOC written, and every valid descriptor, in-use clip voice and running command below CLIP_ALLOC, so that no voice reads a cell never written. -/
def Obligations.StepKeepsClipsOk : Prop :=
  ∀ s t : State, s.MemOk → s.QueueOk → s.ClipsOk → step s = .next t → t.ClipsOk

/-- R297, R300, R379: no step changes a cell of the region of an in-use clip voice: a clip is immutable while it is played. -/
def Obligations.PlayedClipImmutable : Prop :=
  ∀ (s t : State) (x : Voice) (a : Nat), s.MemOk → s.ClipsOk → step s = .next t →
    x ∈ s.voices → x.onClip = true → x.base ≤ a → a < x.base + x.len * x.ch →
    Memory.read? t.clips.mem a = Memory.read? s.clips.mem a

/-- The state after reset meets every invariant above, and its configuration (log 5) lies in the ranges of R6. -/
def Obligations.ResetMeetsInvariants : Prop :=
  State.reset.MemOk ∧ State.reset.SlotsOk ∧ State.reset.QueueOk ∧ State.reset.PositionsOk ∧
  State.reset.StoppedOk ∧ State.reset.RingOk ∧ State.reset.BuffersOk ∧
  State.reset.JobOk ∧ State.reset.SyncOk ∧ State.reset.SinkOk ∧ State.reset.ClipsOk ∧
  State.reset.configLegal = true

/-- R361: what reset leaves, for every element that the rule gives a value, through the register views where it has one. -/
def Obligations.ResetState : Prop :=
  let s := State.reset
  s.cur = none ∧ s.stream = ⟨[], false, 0, .initial, 0, .unknown, 0⟩ ∧ s.frame = none ∧
  s.dec.init = false ∧ s.dec.res = [] ∧ s.ring = ⟨false, false, 0, 0, []⟩ ∧
  s.mixer = ⟨false, [], false⟩ ∧ s.line = ⟨false, []⟩ ∧ s.regValue .id = 0x4D504131#32 ∧
  s.arg0 = 0 ∧ s.arg1 = 0 ∧ s.result = 0 ∧ s.regValue .status = 0 ∧ s.regValue .err = 0 ∧
  s.irqEn = 0 ∧ s.irqPend = 0 ∧ s.irqLine = false ∧
  s.counters = ⟨0, 0, 0, 0⟩ ∧ s.regValue .frameCount = 0 ∧
  s.hdr = ⟨0, 0, 0, 0, 0, 0, 0, 0, 0, 0, 0, 0⟩ ∧ s.regValue .syncWord = 0 ∧
  s.vbr = ⟨0, 0xFFFFFFFF, 0xFFFFFFFF, 0xFFFFFFFF, List.replicate 100 0⟩ ∧
  s.regValue .decInfo = 0 ∧ s.regValue .decRate = 0 ∧ s.regValue .reservoirLevel = 0 ∧
  s.clips.sel = 0 ∧ s.clips.addr = 0 ∧ s.clips.alloc = 0 ∧
  (∀ d ∈ s.clips.descs, d = ⟨false, 0, 0, 0, 0⟩) ∧ s.sink = ⟨[], 0, 0⟩ ∧
  s.regValue .clipInfo = 0 ∧ s.regValue .clipBase = 0 ∧ s.regValue .clipLen = 0 ∧ s.regValue .clipRate = 0 ∧
  (s.regValue .paramNVoices).toNat = s.nVoices ∧ (s.regValue .paramNClips).toNat = s.nClips ∧
  (s.regValue .paramMixBlock).toNat = s.cfg.mixBlock ∧ (s.regValue .paramClipMem).toNat = s.cfg.clipMemSamples ∧
  (s.regValue .paramInCap).toNat = s.cfg.inCap ∧ (s.regValue .paramRingCap).toNat = s.cfg.ringCap ∧
  (s.regValue .paramLineCap).toNat = s.cfg.lineCap ∧ (s.regValue .paramMaxResync).toNat = s.cfg.maxResync ∧
  s.regValue .inCtrl = 0 ∧ s.regValue .inLevel = 0 ∧ s.regValue .streamPos = 0 ∧
  s.regValue .ringInfo = 0 ∧ s.regValue .ringLevel = 0 ∧ s.regValue .lineLevel = 0 ∧
  (∀ x ∈ s.voices, x = ⟨.stopped, false, false, false, false, 0, 0, 0, 0, 0, 0, 0⟩) ∧ s.stopped = 0
end

