-- ==== Sys2Proof/Laws/State.lean ====
section
/-! SUPPORT. What each named update of State leaves in each field, one lemma a field. -/

namespace Sys2Proof.Machine

variable (s : State)

/-! ### setIrq -/

@[simp] theorem State.setIrq_cfg (b : BitVec 5) : (s.setIrq b).cfg = s.cfg := rfl
@[simp] theorem State.setIrq_cur (b : BitVec 5) : (s.setIrq b).cur = s.cur := rfl
@[simp] theorem State.setIrq_arg0 (b : BitVec 5) : (s.setIrq b).arg0 = s.arg0 := rfl
@[simp] theorem State.setIrq_arg1 (b : BitVec 5) : (s.setIrq b).arg1 = s.arg1 := rfl
@[simp] theorem State.setIrq_result (b : BitVec 5) : (s.setIrq b).result = s.result := rfl
@[simp] theorem State.setIrq_err (b : BitVec 5) : (s.setIrq b).err = s.err := rfl
@[simp] theorem State.setIrq_irqEn (b : BitVec 5) : (s.setIrq b).irqEn = s.irqEn := rfl
@[simp] theorem State.setIrq_irqPend (b : BitVec 5) : (s.setIrq b).irqPend = s.irqPend ||| b := rfl
@[simp] theorem State.setIrq_flags (b : BitVec 5) : (s.setIrq b).flags = s.flags := rfl
@[simp] theorem State.setIrq_counters (b : BitVec 5) : (s.setIrq b).counters = s.counters := rfl
@[simp] theorem State.setIrq_stream (b : BitVec 5) : (s.setIrq b).stream = s.stream := rfl
@[simp] theorem State.setIrq_frame (b : BitVec 5) : (s.setIrq b).frame = s.frame := rfl
@[simp] theorem State.setIrq_hdr (b : BitVec 5) : (s.setIrq b).hdr = s.hdr := rfl
@[simp] theorem State.setIrq_vbr (b : BitVec 5) : (s.setIrq b).vbr = s.vbr := rfl
@[simp] theorem State.setIrq_dec (b : BitVec 5) : (s.setIrq b).dec = s.dec := rfl
@[simp] theorem State.setIrq_sink (b : BitVec 5) : (s.setIrq b).sink = s.sink := rfl
@[simp] theorem State.setIrq_clips (b : BitVec 5) : (s.setIrq b).clips = s.clips := rfl
@[simp] theorem State.setIrq_voices (b : BitVec 5) : (s.setIrq b).voices = s.voices := rfl
@[simp] theorem State.setIrq_stopped (b : BitVec 5) : (s.setIrq b).stopped = s.stopped := rfl
@[simp] theorem State.setIrq_ring (b : BitVec 5) : (s.setIrq b).ring = s.ring := rfl
@[simp] theorem State.setIrq_mixer (b : BitVec 5) : (s.setIrq b).mixer = s.mixer := rfl
@[simp] theorem State.setIrq_line (b : BitVec 5) : (s.setIrq b).line = s.line := rfl
@[simp] theorem State.setIrq_env (b : BitVec 5) : (s.setIrq b).env = s.env := rfl
@[simp] theorem State.setIrq_obs (b : BitVec 5) : (s.setIrq b).obs = s.obs := rfl

/-! ### record -/

@[simp] theorem State.record_cfg (e : ErrCode) (o x : Byte) : (s.record e o x).cfg = s.cfg := rfl
@[simp] theorem State.record_cur (e : ErrCode) (o x : Byte) : (s.record e o x).cur = s.cur := rfl
@[simp] theorem State.record_arg0 (e : ErrCode) (o x : Byte) : (s.record e o x).arg0 = s.arg0 := rfl
@[simp] theorem State.record_arg1 (e : ErrCode) (o x : Byte) : (s.record e o x).arg1 = s.arg1 := rfl
@[simp] theorem State.record_result (e : ErrCode) (o x : Byte) : (s.record e o x).result = s.result := rfl
@[simp] theorem State.record_err (e : ErrCode) (o x : Byte) : (s.record e o x).err = s.err.record e o x := rfl
@[simp] theorem State.record_irqEn (e : ErrCode) (o x : Byte) : (s.record e o x).irqEn = s.irqEn := rfl
@[simp] theorem State.record_irqPend (e : ErrCode) (o x : Byte) : (s.record e o x).irqPend = s.irqPend ||| irqError := rfl
@[simp] theorem State.record_flags (e : ErrCode) (o x : Byte) : (s.record e o x).flags = s.flags := rfl
@[simp] theorem State.record_counters (e : ErrCode) (o x : Byte) : (s.record e o x).counters = s.counters := rfl
@[simp] theorem State.record_stream (e : ErrCode) (o x : Byte) : (s.record e o x).stream = s.stream := rfl
@[simp] theorem State.record_frame (e : ErrCode) (o x : Byte) : (s.record e o x).frame = s.frame := rfl
@[simp] theorem State.record_hdr (e : ErrCode) (o x : Byte) : (s.record e o x).hdr = s.hdr := rfl
@[simp] theorem State.record_vbr (e : ErrCode) (o x : Byte) : (s.record e o x).vbr = s.vbr := rfl
@[simp] theorem State.record_dec (e : ErrCode) (o x : Byte) : (s.record e o x).dec = s.dec := rfl
@[simp] theorem State.record_sink (e : ErrCode) (o x : Byte) : (s.record e o x).sink = s.sink := rfl
@[simp] theorem State.record_clips (e : ErrCode) (o x : Byte) : (s.record e o x).clips = s.clips := rfl
@[simp] theorem State.record_voices (e : ErrCode) (o x : Byte) : (s.record e o x).voices = s.voices := rfl
@[simp] theorem State.record_stopped (e : ErrCode) (o x : Byte) : (s.record e o x).stopped = s.stopped := rfl
@[simp] theorem State.record_ring (e : ErrCode) (o x : Byte) : (s.record e o x).ring = s.ring := rfl
@[simp] theorem State.record_mixer (e : ErrCode) (o x : Byte) : (s.record e o x).mixer = s.mixer := rfl
@[simp] theorem State.record_line (e : ErrCode) (o x : Byte) : (s.record e o x).line = s.line := rfl
@[simp] theorem State.record_env (e : ErrCode) (o x : Byte) : (s.record e o x).env = s.env := rfl
@[simp] theorem State.record_obs (e : ErrCode) (o x : Byte) : (s.record e o x).obs = s.obs := rfl

/-! ### raise -/

@[simp] theorem State.raise_cfg (e : ErrCode) (o x : Byte) : (s.raise e o x).cfg = s.cfg := rfl
@[simp] theorem State.raise_cur (e : ErrCode) (o x : Byte) : (s.raise e o x).cur = none := rfl
@[simp] theorem State.raise_arg0 (e : ErrCode) (o x : Byte) : (s.raise e o x).arg0 = s.arg0 := rfl
@[simp] theorem State.raise_arg1 (e : ErrCode) (o x : Byte) : (s.raise e o x).arg1 = s.arg1 := rfl
@[simp] theorem State.raise_result (e : ErrCode) (o x : Byte) : (s.raise e o x).result = s.result := rfl
@[simp] theorem State.raise_err (e : ErrCode) (o x : Byte) : (s.raise e o x).err = s.err.record e o x := rfl
@[simp] theorem State.raise_irqEn (e : ErrCode) (o x : Byte) : (s.raise e o x).irqEn = s.irqEn := rfl
@[simp] theorem State.raise_irqPend (e : ErrCode) (o x : Byte) : (s.raise e o x).irqPend = s.irqPend ||| irqError ||| irqCmdDone := rfl
@[simp] theorem State.raise_flags (e : ErrCode) (o x : Byte) : (s.raise e o x).flags = s.flags := rfl
@[simp] theorem State.raise_counters (e : ErrCode) (o x : Byte) : (s.raise e o x).counters = s.counters := rfl
@[simp] theorem State.raise_stream (e : ErrCode) (o x : Byte) : (s.raise e o x).stream = s.stream := rfl
@[simp] theorem State.raise_frame (e : ErrCode) (o x : Byte) : (s.raise e o x).frame = s.frame := rfl
@[simp] theorem State.raise_hdr (e : ErrCode) (o x : Byte) : (s.raise e o x).hdr = s.hdr := rfl
@[simp] theorem State.raise_vbr (e : ErrCode) (o x : Byte) : (s.raise e o x).vbr = s.vbr := rfl
@[simp] theorem State.raise_dec (e : ErrCode) (o x : Byte) : (s.raise e o x).dec = s.dec := rfl
@[simp] theorem State.raise_sink (e : ErrCode) (o x : Byte) : (s.raise e o x).sink = s.sink := rfl
@[simp] theorem State.raise_clips (e : ErrCode) (o x : Byte) : (s.raise e o x).clips = s.clips := rfl
@[simp] theorem State.raise_voices (e : ErrCode) (o x : Byte) : (s.raise e o x).voices = s.voices := rfl
@[simp] theorem State.raise_stopped (e : ErrCode) (o x : Byte) : (s.raise e o x).stopped = s.stopped := rfl
@[simp] theorem State.raise_ring (e : ErrCode) (o x : Byte) : (s.raise e o x).ring = s.ring := rfl
@[simp] theorem State.raise_mixer (e : ErrCode) (o x : Byte) : (s.raise e o x).mixer = s.mixer := rfl
@[simp] theorem State.raise_line (e : ErrCode) (o x : Byte) : (s.raise e o x).line = s.line := rfl
@[simp] theorem State.raise_env (e : ErrCode) (o x : Byte) : (s.raise e o x).env = s.env := rfl
@[simp] theorem State.raise_obs (e : ErrCode) (o x : Byte) : (s.raise e o x).obs = s.obs := rfl

/-! ### complete -/

@[simp] theorem State.complete_cfg (r : Nat) : (s.complete r).cfg = s.cfg := rfl
@[simp] theorem State.complete_cur (r : Nat) : (s.complete r).cur = none := rfl
@[simp] theorem State.complete_arg0 (r : Nat) : (s.complete r).arg0 = s.arg0 := rfl
@[simp] theorem State.complete_arg1 (r : Nat) : (s.complete r).arg1 = s.arg1 := rfl
@[simp] theorem State.complete_result (r : Nat) : (s.complete r).result = BitVec.ofNat 32 r := rfl
@[simp] theorem State.complete_err (r : Nat) : (s.complete r).err = s.err := rfl
@[simp] theorem State.complete_irqEn (r : Nat) : (s.complete r).irqEn = s.irqEn := rfl
@[simp] theorem State.complete_irqPend (r : Nat) : (s.complete r).irqPend = s.irqPend ||| irqCmdDone := rfl
@[simp] theorem State.complete_flags (r : Nat) : (s.complete r).flags = s.flags := rfl
@[simp] theorem State.complete_counters (r : Nat) : (s.complete r).counters = s.counters := rfl
@[simp] theorem State.complete_stream (r : Nat) : (s.complete r).stream = s.stream := rfl
@[simp] theorem State.complete_frame (r : Nat) : (s.complete r).frame = s.frame := rfl
@[simp] theorem State.complete_hdr (r : Nat) : (s.complete r).hdr = s.hdr := rfl
@[simp] theorem State.complete_vbr (r : Nat) : (s.complete r).vbr = s.vbr := rfl
@[simp] theorem State.complete_dec (r : Nat) : (s.complete r).dec = s.dec := rfl
@[simp] theorem State.complete_sink (r : Nat) : (s.complete r).sink = s.sink := rfl
@[simp] theorem State.complete_clips (r : Nat) : (s.complete r).clips = s.clips := rfl
@[simp] theorem State.complete_voices (r : Nat) : (s.complete r).voices = s.voices := rfl
@[simp] theorem State.complete_stopped (r : Nat) : (s.complete r).stopped = s.stopped := rfl
@[simp] theorem State.complete_ring (r : Nat) : (s.complete r).ring = s.ring := rfl
@[simp] theorem State.complete_mixer (r : Nat) : (s.complete r).mixer = s.mixer := rfl
@[simp] theorem State.complete_line (r : Nat) : (s.complete r).line = s.line := rfl
@[simp] theorem State.complete_env (r : Nat) : (s.complete r).env = s.env := rfl
@[simp] theorem State.complete_obs (r : Nat) : (s.complete r).obs = s.obs := rfl

/-! ### clearErr -/

@[simp] theorem State.clearErr_cfg : (s.clearErr).cfg = s.cfg := rfl
@[simp] theorem State.clearErr_cur : (s.clearErr).cur = s.cur := rfl
@[simp] theorem State.clearErr_arg0 : (s.clearErr).arg0 = s.arg0 := rfl
@[simp] theorem State.clearErr_arg1 : (s.clearErr).arg1 = s.arg1 := rfl
@[simp] theorem State.clearErr_result : (s.clearErr).result = s.result := rfl
@[simp] theorem State.clearErr_err : (s.clearErr).err = .clear := rfl
@[simp] theorem State.clearErr_irqEn : (s.clearErr).irqEn = s.irqEn := rfl
@[simp] theorem State.clearErr_irqPend : (s.clearErr).irqPend = s.irqPend := rfl
@[simp] theorem State.clearErr_flags : (s.clearErr).flags = s.flags := rfl
@[simp] theorem State.clearErr_counters : (s.clearErr).counters = s.counters := rfl
@[simp] theorem State.clearErr_stream : (s.clearErr).stream = s.stream := rfl
@[simp] theorem State.clearErr_frame : (s.clearErr).frame = s.frame := rfl
@[simp] theorem State.clearErr_hdr : (s.clearErr).hdr = s.hdr := rfl
@[simp] theorem State.clearErr_vbr : (s.clearErr).vbr = s.vbr := rfl
@[simp] theorem State.clearErr_dec : (s.clearErr).dec = s.dec := rfl
@[simp] theorem State.clearErr_sink : (s.clearErr).sink = s.sink := rfl
@[simp] theorem State.clearErr_clips : (s.clearErr).clips = s.clips := rfl
@[simp] theorem State.clearErr_voices : (s.clearErr).voices = s.voices := rfl
@[simp] theorem State.clearErr_stopped : (s.clearErr).stopped = s.stopped := rfl
@[simp] theorem State.clearErr_ring : (s.clearErr).ring = s.ring := rfl
@[simp] theorem State.clearErr_mixer : (s.clearErr).mixer = s.mixer := rfl
@[simp] theorem State.clearErr_line : (s.clearErr).line = s.line := rfl
@[simp] theorem State.clearErr_env : (s.clearErr).env = s.env := rfl
@[simp] theorem State.clearErr_obs : (s.clearErr).obs = s.obs := rfl

/-! ### ackIrq -/

@[simp] theorem State.ackIrq_cfg (v : Word) : (s.ackIrq v).cfg = s.cfg := rfl
@[simp] theorem State.ackIrq_cur (v : Word) : (s.ackIrq v).cur = s.cur := rfl
@[simp] theorem State.ackIrq_arg0 (v : Word) : (s.ackIrq v).arg0 = s.arg0 := rfl
@[simp] theorem State.ackIrq_arg1 (v : Word) : (s.ackIrq v).arg1 = s.arg1 := rfl
@[simp] theorem State.ackIrq_result (v : Word) : (s.ackIrq v).result = s.result := rfl
@[simp] theorem State.ackIrq_err (v : Word) : (s.ackIrq v).err = s.err := rfl
@[simp] theorem State.ackIrq_irqEn (v : Word) : (s.ackIrq v).irqEn = s.irqEn := rfl
@[simp] theorem State.ackIrq_irqPend (v : Word) : (s.ackIrq v).irqPend = s.irqPend &&& ~~~ (v.extractLsb' 0 5) := rfl
@[simp] theorem State.ackIrq_flags (v : Word) : (s.ackIrq v).flags = s.flags := rfl
@[simp] theorem State.ackIrq_counters (v : Word) : (s.ackIrq v).counters = s.counters := rfl
@[simp] theorem State.ackIrq_stream (v : Word) : (s.ackIrq v).stream = s.stream := rfl
@[simp] theorem State.ackIrq_frame (v : Word) : (s.ackIrq v).frame = s.frame := rfl
@[simp] theorem State.ackIrq_hdr (v : Word) : (s.ackIrq v).hdr = s.hdr := rfl
@[simp] theorem State.ackIrq_vbr (v : Word) : (s.ackIrq v).vbr = s.vbr := rfl
@[simp] theorem State.ackIrq_dec (v : Word) : (s.ackIrq v).dec = s.dec := rfl
@[simp] theorem State.ackIrq_sink (v : Word) : (s.ackIrq v).sink = s.sink := rfl
@[simp] theorem State.ackIrq_clips (v : Word) : (s.ackIrq v).clips = s.clips := rfl
@[simp] theorem State.ackIrq_voices (v : Word) : (s.ackIrq v).voices = s.voices := rfl
@[simp] theorem State.ackIrq_stopped (v : Word) : (s.ackIrq v).stopped = s.stopped := rfl
@[simp] theorem State.ackIrq_ring (v : Word) : (s.ackIrq v).ring = s.ring := rfl
@[simp] theorem State.ackIrq_mixer (v : Word) : (s.ackIrq v).mixer = s.mixer := rfl
@[simp] theorem State.ackIrq_line (v : Word) : (s.ackIrq v).line = s.line := rfl
@[simp] theorem State.ackIrq_env (v : Word) : (s.ackIrq v).env = s.env := rfl
@[simp] theorem State.ackIrq_obs (v : Word) : (s.ackIrq v).obs = s.obs := rfl

/-! ### ackStopped -/

@[simp] theorem State.ackStopped_cfg (k : Nat) (v : Word) : (s.ackStopped k v).cfg = s.cfg := rfl
@[simp] theorem State.ackStopped_cur (k : Nat) (v : Word) : (s.ackStopped k v).cur = s.cur := rfl
@[simp] theorem State.ackStopped_arg0 (k : Nat) (v : Word) : (s.ackStopped k v).arg0 = s.arg0 := rfl
@[simp] theorem State.ackStopped_arg1 (k : Nat) (v : Word) : (s.ackStopped k v).arg1 = s.arg1 := rfl
@[simp] theorem State.ackStopped_result (k : Nat) (v : Word) : (s.ackStopped k v).result = s.result := rfl
@[simp] theorem State.ackStopped_err (k : Nat) (v : Word) : (s.ackStopped k v).err = s.err := rfl
@[simp] theorem State.ackStopped_irqEn (k : Nat) (v : Word) : (s.ackStopped k v).irqEn = s.irqEn := rfl
@[simp] theorem State.ackStopped_irqPend (k : Nat) (v : Word) : (s.ackStopped k v).irqPend = s.irqPend := rfl
@[simp] theorem State.ackStopped_flags (k : Nat) (v : Word) : (s.ackStopped k v).flags = s.flags := rfl
@[simp] theorem State.ackStopped_counters (k : Nat) (v : Word) : (s.ackStopped k v).counters = s.counters := rfl
@[simp] theorem State.ackStopped_stream (k : Nat) (v : Word) : (s.ackStopped k v).stream = s.stream := rfl
@[simp] theorem State.ackStopped_frame (k : Nat) (v : Word) : (s.ackStopped k v).frame = s.frame := rfl
@[simp] theorem State.ackStopped_hdr (k : Nat) (v : Word) : (s.ackStopped k v).hdr = s.hdr := rfl
@[simp] theorem State.ackStopped_vbr (k : Nat) (v : Word) : (s.ackStopped k v).vbr = s.vbr := rfl
@[simp] theorem State.ackStopped_dec (k : Nat) (v : Word) : (s.ackStopped k v).dec = s.dec := rfl
@[simp] theorem State.ackStopped_sink (k : Nat) (v : Word) : (s.ackStopped k v).sink = s.sink := rfl
@[simp] theorem State.ackStopped_clips (k : Nat) (v : Word) : (s.ackStopped k v).clips = s.clips := rfl
@[simp] theorem State.ackStopped_voices (k : Nat) (v : Word) : (s.ackStopped k v).voices = s.voices := rfl
@[simp] theorem State.ackStopped_stopped (k : Nat) (v : Word) : (s.ackStopped k v).stopped = s.stopped &&& ~~~ (v.setWidth 256 <<< (32 * k)) := rfl
@[simp] theorem State.ackStopped_ring (k : Nat) (v : Word) : (s.ackStopped k v).ring = s.ring := rfl
@[simp] theorem State.ackStopped_mixer (k : Nat) (v : Word) : (s.ackStopped k v).mixer = s.mixer := rfl
@[simp] theorem State.ackStopped_line (k : Nat) (v : Word) : (s.ackStopped k v).line = s.line := rfl
@[simp] theorem State.ackStopped_env (k : Nat) (v : Word) : (s.ackStopped k v).env = s.env := rfl
@[simp] theorem State.ackStopped_obs (k : Nat) (v : Word) : (s.ackStopped k v).obs = s.obs := rfl

/-! ### latch -/

@[simp] theorem State.latch_cfg (i : Instr) : (s.latch i).cfg = s.cfg := rfl
@[simp] theorem State.latch_cur (i : Instr) : (s.latch i).cur = some { instr := i, arg0 := s.arg0, arg1 := s.arg1, progress := .initial } := rfl
@[simp] theorem State.latch_arg0 (i : Instr) : (s.latch i).arg0 = s.arg0 := rfl
@[simp] theorem State.latch_arg1 (i : Instr) : (s.latch i).arg1 = s.arg1 := rfl
@[simp] theorem State.latch_result (i : Instr) : (s.latch i).result = s.result := rfl
@[simp] theorem State.latch_err (i : Instr) : (s.latch i).err = s.err := rfl
@[simp] theorem State.latch_irqEn (i : Instr) : (s.latch i).irqEn = s.irqEn := rfl
@[simp] theorem State.latch_irqPend (i : Instr) : (s.latch i).irqPend = s.irqPend := rfl
@[simp] theorem State.latch_flags (i : Instr) : (s.latch i).flags = s.flags := rfl
@[simp] theorem State.latch_counters (i : Instr) : (s.latch i).counters = s.counters := rfl
@[simp] theorem State.latch_stream (i : Instr) : (s.latch i).stream = s.stream := rfl
@[simp] theorem State.latch_frame (i : Instr) : (s.latch i).frame = s.frame := rfl
@[simp] theorem State.latch_hdr (i : Instr) : (s.latch i).hdr = s.hdr := rfl
@[simp] theorem State.latch_vbr (i : Instr) : (s.latch i).vbr = s.vbr := rfl
@[simp] theorem State.latch_dec (i : Instr) : (s.latch i).dec = s.dec := rfl
@[simp] theorem State.latch_sink (i : Instr) : (s.latch i).sink = s.sink := rfl
@[simp] theorem State.latch_clips (i : Instr) : (s.latch i).clips = s.clips := rfl
@[simp] theorem State.latch_voices (i : Instr) : (s.latch i).voices = s.voices := rfl
@[simp] theorem State.latch_stopped (i : Instr) : (s.latch i).stopped = s.stopped := rfl
@[simp] theorem State.latch_ring (i : Instr) : (s.latch i).ring = s.ring := rfl
@[simp] theorem State.latch_mixer (i : Instr) : (s.latch i).mixer = s.mixer := rfl
@[simp] theorem State.latch_line (i : Instr) : (s.latch i).line = s.line := rfl
@[simp] theorem State.latch_env (i : Instr) : (s.latch i).env = s.env := rfl
@[simp] theorem State.latch_obs (i : Instr) : (s.latch i).obs = s.obs := rfl

/-! ### goOn -/

@[simp] theorem State.goOn_cfg (j : Job) (p : Progress) : (s.goOn j p).cfg = s.cfg := rfl
@[simp] theorem State.goOn_cur (j : Job) (p : Progress) : (s.goOn j p).cur = some { j with progress := p } := rfl
@[simp] theorem State.goOn_arg0 (j : Job) (p : Progress) : (s.goOn j p).arg0 = s.arg0 := rfl
@[simp] theorem State.goOn_arg1 (j : Job) (p : Progress) : (s.goOn j p).arg1 = s.arg1 := rfl
@[simp] theorem State.goOn_result (j : Job) (p : Progress) : (s.goOn j p).result = s.result := rfl
@[simp] theorem State.goOn_err (j : Job) (p : Progress) : (s.goOn j p).err = s.err := rfl
@[simp] theorem State.goOn_irqEn (j : Job) (p : Progress) : (s.goOn j p).irqEn = s.irqEn := rfl
@[simp] theorem State.goOn_irqPend (j : Job) (p : Progress) : (s.goOn j p).irqPend = s.irqPend := rfl
@[simp] theorem State.goOn_flags (j : Job) (p : Progress) : (s.goOn j p).flags = s.flags := rfl
@[simp] theorem State.goOn_counters (j : Job) (p : Progress) : (s.goOn j p).counters = s.counters := rfl
@[simp] theorem State.goOn_stream (j : Job) (p : Progress) : (s.goOn j p).stream = s.stream := rfl
@[simp] theorem State.goOn_frame (j : Job) (p : Progress) : (s.goOn j p).frame = s.frame := rfl
@[simp] theorem State.goOn_hdr (j : Job) (p : Progress) : (s.goOn j p).hdr = s.hdr := rfl
@[simp] theorem State.goOn_vbr (j : Job) (p : Progress) : (s.goOn j p).vbr = s.vbr := rfl
@[simp] theorem State.goOn_dec (j : Job) (p : Progress) : (s.goOn j p).dec = s.dec := rfl
@[simp] theorem State.goOn_sink (j : Job) (p : Progress) : (s.goOn j p).sink = s.sink := rfl
@[simp] theorem State.goOn_clips (j : Job) (p : Progress) : (s.goOn j p).clips = s.clips := rfl
@[simp] theorem State.goOn_voices (j : Job) (p : Progress) : (s.goOn j p).voices = s.voices := rfl
@[simp] theorem State.goOn_stopped (j : Job) (p : Progress) : (s.goOn j p).stopped = s.stopped := rfl
@[simp] theorem State.goOn_ring (j : Job) (p : Progress) : (s.goOn j p).ring = s.ring := rfl
@[simp] theorem State.goOn_mixer (j : Job) (p : Progress) : (s.goOn j p).mixer = s.mixer := rfl
@[simp] theorem State.goOn_line (j : Job) (p : Progress) : (s.goOn j p).line = s.line := rfl
@[simp] theorem State.goOn_env (j : Job) (p : Progress) : (s.goOn j p).env = s.env := rfl
@[simp] theorem State.goOn_obs (j : Job) (p : Progress) : (s.goOn j p).obs = s.obs := rfl

/-! ### setVoice -/

@[simp] theorem State.setVoice_cfg (v : Nat) (x : Voice) : (s.setVoice v x).cfg = s.cfg := rfl
@[simp] theorem State.setVoice_cur (v : Nat) (x : Voice) : (s.setVoice v x).cur = s.cur := rfl
@[simp] theorem State.setVoice_arg0 (v : Nat) (x : Voice) : (s.setVoice v x).arg0 = s.arg0 := rfl
@[simp] theorem State.setVoice_arg1 (v : Nat) (x : Voice) : (s.setVoice v x).arg1 = s.arg1 := rfl
@[simp] theorem State.setVoice_result (v : Nat) (x : Voice) : (s.setVoice v x).result = s.result := rfl
@[simp] theorem State.setVoice_err (v : Nat) (x : Voice) : (s.setVoice v x).err = s.err := rfl
@[simp] theorem State.setVoice_irqEn (v : Nat) (x : Voice) : (s.setVoice v x).irqEn = s.irqEn := rfl
@[simp] theorem State.setVoice_irqPend (v : Nat) (x : Voice) : (s.setVoice v x).irqPend = s.irqPend := rfl
@[simp] theorem State.setVoice_flags (v : Nat) (x : Voice) : (s.setVoice v x).flags = s.flags := rfl
@[simp] theorem State.setVoice_counters (v : Nat) (x : Voice) : (s.setVoice v x).counters = s.counters := rfl
@[simp] theorem State.setVoice_stream (v : Nat) (x : Voice) : (s.setVoice v x).stream = s.stream := rfl
@[simp] theorem State.setVoice_frame (v : Nat) (x : Voice) : (s.setVoice v x).frame = s.frame := rfl
@[simp] theorem State.setVoice_hdr (v : Nat) (x : Voice) : (s.setVoice v x).hdr = s.hdr := rfl
@[simp] theorem State.setVoice_vbr (v : Nat) (x : Voice) : (s.setVoice v x).vbr = s.vbr := rfl
@[simp] theorem State.setVoice_dec (v : Nat) (x : Voice) : (s.setVoice v x).dec = s.dec := rfl
@[simp] theorem State.setVoice_sink (v : Nat) (x : Voice) : (s.setVoice v x).sink = s.sink := rfl
@[simp] theorem State.setVoice_clips (v : Nat) (x : Voice) : (s.setVoice v x).clips = s.clips := rfl
@[simp] theorem State.setVoice_voices (v : Nat) (x : Voice) : (s.setVoice v x).voices = s.voices.set v x := rfl
@[simp] theorem State.setVoice_stopped (v : Nat) (x : Voice) : (s.setVoice v x).stopped = s.stopped := rfl
@[simp] theorem State.setVoice_ring (v : Nat) (x : Voice) : (s.setVoice v x).ring = s.ring := rfl
@[simp] theorem State.setVoice_mixer (v : Nat) (x : Voice) : (s.setVoice v x).mixer = s.mixer := rfl
@[simp] theorem State.setVoice_line (v : Nat) (x : Voice) : (s.setVoice v x).line = s.line := rfl
@[simp] theorem State.setVoice_env (v : Nat) (x : Voice) : (s.setVoice v x).env = s.env := rfl
@[simp] theorem State.setVoice_obs (v : Nat) (x : Voice) : (s.setVoice v x).obs = s.obs := rfl

/-! ### removeVoice -/

@[simp] theorem State.removeVoice_cfg (v : Nat) : (s.removeVoice v).cfg = s.cfg := rfl
@[simp] theorem State.removeVoice_cur (v : Nat) : (s.removeVoice v).cur = s.cur := rfl
@[simp] theorem State.removeVoice_arg0 (v : Nat) : (s.removeVoice v).arg0 = s.arg0 := rfl
@[simp] theorem State.removeVoice_arg1 (v : Nat) : (s.removeVoice v).arg1 = s.arg1 := rfl
@[simp] theorem State.removeVoice_result (v : Nat) : (s.removeVoice v).result = s.result := rfl
@[simp] theorem State.removeVoice_err (v : Nat) : (s.removeVoice v).err = s.err := rfl
@[simp] theorem State.removeVoice_irqEn (v : Nat) : (s.removeVoice v).irqEn = s.irqEn := rfl
@[simp] theorem State.removeVoice_irqPend (v : Nat) : (s.removeVoice v).irqPend = s.irqPend ||| irqVoiceStopped := rfl
@[simp] theorem State.removeVoice_flags (v : Nat) : (s.removeVoice v).flags = s.flags := rfl
@[simp] theorem State.removeVoice_counters (v : Nat) : (s.removeVoice v).counters = s.counters := rfl
@[simp] theorem State.removeVoice_stream (v : Nat) : (s.removeVoice v).stream = s.stream := rfl
@[simp] theorem State.removeVoice_frame (v : Nat) : (s.removeVoice v).frame = s.frame := rfl
@[simp] theorem State.removeVoice_hdr (v : Nat) : (s.removeVoice v).hdr = s.hdr := rfl
@[simp] theorem State.removeVoice_vbr (v : Nat) : (s.removeVoice v).vbr = s.vbr := rfl
@[simp] theorem State.removeVoice_dec (v : Nat) : (s.removeVoice v).dec = s.dec := rfl
@[simp] theorem State.removeVoice_sink (v : Nat) : (s.removeVoice v).sink = s.sink := rfl
@[simp] theorem State.removeVoice_clips (v : Nat) : (s.removeVoice v).clips = s.clips := rfl
@[simp] theorem State.removeVoice_voices (v : Nat) : (s.removeVoice v).voices = s.voices.set v (s.voiceAt v).removed := rfl
@[simp] theorem State.removeVoice_stopped (v : Nat) : (s.removeVoice v).stopped = s.stopped ||| stoppedBit v := rfl
@[simp] theorem State.removeVoice_ring (v : Nat) : (s.removeVoice v).ring = if (s.voiceAt v).stream then s.ring.unbind else s.ring := rfl
@[simp] theorem State.removeVoice_mixer (v : Nat) : (s.removeVoice v).mixer = s.mixer := rfl
@[simp] theorem State.removeVoice_line (v : Nat) : (s.removeVoice v).line = s.line := rfl
@[simp] theorem State.removeVoice_env (v : Nat) : (s.removeVoice v).env = s.env := rfl
@[simp] theorem State.removeVoice_obs (v : Nat) : (s.removeVoice v).obs = s.obs := rfl

/-! ### queueVoice -/

@[simp] theorem State.queueVoice_cfg (v : Nat) (x : Voice) : (s.queueVoice v x).cfg = s.cfg := rfl
@[simp] theorem State.queueVoice_cur (v : Nat) (x : Voice) : (s.queueVoice v x).cur = s.cur := rfl
@[simp] theorem State.queueVoice_arg0 (v : Nat) (x : Voice) : (s.queueVoice v x).arg0 = s.arg0 := rfl
@[simp] theorem State.queueVoice_arg1 (v : Nat) (x : Voice) : (s.queueVoice v x).arg1 = s.arg1 := rfl
@[simp] theorem State.queueVoice_result (v : Nat) (x : Voice) : (s.queueVoice v x).result = s.result := rfl
@[simp] theorem State.queueVoice_err (v : Nat) (x : Voice) : (s.queueVoice v x).err = s.err := rfl
@[simp] theorem State.queueVoice_irqEn (v : Nat) (x : Voice) : (s.queueVoice v x).irqEn = s.irqEn := rfl
@[simp] theorem State.queueVoice_irqPend (v : Nat) (x : Voice) : (s.queueVoice v x).irqPend = s.irqPend := rfl
@[simp] theorem State.queueVoice_flags (v : Nat) (x : Voice) : (s.queueVoice v x).flags = s.flags := rfl
@[simp] theorem State.queueVoice_counters (v : Nat) (x : Voice) : (s.queueVoice v x).counters = s.counters := rfl
@[simp] theorem State.queueVoice_stream (v : Nat) (x : Voice) : (s.queueVoice v x).stream = s.stream := rfl
@[simp] theorem State.queueVoice_frame (v : Nat) (x : Voice) : (s.queueVoice v x).frame = s.frame := rfl
@[simp] theorem State.queueVoice_hdr (v : Nat) (x : Voice) : (s.queueVoice v x).hdr = s.hdr := rfl
@[simp] theorem State.queueVoice_vbr (v : Nat) (x : Voice) : (s.queueVoice v x).vbr = s.vbr := rfl
@[simp] theorem State.queueVoice_dec (v : Nat) (x : Voice) : (s.queueVoice v x).dec = s.dec := rfl
@[simp] theorem State.queueVoice_sink (v : Nat) (x : Voice) : (s.queueVoice v x).sink = s.sink := rfl
@[simp] theorem State.queueVoice_clips (v : Nat) (x : Voice) : (s.queueVoice v x).clips = s.clips := rfl
@[simp] theorem State.queueVoice_voices (v : Nat) (x : Voice) : (s.queueVoice v x).voices = s.voices.set v x := rfl
@[simp] theorem State.queueVoice_stopped (v : Nat) (x : Voice) : (s.queueVoice v x).stopped = s.stopped := rfl
@[simp] theorem State.queueVoice_ring (v : Nat) (x : Voice) : (s.queueVoice v x).ring = s.ring := rfl
@[simp] theorem State.queueVoice_mixer (v : Nat) (x : Voice) : (s.queueVoice v x).mixer = { s.mixer with fifo := s.mixer.fifo ++ [v] } := rfl
@[simp] theorem State.queueVoice_line (v : Nat) (x : Voice) : (s.queueVoice v x).line = s.line := rfl
@[simp] theorem State.queueVoice_env (v : Nat) (x : Voice) : (s.queueVoice v x).env = s.env := rfl
@[simp] theorem State.queueVoice_obs (v : Nat) (x : Voice) : (s.queueVoice v x).obs = s.obs := rfl

/-! ### setClip -/

@[simp] theorem State.setClip_cfg (c : Nat) (d : ClipDesc) (a : Nat) : (s.setClip c d a).cfg = s.cfg := rfl
@[simp] theorem State.setClip_cur (c : Nat) (d : ClipDesc) (a : Nat) : (s.setClip c d a).cur = s.cur := rfl
@[simp] theorem State.setClip_arg0 (c : Nat) (d : ClipDesc) (a : Nat) : (s.setClip c d a).arg0 = s.arg0 := rfl
@[simp] theorem State.setClip_arg1 (c : Nat) (d : ClipDesc) (a : Nat) : (s.setClip c d a).arg1 = s.arg1 := rfl
@[simp] theorem State.setClip_result (c : Nat) (d : ClipDesc) (a : Nat) : (s.setClip c d a).result = s.result := rfl
@[simp] theorem State.setClip_err (c : Nat) (d : ClipDesc) (a : Nat) : (s.setClip c d a).err = s.err := rfl
@[simp] theorem State.setClip_irqEn (c : Nat) (d : ClipDesc) (a : Nat) : (s.setClip c d a).irqEn = s.irqEn := rfl
@[simp] theorem State.setClip_irqPend (c : Nat) (d : ClipDesc) (a : Nat) : (s.setClip c d a).irqPend = s.irqPend := rfl
@[simp] theorem State.setClip_flags (c : Nat) (d : ClipDesc) (a : Nat) : (s.setClip c d a).flags = s.flags := rfl
@[simp] theorem State.setClip_counters (c : Nat) (d : ClipDesc) (a : Nat) : (s.setClip c d a).counters = s.counters := rfl
@[simp] theorem State.setClip_stream (c : Nat) (d : ClipDesc) (a : Nat) : (s.setClip c d a).stream = s.stream := rfl
@[simp] theorem State.setClip_frame (c : Nat) (d : ClipDesc) (a : Nat) : (s.setClip c d a).frame = s.frame := rfl
@[simp] theorem State.setClip_hdr (c : Nat) (d : ClipDesc) (a : Nat) : (s.setClip c d a).hdr = s.hdr := rfl
@[simp] theorem State.setClip_vbr (c : Nat) (d : ClipDesc) (a : Nat) : (s.setClip c d a).vbr = s.vbr := rfl
@[simp] theorem State.setClip_dec (c : Nat) (d : ClipDesc) (a : Nat) : (s.setClip c d a).dec = s.dec := rfl
@[simp] theorem State.setClip_sink (c : Nat) (d : ClipDesc) (a : Nat) : (s.setClip c d a).sink = s.sink := rfl
@[simp] theorem State.setClip_clips (c : Nat) (d : ClipDesc) (a : Nat) : (s.setClip c d a).clips = { s.clips with descs := s.clips.descs.set c d, alloc := a } := rfl
@[simp] theorem State.setClip_voices (c : Nat) (d : ClipDesc) (a : Nat) : (s.setClip c d a).voices = s.voices := rfl
@[simp] theorem State.setClip_stopped (c : Nat) (d : ClipDesc) (a : Nat) : (s.setClip c d a).stopped = s.stopped := rfl
@[simp] theorem State.setClip_ring (c : Nat) (d : ClipDesc) (a : Nat) : (s.setClip c d a).ring = s.ring := rfl
@[simp] theorem State.setClip_mixer (c : Nat) (d : ClipDesc) (a : Nat) : (s.setClip c d a).mixer = s.mixer := rfl
@[simp] theorem State.setClip_line (c : Nat) (d : ClipDesc) (a : Nat) : (s.setClip c d a).line = s.line := rfl
@[simp] theorem State.setClip_env (c : Nat) (d : ClipDesc) (a : Nat) : (s.setClip c d a).env = s.env := rfl
@[simp] theorem State.setClip_obs (c : Nat) (d : ClipDesc) (a : Nat) : (s.setClip c d a).obs = s.obs := rfl

/-! ### setEosSeen -/

@[simp] theorem State.setEosSeen_cfg (b : Bool) : (s.setEosSeen b).cfg = s.cfg := rfl
@[simp] theorem State.setEosSeen_cur (b : Bool) : (s.setEosSeen b).cur = s.cur := rfl
@[simp] theorem State.setEosSeen_arg0 (b : Bool) : (s.setEosSeen b).arg0 = s.arg0 := rfl
@[simp] theorem State.setEosSeen_arg1 (b : Bool) : (s.setEosSeen b).arg1 = s.arg1 := rfl
@[simp] theorem State.setEosSeen_result (b : Bool) : (s.setEosSeen b).result = s.result := rfl
@[simp] theorem State.setEosSeen_err (b : Bool) : (s.setEosSeen b).err = s.err := rfl
@[simp] theorem State.setEosSeen_irqEn (b : Bool) : (s.setEosSeen b).irqEn = s.irqEn := rfl
@[simp] theorem State.setEosSeen_irqPend (b : Bool) : (s.setEosSeen b).irqPend = s.irqPend := rfl
@[simp] theorem State.setEosSeen_flags (b : Bool) : (s.setEosSeen b).flags = { s.flags with eosSeen := b } := rfl
@[simp] theorem State.setEosSeen_counters (b : Bool) : (s.setEosSeen b).counters = s.counters := rfl
@[simp] theorem State.setEosSeen_stream (b : Bool) : (s.setEosSeen b).stream = s.stream := rfl
@[simp] theorem State.setEosSeen_frame (b : Bool) : (s.setEosSeen b).frame = s.frame := rfl
@[simp] theorem State.setEosSeen_hdr (b : Bool) : (s.setEosSeen b).hdr = s.hdr := rfl
@[simp] theorem State.setEosSeen_vbr (b : Bool) : (s.setEosSeen b).vbr = s.vbr := rfl
@[simp] theorem State.setEosSeen_dec (b : Bool) : (s.setEosSeen b).dec = s.dec := rfl
@[simp] theorem State.setEosSeen_sink (b : Bool) : (s.setEosSeen b).sink = s.sink := rfl
@[simp] theorem State.setEosSeen_clips (b : Bool) : (s.setEosSeen b).clips = s.clips := rfl
@[simp] theorem State.setEosSeen_voices (b : Bool) : (s.setEosSeen b).voices = s.voices := rfl
@[simp] theorem State.setEosSeen_stopped (b : Bool) : (s.setEosSeen b).stopped = s.stopped := rfl
@[simp] theorem State.setEosSeen_ring (b : Bool) : (s.setEosSeen b).ring = s.ring := rfl
@[simp] theorem State.setEosSeen_mixer (b : Bool) : (s.setEosSeen b).mixer = s.mixer := rfl
@[simp] theorem State.setEosSeen_line (b : Bool) : (s.setEosSeen b).line = s.line := rfl
@[simp] theorem State.setEosSeen_env (b : Bool) : (s.setEosSeen b).env = s.env := rfl
@[simp] theorem State.setEosSeen_obs (b : Bool) : (s.setEosSeen b).obs = s.obs := rfl

/-! ### setKind -/

@[simp] theorem State.setKind_cfg (k : StreamKind) : (s.setKind k).cfg = s.cfg := rfl
@[simp] theorem State.setKind_cur (k : StreamKind) : (s.setKind k).cur = s.cur := rfl
@[simp] theorem State.setKind_arg0 (k : StreamKind) : (s.setKind k).arg0 = s.arg0 := rfl
@[simp] theorem State.setKind_arg1 (k : StreamKind) : (s.setKind k).arg1 = s.arg1 := rfl
@[simp] theorem State.setKind_result (k : StreamKind) : (s.setKind k).result = s.result := rfl
@[simp] theorem State.setKind_err (k : StreamKind) : (s.setKind k).err = s.err := rfl
@[simp] theorem State.setKind_irqEn (k : StreamKind) : (s.setKind k).irqEn = s.irqEn := rfl
@[simp] theorem State.setKind_irqPend (k : StreamKind) : (s.setKind k).irqPend = s.irqPend := rfl
@[simp] theorem State.setKind_flags (k : StreamKind) : (s.setKind k).flags = s.flags := rfl
@[simp] theorem State.setKind_counters (k : StreamKind) : (s.setKind k).counters = s.counters := rfl
@[simp] theorem State.setKind_stream (k : StreamKind) : (s.setKind k).stream = { s.stream with kind := k } := rfl
@[simp] theorem State.setKind_frame (k : StreamKind) : (s.setKind k).frame = s.frame := rfl
@[simp] theorem State.setKind_hdr (k : StreamKind) : (s.setKind k).hdr = s.hdr := rfl
@[simp] theorem State.setKind_vbr (k : StreamKind) : (s.setKind k).vbr = s.vbr := rfl
@[simp] theorem State.setKind_dec (k : StreamKind) : (s.setKind k).dec = s.dec := rfl
@[simp] theorem State.setKind_sink (k : StreamKind) : (s.setKind k).sink = s.sink := rfl
@[simp] theorem State.setKind_clips (k : StreamKind) : (s.setKind k).clips = s.clips := rfl
@[simp] theorem State.setKind_voices (k : StreamKind) : (s.setKind k).voices = s.voices := rfl
@[simp] theorem State.setKind_stopped (k : StreamKind) : (s.setKind k).stopped = s.stopped := rfl
@[simp] theorem State.setKind_ring (k : StreamKind) : (s.setKind k).ring = s.ring := rfl
@[simp] theorem State.setKind_mixer (k : StreamKind) : (s.setKind k).mixer = s.mixer := rfl
@[simp] theorem State.setKind_line (k : StreamKind) : (s.setKind k).line = s.line := rfl
@[simp] theorem State.setKind_env (k : StreamKind) : (s.setKind k).env = s.env := rfl
@[simp] theorem State.setKind_obs (k : StreamKind) : (s.setKind k).obs = s.obs := rfl

/-! ### startRead -/

@[simp] theorem State.startRead_cfg (p : Progress) : (s.startRead p).cfg = s.cfg := rfl
@[simp] theorem State.startRead_cur (p : Progress) : (s.startRead p).cur = s.cur.map (fun j => { j with progress := p }) := rfl
@[simp] theorem State.startRead_arg0 (p : Progress) : (s.startRead p).arg0 = s.arg0 := rfl
@[simp] theorem State.startRead_arg1 (p : Progress) : (s.startRead p).arg1 = s.arg1 := rfl
@[simp] theorem State.startRead_result (p : Progress) : (s.startRead p).result = s.result := rfl
@[simp] theorem State.startRead_err (p : Progress) : (s.startRead p).err = s.err := rfl
@[simp] theorem State.startRead_irqEn (p : Progress) : (s.startRead p).irqEn = s.irqEn := rfl
@[simp] theorem State.startRead_irqPend (p : Progress) : (s.startRead p).irqPend = s.irqPend := rfl
@[simp] theorem State.startRead_flags (p : Progress) : (s.startRead p).flags = { s.flags with frameValid := false } := rfl
@[simp] theorem State.startRead_counters (p : Progress) : (s.startRead p).counters = s.counters := rfl
@[simp] theorem State.startRead_stream (p : Progress) : (s.startRead p).stream = s.stream := rfl
@[simp] theorem State.startRead_frame (p : Progress) : (s.startRead p).frame = none := rfl
@[simp] theorem State.startRead_hdr (p : Progress) : (s.startRead p).hdr = s.hdr := rfl
@[simp] theorem State.startRead_vbr (p : Progress) : (s.startRead p).vbr = s.vbr := rfl
@[simp] theorem State.startRead_dec (p : Progress) : (s.startRead p).dec = s.dec := rfl
@[simp] theorem State.startRead_sink (p : Progress) : (s.startRead p).sink = s.sink := rfl
@[simp] theorem State.startRead_clips (p : Progress) : (s.startRead p).clips = s.clips := rfl
@[simp] theorem State.startRead_voices (p : Progress) : (s.startRead p).voices = s.voices := rfl
@[simp] theorem State.startRead_stopped (p : Progress) : (s.startRead p).stopped = s.stopped := rfl
@[simp] theorem State.startRead_ring (p : Progress) : (s.startRead p).ring = s.ring := rfl
@[simp] theorem State.startRead_mixer (p : Progress) : (s.startRead p).mixer = s.mixer := rfl
@[simp] theorem State.startRead_line (p : Progress) : (s.startRead p).line = s.line := rfl
@[simp] theorem State.startRead_env (p : Progress) : (s.startRead p).env = s.env := rfl
@[simp] theorem State.startRead_obs (p : Progress) : (s.startRead p).obs = s.obs := rfl

/-! ### closeRing -/

@[simp] theorem State.closeRing_cfg : (s.closeRing).cfg = s.cfg := rfl
@[simp] theorem State.closeRing_cur : (s.closeRing).cur = s.cur := rfl
@[simp] theorem State.closeRing_arg0 : (s.closeRing).arg0 = s.arg0 := rfl
@[simp] theorem State.closeRing_arg1 : (s.closeRing).arg1 = s.arg1 := rfl
@[simp] theorem State.closeRing_result : (s.closeRing).result = s.result := rfl
@[simp] theorem State.closeRing_err : (s.closeRing).err = s.err := rfl
@[simp] theorem State.closeRing_irqEn : (s.closeRing).irqEn = s.irqEn := rfl
@[simp] theorem State.closeRing_irqPend : (s.closeRing).irqPend = s.irqPend := rfl
@[simp] theorem State.closeRing_flags : (s.closeRing).flags = s.flags := rfl
@[simp] theorem State.closeRing_counters : (s.closeRing).counters = s.counters := rfl
@[simp] theorem State.closeRing_stream : (s.closeRing).stream = s.stream := rfl
@[simp] theorem State.closeRing_frame : (s.closeRing).frame = s.frame := rfl
@[simp] theorem State.closeRing_hdr : (s.closeRing).hdr = s.hdr := rfl
@[simp] theorem State.closeRing_vbr : (s.closeRing).vbr = s.vbr := rfl
@[simp] theorem State.closeRing_dec : (s.closeRing).dec = s.dec := rfl
@[simp] theorem State.closeRing_sink : (s.closeRing).sink = s.sink := rfl
@[simp] theorem State.closeRing_clips : (s.closeRing).clips = s.clips := rfl
@[simp] theorem State.closeRing_voices : (s.closeRing).voices = s.voices := rfl
@[simp] theorem State.closeRing_stopped : (s.closeRing).stopped = s.stopped := rfl
@[simp] theorem State.closeRing_ring : (s.closeRing).ring = if s.ring.bound then { s.ring with closed := true } else s.ring := rfl
@[simp] theorem State.closeRing_mixer : (s.closeRing).mixer = s.mixer := rfl
@[simp] theorem State.closeRing_line : (s.closeRing).line = s.line := rfl
@[simp] theorem State.closeRing_env : (s.closeRing).env = s.env := rfl
@[simp] theorem State.closeRing_obs : (s.closeRing).obs = s.obs := rfl

/-! ### nextClipAddr -/

@[simp] theorem State.nextClipAddr_cfg : (s.nextClipAddr).cfg = s.cfg := rfl
@[simp] theorem State.nextClipAddr_cur : (s.nextClipAddr).cur = s.cur := rfl
@[simp] theorem State.nextClipAddr_arg0 : (s.nextClipAddr).arg0 = s.arg0 := rfl
@[simp] theorem State.nextClipAddr_arg1 : (s.nextClipAddr).arg1 = s.arg1 := rfl
@[simp] theorem State.nextClipAddr_result : (s.nextClipAddr).result = s.result := rfl
@[simp] theorem State.nextClipAddr_err : (s.nextClipAddr).err = s.err := rfl
@[simp] theorem State.nextClipAddr_irqEn : (s.nextClipAddr).irqEn = s.irqEn := rfl
@[simp] theorem State.nextClipAddr_irqPend : (s.nextClipAddr).irqPend = s.irqPend := rfl
@[simp] theorem State.nextClipAddr_flags : (s.nextClipAddr).flags = s.flags := rfl
@[simp] theorem State.nextClipAddr_counters : (s.nextClipAddr).counters = s.counters := rfl
@[simp] theorem State.nextClipAddr_stream : (s.nextClipAddr).stream = s.stream := rfl
@[simp] theorem State.nextClipAddr_frame : (s.nextClipAddr).frame = s.frame := rfl
@[simp] theorem State.nextClipAddr_hdr : (s.nextClipAddr).hdr = s.hdr := rfl
@[simp] theorem State.nextClipAddr_vbr : (s.nextClipAddr).vbr = s.vbr := rfl
@[simp] theorem State.nextClipAddr_dec : (s.nextClipAddr).dec = s.dec := rfl
@[simp] theorem State.nextClipAddr_sink : (s.nextClipAddr).sink = s.sink := rfl
@[simp] theorem State.nextClipAddr_clips : (s.nextClipAddr).clips = { s.clips with addr := s.clips.addr + 1 } := rfl
@[simp] theorem State.nextClipAddr_voices : (s.nextClipAddr).voices = s.voices := rfl
@[simp] theorem State.nextClipAddr_stopped : (s.nextClipAddr).stopped = s.stopped := rfl
@[simp] theorem State.nextClipAddr_ring : (s.nextClipAddr).ring = s.ring := rfl
@[simp] theorem State.nextClipAddr_mixer : (s.nextClipAddr).mixer = s.mixer := rfl
@[simp] theorem State.nextClipAddr_line : (s.nextClipAddr).line = s.line := rfl
@[simp] theorem State.nextClipAddr_env : (s.nextClipAddr).env = s.env := rfl
@[simp] theorem State.nextClipAddr_obs : (s.nextClipAddr).obs = s.obs := rfl

/-! ### nextPcmAddr -/

@[simp] theorem State.nextPcmAddr_cfg : (s.nextPcmAddr).cfg = s.cfg := rfl
@[simp] theorem State.nextPcmAddr_cur : (s.nextPcmAddr).cur = s.cur := rfl
@[simp] theorem State.nextPcmAddr_arg0 : (s.nextPcmAddr).arg0 = s.arg0 := rfl
@[simp] theorem State.nextPcmAddr_arg1 : (s.nextPcmAddr).arg1 = s.arg1 := rfl
@[simp] theorem State.nextPcmAddr_result : (s.nextPcmAddr).result = s.result := rfl
@[simp] theorem State.nextPcmAddr_err : (s.nextPcmAddr).err = s.err := rfl
@[simp] theorem State.nextPcmAddr_irqEn : (s.nextPcmAddr).irqEn = s.irqEn := rfl
@[simp] theorem State.nextPcmAddr_irqPend : (s.nextPcmAddr).irqPend = s.irqPend := rfl
@[simp] theorem State.nextPcmAddr_flags : (s.nextPcmAddr).flags = s.flags := rfl
@[simp] theorem State.nextPcmAddr_counters : (s.nextPcmAddr).counters = s.counters := rfl
@[simp] theorem State.nextPcmAddr_stream : (s.nextPcmAddr).stream = s.stream := rfl
@[simp] theorem State.nextPcmAddr_frame : (s.nextPcmAddr).frame = s.frame := rfl
@[simp] theorem State.nextPcmAddr_hdr : (s.nextPcmAddr).hdr = s.hdr := rfl
@[simp] theorem State.nextPcmAddr_vbr : (s.nextPcmAddr).vbr = s.vbr := rfl
@[simp] theorem State.nextPcmAddr_dec : (s.nextPcmAddr).dec = s.dec := rfl
@[simp] theorem State.nextPcmAddr_sink : (s.nextPcmAddr).sink = { s.sink with addr := if s.sink.addr = 4095#12 then 4095#12 else s.sink.addr + 1 } := rfl
@[simp] theorem State.nextPcmAddr_clips : (s.nextPcmAddr).clips = s.clips := rfl
@[simp] theorem State.nextPcmAddr_voices : (s.nextPcmAddr).voices = s.voices := rfl
@[simp] theorem State.nextPcmAddr_stopped : (s.nextPcmAddr).stopped = s.stopped := rfl
@[simp] theorem State.nextPcmAddr_ring : (s.nextPcmAddr).ring = s.ring := rfl
@[simp] theorem State.nextPcmAddr_mixer : (s.nextPcmAddr).mixer = s.mixer := rfl
@[simp] theorem State.nextPcmAddr_line : (s.nextPcmAddr).line = s.line := rfl
@[simp] theorem State.nextPcmAddr_env : (s.nextPcmAddr).env = s.env := rfl
@[simp] theorem State.nextPcmAddr_obs : (s.nextPcmAddr).obs = s.obs := rfl

/-! ### answer -/

@[simp] theorem State.answer_cfg (w : Word) : (s.answer w).cfg = s.cfg := rfl
@[simp] theorem State.answer_cur (w : Word) : (s.answer w).cur = s.cur := rfl
@[simp] theorem State.answer_arg0 (w : Word) : (s.answer w).arg0 = s.arg0 := rfl
@[simp] theorem State.answer_arg1 (w : Word) : (s.answer w).arg1 = s.arg1 := rfl
@[simp] theorem State.answer_result (w : Word) : (s.answer w).result = s.result := rfl
@[simp] theorem State.answer_err (w : Word) : (s.answer w).err = s.err := rfl
@[simp] theorem State.answer_irqEn (w : Word) : (s.answer w).irqEn = s.irqEn := rfl
@[simp] theorem State.answer_irqPend (w : Word) : (s.answer w).irqPend = s.irqPend := rfl
@[simp] theorem State.answer_flags (w : Word) : (s.answer w).flags = s.flags := rfl
@[simp] theorem State.answer_counters (w : Word) : (s.answer w).counters = s.counters := rfl
@[simp] theorem State.answer_stream (w : Word) : (s.answer w).stream = s.stream := rfl
@[simp] theorem State.answer_frame (w : Word) : (s.answer w).frame = s.frame := rfl
@[simp] theorem State.answer_hdr (w : Word) : (s.answer w).hdr = s.hdr := rfl
@[simp] theorem State.answer_vbr (w : Word) : (s.answer w).vbr = s.vbr := rfl
@[simp] theorem State.answer_dec (w : Word) : (s.answer w).dec = s.dec := rfl
@[simp] theorem State.answer_sink (w : Word) : (s.answer w).sink = s.sink := rfl
@[simp] theorem State.answer_clips (w : Word) : (s.answer w).clips = s.clips := rfl
@[simp] theorem State.answer_voices (w : Word) : (s.answer w).voices = s.voices := rfl
@[simp] theorem State.answer_stopped (w : Word) : (s.answer w).stopped = s.stopped := rfl
@[simp] theorem State.answer_ring (w : Word) : (s.answer w).ring = s.ring := rfl
@[simp] theorem State.answer_mixer (w : Word) : (s.answer w).mixer = s.mixer := rfl
@[simp] theorem State.answer_line (w : Word) : (s.answer w).line = s.line := rfl
@[simp] theorem State.answer_env (w : Word) : (s.answer w).env = s.env := rfl
@[simp] theorem State.answer_obs (w : Word) : (s.answer w).obs = { s.obs with readData := w } := rfl

/-! ### withTurn -/

@[simp] theorem State.withTurn_cfg (t : Turn) : (s.withTurn t).cfg = s.cfg := rfl
@[simp] theorem State.withTurn_cur (t : Turn) : (s.withTurn t).cur = s.cur := rfl
@[simp] theorem State.withTurn_arg0 (t : Turn) : (s.withTurn t).arg0 = s.arg0 := rfl
@[simp] theorem State.withTurn_arg1 (t : Turn) : (s.withTurn t).arg1 = s.arg1 := rfl
@[simp] theorem State.withTurn_result (t : Turn) : (s.withTurn t).result = s.result := rfl
@[simp] theorem State.withTurn_err (t : Turn) : (s.withTurn t).err = s.err := rfl
@[simp] theorem State.withTurn_irqEn (t : Turn) : (s.withTurn t).irqEn = s.irqEn := rfl
@[simp] theorem State.withTurn_irqPend (t : Turn) : (s.withTurn t).irqPend = s.irqPend := rfl
@[simp] theorem State.withTurn_flags (t : Turn) : (s.withTurn t).flags = s.flags := rfl
@[simp] theorem State.withTurn_counters (t : Turn) : (s.withTurn t).counters = s.counters := rfl
@[simp] theorem State.withTurn_stream (t : Turn) : (s.withTurn t).stream = s.stream := rfl
@[simp] theorem State.withTurn_frame (t : Turn) : (s.withTurn t).frame = s.frame := rfl
@[simp] theorem State.withTurn_hdr (t : Turn) : (s.withTurn t).hdr = s.hdr := rfl
@[simp] theorem State.withTurn_vbr (t : Turn) : (s.withTurn t).vbr = s.vbr := rfl
@[simp] theorem State.withTurn_dec (t : Turn) : (s.withTurn t).dec = s.dec := rfl
@[simp] theorem State.withTurn_sink (t : Turn) : (s.withTurn t).sink = s.sink := rfl
@[simp] theorem State.withTurn_clips (t : Turn) : (s.withTurn t).clips = s.clips := rfl
@[simp] theorem State.withTurn_voices (t : Turn) : (s.withTurn t).voices = s.voices := rfl
@[simp] theorem State.withTurn_stopped (t : Turn) : (s.withTurn t).stopped = s.stopped := rfl
@[simp] theorem State.withTurn_ring (t : Turn) : (s.withTurn t).ring = s.ring := rfl
@[simp] theorem State.withTurn_mixer (t : Turn) : (s.withTurn t).mixer = s.mixer := rfl
@[simp] theorem State.withTurn_line (t : Turn) : (s.withTurn t).line = s.line := rfl
@[simp] theorem State.withTurn_env (t : Turn) : (s.withTurn t).env = { s.env with script := t :: s.env.script } := rfl
@[simp] theorem State.withTurn_obs (t : Turn) : (s.withTurn t).obs = s.obs := rfl

/-! ### taking -/

@[simp] theorem State.taking_cfg : (s.taking).cfg = s.cfg := rfl
@[simp] theorem State.taking_cur : (s.taking).cur = s.cur := rfl
@[simp] theorem State.taking_arg0 : (s.taking).arg0 = s.arg0 := rfl
@[simp] theorem State.taking_arg1 : (s.taking).arg1 = s.arg1 := rfl
@[simp] theorem State.taking_result : (s.taking).result = s.result := rfl
@[simp] theorem State.taking_err : (s.taking).err = s.err := rfl
@[simp] theorem State.taking_irqEn : (s.taking).irqEn = s.irqEn := rfl
@[simp] theorem State.taking_irqPend : (s.taking).irqPend = s.irqPend := rfl
@[simp] theorem State.taking_flags : (s.taking).flags = s.flags := rfl
@[simp] theorem State.taking_counters : (s.taking).counters = s.counters := rfl
@[simp] theorem State.taking_stream : (s.taking).stream = s.stream := rfl
@[simp] theorem State.taking_frame : (s.taking).frame = s.frame := rfl
@[simp] theorem State.taking_hdr : (s.taking).hdr = s.hdr := rfl
@[simp] theorem State.taking_vbr : (s.taking).vbr = s.vbr := rfl
@[simp] theorem State.taking_dec : (s.taking).dec = s.dec := rfl
@[simp] theorem State.taking_sink : (s.taking).sink = s.sink := rfl
@[simp] theorem State.taking_clips : (s.taking).clips = s.clips := rfl
@[simp] theorem State.taking_voices : (s.taking).voices = s.voices := rfl
@[simp] theorem State.taking_stopped : (s.taking).stopped = s.stopped := rfl
@[simp] theorem State.taking_ring : (s.taking).ring = s.ring := rfl
@[simp] theorem State.taking_mixer : (s.taking).mixer = s.mixer := rfl
@[simp] theorem State.taking_line : (s.taking).line = s.line := rfl
@[simp] theorem State.taking_env : (s.taking).env = s.env.advance.withDraws s.env.nextTurn := rfl
@[simp] theorem State.taking_obs : (s.taking).obs = s.obs := rfl

/-! ### lineWrite: the fields it leaves alone -/

@[simp] theorem State.lineWrite_cfg (fs : List StereoFrame) : (s.lineWrite fs).cfg = s.cfg := by unfold State.lineWrite; dsimp only; split <;> rfl
@[simp] theorem State.lineWrite_cur (fs : List StereoFrame) : (s.lineWrite fs).cur = s.cur := by unfold State.lineWrite; dsimp only; split <;> rfl
@[simp] theorem State.lineWrite_arg0 (fs : List StereoFrame) : (s.lineWrite fs).arg0 = s.arg0 := by unfold State.lineWrite; dsimp only; split <;> rfl
@[simp] theorem State.lineWrite_arg1 (fs : List StereoFrame) : (s.lineWrite fs).arg1 = s.arg1 := by unfold State.lineWrite; dsimp only; split <;> rfl
@[simp] theorem State.lineWrite_result (fs : List StereoFrame) : (s.lineWrite fs).result = s.result := by unfold State.lineWrite; dsimp only; split <;> rfl
@[simp] theorem State.lineWrite_err (fs : List StereoFrame) : (s.lineWrite fs).err = s.err := by unfold State.lineWrite; dsimp only; split <;> rfl
@[simp] theorem State.lineWrite_irqEn (fs : List StereoFrame) : (s.lineWrite fs).irqEn = s.irqEn := by unfold State.lineWrite; dsimp only; split <;> rfl
@[simp] theorem State.lineWrite_irqPend (fs : List StereoFrame) : (s.lineWrite fs).irqPend = s.irqPend := by unfold State.lineWrite; dsimp only; split <;> rfl
@[simp] theorem State.lineWrite_flags (fs : List StereoFrame) : (s.lineWrite fs).flags = s.flags := by unfold State.lineWrite; dsimp only; split <;> rfl
@[simp] theorem State.lineWrite_stream (fs : List StereoFrame) : (s.lineWrite fs).stream = s.stream := by unfold State.lineWrite; dsimp only; split <;> rfl
@[simp] theorem State.lineWrite_frame (fs : List StereoFrame) : (s.lineWrite fs).frame = s.frame := by unfold State.lineWrite; dsimp only; split <;> rfl
@[simp] theorem State.lineWrite_hdr (fs : List StereoFrame) : (s.lineWrite fs).hdr = s.hdr := by unfold State.lineWrite; dsimp only; split <;> rfl
@[simp] theorem State.lineWrite_vbr (fs : List StereoFrame) : (s.lineWrite fs).vbr = s.vbr := by unfold State.lineWrite; dsimp only; split <;> rfl
@[simp] theorem State.lineWrite_dec (fs : List StereoFrame) : (s.lineWrite fs).dec = s.dec := by unfold State.lineWrite; dsimp only; split <;> rfl
@[simp] theorem State.lineWrite_sink (fs : List StereoFrame) : (s.lineWrite fs).sink = s.sink := by unfold State.lineWrite; dsimp only; split <;> rfl
@[simp] theorem State.lineWrite_clips (fs : List StereoFrame) : (s.lineWrite fs).clips = s.clips := by unfold State.lineWrite; dsimp only; split <;> rfl
@[simp] theorem State.lineWrite_voices (fs : List StereoFrame) : (s.lineWrite fs).voices = s.voices := by unfold State.lineWrite; dsimp only; split <;> rfl
@[simp] theorem State.lineWrite_stopped (fs : List StereoFrame) : (s.lineWrite fs).stopped = s.stopped := by unfold State.lineWrite; dsimp only; split <;> rfl
@[simp] theorem State.lineWrite_ring (fs : List StereoFrame) : (s.lineWrite fs).ring = s.ring := by unfold State.lineWrite; dsimp only; split <;> rfl
@[simp] theorem State.lineWrite_mixer (fs : List StereoFrame) : (s.lineWrite fs).mixer = s.mixer := by unfold State.lineWrite; dsimp only; split <;> rfl
@[simp] theorem State.lineWrite_env (fs : List StereoFrame) : (s.lineWrite fs).env = s.env := by unfold State.lineWrite; dsimp only; split <;> rfl

/-! ### ringAppend: the fields it leaves alone -/

@[simp] theorem State.ringAppend_cfg : (s.ringAppend).cfg = s.cfg := by unfold State.ringAppend; split <;> rfl
@[simp] theorem State.ringAppend_cur : (s.ringAppend).cur = s.cur := by unfold State.ringAppend; split <;> rfl
@[simp] theorem State.ringAppend_arg0 : (s.ringAppend).arg0 = s.arg0 := by unfold State.ringAppend; split <;> rfl
@[simp] theorem State.ringAppend_arg1 : (s.ringAppend).arg1 = s.arg1 := by unfold State.ringAppend; split <;> rfl
@[simp] theorem State.ringAppend_result : (s.ringAppend).result = s.result := by unfold State.ringAppend; split <;> rfl
@[simp] theorem State.ringAppend_err : (s.ringAppend).err = s.err := by unfold State.ringAppend; split <;> rfl
@[simp] theorem State.ringAppend_irqEn : (s.ringAppend).irqEn = s.irqEn := by unfold State.ringAppend; split <;> rfl
@[simp] theorem State.ringAppend_irqPend : (s.ringAppend).irqPend = s.irqPend := by unfold State.ringAppend; split <;> rfl
@[simp] theorem State.ringAppend_flags : (s.ringAppend).flags = s.flags := by unfold State.ringAppend; split <;> rfl
@[simp] theorem State.ringAppend_counters : (s.ringAppend).counters = s.counters := by unfold State.ringAppend; split <;> rfl
@[simp] theorem State.ringAppend_stream : (s.ringAppend).stream = s.stream := by unfold State.ringAppend; split <;> rfl
@[simp] theorem State.ringAppend_frame : (s.ringAppend).frame = s.frame := by unfold State.ringAppend; split <;> rfl
@[simp] theorem State.ringAppend_hdr : (s.ringAppend).hdr = s.hdr := by unfold State.ringAppend; split <;> rfl
@[simp] theorem State.ringAppend_vbr : (s.ringAppend).vbr = s.vbr := by unfold State.ringAppend; split <;> rfl
@[simp] theorem State.ringAppend_dec : (s.ringAppend).dec = s.dec := by unfold State.ringAppend; split <;> rfl
@[simp] theorem State.ringAppend_sink : (s.ringAppend).sink = s.sink := by unfold State.ringAppend; split <;> rfl
@[simp] theorem State.ringAppend_clips : (s.ringAppend).clips = s.clips := by unfold State.ringAppend; split <;> rfl
@[simp] theorem State.ringAppend_voices : (s.ringAppend).voices = s.voices := by unfold State.ringAppend; split <;> rfl
@[simp] theorem State.ringAppend_stopped : (s.ringAppend).stopped = s.stopped := by unfold State.ringAppend; split <;> rfl
@[simp] theorem State.ringAppend_mixer : (s.ringAppend).mixer = s.mixer := by unfold State.ringAppend; split <;> rfl
@[simp] theorem State.ringAppend_line : (s.ringAppend).line = s.line := by unfold State.ringAppend; split <;> rfl
@[simp] theorem State.ringAppend_obs : (s.ringAppend).obs = s.obs := by unfold State.ringAppend; split <;> rfl

/-! ### checkCrc: the fields it leaves alone -/

@[simp] theorem State.checkCrc_cfg (f : Frame) : (s.checkCrc f).cfg = s.cfg := by unfold State.checkCrc; split <;> first | rfl | (dsimp only; split <;> rfl)
@[simp] theorem State.checkCrc_cur (f : Frame) : (s.checkCrc f).cur = s.cur := by unfold State.checkCrc; split <;> first | rfl | (dsimp only; split <;> rfl)
@[simp] theorem State.checkCrc_arg0 (f : Frame) : (s.checkCrc f).arg0 = s.arg0 := by unfold State.checkCrc; split <;> first | rfl | (dsimp only; split <;> rfl)
@[simp] theorem State.checkCrc_arg1 (f : Frame) : (s.checkCrc f).arg1 = s.arg1 := by unfold State.checkCrc; split <;> first | rfl | (dsimp only; split <;> rfl)
@[simp] theorem State.checkCrc_result (f : Frame) : (s.checkCrc f).result = s.result := by unfold State.checkCrc; split <;> first | rfl | (dsimp only; split <;> rfl)
@[simp] theorem State.checkCrc_err (f : Frame) : (s.checkCrc f).err = s.err := by unfold State.checkCrc; split <;> first | rfl | (dsimp only; split <;> rfl)
@[simp] theorem State.checkCrc_irqEn (f : Frame) : (s.checkCrc f).irqEn = s.irqEn := by unfold State.checkCrc; split <;> first | rfl | (dsimp only; split <;> rfl)
@[simp] theorem State.checkCrc_stream (f : Frame) : (s.checkCrc f).stream = s.stream := by unfold State.checkCrc; split <;> first | rfl | (dsimp only; split <;> rfl)
@[simp] theorem State.checkCrc_frame (f : Frame) : (s.checkCrc f).frame = s.frame := by unfold State.checkCrc; split <;> first | rfl | (dsimp only; split <;> rfl)
@[simp] theorem State.checkCrc_vbr (f : Frame) : (s.checkCrc f).vbr = s.vbr := by unfold State.checkCrc; split <;> first | rfl | (dsimp only; split <;> rfl)
@[simp] theorem State.checkCrc_dec (f : Frame) : (s.checkCrc f).dec = s.dec := by unfold State.checkCrc; split <;> first | rfl | (dsimp only; split <;> rfl)
@[simp] theorem State.checkCrc_sink (f : Frame) : (s.checkCrc f).sink = s.sink := by unfold State.checkCrc; split <;> first | rfl | (dsimp only; split <;> rfl)
@[simp] theorem State.checkCrc_clips (f : Frame) : (s.checkCrc f).clips = s.clips := by unfold State.checkCrc; split <;> first | rfl | (dsimp only; split <;> rfl)
@[simp] theorem State.checkCrc_voices (f : Frame) : (s.checkCrc f).voices = s.voices := by unfold State.checkCrc; split <;> first | rfl | (dsimp only; split <;> rfl)
@[simp] theorem State.checkCrc_stopped (f : Frame) : (s.checkCrc f).stopped = s.stopped := by unfold State.checkCrc; split <;> first | rfl | (dsimp only; split <;> rfl)
@[simp] theorem State.checkCrc_ring (f : Frame) : (s.checkCrc f).ring = s.ring := by unfold State.checkCrc; split <;> first | rfl | (dsimp only; split <;> rfl)
@[simp] theorem State.checkCrc_mixer (f : Frame) : (s.checkCrc f).mixer = s.mixer := by unfold State.checkCrc; split <;> first | rfl | (dsimp only; split <;> rfl)
@[simp] theorem State.checkCrc_line (f : Frame) : (s.checkCrc f).line = s.line := by unfold State.checkCrc; split <;> first | rfl | (dsimp only; split <;> rfl)
@[simp] theorem State.checkCrc_env (f : Frame) : (s.checkCrc f).env = s.env := by unfold State.checkCrc; split <;> first | rfl | (dsimp only; split <;> rfl)
@[simp] theorem State.checkCrc_obs (f : Frame) : (s.checkCrc f).obs = s.obs := by unfold State.checkCrc; split <;> first | rfl | (dsimp only; split <;> rfl)

/-! ### applyVbr: the fields it leaves alone -/

@[simp] theorem State.applyVbr_cfg (o : Byte) (r : VbrResult) : (s.applyVbr o r).cfg = s.cfg := by unfold State.applyVbr; split <;> rfl
@[simp] theorem State.applyVbr_cur (o : Byte) (r : VbrResult) : (s.applyVbr o r).cur = s.cur := by unfold State.applyVbr; split <;> rfl
@[simp] theorem State.applyVbr_arg0 (o : Byte) (r : VbrResult) : (s.applyVbr o r).arg0 = s.arg0 := by unfold State.applyVbr; split <;> rfl
@[simp] theorem State.applyVbr_arg1 (o : Byte) (r : VbrResult) : (s.applyVbr o r).arg1 = s.arg1 := by unfold State.applyVbr; split <;> rfl
@[simp] theorem State.applyVbr_result (o : Byte) (r : VbrResult) : (s.applyVbr o r).result = s.result := by unfold State.applyVbr; split <;> rfl
@[simp] theorem State.applyVbr_irqEn (o : Byte) (r : VbrResult) : (s.applyVbr o r).irqEn = s.irqEn := by unfold State.applyVbr; split <;> rfl
@[simp] theorem State.applyVbr_counters (o : Byte) (r : VbrResult) : (s.applyVbr o r).counters = s.counters := by unfold State.applyVbr; split <;> rfl
@[simp] theorem State.applyVbr_stream (o : Byte) (r : VbrResult) : (s.applyVbr o r).stream = s.stream := by unfold State.applyVbr; split <;> rfl
@[simp] theorem State.applyVbr_frame (o : Byte) (r : VbrResult) : (s.applyVbr o r).frame = s.frame := by unfold State.applyVbr; split <;> rfl
@[simp] theorem State.applyVbr_hdr (o : Byte) (r : VbrResult) : (s.applyVbr o r).hdr = s.hdr := by unfold State.applyVbr; split <;> rfl
@[simp] theorem State.applyVbr_dec (o : Byte) (r : VbrResult) : (s.applyVbr o r).dec = s.dec := by unfold State.applyVbr; split <;> rfl
@[simp] theorem State.applyVbr_sink (o : Byte) (r : VbrResult) : (s.applyVbr o r).sink = s.sink := by unfold State.applyVbr; split <;> rfl
@[simp] theorem State.applyVbr_clips (o : Byte) (r : VbrResult) : (s.applyVbr o r).clips = s.clips := by unfold State.applyVbr; split <;> rfl
@[simp] theorem State.applyVbr_voices (o : Byte) (r : VbrResult) : (s.applyVbr o r).voices = s.voices := by unfold State.applyVbr; split <;> rfl
@[simp] theorem State.applyVbr_stopped (o : Byte) (r : VbrResult) : (s.applyVbr o r).stopped = s.stopped := by unfold State.applyVbr; split <;> rfl
@[simp] theorem State.applyVbr_ring (o : Byte) (r : VbrResult) : (s.applyVbr o r).ring = s.ring := by unfold State.applyVbr; split <;> rfl
@[simp] theorem State.applyVbr_mixer (o : Byte) (r : VbrResult) : (s.applyVbr o r).mixer = s.mixer := by unfold State.applyVbr; split <;> rfl
@[simp] theorem State.applyVbr_line (o : Byte) (r : VbrResult) : (s.applyVbr o r).line = s.line := by unfold State.applyVbr; split <;> rfl
@[simp] theorem State.applyVbr_env (o : Byte) (r : VbrResult) : (s.applyVbr o r).env = s.env := by unfold State.applyVbr; split <;> rfl
@[simp] theorem State.applyVbr_obs (o : Byte) (r : VbrResult) : (s.applyVbr o r).obs = s.obs := by unfold State.applyVbr; split <;> rfl

/-! ### reap: the fields it leaves alone -/

@[simp] theorem State.reap_cfg (v : Nat) : (s.reap v).cfg = s.cfg := by unfold State.reap; split <;> rfl
@[simp] theorem State.reap_cur (v : Nat) : (s.reap v).cur = s.cur := by unfold State.reap; split <;> rfl
@[simp] theorem State.reap_arg0 (v : Nat) : (s.reap v).arg0 = s.arg0 := by unfold State.reap; split <;> rfl
@[simp] theorem State.reap_arg1 (v : Nat) : (s.reap v).arg1 = s.arg1 := by unfold State.reap; split <;> rfl
@[simp] theorem State.reap_result (v : Nat) : (s.reap v).result = s.result := by unfold State.reap; split <;> rfl
@[simp] theorem State.reap_err (v : Nat) : (s.reap v).err = s.err := by unfold State.reap; split <;> rfl
@[simp] theorem State.reap_irqEn (v : Nat) : (s.reap v).irqEn = s.irqEn := by unfold State.reap; split <;> rfl
@[simp] theorem State.reap_flags (v : Nat) : (s.reap v).flags = s.flags := by unfold State.reap; split <;> rfl
@[simp] theorem State.reap_counters (v : Nat) : (s.reap v).counters = s.counters := by unfold State.reap; split <;> rfl
@[simp] theorem State.reap_stream (v : Nat) : (s.reap v).stream = s.stream := by unfold State.reap; split <;> rfl
@[simp] theorem State.reap_frame (v : Nat) : (s.reap v).frame = s.frame := by unfold State.reap; split <;> rfl
@[simp] theorem State.reap_hdr (v : Nat) : (s.reap v).hdr = s.hdr := by unfold State.reap; split <;> rfl
@[simp] theorem State.reap_vbr (v : Nat) : (s.reap v).vbr = s.vbr := by unfold State.reap; split <;> rfl
@[simp] theorem State.reap_dec (v : Nat) : (s.reap v).dec = s.dec := by unfold State.reap; split <;> rfl
@[simp] theorem State.reap_sink (v : Nat) : (s.reap v).sink = s.sink := by unfold State.reap; split <;> rfl
@[simp] theorem State.reap_clips (v : Nat) : (s.reap v).clips = s.clips := by unfold State.reap; split <;> rfl
@[simp] theorem State.reap_mixer (v : Nat) : (s.reap v).mixer = s.mixer := by unfold State.reap; split <;> rfl
@[simp] theorem State.reap_line (v : Nat) : (s.reap v).line = s.line := by unfold State.reap; split <;> rfl
@[simp] theorem State.reap_env (v : Nat) : (s.reap v).env = s.env := by unfold State.reap; split <;> rfl
@[simp] theorem State.reap_obs (v : Nat) : (s.reap v).obs = s.obs := by unfold State.reap; split <;> rfl

/-! ### readVoice: the fields it leaves alone -/

@[simp] theorem State.readVoice_cfg (v : Nat) : (s.readVoice v).1.cfg = s.cfg := by unfold State.readVoice; dsimp only; split <;> rfl
@[simp] theorem State.readVoice_cur (v : Nat) : (s.readVoice v).1.cur = s.cur := by unfold State.readVoice; dsimp only; split <;> rfl
@[simp] theorem State.readVoice_arg0 (v : Nat) : (s.readVoice v).1.arg0 = s.arg0 := by unfold State.readVoice; dsimp only; split <;> rfl
@[simp] theorem State.readVoice_arg1 (v : Nat) : (s.readVoice v).1.arg1 = s.arg1 := by unfold State.readVoice; dsimp only; split <;> rfl
@[simp] theorem State.readVoice_result (v : Nat) : (s.readVoice v).1.result = s.result := by unfold State.readVoice; dsimp only; split <;> rfl
@[simp] theorem State.readVoice_err (v : Nat) : (s.readVoice v).1.err = s.err := by unfold State.readVoice; dsimp only; split <;> rfl
@[simp] theorem State.readVoice_irqEn (v : Nat) : (s.readVoice v).1.irqEn = s.irqEn := by unfold State.readVoice; dsimp only; split <;> rfl
@[simp] theorem State.readVoice_irqPend (v : Nat) : (s.readVoice v).1.irqPend = s.irqPend := by unfold State.readVoice; dsimp only; split <;> rfl
@[simp] theorem State.readVoice_flags (v : Nat) : (s.readVoice v).1.flags = s.flags := by unfold State.readVoice; dsimp only; split <;> rfl
@[simp] theorem State.readVoice_counters (v : Nat) : (s.readVoice v).1.counters = s.counters := by unfold State.readVoice; dsimp only; split <;> rfl
@[simp] theorem State.readVoice_stream (v : Nat) : (s.readVoice v).1.stream = s.stream := by unfold State.readVoice; dsimp only; split <;> rfl
@[simp] theorem State.readVoice_frame (v : Nat) : (s.readVoice v).1.frame = s.frame := by unfold State.readVoice; dsimp only; split <;> rfl
@[simp] theorem State.readVoice_hdr (v : Nat) : (s.readVoice v).1.hdr = s.hdr := by unfold State.readVoice; dsimp only; split <;> rfl
@[simp] theorem State.readVoice_vbr (v : Nat) : (s.readVoice v).1.vbr = s.vbr := by unfold State.readVoice; dsimp only; split <;> rfl
@[simp] theorem State.readVoice_dec (v : Nat) : (s.readVoice v).1.dec = s.dec := by unfold State.readVoice; dsimp only; split <;> rfl
@[simp] theorem State.readVoice_sink (v : Nat) : (s.readVoice v).1.sink = s.sink := by unfold State.readVoice; dsimp only; split <;> rfl
@[simp] theorem State.readVoice_clips (v : Nat) : (s.readVoice v).1.clips = s.clips := by unfold State.readVoice; dsimp only; split <;> rfl
@[simp] theorem State.readVoice_stopped (v : Nat) : (s.readVoice v).1.stopped = s.stopped := by unfold State.readVoice; dsimp only; split <;> rfl
@[simp] theorem State.readVoice_mixer (v : Nat) : (s.readVoice v).1.mixer = s.mixer := by unfold State.readVoice; dsimp only; split <;> rfl
@[simp] theorem State.readVoice_line (v : Nat) : (s.readVoice v).1.line = s.line := by unfold State.readVoice; dsimp only; split <;> rfl
@[simp] theorem State.readVoice_env (v : Nat) : (s.readVoice v).1.env = s.env := by unfold State.readVoice; dsimp only; split <;> rfl
@[simp] theorem State.readVoice_obs (v : Nat) : (s.readVoice v).1.obs = s.obs := by unfold State.readVoice; dsimp only; split <;> rfl

/-- Two states with the same fields are equal. -/
theorem State.ext_fields {s t : State} (h0 : s.cfg = t.cfg) (h1 : s.cur = t.cur) (h2 : s.arg0 = t.arg0) (h3 : s.arg1 = t.arg1) (h4 : s.result = t.result) (h5 : s.err = t.err) (h6 : s.irqEn = t.irqEn) (h7 : s.irqPend = t.irqPend) (h8 : s.flags = t.flags) (h9 : s.counters = t.counters) (h10 : s.stream = t.stream) (h11 : s.frame = t.frame) (h12 : s.hdr = t.hdr) (h13 : s.vbr = t.vbr) (h14 : s.dec = t.dec) (h15 : s.sink = t.sink) (h16 : s.clips = t.clips) (h17 : s.voices = t.voices) (h18 : s.stopped = t.stopped) (h19 : s.ring = t.ring) (h20 : s.mixer = t.mixer) (h21 : s.line = t.line) (h22 : s.env = t.env) (h23 : s.obs = t.obs) : s = t := by
  cases s; cases t; simp_all

end Sys2Proof.Machine
end

