-- ==== Sys2Proof/Laws/Step.lean ====
section
/-! SUPPORT. What a step can do, said once: the two parts of every command, the state after each turn, and the rule by which an invariant is shown to hold after every step. -/

namespace Sys2Proof.Machine

/-- What a command does at the CMD write, on the state with its operands latched. -/
def startOf : Instr → State → State
  | .nop => noStart
  | .resetStream => noStart
  | .readFrame => State.startRead (.reading 0)
  | .decodeFrame => noStart
  | .loadClip c => loadClipStart c
  | .playStream => noStart
  | .clipDefine _ => noStart
  | .clipFreeAll => noStart
  | .mixerStart => noStart
  | .mixerStop => noStart
  | .mixerSync => noStart
  | .playVoice _ _ => noStart
  | .pauseVoice _ => noStart
  | .resumeVoice _ => noStart
  | .stopVoice _ => noStart
  | .setVolume _ => noStart
  | .setLoop _ _ => noStart
  | .bypassWrite _ => noStart

/-- What one sequencer step of a command does. -/
def bodyOf : Instr → Job → State → State
  | .nop => fun _ s => s.complete 0
  | .resetStream => fun _ s => s.resetStream.complete 0
  | .readFrame => readFrameStep
  | .decodeFrame => decodeFrameStep
  | .loadClip c => loadClipStep c
  | .playStream => playStreamStep
  | .clipDefine c => clipDefineStep c
  | .clipFreeAll => clipFreeAllStep
  | .mixerStart => mixerStartStep
  | .mixerStop => mixerStopStep
  | .mixerSync => mixerSyncStep
  | .playVoice c loop => playVoiceStep c loop
  | .pauseVoice v => fun _ s => onVoice (Instr.pauseVoice v).opcode v
      (fun s => (s.setVoice v (s.voiceAt v).pause).complete 0) s
  | .resumeVoice v => fun _ s => onVoice (Instr.resumeVoice v).opcode v
      (fun s => (s.setVoice v (s.voiceAt v).resume).complete 0) s
  | .stopVoice v => fun _ s => onVoice (Instr.stopVoice v).opcode v
      (fun s => (s.setVoice v { s.voiceAt v with state := .stopped }).complete 0) s
  | .setVolume v => fun j s => onVoice (Instr.setVolume v).opcode v
      (fun s => (s.setVoice v { s.voiceAt v with vol := volumeOperand j.arg0 }).complete 0) s
  | .setLoop v loop => fun _ s => onVoice (Instr.setLoop v loop).opcode v (setLoopEffect v loop) s
  | .bypassWrite c => bypassStep c

/-- exec from an idle sequencer: the command's part of the CMD write. -/
theorem exec_of_idle (i : Instr) {s : State} (h : s.cur = none) : exec i s = .next (startOf i (s.latch i)) := by
  cases i <;>
    simp only [exec, execNop, execResetStream, execReadFrame, execDecodeFrame, execLoadClip, execPlayStream,
      execClipDefine, execClipFreeAll, execMixerStart, execMixerStop, execMixerSync, execPlayVoice, execPauseVoice,
      execResumeVoice, execStopVoice, execSetVolume, execSetLoop, execBypassWrite, command, h, startOf]

/-- exec while a command is in progress: one sequencer step. -/
theorem exec_of_busy (i : Instr) {s : State} {j : Job} (h : s.cur = some j) :
    exec i s = .next (bodyOf i j s) := by
  cases i <;>
    simp only [exec, execNop, execResetStream, execReadFrame, execDecodeFrame, execLoadClip, execPlayStream,
      execClipDefine, execClipFreeAll, execMixerStart, execMixerStop, execMixerSync, execPlayVoice, execPauseVoice,
      execResumeVoice, execStopVoice, execSetVolume, execSetLoop, execBypassWrite, command, h, bodyOf]

/-- IssueCommand as a function. -/
def State.afterIssue (w : Word) (s : State) : State :=
  if s.busy then s.record .cmdBusy (opField w) (idxField w)
  else
    match decode w with
    | .error _ => s.record .badCommand (opField w) (idxField w)
    | .ok i => startOf i (s.latch i)

theorem issueCommand_eq (w : Word) (s : State) : s.issueCommand w = .next (s.afterIssue w) := by
  unfold State.issueCommand State.afterIssue
  split
  · rfl
  · rename_i h
    cases decode w with
    | error e => rfl
    | ok i => exact exec_of_idle i (by simpa [State.busy] using h)

/-- HostWrite as a function. -/
def State.afterWrite (offset : BitVec 13) (width : AccessWidth) (v : Word) (s : State) : State :=
  match s.accessed offset width with
  | none => s.record .badAccess noOp 0
  | some r => if r = .cmd then s.afterIssue v else s.regWrite r v

theorem hostWrite_eq (offset : BitVec 13) (width : AccessWidth) (v : Word) (s : State) :
    s.hostWrite offset width v = .next (s.afterWrite offset width v) := by
  unfold State.hostWrite State.afterWrite
  cases s.accessed offset width with
  | none => rfl
  | some r =>
    dsimp only
    split
    · exact issueCommand_eq v s
    · rfl

/-- The sequencer's turn as a function. -/
def State.afterSequencer (s : State) : State :=
  match s.cur with
  | none => s
  | some j => bodyOf j.instr j s

theorem sequencerTurn_eq (s : State) : s.sequencerTurn = .next s.afterSequencer := by
  unfold State.sequencerTurn State.afterSequencer
  cases h : s.cur with
  | none => rfl
  | some j => exact exec_of_busy j.instr h

/-- One turn as a function. -/
def State.afterTurn (t : Turn) (s : State) : State :=
  match t with
  | .host (.read offset width) => s.hostRead offset width
  | .host (.write offset width v) => s.afterWrite offset width v
  | .sequencer _ _ => s.afterSequencer
  | .mixer _ => s.mixerTurn
  | .line => s.lineTurn

theorem runTurn_eq (t : Turn) (s : State) : s.runTurn t = .next (s.afterTurn t) := by
  rcases t with (⟨a, w⟩ | ⟨a, w, v⟩) | _ | _ | _
  · rfl
  · exact hostWrite_eq a w v s
  · exact sequencerTurn_eq s
  · rfl
  · rfl

/-- Every step answers a next state, that of the turn taken. -/
theorem step_eq (s : State) : step s = .next (s.taking.afterTurn s.env.nextTurn) := runTurn_eq _ _

theorem step_next_iff {s t : State} : step s = .next t ↔ t = s.taking.afterTurn s.env.nextTurn := by
  rw [step_eq]
  constructor
  · intro h; injection h with h; exact h.symm
  · rintro rfl; rfl

/-- What a host read leaves: the access error or the register's side effect, then the value read. -/
theorem hostRead_cases (offset : BitVec 13) (width : AccessWidth) (s : State) :
    (s.accessed offset width = none ∧ s.hostRead offset width = (s.record .badAccess noOp 0).answer 0) ∨
    ∃ r, s.accessed offset width = some r ∧ s.hostRead offset width = (s.readEffect r).answer (s.regValue r) := by
  unfold State.hostRead
  cases s.accessed offset width with
  | none => exact .inl ⟨rfl, rfl⟩
  | some r => exact .inr ⟨r, rfl, rfl⟩

/-- A property that every part of a step keeps is kept by the step.
`reg` is the register writes other than CMD, `start` a legal CMD write to an idle sequencer, `body` a sequencer step. -/
theorem step_keeps {I : State → Prop}
    (env : ∀ s e, I s → I { s with env := e })
    (answer : ∀ s w, I s → I (State.answer w s))
    (record : ∀ s e o x, I s → I (State.record e o x s))
    (read : ∀ s r, I s → I (State.readEffect r s))
    (reg : ∀ s r v, I s → I (State.regWrite r v s))
    (start : ∀ s w i, s.cur = none → decode w = .ok i → I s → I (startOf i (s.latch i)))
    (body : ∀ s j, s.cur = some j → I s → I (bodyOf j.instr j s))
    (mixer : ∀ s, s.tickEnabled = true → I s → I s.tick)
    (line : ∀ s, I s → I s.lineTurn)
    {s t : State} (hs : I s) (h : step s = .next t) : I t := by
  rw [step_next_iff] at h
  subst h
  have h0 : I s.taking := env s _ hs
  generalize s.taking = u at h0 ⊢
  rcases s.env.nextTurn with (⟨a, w⟩ | ⟨a, w, v⟩) | _ | _ | _
  · show I (u.hostRead a w)
    rcases hostRead_cases a w u with ⟨-, h⟩ | ⟨r, -, h⟩ <;> rw [h]
    · exact answer _ _ (record _ _ _ _ h0)
    · exact answer _ _ (read _ _ h0)
  · show I (u.afterWrite a w v)
    unfold State.afterWrite
    split
    · exact record _ _ _ _ h0
    · split
      · unfold State.afterIssue
        split
        · exact record _ _ _ _ h0
        · rename_i hb
          split
          · exact record _ _ _ _ h0
          · rename_i i hd
            exact start _ _ _ (by simpa [State.busy] using hb) hd h0
      · exact reg _ _ _ h0
  · show I u.afterSequencer
    unfold State.afterSequencer
    split
    · exact h0
    · rename_i j hj
      exact body _ _ hj h0
  · show I u.mixerTurn
    unfold State.mixerTurn
    split
    · rename_i ht
      exact mixer _ ht h0
    · exact h0
  · exact line _ h0

end Sys2Proof.Machine
end

