-- ==== Sys2Proof/Laws/Frames.lean ====
section
/-! SUPPORT. The frames: for each operation, the fields of State that it may change, said once as an equation, and the fields it leaves alone read off from it. -/

namespace Sys2Proof.Machine

theorem resetStream_only (s : State) :
    s.resetStream = { s with flags := (s.resetStream).flags, counters := (s.resetStream).counters, stream := (s.resetStream).stream, frame := (s.resetStream).frame, hdr := (s.resetStream).hdr, vbr := (s.resetStream).vbr, dec := (s.resetStream).dec, sink := (s.resetStream).sink, ring := (s.resetStream).ring } := by
  rfl

@[simp] theorem resetStream_cfg (s : State) : (s.resetStream).cfg = s.cfg := (congrArg State.cfg (resetStream_only s)).trans rfl
@[simp] theorem resetStream_cur (s : State) : (s.resetStream).cur = s.cur := (congrArg State.cur (resetStream_only s)).trans rfl
@[simp] theorem resetStream_arg0 (s : State) : (s.resetStream).arg0 = s.arg0 := (congrArg State.arg0 (resetStream_only s)).trans rfl
@[simp] theorem resetStream_arg1 (s : State) : (s.resetStream).arg1 = s.arg1 := (congrArg State.arg1 (resetStream_only s)).trans rfl
@[simp] theorem resetStream_result (s : State) : (s.resetStream).result = s.result := (congrArg State.result (resetStream_only s)).trans rfl
@[simp] theorem resetStream_err (s : State) : (s.resetStream).err = s.err := (congrArg State.err (resetStream_only s)).trans rfl
@[simp] theorem resetStream_irqEn (s : State) : (s.resetStream).irqEn = s.irqEn := (congrArg State.irqEn (resetStream_only s)).trans rfl
@[simp] theorem resetStream_irqPend (s : State) : (s.resetStream).irqPend = s.irqPend := (congrArg State.irqPend (resetStream_only s)).trans rfl
@[simp] theorem resetStream_clips (s : State) : (s.resetStream).clips = s.clips := (congrArg State.clips (resetStream_only s)).trans rfl
@[simp] theorem resetStream_voices (s : State) : (s.resetStream).voices = s.voices := (congrArg State.voices (resetStream_only s)).trans rfl
@[simp] theorem resetStream_stopped (s : State) : (s.resetStream).stopped = s.stopped := (congrArg State.stopped (resetStream_only s)).trans rfl
@[simp] theorem resetStream_mixer (s : State) : (s.resetStream).mixer = s.mixer := (congrArg State.mixer (resetStream_only s)).trans rfl
@[simp] theorem resetStream_line (s : State) : (s.resetStream).line = s.line := (congrArg State.line (resetStream_only s)).trans rfl
@[simp] theorem resetStream_env (s : State) : (s.resetStream).env = s.env := (congrArg State.env (resetStream_only s)).trans rfl
@[simp] theorem resetStream_obs (s : State) : (s.resetStream).obs = s.obs := (congrArg State.obs (resetStream_only s)).trans rfl

theorem accept_only (op : Byte) (h : Word) (s : State) :
    s.accept op h = { s with err := (s.accept op h).err, irqPend := (s.accept op h).irqPend, flags := (s.accept op h).flags, stream := (s.accept op h).stream, frame := (s.accept op h).frame, hdr := (s.accept op h).hdr, vbr := (s.accept op h).vbr } := by
  unfold State.accept State.applyVbr; dsimp only; split
  · split <;> rfl
  · rfl

@[simp] theorem accept_cfg (op : Byte) (h : Word) (s : State) : (s.accept op h).cfg = s.cfg := (congrArg State.cfg (accept_only op h s)).trans rfl
@[simp] theorem accept_cur (op : Byte) (h : Word) (s : State) : (s.accept op h).cur = s.cur := (congrArg State.cur (accept_only op h s)).trans rfl
@[simp] theorem accept_arg0 (op : Byte) (h : Word) (s : State) : (s.accept op h).arg0 = s.arg0 := (congrArg State.arg0 (accept_only op h s)).trans rfl
@[simp] theorem accept_arg1 (op : Byte) (h : Word) (s : State) : (s.accept op h).arg1 = s.arg1 := (congrArg State.arg1 (accept_only op h s)).trans rfl
@[simp] theorem accept_result (op : Byte) (h : Word) (s : State) : (s.accept op h).result = s.result := (congrArg State.result (accept_only op h s)).trans rfl
@[simp] theorem accept_irqEn (op : Byte) (h : Word) (s : State) : (s.accept op h).irqEn = s.irqEn := (congrArg State.irqEn (accept_only op h s)).trans rfl
@[simp] theorem accept_counters (op : Byte) (h : Word) (s : State) : (s.accept op h).counters = s.counters := (congrArg State.counters (accept_only op h s)).trans rfl
@[simp] theorem accept_dec (op : Byte) (h : Word) (s : State) : (s.accept op h).dec = s.dec := (congrArg State.dec (accept_only op h s)).trans rfl
@[simp] theorem accept_sink (op : Byte) (h : Word) (s : State) : (s.accept op h).sink = s.sink := (congrArg State.sink (accept_only op h s)).trans rfl
@[simp] theorem accept_clips (op : Byte) (h : Word) (s : State) : (s.accept op h).clips = s.clips := (congrArg State.clips (accept_only op h s)).trans rfl
@[simp] theorem accept_voices (op : Byte) (h : Word) (s : State) : (s.accept op h).voices = s.voices := (congrArg State.voices (accept_only op h s)).trans rfl
@[simp] theorem accept_stopped (op : Byte) (h : Word) (s : State) : (s.accept op h).stopped = s.stopped := (congrArg State.stopped (accept_only op h s)).trans rfl
@[simp] theorem accept_ring (op : Byte) (h : Word) (s : State) : (s.accept op h).ring = s.ring := (congrArg State.ring (accept_only op h s)).trans rfl
@[simp] theorem accept_mixer (op : Byte) (h : Word) (s : State) : (s.accept op h).mixer = s.mixer := (congrArg State.mixer (accept_only op h s)).trans rfl
@[simp] theorem accept_line (op : Byte) (h : Word) (s : State) : (s.accept op h).line = s.line := (congrArg State.line (accept_only op h s)).trans rfl
@[simp] theorem accept_env (op : Byte) (h : Word) (s : State) : (s.accept op h).env = s.env := (congrArg State.env (accept_only op h s)).trans rfl
@[simp] theorem accept_obs (op : Byte) (h : Word) (s : State) : (s.accept op h).obs = s.obs := (congrArg State.obs (accept_only op h s)).trans rfl

theorem reject_only (k : Nat) (s : State) :
    (s.reject k).2.2 = { s with counters := ((s.reject k).2.2).counters, stream := ((s.reject k).2.2).stream } := by
  unfold State.reject; split <;> rfl

@[simp] theorem reject_cfg (k : Nat) (s : State) : ((s.reject k).2.2).cfg = s.cfg := (congrArg State.cfg (reject_only k s)).trans rfl
@[simp] theorem reject_cur (k : Nat) (s : State) : ((s.reject k).2.2).cur = s.cur := (congrArg State.cur (reject_only k s)).trans rfl
@[simp] theorem reject_arg0 (k : Nat) (s : State) : ((s.reject k).2.2).arg0 = s.arg0 := (congrArg State.arg0 (reject_only k s)).trans rfl
@[simp] theorem reject_arg1 (k : Nat) (s : State) : ((s.reject k).2.2).arg1 = s.arg1 := (congrArg State.arg1 (reject_only k s)).trans rfl
@[simp] theorem reject_result (k : Nat) (s : State) : ((s.reject k).2.2).result = s.result := (congrArg State.result (reject_only k s)).trans rfl
@[simp] theorem reject_err (k : Nat) (s : State) : ((s.reject k).2.2).err = s.err := (congrArg State.err (reject_only k s)).trans rfl
@[simp] theorem reject_irqEn (k : Nat) (s : State) : ((s.reject k).2.2).irqEn = s.irqEn := (congrArg State.irqEn (reject_only k s)).trans rfl
@[simp] theorem reject_irqPend (k : Nat) (s : State) : ((s.reject k).2.2).irqPend = s.irqPend := (congrArg State.irqPend (reject_only k s)).trans rfl
@[simp] theorem reject_flags (k : Nat) (s : State) : ((s.reject k).2.2).flags = s.flags := (congrArg State.flags (reject_only k s)).trans rfl
@[simp] theorem reject_frame (k : Nat) (s : State) : ((s.reject k).2.2).frame = s.frame := (congrArg State.frame (reject_only k s)).trans rfl
@[simp] theorem reject_hdr (k : Nat) (s : State) : ((s.reject k).2.2).hdr = s.hdr := (congrArg State.hdr (reject_only k s)).trans rfl
@[simp] theorem reject_vbr (k : Nat) (s : State) : ((s.reject k).2.2).vbr = s.vbr := (congrArg State.vbr (reject_only k s)).trans rfl
@[simp] theorem reject_dec (k : Nat) (s : State) : ((s.reject k).2.2).dec = s.dec := (congrArg State.dec (reject_only k s)).trans rfl
@[simp] theorem reject_sink (k : Nat) (s : State) : ((s.reject k).2.2).sink = s.sink := (congrArg State.sink (reject_only k s)).trans rfl
@[simp] theorem reject_clips (k : Nat) (s : State) : ((s.reject k).2.2).clips = s.clips := (congrArg State.clips (reject_only k s)).trans rfl
@[simp] theorem reject_voices (k : Nat) (s : State) : ((s.reject k).2.2).voices = s.voices := (congrArg State.voices (reject_only k s)).trans rfl
@[simp] theorem reject_stopped (k : Nat) (s : State) : ((s.reject k).2.2).stopped = s.stopped := (congrArg State.stopped (reject_only k s)).trans rfl
@[simp] theorem reject_ring (k : Nat) (s : State) : ((s.reject k).2.2).ring = s.ring := (congrArg State.ring (reject_only k s)).trans rfl
@[simp] theorem reject_mixer (k : Nat) (s : State) : ((s.reject k).2.2).mixer = s.mixer := (congrArg State.mixer (reject_only k s)).trans rfl
@[simp] theorem reject_line (k : Nat) (s : State) : ((s.reject k).2.2).line = s.line := (congrArg State.line (reject_only k s)).trans rfl
@[simp] theorem reject_env (k : Nat) (s : State) : ((s.reject k).2.2).env = s.env := (congrArg State.env (reject_only k s)).trans rfl
@[simp] theorem reject_obs (k : Nat) (s : State) : ((s.reject k).2.2).obs = s.obs := (congrArg State.obs (reject_only k s)).trans rfl

theorem scan_only (op : Byte) (k : Nat) (s : State) :
    (s.scan op k).2.2 = { s with err := ((s.scan op k).2.2).err, irqPend := ((s.scan op k).2.2).irqPend, flags := ((s.scan op k).2.2).flags, counters := ((s.scan op k).2.2).counters, stream := ((s.scan op k).2.2).stream, frame := ((s.scan op k).2.2).frame, hdr := ((s.scan op k).2.2).hdr, vbr := ((s.scan op k).2.2).vbr } := by
  unfold State.scan; split
  · rfl
  · rfl
  · apply State.ext_fields <;> simp
  · apply State.ext_fields <;> simp

@[simp] theorem scan_cfg (op : Byte) (k : Nat) (s : State) : ((s.scan op k).2.2).cfg = s.cfg := (congrArg State.cfg (scan_only op k s)).trans rfl
@[simp] theorem scan_cur (op : Byte) (k : Nat) (s : State) : ((s.scan op k).2.2).cur = s.cur := (congrArg State.cur (scan_only op k s)).trans rfl
@[simp] theorem scan_arg0 (op : Byte) (k : Nat) (s : State) : ((s.scan op k).2.2).arg0 = s.arg0 := (congrArg State.arg0 (scan_only op k s)).trans rfl
@[simp] theorem scan_arg1 (op : Byte) (k : Nat) (s : State) : ((s.scan op k).2.2).arg1 = s.arg1 := (congrArg State.arg1 (scan_only op k s)).trans rfl
@[simp] theorem scan_result (op : Byte) (k : Nat) (s : State) : ((s.scan op k).2.2).result = s.result := (congrArg State.result (scan_only op k s)).trans rfl
@[simp] theorem scan_irqEn (op : Byte) (k : Nat) (s : State) : ((s.scan op k).2.2).irqEn = s.irqEn := (congrArg State.irqEn (scan_only op k s)).trans rfl
@[simp] theorem scan_dec (op : Byte) (k : Nat) (s : State) : ((s.scan op k).2.2).dec = s.dec := (congrArg State.dec (scan_only op k s)).trans rfl
@[simp] theorem scan_sink (op : Byte) (k : Nat) (s : State) : ((s.scan op k).2.2).sink = s.sink := (congrArg State.sink (scan_only op k s)).trans rfl
@[simp] theorem scan_clips (op : Byte) (k : Nat) (s : State) : ((s.scan op k).2.2).clips = s.clips := (congrArg State.clips (scan_only op k s)).trans rfl
@[simp] theorem scan_voices (op : Byte) (k : Nat) (s : State) : ((s.scan op k).2.2).voices = s.voices := (congrArg State.voices (scan_only op k s)).trans rfl
@[simp] theorem scan_stopped (op : Byte) (k : Nat) (s : State) : ((s.scan op k).2.2).stopped = s.stopped := (congrArg State.stopped (scan_only op k s)).trans rfl
@[simp] theorem scan_ring (op : Byte) (k : Nat) (s : State) : ((s.scan op k).2.2).ring = s.ring := (congrArg State.ring (scan_only op k s)).trans rfl
@[simp] theorem scan_mixer (op : Byte) (k : Nat) (s : State) : ((s.scan op k).2.2).mixer = s.mixer := (congrArg State.mixer (scan_only op k s)).trans rfl
@[simp] theorem scan_line (op : Byte) (k : Nat) (s : State) : ((s.scan op k).2.2).line = s.line := (congrArg State.line (scan_only op k s)).trans rfl
@[simp] theorem scan_env (op : Byte) (k : Nat) (s : State) : ((s.scan op k).2.2).env = s.env := (congrArg State.env (scan_only op k s)).trans rfl
@[simp] theorem scan_obs (op : Byte) (k : Nat) (s : State) : ((s.scan op k).2.2).obs = s.obs := (congrArg State.obs (scan_only op k s)).trans rfl

theorem syncStep_only (op : Byte) (k : Nat) (s : State) :
    (s.syncStep op k).2.2 = { s with err := ((s.syncStep op k).2.2).err, irqPend := ((s.syncStep op k).2.2).irqPend, flags := ((s.syncStep op k).2.2).flags, counters := ((s.syncStep op k).2.2).counters, stream := ((s.syncStep op k).2.2).stream, frame := ((s.syncStep op k).2.2).frame, hdr := ((s.syncStep op k).2.2).hdr, vbr := ((s.syncStep op k).2.2).vbr } := by
  unfold State.syncStep; repeat' split
  all_goals first | rfl | (apply State.ext_fields <;> simp)

@[simp] theorem syncStep_cfg (op : Byte) (k : Nat) (s : State) : ((s.syncStep op k).2.2).cfg = s.cfg := (congrArg State.cfg (syncStep_only op k s)).trans rfl
@[simp] theorem syncStep_cur (op : Byte) (k : Nat) (s : State) : ((s.syncStep op k).2.2).cur = s.cur := (congrArg State.cur (syncStep_only op k s)).trans rfl
@[simp] theorem syncStep_arg0 (op : Byte) (k : Nat) (s : State) : ((s.syncStep op k).2.2).arg0 = s.arg0 := (congrArg State.arg0 (syncStep_only op k s)).trans rfl
@[simp] theorem syncStep_arg1 (op : Byte) (k : Nat) (s : State) : ((s.syncStep op k).2.2).arg1 = s.arg1 := (congrArg State.arg1 (syncStep_only op k s)).trans rfl
@[simp] theorem syncStep_result (op : Byte) (k : Nat) (s : State) : ((s.syncStep op k).2.2).result = s.result := (congrArg State.result (syncStep_only op k s)).trans rfl
@[simp] theorem syncStep_irqEn (op : Byte) (k : Nat) (s : State) : ((s.syncStep op k).2.2).irqEn = s.irqEn := (congrArg State.irqEn (syncStep_only op k s)).trans rfl
@[simp] theorem syncStep_dec (op : Byte) (k : Nat) (s : State) : ((s.syncStep op k).2.2).dec = s.dec := (congrArg State.dec (syncStep_only op k s)).trans rfl
@[simp] theorem syncStep_sink (op : Byte) (k : Nat) (s : State) : ((s.syncStep op k).2.2).sink = s.sink := (congrArg State.sink (syncStep_only op k s)).trans rfl
@[simp] theorem syncStep_clips (op : Byte) (k : Nat) (s : State) : ((s.syncStep op k).2.2).clips = s.clips := (congrArg State.clips (syncStep_only op k s)).trans rfl
@[simp] theorem syncStep_voices (op : Byte) (k : Nat) (s : State) : ((s.syncStep op k).2.2).voices = s.voices := (congrArg State.voices (syncStep_only op k s)).trans rfl
@[simp] theorem syncStep_stopped (op : Byte) (k : Nat) (s : State) : ((s.syncStep op k).2.2).stopped = s.stopped := (congrArg State.stopped (syncStep_only op k s)).trans rfl
@[simp] theorem syncStep_ring (op : Byte) (k : Nat) (s : State) : ((s.syncStep op k).2.2).ring = s.ring := (congrArg State.ring (syncStep_only op k s)).trans rfl
@[simp] theorem syncStep_mixer (op : Byte) (k : Nat) (s : State) : ((s.syncStep op k).2.2).mixer = s.mixer := (congrArg State.mixer (syncStep_only op k s)).trans rfl
@[simp] theorem syncStep_line (op : Byte) (k : Nat) (s : State) : ((s.syncStep op k).2.2).line = s.line := (congrArg State.line (syncStep_only op k s)).trans rfl
@[simp] theorem syncStep_env (op : Byte) (k : Nat) (s : State) : ((s.syncStep op k).2.2).env = s.env := (congrArg State.env (syncStep_only op k s)).trans rfl
@[simp] theorem syncStep_obs (op : Byte) (k : Nat) (s : State) : ((s.syncStep op k).2.2).obs = s.obs := (congrArg State.obs (syncStep_only op k s)).trans rfl

theorem decodeCurrent_only (op : Byte) (f : Frame) (s : State) :
    (s.decodeCurrent op f).1 = { s with err := ((s.decodeCurrent op f).1).err, irqPend := ((s.decodeCurrent op f).1).irqPend, flags := ((s.decodeCurrent op f).1).flags, counters := ((s.decodeCurrent op f).1).counters, frame := ((s.decodeCurrent op f).1).frame, hdr := ((s.decodeCurrent op f).1).hdr, dec := ((s.decodeCurrent op f).1).dec, sink := ((s.decodeCurrent op f).1).sink } := by
  unfold State.decodeCurrent; dsimp only; split
  all_goals (apply State.ext_fields <;> simp)

@[simp] theorem decodeCurrent_cfg (op : Byte) (f : Frame) (s : State) : ((s.decodeCurrent op f).1).cfg = s.cfg := (congrArg State.cfg (decodeCurrent_only op f s)).trans rfl
@[simp] theorem decodeCurrent_cur (op : Byte) (f : Frame) (s : State) : ((s.decodeCurrent op f).1).cur = s.cur := (congrArg State.cur (decodeCurrent_only op f s)).trans rfl
@[simp] theorem decodeCurrent_arg0 (op : Byte) (f : Frame) (s : State) : ((s.decodeCurrent op f).1).arg0 = s.arg0 := (congrArg State.arg0 (decodeCurrent_only op f s)).trans rfl
@[simp] theorem decodeCurrent_arg1 (op : Byte) (f : Frame) (s : State) : ((s.decodeCurrent op f).1).arg1 = s.arg1 := (congrArg State.arg1 (decodeCurrent_only op f s)).trans rfl
@[simp] theorem decodeCurrent_result (op : Byte) (f : Frame) (s : State) : ((s.decodeCurrent op f).1).result = s.result := (congrArg State.result (decodeCurrent_only op f s)).trans rfl
@[simp] theorem decodeCurrent_irqEn (op : Byte) (f : Frame) (s : State) : ((s.decodeCurrent op f).1).irqEn = s.irqEn := (congrArg State.irqEn (decodeCurrent_only op f s)).trans rfl
@[simp] theorem decodeCurrent_stream (op : Byte) (f : Frame) (s : State) : ((s.decodeCurrent op f).1).stream = s.stream := (congrArg State.stream (decodeCurrent_only op f s)).trans rfl
@[simp] theorem decodeCurrent_vbr (op : Byte) (f : Frame) (s : State) : ((s.decodeCurrent op f).1).vbr = s.vbr := (congrArg State.vbr (decodeCurrent_only op f s)).trans rfl
@[simp] theorem decodeCurrent_clips (op : Byte) (f : Frame) (s : State) : ((s.decodeCurrent op f).1).clips = s.clips := (congrArg State.clips (decodeCurrent_only op f s)).trans rfl
@[simp] theorem decodeCurrent_voices (op : Byte) (f : Frame) (s : State) : ((s.decodeCurrent op f).1).voices = s.voices := (congrArg State.voices (decodeCurrent_only op f s)).trans rfl
@[simp] theorem decodeCurrent_stopped (op : Byte) (f : Frame) (s : State) : ((s.decodeCurrent op f).1).stopped = s.stopped := (congrArg State.stopped (decodeCurrent_only op f s)).trans rfl
@[simp] theorem decodeCurrent_ring (op : Byte) (f : Frame) (s : State) : ((s.decodeCurrent op f).1).ring = s.ring := (congrArg State.ring (decodeCurrent_only op f s)).trans rfl
@[simp] theorem decodeCurrent_mixer (op : Byte) (f : Frame) (s : State) : ((s.decodeCurrent op f).1).mixer = s.mixer := (congrArg State.mixer (decodeCurrent_only op f s)).trans rfl
@[simp] theorem decodeCurrent_line (op : Byte) (f : Frame) (s : State) : ((s.decodeCurrent op f).1).line = s.line := (congrArg State.line (decodeCurrent_only op f s)).trans rfl
@[simp] theorem decodeCurrent_env (op : Byte) (f : Frame) (s : State) : ((s.decodeCurrent op f).1).env = s.env := (congrArg State.env (decodeCurrent_only op f s)).trans rfl
@[simp] theorem decodeCurrent_obs (op : Byte) (f : Frame) (s : State) : ((s.decodeCurrent op f).1).obs = s.obs := (congrArg State.obs (decodeCurrent_only op f s)).trans rfl

theorem readFrameStep_only (j : Job) (s : State) :
    readFrameStep j s = { s with cur := (readFrameStep j s).cur, result := (readFrameStep j s).result, err := (readFrameStep j s).err, irqPend := (readFrameStep j s).irqPend, flags := (readFrameStep j s).flags, counters := (readFrameStep j s).counters, stream := (readFrameStep j s).stream, frame := (readFrameStep j s).frame, hdr := (readFrameStep j s).hdr, vbr := (readFrameStep j s).vbr, ring := (readFrameStep j s).ring } := by
  unfold readFrameStep; dsimp only; split <;> rename_i hq
  all_goals first | rfl | (have e := congrArg (fun x => x.2.2) hq; dsimp only at e; subst e; apply State.ext_fields <;> simp)

@[simp] theorem readFrameStep_cfg (j : Job) (s : State) : (readFrameStep j s).cfg = s.cfg := (congrArg State.cfg (readFrameStep_only j s)).trans rfl
@[simp] theorem readFrameStep_arg0 (j : Job) (s : State) : (readFrameStep j s).arg0 = s.arg0 := (congrArg State.arg0 (readFrameStep_only j s)).trans rfl
@[simp] theorem readFrameStep_arg1 (j : Job) (s : State) : (readFrameStep j s).arg1 = s.arg1 := (congrArg State.arg1 (readFrameStep_only j s)).trans rfl
@[simp] theorem readFrameStep_irqEn (j : Job) (s : State) : (readFrameStep j s).irqEn = s.irqEn := (congrArg State.irqEn (readFrameStep_only j s)).trans rfl
@[simp] theorem readFrameStep_dec (j : Job) (s : State) : (readFrameStep j s).dec = s.dec := (congrArg State.dec (readFrameStep_only j s)).trans rfl
@[simp] theorem readFrameStep_sink (j : Job) (s : State) : (readFrameStep j s).sink = s.sink := (congrArg State.sink (readFrameStep_only j s)).trans rfl
@[simp] theorem readFrameStep_clips (j : Job) (s : State) : (readFrameStep j s).clips = s.clips := (congrArg State.clips (readFrameStep_only j s)).trans rfl
@[simp] theorem readFrameStep_voices (j : Job) (s : State) : (readFrameStep j s).voices = s.voices := (congrArg State.voices (readFrameStep_only j s)).trans rfl
@[simp] theorem readFrameStep_stopped (j : Job) (s : State) : (readFrameStep j s).stopped = s.stopped := (congrArg State.stopped (readFrameStep_only j s)).trans rfl
@[simp] theorem readFrameStep_mixer (j : Job) (s : State) : (readFrameStep j s).mixer = s.mixer := (congrArg State.mixer (readFrameStep_only j s)).trans rfl
@[simp] theorem readFrameStep_line (j : Job) (s : State) : (readFrameStep j s).line = s.line := (congrArg State.line (readFrameStep_only j s)).trans rfl
@[simp] theorem readFrameStep_env (j : Job) (s : State) : (readFrameStep j s).env = s.env := (congrArg State.env (readFrameStep_only j s)).trans rfl
@[simp] theorem readFrameStep_obs (j : Job) (s : State) : (readFrameStep j s).obs = s.obs := (congrArg State.obs (readFrameStep_only j s)).trans rfl

theorem decodeFrameStep_only (j : Job) (s : State) :
    decodeFrameStep j s = { s with cur := (decodeFrameStep j s).cur, result := (decodeFrameStep j s).result, err := (decodeFrameStep j s).err, irqPend := (decodeFrameStep j s).irqPend, flags := (decodeFrameStep j s).flags, counters := (decodeFrameStep j s).counters, frame := (decodeFrameStep j s).frame, hdr := (decodeFrameStep j s).hdr, dec := (decodeFrameStep j s).dec, sink := (decodeFrameStep j s).sink, ring := (decodeFrameStep j s).ring, env := (decodeFrameStep j s).env } := by
  unfold decodeFrameStep; dsimp only; repeat' split
  all_goals first | rfl | (apply State.ext_fields <;> simp)

@[simp] theorem decodeFrameStep_cfg (j : Job) (s : State) : (decodeFrameStep j s).cfg = s.cfg := (congrArg State.cfg (decodeFrameStep_only j s)).trans rfl
@[simp] theorem decodeFrameStep_arg0 (j : Job) (s : State) : (decodeFrameStep j s).arg0 = s.arg0 := (congrArg State.arg0 (decodeFrameStep_only j s)).trans rfl
@[simp] theorem decodeFrameStep_arg1 (j : Job) (s : State) : (decodeFrameStep j s).arg1 = s.arg1 := (congrArg State.arg1 (decodeFrameStep_only j s)).trans rfl
@[simp] theorem decodeFrameStep_irqEn (j : Job) (s : State) : (decodeFrameStep j s).irqEn = s.irqEn := (congrArg State.irqEn (decodeFrameStep_only j s)).trans rfl
@[simp] theorem decodeFrameStep_stream (j : Job) (s : State) : (decodeFrameStep j s).stream = s.stream := (congrArg State.stream (decodeFrameStep_only j s)).trans rfl
@[simp] theorem decodeFrameStep_vbr (j : Job) (s : State) : (decodeFrameStep j s).vbr = s.vbr := (congrArg State.vbr (decodeFrameStep_only j s)).trans rfl
@[simp] theorem decodeFrameStep_clips (j : Job) (s : State) : (decodeFrameStep j s).clips = s.clips := (congrArg State.clips (decodeFrameStep_only j s)).trans rfl
@[simp] theorem decodeFrameStep_voices (j : Job) (s : State) : (decodeFrameStep j s).voices = s.voices := (congrArg State.voices (decodeFrameStep_only j s)).trans rfl
@[simp] theorem decodeFrameStep_stopped (j : Job) (s : State) : (decodeFrameStep j s).stopped = s.stopped := (congrArg State.stopped (decodeFrameStep_only j s)).trans rfl
@[simp] theorem decodeFrameStep_mixer (j : Job) (s : State) : (decodeFrameStep j s).mixer = s.mixer := (congrArg State.mixer (decodeFrameStep_only j s)).trans rfl
@[simp] theorem decodeFrameStep_line (j : Job) (s : State) : (decodeFrameStep j s).line = s.line := (congrArg State.line (decodeFrameStep_only j s)).trans rfl
/-- DECODE_FRAME counts the frames the ring takes, and changes nothing else of the environment. -/
theorem decodeFrameStep_env (j : Job) (s : State) :
    (decodeFrameStep j s).env = { s.env with ringTaken := (decodeFrameStep j s).env.ringTaken } := by
  unfold decodeFrameStep State.ringAppend; dsimp only; repeat' split
  all_goals first | rfl | simp
@[simp] theorem decodeFrameStep_obs (j : Job) (s : State) : (decodeFrameStep j s).obs = s.obs := (congrArg State.obs (decodeFrameStep_only j s)).trans rfl

theorem loadClipStart_only (c : Nat) (s : State) :
    loadClipStart c s = { s with cur := (loadClipStart c s).cur, err := (loadClipStart c s).err, irqPend := (loadClipStart c s).irqPend, flags := (loadClipStart c s).flags, frame := (loadClipStart c s).frame } := by
  unfold loadClipStart; dsimp only; repeat' split
  all_goals rfl

@[simp] theorem loadClipStart_cfg (c : Nat) (s : State) : (loadClipStart c s).cfg = s.cfg := (congrArg State.cfg (loadClipStart_only c s)).trans rfl
@[simp] theorem loadClipStart_arg0 (c : Nat) (s : State) : (loadClipStart c s).arg0 = s.arg0 := (congrArg State.arg0 (loadClipStart_only c s)).trans rfl
@[simp] theorem loadClipStart_arg1 (c : Nat) (s : State) : (loadClipStart c s).arg1 = s.arg1 := (congrArg State.arg1 (loadClipStart_only c s)).trans rfl
@[simp] theorem loadClipStart_result (c : Nat) (s : State) : (loadClipStart c s).result = s.result := (congrArg State.result (loadClipStart_only c s)).trans rfl
@[simp] theorem loadClipStart_irqEn (c : Nat) (s : State) : (loadClipStart c s).irqEn = s.irqEn := (congrArg State.irqEn (loadClipStart_only c s)).trans rfl
@[simp] theorem loadClipStart_counters (c : Nat) (s : State) : (loadClipStart c s).counters = s.counters := (congrArg State.counters (loadClipStart_only c s)).trans rfl
@[simp] theorem loadClipStart_stream (c : Nat) (s : State) : (loadClipStart c s).stream = s.stream := (congrArg State.stream (loadClipStart_only c s)).trans rfl
@[simp] theorem loadClipStart_hdr (c : Nat) (s : State) : (loadClipStart c s).hdr = s.hdr := (congrArg State.hdr (loadClipStart_only c s)).trans rfl
@[simp] theorem loadClipStart_vbr (c : Nat) (s : State) : (loadClipStart c s).vbr = s.vbr := (congrArg State.vbr (loadClipStart_only c s)).trans rfl
@[simp] theorem loadClipStart_dec (c : Nat) (s : State) : (loadClipStart c s).dec = s.dec := (congrArg State.dec (loadClipStart_only c s)).trans rfl
@[simp] theorem loadClipStart_sink (c : Nat) (s : State) : (loadClipStart c s).sink = s.sink := (congrArg State.sink (loadClipStart_only c s)).trans rfl
@[simp] theorem loadClipStart_clips (c : Nat) (s : State) : (loadClipStart c s).clips = s.clips := (congrArg State.clips (loadClipStart_only c s)).trans rfl
@[simp] theorem loadClipStart_voices (c : Nat) (s : State) : (loadClipStart c s).voices = s.voices := (congrArg State.voices (loadClipStart_only c s)).trans rfl
@[simp] theorem loadClipStart_stopped (c : Nat) (s : State) : (loadClipStart c s).stopped = s.stopped := (congrArg State.stopped (loadClipStart_only c s)).trans rfl
@[simp] theorem loadClipStart_ring (c : Nat) (s : State) : (loadClipStart c s).ring = s.ring := (congrArg State.ring (loadClipStart_only c s)).trans rfl
@[simp] theorem loadClipStart_mixer (c : Nat) (s : State) : (loadClipStart c s).mixer = s.mixer := (congrArg State.mixer (loadClipStart_only c s)).trans rfl
@[simp] theorem loadClipStart_line (c : Nat) (s : State) : (loadClipStart c s).line = s.line := (congrArg State.line (loadClipStart_only c s)).trans rfl
@[simp] theorem loadClipStart_env (c : Nat) (s : State) : (loadClipStart c s).env = s.env := (congrArg State.env (loadClipStart_only c s)).trans rfl
@[simp] theorem loadClipStart_obs (c : Nat) (s : State) : (loadClipStart c s).obs = s.obs := (congrArg State.obs (loadClipStart_only c s)).trans rfl

theorem loadClipEnd_only (c : Nat) (l : LoadProgress) (s : State) :
    loadClipEnd c l s = { s with cur := (loadClipEnd c l s).cur, result := (loadClipEnd c l s).result, err := (loadClipEnd c l s).err, irqPend := (loadClipEnd c l s).irqPend, flags := (loadClipEnd c l s).flags, clips := (loadClipEnd c l s).clips } := by
  unfold loadClipEnd; dsimp only; split <;> rfl

@[simp] theorem loadClipEnd_cfg (c : Nat) (l : LoadProgress) (s : State) : (loadClipEnd c l s).cfg = s.cfg := (congrArg State.cfg (loadClipEnd_only c l s)).trans rfl
@[simp] theorem loadClipEnd_arg0 (c : Nat) (l : LoadProgress) (s : State) : (loadClipEnd c l s).arg0 = s.arg0 := (congrArg State.arg0 (loadClipEnd_only c l s)).trans rfl
@[simp] theorem loadClipEnd_arg1 (c : Nat) (l : LoadProgress) (s : State) : (loadClipEnd c l s).arg1 = s.arg1 := (congrArg State.arg1 (loadClipEnd_only c l s)).trans rfl
@[simp] theorem loadClipEnd_irqEn (c : Nat) (l : LoadProgress) (s : State) : (loadClipEnd c l s).irqEn = s.irqEn := (congrArg State.irqEn (loadClipEnd_only c l s)).trans rfl
@[simp] theorem loadClipEnd_counters (c : Nat) (l : LoadProgress) (s : State) : (loadClipEnd c l s).counters = s.counters := (congrArg State.counters (loadClipEnd_only c l s)).trans rfl
@[simp] theorem loadClipEnd_stream (c : Nat) (l : LoadProgress) (s : State) : (loadClipEnd c l s).stream = s.stream := (congrArg State.stream (loadClipEnd_only c l s)).trans rfl
@[simp] theorem loadClipEnd_frame (c : Nat) (l : LoadProgress) (s : State) : (loadClipEnd c l s).frame = s.frame := (congrArg State.frame (loadClipEnd_only c l s)).trans rfl
@[simp] theorem loadClipEnd_hdr (c : Nat) (l : LoadProgress) (s : State) : (loadClipEnd c l s).hdr = s.hdr := (congrArg State.hdr (loadClipEnd_only c l s)).trans rfl
@[simp] theorem loadClipEnd_vbr (c : Nat) (l : LoadProgress) (s : State) : (loadClipEnd c l s).vbr = s.vbr := (congrArg State.vbr (loadClipEnd_only c l s)).trans rfl
@[simp] theorem loadClipEnd_dec (c : Nat) (l : LoadProgress) (s : State) : (loadClipEnd c l s).dec = s.dec := (congrArg State.dec (loadClipEnd_only c l s)).trans rfl
@[simp] theorem loadClipEnd_sink (c : Nat) (l : LoadProgress) (s : State) : (loadClipEnd c l s).sink = s.sink := (congrArg State.sink (loadClipEnd_only c l s)).trans rfl
@[simp] theorem loadClipEnd_voices (c : Nat) (l : LoadProgress) (s : State) : (loadClipEnd c l s).voices = s.voices := (congrArg State.voices (loadClipEnd_only c l s)).trans rfl
@[simp] theorem loadClipEnd_stopped (c : Nat) (l : LoadProgress) (s : State) : (loadClipEnd c l s).stopped = s.stopped := (congrArg State.stopped (loadClipEnd_only c l s)).trans rfl
@[simp] theorem loadClipEnd_ring (c : Nat) (l : LoadProgress) (s : State) : (loadClipEnd c l s).ring = s.ring := (congrArg State.ring (loadClipEnd_only c l s)).trans rfl
@[simp] theorem loadClipEnd_mixer (c : Nat) (l : LoadProgress) (s : State) : (loadClipEnd c l s).mixer = s.mixer := (congrArg State.mixer (loadClipEnd_only c l s)).trans rfl
@[simp] theorem loadClipEnd_line (c : Nat) (l : LoadProgress) (s : State) : (loadClipEnd c l s).line = s.line := (congrArg State.line (loadClipEnd_only c l s)).trans rfl
@[simp] theorem loadClipEnd_env (c : Nat) (l : LoadProgress) (s : State) : (loadClipEnd c l s).env = s.env := (congrArg State.env (loadClipEnd_only c l s)).trans rfl
@[simp] theorem loadClipEnd_obs (c : Nat) (l : LoadProgress) (s : State) : (loadClipEnd c l s).obs = s.obs := (congrArg State.obs (loadClipEnd_only c l s)).trans rfl

theorem loadClipFrame_only (c : Nat) (j : Job) (l : LoadProgress) (s : State) :
    loadClipFrame c j l s = { s with cur := (loadClipFrame c j l s).cur, err := (loadClipFrame c j l s).err, irqPend := (loadClipFrame c j l s).irqPend, flags := (loadClipFrame c j l s).flags, counters := (loadClipFrame c j l s).counters, frame := (loadClipFrame c j l s).frame, hdr := (loadClipFrame c j l s).hdr, dec := (loadClipFrame c j l s).dec, sink := (loadClipFrame c j l s).sink, clips := (loadClipFrame c j l s).clips } := by
  unfold loadClipFrame; dsimp only; repeat' split
  all_goals first | rfl | (apply State.ext_fields <;> simp)

@[simp] theorem loadClipFrame_cfg (c : Nat) (j : Job) (l : LoadProgress) (s : State) : (loadClipFrame c j l s).cfg = s.cfg := (congrArg State.cfg (loadClipFrame_only c j l s)).trans rfl
@[simp] theorem loadClipFrame_arg0 (c : Nat) (j : Job) (l : LoadProgress) (s : State) : (loadClipFrame c j l s).arg0 = s.arg0 := (congrArg State.arg0 (loadClipFrame_only c j l s)).trans rfl
@[simp] theorem loadClipFrame_arg1 (c : Nat) (j : Job) (l : LoadProgress) (s : State) : (loadClipFrame c j l s).arg1 = s.arg1 := (congrArg State.arg1 (loadClipFrame_only c j l s)).trans rfl
@[simp] theorem loadClipFrame_result (c : Nat) (j : Job) (l : LoadProgress) (s : State) : (loadClipFrame c j l s).result = s.result := (congrArg State.result (loadClipFrame_only c j l s)).trans rfl
@[simp] theorem loadClipFrame_irqEn (c : Nat) (j : Job) (l : LoadProgress) (s : State) : (loadClipFrame c j l s).irqEn = s.irqEn := (congrArg State.irqEn (loadClipFrame_only c j l s)).trans rfl
@[simp] theorem loadClipFrame_stream (c : Nat) (j : Job) (l : LoadProgress) (s : State) : (loadClipFrame c j l s).stream = s.stream := (congrArg State.stream (loadClipFrame_only c j l s)).trans rfl
@[simp] theorem loadClipFrame_vbr (c : Nat) (j : Job) (l : LoadProgress) (s : State) : (loadClipFrame c j l s).vbr = s.vbr := (congrArg State.vbr (loadClipFrame_only c j l s)).trans rfl
@[simp] theorem loadClipFrame_voices (c : Nat) (j : Job) (l : LoadProgress) (s : State) : (loadClipFrame c j l s).voices = s.voices := (congrArg State.voices (loadClipFrame_only c j l s)).trans rfl
@[simp] theorem loadClipFrame_stopped (c : Nat) (j : Job) (l : LoadProgress) (s : State) : (loadClipFrame c j l s).stopped = s.stopped := (congrArg State.stopped (loadClipFrame_only c j l s)).trans rfl
@[simp] theorem loadClipFrame_ring (c : Nat) (j : Job) (l : LoadProgress) (s : State) : (loadClipFrame c j l s).ring = s.ring := (congrArg State.ring (loadClipFrame_only c j l s)).trans rfl
@[simp] theorem loadClipFrame_mixer (c : Nat) (j : Job) (l : LoadProgress) (s : State) : (loadClipFrame c j l s).mixer = s.mixer := (congrArg State.mixer (loadClipFrame_only c j l s)).trans rfl
@[simp] theorem loadClipFrame_line (c : Nat) (j : Job) (l : LoadProgress) (s : State) : (loadClipFrame c j l s).line = s.line := (congrArg State.line (loadClipFrame_only c j l s)).trans rfl
@[simp] theorem loadClipFrame_env (c : Nat) (j : Job) (l : LoadProgress) (s : State) : (loadClipFrame c j l s).env = s.env := (congrArg State.env (loadClipFrame_only c j l s)).trans rfl
@[simp] theorem loadClipFrame_obs (c : Nat) (j : Job) (l : LoadProgress) (s : State) : (loadClipFrame c j l s).obs = s.obs := (congrArg State.obs (loadClipFrame_only c j l s)).trans rfl

theorem loadClipStep_only (c : Nat) (j : Job) (s : State) :
    loadClipStep c j s = { s with cur := (loadClipStep c j s).cur, result := (loadClipStep c j s).result, err := (loadClipStep c j s).err, irqPend := (loadClipStep c j s).irqPend, flags := (loadClipStep c j s).flags, counters := (loadClipStep c j s).counters, stream := (loadClipStep c j s).stream, frame := (loadClipStep c j s).frame, hdr := (loadClipStep c j s).hdr, vbr := (loadClipStep c j s).vbr, dec := (loadClipStep c j s).dec, sink := (loadClipStep c j s).sink, clips := (loadClipStep c j s).clips } := by
  unfold loadClipStep; dsimp only; split <;> rename_i hq
  all_goals first | rfl | (have e := congrArg (fun x => x.2.2) hq; dsimp only at e; subst e; apply State.ext_fields <;> simp)

@[simp] theorem loadClipStep_cfg (c : Nat) (j : Job) (s : State) : (loadClipStep c j s).cfg = s.cfg := (congrArg State.cfg (loadClipStep_only c j s)).trans rfl
@[simp] theorem loadClipStep_arg0 (c : Nat) (j : Job) (s : State) : (loadClipStep c j s).arg0 = s.arg0 := (congrArg State.arg0 (loadClipStep_only c j s)).trans rfl
@[simp] theorem loadClipStep_arg1 (c : Nat) (j : Job) (s : State) : (loadClipStep c j s).arg1 = s.arg1 := (congrArg State.arg1 (loadClipStep_only c j s)).trans rfl
@[simp] theorem loadClipStep_irqEn (c : Nat) (j : Job) (s : State) : (loadClipStep c j s).irqEn = s.irqEn := (congrArg State.irqEn (loadClipStep_only c j s)).trans rfl
@[simp] theorem loadClipStep_voices (c : Nat) (j : Job) (s : State) : (loadClipStep c j s).voices = s.voices := (congrArg State.voices (loadClipStep_only c j s)).trans rfl
@[simp] theorem loadClipStep_stopped (c : Nat) (j : Job) (s : State) : (loadClipStep c j s).stopped = s.stopped := (congrArg State.stopped (loadClipStep_only c j s)).trans rfl
@[simp] theorem loadClipStep_ring (c : Nat) (j : Job) (s : State) : (loadClipStep c j s).ring = s.ring := (congrArg State.ring (loadClipStep_only c j s)).trans rfl
@[simp] theorem loadClipStep_mixer (c : Nat) (j : Job) (s : State) : (loadClipStep c j s).mixer = s.mixer := (congrArg State.mixer (loadClipStep_only c j s)).trans rfl
@[simp] theorem loadClipStep_line (c : Nat) (j : Job) (s : State) : (loadClipStep c j s).line = s.line := (congrArg State.line (loadClipStep_only c j s)).trans rfl
@[simp] theorem loadClipStep_env (c : Nat) (j : Job) (s : State) : (loadClipStep c j s).env = s.env := (congrArg State.env (loadClipStep_only c j s)).trans rfl
@[simp] theorem loadClipStep_obs (c : Nat) (j : Job) (s : State) : (loadClipStep c j s).obs = s.obs := (congrArg State.obs (loadClipStep_only c j s)).trans rfl

theorem startOf_only (i : Instr) (s : State) :
    startOf i s = { s with cur := (startOf i s).cur, err := (startOf i s).err, irqPend := (startOf i s).irqPend, flags := (startOf i s).flags, frame := (startOf i s).frame } := by
  cases i <;> first | rfl | exact loadClipStart_only _ _

@[simp] theorem startOf_cfg (i : Instr) (s : State) : (startOf i s).cfg = s.cfg := (congrArg State.cfg (startOf_only i s)).trans rfl
@[simp] theorem startOf_arg0 (i : Instr) (s : State) : (startOf i s).arg0 = s.arg0 := (congrArg State.arg0 (startOf_only i s)).trans rfl
@[simp] theorem startOf_arg1 (i : Instr) (s : State) : (startOf i s).arg1 = s.arg1 := (congrArg State.arg1 (startOf_only i s)).trans rfl
@[simp] theorem startOf_result (i : Instr) (s : State) : (startOf i s).result = s.result := (congrArg State.result (startOf_only i s)).trans rfl
@[simp] theorem startOf_irqEn (i : Instr) (s : State) : (startOf i s).irqEn = s.irqEn := (congrArg State.irqEn (startOf_only i s)).trans rfl
@[simp] theorem startOf_counters (i : Instr) (s : State) : (startOf i s).counters = s.counters := (congrArg State.counters (startOf_only i s)).trans rfl
@[simp] theorem startOf_stream (i : Instr) (s : State) : (startOf i s).stream = s.stream := (congrArg State.stream (startOf_only i s)).trans rfl
@[simp] theorem startOf_hdr (i : Instr) (s : State) : (startOf i s).hdr = s.hdr := (congrArg State.hdr (startOf_only i s)).trans rfl
@[simp] theorem startOf_vbr (i : Instr) (s : State) : (startOf i s).vbr = s.vbr := (congrArg State.vbr (startOf_only i s)).trans rfl
@[simp] theorem startOf_dec (i : Instr) (s : State) : (startOf i s).dec = s.dec := (congrArg State.dec (startOf_only i s)).trans rfl
@[simp] theorem startOf_sink (i : Instr) (s : State) : (startOf i s).sink = s.sink := (congrArg State.sink (startOf_only i s)).trans rfl
@[simp] theorem startOf_clips (i : Instr) (s : State) : (startOf i s).clips = s.clips := (congrArg State.clips (startOf_only i s)).trans rfl
@[simp] theorem startOf_voices (i : Instr) (s : State) : (startOf i s).voices = s.voices := (congrArg State.voices (startOf_only i s)).trans rfl
@[simp] theorem startOf_stopped (i : Instr) (s : State) : (startOf i s).stopped = s.stopped := (congrArg State.stopped (startOf_only i s)).trans rfl
@[simp] theorem startOf_ring (i : Instr) (s : State) : (startOf i s).ring = s.ring := (congrArg State.ring (startOf_only i s)).trans rfl
@[simp] theorem startOf_mixer (i : Instr) (s : State) : (startOf i s).mixer = s.mixer := (congrArg State.mixer (startOf_only i s)).trans rfl
@[simp] theorem startOf_line (i : Instr) (s : State) : (startOf i s).line = s.line := (congrArg State.line (startOf_only i s)).trans rfl
@[simp] theorem startOf_env (i : Instr) (s : State) : (startOf i s).env = s.env := (congrArg State.env (startOf_only i s)).trans rfl
@[simp] theorem startOf_obs (i : Instr) (s : State) : (startOf i s).obs = s.obs := (congrArg State.obs (startOf_only i s)).trans rfl

theorem playVoiceStep_only (c : Nat) (loop : Bool) (j : Job) (s : State) :
    playVoiceStep c loop j s = { s with cur := (playVoiceStep c loop j s).cur, result := (playVoiceStep c loop j s).result, err := (playVoiceStep c loop j s).err, irqPend := (playVoiceStep c loop j s).irqPend, voices := (playVoiceStep c loop j s).voices, mixer := (playVoiceStep c loop j s).mixer } := by
  unfold playVoiceStep; dsimp only; repeat' split
  all_goals rfl

@[simp] theorem playVoiceStep_cfg (c : Nat) (loop : Bool) (j : Job) (s : State) : (playVoiceStep c loop j s).cfg = s.cfg := (congrArg State.cfg (playVoiceStep_only c loop j s)).trans rfl
@[simp] theorem playVoiceStep_arg0 (c : Nat) (loop : Bool) (j : Job) (s : State) : (playVoiceStep c loop j s).arg0 = s.arg0 := (congrArg State.arg0 (playVoiceStep_only c loop j s)).trans rfl
@[simp] theorem playVoiceStep_arg1 (c : Nat) (loop : Bool) (j : Job) (s : State) : (playVoiceStep c loop j s).arg1 = s.arg1 := (congrArg State.arg1 (playVoiceStep_only c loop j s)).trans rfl
@[simp] theorem playVoiceStep_irqEn (c : Nat) (loop : Bool) (j : Job) (s : State) : (playVoiceStep c loop j s).irqEn = s.irqEn := (congrArg State.irqEn (playVoiceStep_only c loop j s)).trans rfl
@[simp] theorem playVoiceStep_flags (c : Nat) (loop : Bool) (j : Job) (s : State) : (playVoiceStep c loop j s).flags = s.flags := (congrArg State.flags (playVoiceStep_only c loop j s)).trans rfl
@[simp] theorem playVoiceStep_counters (c : Nat) (loop : Bool) (j : Job) (s : State) : (playVoiceStep c loop j s).counters = s.counters := (congrArg State.counters (playVoiceStep_only c loop j s)).trans rfl
@[simp] theorem playVoiceStep_stream (c : Nat) (loop : Bool) (j : Job) (s : State) : (playVoiceStep c loop j s).stream = s.stream := (congrArg State.stream (playVoiceStep_only c loop j s)).trans rfl
@[simp] theorem playVoiceStep_frame (c : Nat) (loop : Bool) (j : Job) (s : State) : (playVoiceStep c loop j s).frame = s.frame := (congrArg State.frame (playVoiceStep_only c loop j s)).trans rfl
@[simp] theorem playVoiceStep_hdr (c : Nat) (loop : Bool) (j : Job) (s : State) : (playVoiceStep c loop j s).hdr = s.hdr := (congrArg State.hdr (playVoiceStep_only c loop j s)).trans rfl
@[simp] theorem playVoiceStep_vbr (c : Nat) (loop : Bool) (j : Job) (s : State) : (playVoiceStep c loop j s).vbr = s.vbr := (congrArg State.vbr (playVoiceStep_only c loop j s)).trans rfl
@[simp] theorem playVoiceStep_dec (c : Nat) (loop : Bool) (j : Job) (s : State) : (playVoiceStep c loop j s).dec = s.dec := (congrArg State.dec (playVoiceStep_only c loop j s)).trans rfl
@[simp] theorem playVoiceStep_sink (c : Nat) (loop : Bool) (j : Job) (s : State) : (playVoiceStep c loop j s).sink = s.sink := (congrArg State.sink (playVoiceStep_only c loop j s)).trans rfl
@[simp] theorem playVoiceStep_clips (c : Nat) (loop : Bool) (j : Job) (s : State) : (playVoiceStep c loop j s).clips = s.clips := (congrArg State.clips (playVoiceStep_only c loop j s)).trans rfl
@[simp] theorem playVoiceStep_stopped (c : Nat) (loop : Bool) (j : Job) (s : State) : (playVoiceStep c loop j s).stopped = s.stopped := (congrArg State.stopped (playVoiceStep_only c loop j s)).trans rfl
@[simp] theorem playVoiceStep_ring (c : Nat) (loop : Bool) (j : Job) (s : State) : (playVoiceStep c loop j s).ring = s.ring := (congrArg State.ring (playVoiceStep_only c loop j s)).trans rfl
@[simp] theorem playVoiceStep_line (c : Nat) (loop : Bool) (j : Job) (s : State) : (playVoiceStep c loop j s).line = s.line := (congrArg State.line (playVoiceStep_only c loop j s)).trans rfl
@[simp] theorem playVoiceStep_env (c : Nat) (loop : Bool) (j : Job) (s : State) : (playVoiceStep c loop j s).env = s.env := (congrArg State.env (playVoiceStep_only c loop j s)).trans rfl
@[simp] theorem playVoiceStep_obs (c : Nat) (loop : Bool) (j : Job) (s : State) : (playVoiceStep c loop j s).obs = s.obs := (congrArg State.obs (playVoiceStep_only c loop j s)).trans rfl

theorem playStreamStep_only (j : Job) (s : State) :
    playStreamStep j s = { s with cur := (playStreamStep j s).cur, result := (playStreamStep j s).result, err := (playStreamStep j s).err, irqPend := (playStreamStep j s).irqPend, voices := (playStreamStep j s).voices, ring := (playStreamStep j s).ring, mixer := (playStreamStep j s).mixer } := by
  unfold playStreamStep; dsimp only; repeat' split
  all_goals rfl

@[simp] theorem playStreamStep_cfg (j : Job) (s : State) : (playStreamStep j s).cfg = s.cfg := (congrArg State.cfg (playStreamStep_only j s)).trans rfl
@[simp] theorem playStreamStep_arg0 (j : Job) (s : State) : (playStreamStep j s).arg0 = s.arg0 := (congrArg State.arg0 (playStreamStep_only j s)).trans rfl
@[simp] theorem playStreamStep_arg1 (j : Job) (s : State) : (playStreamStep j s).arg1 = s.arg1 := (congrArg State.arg1 (playStreamStep_only j s)).trans rfl
@[simp] theorem playStreamStep_irqEn (j : Job) (s : State) : (playStreamStep j s).irqEn = s.irqEn := (congrArg State.irqEn (playStreamStep_only j s)).trans rfl
@[simp] theorem playStreamStep_flags (j : Job) (s : State) : (playStreamStep j s).flags = s.flags := (congrArg State.flags (playStreamStep_only j s)).trans rfl
@[simp] theorem playStreamStep_counters (j : Job) (s : State) : (playStreamStep j s).counters = s.counters := (congrArg State.counters (playStreamStep_only j s)).trans rfl
@[simp] theorem playStreamStep_stream (j : Job) (s : State) : (playStreamStep j s).stream = s.stream := (congrArg State.stream (playStreamStep_only j s)).trans rfl
@[simp] theorem playStreamStep_frame (j : Job) (s : State) : (playStreamStep j s).frame = s.frame := (congrArg State.frame (playStreamStep_only j s)).trans rfl
@[simp] theorem playStreamStep_hdr (j : Job) (s : State) : (playStreamStep j s).hdr = s.hdr := (congrArg State.hdr (playStreamStep_only j s)).trans rfl
@[simp] theorem playStreamStep_vbr (j : Job) (s : State) : (playStreamStep j s).vbr = s.vbr := (congrArg State.vbr (playStreamStep_only j s)).trans rfl
@[simp] theorem playStreamStep_dec (j : Job) (s : State) : (playStreamStep j s).dec = s.dec := (congrArg State.dec (playStreamStep_only j s)).trans rfl
@[simp] theorem playStreamStep_sink (j : Job) (s : State) : (playStreamStep j s).sink = s.sink := (congrArg State.sink (playStreamStep_only j s)).trans rfl
@[simp] theorem playStreamStep_clips (j : Job) (s : State) : (playStreamStep j s).clips = s.clips := (congrArg State.clips (playStreamStep_only j s)).trans rfl
@[simp] theorem playStreamStep_stopped (j : Job) (s : State) : (playStreamStep j s).stopped = s.stopped := (congrArg State.stopped (playStreamStep_only j s)).trans rfl
@[simp] theorem playStreamStep_line (j : Job) (s : State) : (playStreamStep j s).line = s.line := (congrArg State.line (playStreamStep_only j s)).trans rfl
@[simp] theorem playStreamStep_env (j : Job) (s : State) : (playStreamStep j s).env = s.env := (congrArg State.env (playStreamStep_only j s)).trans rfl
@[simp] theorem playStreamStep_obs (j : Job) (s : State) : (playStreamStep j s).obs = s.obs := (congrArg State.obs (playStreamStep_only j s)).trans rfl

theorem clipDefineStep_only (c : Nat) (j : Job) (s : State) :
    clipDefineStep c j s = { s with cur := (clipDefineStep c j s).cur, result := (clipDefineStep c j s).result, err := (clipDefineStep c j s).err, irqPend := (clipDefineStep c j s).irqPend, clips := (clipDefineStep c j s).clips } := by
  unfold clipDefineStep; dsimp only; repeat' split
  all_goals rfl

@[simp] theorem clipDefineStep_cfg (c : Nat) (j : Job) (s : State) : (clipDefineStep c j s).cfg = s.cfg := (congrArg State.cfg (clipDefineStep_only c j s)).trans rfl
@[simp] theorem clipDefineStep_arg0 (c : Nat) (j : Job) (s : State) : (clipDefineStep c j s).arg0 = s.arg0 := (congrArg State.arg0 (clipDefineStep_only c j s)).trans rfl
@[simp] theorem clipDefineStep_arg1 (c : Nat) (j : Job) (s : State) : (clipDefineStep c j s).arg1 = s.arg1 := (congrArg State.arg1 (clipDefineStep_only c j s)).trans rfl
@[simp] theorem clipDefineStep_irqEn (c : Nat) (j : Job) (s : State) : (clipDefineStep c j s).irqEn = s.irqEn := (congrArg State.irqEn (clipDefineStep_only c j s)).trans rfl
@[simp] theorem clipDefineStep_flags (c : Nat) (j : Job) (s : State) : (clipDefineStep c j s).flags = s.flags := (congrArg State.flags (clipDefineStep_only c j s)).trans rfl
@[simp] theorem clipDefineStep_counters (c : Nat) (j : Job) (s : State) : (clipDefineStep c j s).counters = s.counters := (congrArg State.counters (clipDefineStep_only c j s)).trans rfl
@[simp] theorem clipDefineStep_stream (c : Nat) (j : Job) (s : State) : (clipDefineStep c j s).stream = s.stream := (congrArg State.stream (clipDefineStep_only c j s)).trans rfl
@[simp] theorem clipDefineStep_frame (c : Nat) (j : Job) (s : State) : (clipDefineStep c j s).frame = s.frame := (congrArg State.frame (clipDefineStep_only c j s)).trans rfl
@[simp] theorem clipDefineStep_hdr (c : Nat) (j : Job) (s : State) : (clipDefineStep c j s).hdr = s.hdr := (congrArg State.hdr (clipDefineStep_only c j s)).trans rfl
@[simp] theorem clipDefineStep_vbr (c : Nat) (j : Job) (s : State) : (clipDefineStep c j s).vbr = s.vbr := (congrArg State.vbr (clipDefineStep_only c j s)).trans rfl
@[simp] theorem clipDefineStep_dec (c : Nat) (j : Job) (s : State) : (clipDefineStep c j s).dec = s.dec := (congrArg State.dec (clipDefineStep_only c j s)).trans rfl
@[simp] theorem clipDefineStep_sink (c : Nat) (j : Job) (s : State) : (clipDefineStep c j s).sink = s.sink := (congrArg State.sink (clipDefineStep_only c j s)).trans rfl
@[simp] theorem clipDefineStep_voices (c : Nat) (j : Job) (s : State) : (clipDefineStep c j s).voices = s.voices := (congrArg State.voices (clipDefineStep_only c j s)).trans rfl
@[simp] theorem clipDefineStep_stopped (c : Nat) (j : Job) (s : State) : (clipDefineStep c j s).stopped = s.stopped := (congrArg State.stopped (clipDefineStep_only c j s)).trans rfl
@[simp] theorem clipDefineStep_ring (c : Nat) (j : Job) (s : State) : (clipDefineStep c j s).ring = s.ring := (congrArg State.ring (clipDefineStep_only c j s)).trans rfl
@[simp] theorem clipDefineStep_mixer (c : Nat) (j : Job) (s : State) : (clipDefineStep c j s).mixer = s.mixer := (congrArg State.mixer (clipDefineStep_only c j s)).trans rfl
@[simp] theorem clipDefineStep_line (c : Nat) (j : Job) (s : State) : (clipDefineStep c j s).line = s.line := (congrArg State.line (clipDefineStep_only c j s)).trans rfl
@[simp] theorem clipDefineStep_env (c : Nat) (j : Job) (s : State) : (clipDefineStep c j s).env = s.env := (congrArg State.env (clipDefineStep_only c j s)).trans rfl
@[simp] theorem clipDefineStep_obs (c : Nat) (j : Job) (s : State) : (clipDefineStep c j s).obs = s.obs := (congrArg State.obs (clipDefineStep_only c j s)).trans rfl

theorem clipFreeAllStep_only (j : Job) (s : State) :
    clipFreeAllStep j s = { s with cur := (clipFreeAllStep j s).cur, result := (clipFreeAllStep j s).result, err := (clipFreeAllStep j s).err, irqPend := (clipFreeAllStep j s).irqPend, clips := (clipFreeAllStep j s).clips } := by
  unfold clipFreeAllStep; dsimp only; repeat' split
  all_goals rfl

@[simp] theorem clipFreeAllStep_cfg (j : Job) (s : State) : (clipFreeAllStep j s).cfg = s.cfg := (congrArg State.cfg (clipFreeAllStep_only j s)).trans rfl
@[simp] theorem clipFreeAllStep_arg0 (j : Job) (s : State) : (clipFreeAllStep j s).arg0 = s.arg0 := (congrArg State.arg0 (clipFreeAllStep_only j s)).trans rfl
@[simp] theorem clipFreeAllStep_arg1 (j : Job) (s : State) : (clipFreeAllStep j s).arg1 = s.arg1 := (congrArg State.arg1 (clipFreeAllStep_only j s)).trans rfl
@[simp] theorem clipFreeAllStep_irqEn (j : Job) (s : State) : (clipFreeAllStep j s).irqEn = s.irqEn := (congrArg State.irqEn (clipFreeAllStep_only j s)).trans rfl
@[simp] theorem clipFreeAllStep_flags (j : Job) (s : State) : (clipFreeAllStep j s).flags = s.flags := (congrArg State.flags (clipFreeAllStep_only j s)).trans rfl
@[simp] theorem clipFreeAllStep_counters (j : Job) (s : State) : (clipFreeAllStep j s).counters = s.counters := (congrArg State.counters (clipFreeAllStep_only j s)).trans rfl
@[simp] theorem clipFreeAllStep_stream (j : Job) (s : State) : (clipFreeAllStep j s).stream = s.stream := (congrArg State.stream (clipFreeAllStep_only j s)).trans rfl
@[simp] theorem clipFreeAllStep_frame (j : Job) (s : State) : (clipFreeAllStep j s).frame = s.frame := (congrArg State.frame (clipFreeAllStep_only j s)).trans rfl
@[simp] theorem clipFreeAllStep_hdr (j : Job) (s : State) : (clipFreeAllStep j s).hdr = s.hdr := (congrArg State.hdr (clipFreeAllStep_only j s)).trans rfl
@[simp] theorem clipFreeAllStep_vbr (j : Job) (s : State) : (clipFreeAllStep j s).vbr = s.vbr := (congrArg State.vbr (clipFreeAllStep_only j s)).trans rfl
@[simp] theorem clipFreeAllStep_dec (j : Job) (s : State) : (clipFreeAllStep j s).dec = s.dec := (congrArg State.dec (clipFreeAllStep_only j s)).trans rfl
@[simp] theorem clipFreeAllStep_sink (j : Job) (s : State) : (clipFreeAllStep j s).sink = s.sink := (congrArg State.sink (clipFreeAllStep_only j s)).trans rfl
@[simp] theorem clipFreeAllStep_voices (j : Job) (s : State) : (clipFreeAllStep j s).voices = s.voices := (congrArg State.voices (clipFreeAllStep_only j s)).trans rfl
@[simp] theorem clipFreeAllStep_stopped (j : Job) (s : State) : (clipFreeAllStep j s).stopped = s.stopped := (congrArg State.stopped (clipFreeAllStep_only j s)).trans rfl
@[simp] theorem clipFreeAllStep_ring (j : Job) (s : State) : (clipFreeAllStep j s).ring = s.ring := (congrArg State.ring (clipFreeAllStep_only j s)).trans rfl
@[simp] theorem clipFreeAllStep_mixer (j : Job) (s : State) : (clipFreeAllStep j s).mixer = s.mixer := (congrArg State.mixer (clipFreeAllStep_only j s)).trans rfl
@[simp] theorem clipFreeAllStep_line (j : Job) (s : State) : (clipFreeAllStep j s).line = s.line := (congrArg State.line (clipFreeAllStep_only j s)).trans rfl
@[simp] theorem clipFreeAllStep_env (j : Job) (s : State) : (clipFreeAllStep j s).env = s.env := (congrArg State.env (clipFreeAllStep_only j s)).trans rfl
@[simp] theorem clipFreeAllStep_obs (j : Job) (s : State) : (clipFreeAllStep j s).obs = s.obs := (congrArg State.obs (clipFreeAllStep_only j s)).trans rfl

theorem mixerStartStep_only (j : Job) (s : State) :
    mixerStartStep j s = { s with cur := (mixerStartStep j s).cur, result := (mixerStartStep j s).result, err := (mixerStartStep j s).err, irqPend := (mixerStartStep j s).irqPend, mixer := (mixerStartStep j s).mixer, line := (mixerStartStep j s).line } := by
  unfold mixerStartStep; dsimp only; repeat' split
  all_goals rfl

@[simp] theorem mixerStartStep_cfg (j : Job) (s : State) : (mixerStartStep j s).cfg = s.cfg := (congrArg State.cfg (mixerStartStep_only j s)).trans rfl
@[simp] theorem mixerStartStep_arg0 (j : Job) (s : State) : (mixerStartStep j s).arg0 = s.arg0 := (congrArg State.arg0 (mixerStartStep_only j s)).trans rfl
@[simp] theorem mixerStartStep_arg1 (j : Job) (s : State) : (mixerStartStep j s).arg1 = s.arg1 := (congrArg State.arg1 (mixerStartStep_only j s)).trans rfl
@[simp] theorem mixerStartStep_irqEn (j : Job) (s : State) : (mixerStartStep j s).irqEn = s.irqEn := (congrArg State.irqEn (mixerStartStep_only j s)).trans rfl
@[simp] theorem mixerStartStep_flags (j : Job) (s : State) : (mixerStartStep j s).flags = s.flags := (congrArg State.flags (mixerStartStep_only j s)).trans rfl
@[simp] theorem mixerStartStep_counters (j : Job) (s : State) : (mixerStartStep j s).counters = s.counters := (congrArg State.counters (mixerStartStep_only j s)).trans rfl
@[simp] theorem mixerStartStep_stream (j : Job) (s : State) : (mixerStartStep j s).stream = s.stream := (congrArg State.stream (mixerStartStep_only j s)).trans rfl
@[simp] theorem mixerStartStep_frame (j : Job) (s : State) : (mixerStartStep j s).frame = s.frame := (congrArg State.frame (mixerStartStep_only j s)).trans rfl
@[simp] theorem mixerStartStep_hdr (j : Job) (s : State) : (mixerStartStep j s).hdr = s.hdr := (congrArg State.hdr (mixerStartStep_only j s)).trans rfl
@[simp] theorem mixerStartStep_vbr (j : Job) (s : State) : (mixerStartStep j s).vbr = s.vbr := (congrArg State.vbr (mixerStartStep_only j s)).trans rfl
@[simp] theorem mixerStartStep_dec (j : Job) (s : State) : (mixerStartStep j s).dec = s.dec := (congrArg State.dec (mixerStartStep_only j s)).trans rfl
@[simp] theorem mixerStartStep_sink (j : Job) (s : State) : (mixerStartStep j s).sink = s.sink := (congrArg State.sink (mixerStartStep_only j s)).trans rfl
@[simp] theorem mixerStartStep_clips (j : Job) (s : State) : (mixerStartStep j s).clips = s.clips := (congrArg State.clips (mixerStartStep_only j s)).trans rfl
@[simp] theorem mixerStartStep_voices (j : Job) (s : State) : (mixerStartStep j s).voices = s.voices := (congrArg State.voices (mixerStartStep_only j s)).trans rfl
@[simp] theorem mixerStartStep_stopped (j : Job) (s : State) : (mixerStartStep j s).stopped = s.stopped := (congrArg State.stopped (mixerStartStep_only j s)).trans rfl
@[simp] theorem mixerStartStep_ring (j : Job) (s : State) : (mixerStartStep j s).ring = s.ring := (congrArg State.ring (mixerStartStep_only j s)).trans rfl
@[simp] theorem mixerStartStep_env (j : Job) (s : State) : (mixerStartStep j s).env = s.env := (congrArg State.env (mixerStartStep_only j s)).trans rfl
@[simp] theorem mixerStartStep_obs (j : Job) (s : State) : (mixerStartStep j s).obs = s.obs := (congrArg State.obs (mixerStartStep_only j s)).trans rfl

theorem removeVoices_only (vs : List Nat) (s : State) :
    s.removeVoices vs = { s with irqPend := (s.removeVoices vs).irqPend, voices := (s.removeVoices vs).voices, stopped := (s.removeVoices vs).stopped, ring := (s.removeVoices vs).ring } := by
  induction vs generalizing s with
  | nil => rfl
  | cons v vs ih =>
    show (s.removeVoice v).removeVoices vs = _
    rw [ih]; rfl

@[simp] theorem removeVoices_cfg (vs : List Nat) (s : State) : (s.removeVoices vs).cfg = s.cfg := (congrArg State.cfg (removeVoices_only vs s)).trans rfl
@[simp] theorem removeVoices_cur (vs : List Nat) (s : State) : (s.removeVoices vs).cur = s.cur := (congrArg State.cur (removeVoices_only vs s)).trans rfl
@[simp] theorem removeVoices_arg0 (vs : List Nat) (s : State) : (s.removeVoices vs).arg0 = s.arg0 := (congrArg State.arg0 (removeVoices_only vs s)).trans rfl
@[simp] theorem removeVoices_arg1 (vs : List Nat) (s : State) : (s.removeVoices vs).arg1 = s.arg1 := (congrArg State.arg1 (removeVoices_only vs s)).trans rfl
@[simp] theorem removeVoices_result (vs : List Nat) (s : State) : (s.removeVoices vs).result = s.result := (congrArg State.result (removeVoices_only vs s)).trans rfl
@[simp] theorem removeVoices_err (vs : List Nat) (s : State) : (s.removeVoices vs).err = s.err := (congrArg State.err (removeVoices_only vs s)).trans rfl
@[simp] theorem removeVoices_irqEn (vs : List Nat) (s : State) : (s.removeVoices vs).irqEn = s.irqEn := (congrArg State.irqEn (removeVoices_only vs s)).trans rfl
@[simp] theorem removeVoices_flags (vs : List Nat) (s : State) : (s.removeVoices vs).flags = s.flags := (congrArg State.flags (removeVoices_only vs s)).trans rfl
@[simp] theorem removeVoices_counters (vs : List Nat) (s : State) : (s.removeVoices vs).counters = s.counters := (congrArg State.counters (removeVoices_only vs s)).trans rfl
@[simp] theorem removeVoices_stream (vs : List Nat) (s : State) : (s.removeVoices vs).stream = s.stream := (congrArg State.stream (removeVoices_only vs s)).trans rfl
@[simp] theorem removeVoices_frame (vs : List Nat) (s : State) : (s.removeVoices vs).frame = s.frame := (congrArg State.frame (removeVoices_only vs s)).trans rfl
@[simp] theorem removeVoices_hdr (vs : List Nat) (s : State) : (s.removeVoices vs).hdr = s.hdr := (congrArg State.hdr (removeVoices_only vs s)).trans rfl
@[simp] theorem removeVoices_vbr (vs : List Nat) (s : State) : (s.removeVoices vs).vbr = s.vbr := (congrArg State.vbr (removeVoices_only vs s)).trans rfl
@[simp] theorem removeVoices_dec (vs : List Nat) (s : State) : (s.removeVoices vs).dec = s.dec := (congrArg State.dec (removeVoices_only vs s)).trans rfl
@[simp] theorem removeVoices_sink (vs : List Nat) (s : State) : (s.removeVoices vs).sink = s.sink := (congrArg State.sink (removeVoices_only vs s)).trans rfl
@[simp] theorem removeVoices_clips (vs : List Nat) (s : State) : (s.removeVoices vs).clips = s.clips := (congrArg State.clips (removeVoices_only vs s)).trans rfl
@[simp] theorem removeVoices_mixer (vs : List Nat) (s : State) : (s.removeVoices vs).mixer = s.mixer := (congrArg State.mixer (removeVoices_only vs s)).trans rfl
@[simp] theorem removeVoices_line (vs : List Nat) (s : State) : (s.removeVoices vs).line = s.line := (congrArg State.line (removeVoices_only vs s)).trans rfl
@[simp] theorem removeVoices_env (vs : List Nat) (s : State) : (s.removeVoices vs).env = s.env := (congrArg State.env (removeVoices_only vs s)).trans rfl
@[simp] theorem removeVoices_obs (vs : List Nat) (s : State) : (s.removeVoices vs).obs = s.obs := (congrArg State.obs (removeVoices_only vs s)).trans rfl

theorem poison_only (s : State) :
    s.poison = { s with irqPend := (s.poison).irqPend, voices := (s.poison).voices, stopped := (s.poison).stopped, ring := (s.poison).ring, mixer := (s.poison).mixer } := by
  unfold State.poison; apply State.ext_fields <;> simp

@[simp] theorem poison_cfg (s : State) : (s.poison).cfg = s.cfg := (congrArg State.cfg (poison_only s)).trans rfl
@[simp] theorem poison_cur (s : State) : (s.poison).cur = s.cur := (congrArg State.cur (poison_only s)).trans rfl
@[simp] theorem poison_arg0 (s : State) : (s.poison).arg0 = s.arg0 := (congrArg State.arg0 (poison_only s)).trans rfl
@[simp] theorem poison_arg1 (s : State) : (s.poison).arg1 = s.arg1 := (congrArg State.arg1 (poison_only s)).trans rfl
@[simp] theorem poison_result (s : State) : (s.poison).result = s.result := (congrArg State.result (poison_only s)).trans rfl
@[simp] theorem poison_err (s : State) : (s.poison).err = s.err := (congrArg State.err (poison_only s)).trans rfl
@[simp] theorem poison_irqEn (s : State) : (s.poison).irqEn = s.irqEn := (congrArg State.irqEn (poison_only s)).trans rfl
@[simp] theorem poison_flags (s : State) : (s.poison).flags = s.flags := (congrArg State.flags (poison_only s)).trans rfl
@[simp] theorem poison_counters (s : State) : (s.poison).counters = s.counters := (congrArg State.counters (poison_only s)).trans rfl
@[simp] theorem poison_stream (s : State) : (s.poison).stream = s.stream := (congrArg State.stream (poison_only s)).trans rfl
@[simp] theorem poison_frame (s : State) : (s.poison).frame = s.frame := (congrArg State.frame (poison_only s)).trans rfl
@[simp] theorem poison_hdr (s : State) : (s.poison).hdr = s.hdr := (congrArg State.hdr (poison_only s)).trans rfl
@[simp] theorem poison_vbr (s : State) : (s.poison).vbr = s.vbr := (congrArg State.vbr (poison_only s)).trans rfl
@[simp] theorem poison_dec (s : State) : (s.poison).dec = s.dec := (congrArg State.dec (poison_only s)).trans rfl
@[simp] theorem poison_sink (s : State) : (s.poison).sink = s.sink := (congrArg State.sink (poison_only s)).trans rfl
@[simp] theorem poison_clips (s : State) : (s.poison).clips = s.clips := (congrArg State.clips (poison_only s)).trans rfl
@[simp] theorem poison_line (s : State) : (s.poison).line = s.line := (congrArg State.line (poison_only s)).trans rfl
@[simp] theorem poison_env (s : State) : (s.poison).env = s.env := (congrArg State.env (poison_only s)).trans rfl
@[simp] theorem poison_obs (s : State) : (s.poison).obs = s.obs := (congrArg State.obs (poison_only s)).trans rfl

theorem mixerStopStep_only (j : Job) (s : State) :
    mixerStopStep j s = { s with cur := (mixerStopStep j s).cur, result := (mixerStopStep j s).result, irqPend := (mixerStopStep j s).irqPend, voices := (mixerStopStep j s).voices, stopped := (mixerStopStep j s).stopped, ring := (mixerStopStep j s).ring, mixer := (mixerStopStep j s).mixer, line := (mixerStopStep j s).line } := by
  unfold mixerStopStep; repeat' split
  all_goals first | rfl | (apply State.ext_fields <;> simp)

@[simp] theorem mixerStopStep_cfg (j : Job) (s : State) : (mixerStopStep j s).cfg = s.cfg := (congrArg State.cfg (mixerStopStep_only j s)).trans rfl
@[simp] theorem mixerStopStep_arg0 (j : Job) (s : State) : (mixerStopStep j s).arg0 = s.arg0 := (congrArg State.arg0 (mixerStopStep_only j s)).trans rfl
@[simp] theorem mixerStopStep_arg1 (j : Job) (s : State) : (mixerStopStep j s).arg1 = s.arg1 := (congrArg State.arg1 (mixerStopStep_only j s)).trans rfl
@[simp] theorem mixerStopStep_err (j : Job) (s : State) : (mixerStopStep j s).err = s.err := (congrArg State.err (mixerStopStep_only j s)).trans rfl
@[simp] theorem mixerStopStep_irqEn (j : Job) (s : State) : (mixerStopStep j s).irqEn = s.irqEn := (congrArg State.irqEn (mixerStopStep_only j s)).trans rfl
@[simp] theorem mixerStopStep_flags (j : Job) (s : State) : (mixerStopStep j s).flags = s.flags := (congrArg State.flags (mixerStopStep_only j s)).trans rfl
@[simp] theorem mixerStopStep_counters (j : Job) (s : State) : (mixerStopStep j s).counters = s.counters := (congrArg State.counters (mixerStopStep_only j s)).trans rfl
@[simp] theorem mixerStopStep_stream (j : Job) (s : State) : (mixerStopStep j s).stream = s.stream := (congrArg State.stream (mixerStopStep_only j s)).trans rfl
@[simp] theorem mixerStopStep_frame (j : Job) (s : State) : (mixerStopStep j s).frame = s.frame := (congrArg State.frame (mixerStopStep_only j s)).trans rfl
@[simp] theorem mixerStopStep_hdr (j : Job) (s : State) : (mixerStopStep j s).hdr = s.hdr := (congrArg State.hdr (mixerStopStep_only j s)).trans rfl
@[simp] theorem mixerStopStep_vbr (j : Job) (s : State) : (mixerStopStep j s).vbr = s.vbr := (congrArg State.vbr (mixerStopStep_only j s)).trans rfl
@[simp] theorem mixerStopStep_dec (j : Job) (s : State) : (mixerStopStep j s).dec = s.dec := (congrArg State.dec (mixerStopStep_only j s)).trans rfl
@[simp] theorem mixerStopStep_sink (j : Job) (s : State) : (mixerStopStep j s).sink = s.sink := (congrArg State.sink (mixerStopStep_only j s)).trans rfl
@[simp] theorem mixerStopStep_clips (j : Job) (s : State) : (mixerStopStep j s).clips = s.clips := (congrArg State.clips (mixerStopStep_only j s)).trans rfl
@[simp] theorem mixerStopStep_env (j : Job) (s : State) : (mixerStopStep j s).env = s.env := (congrArg State.env (mixerStopStep_only j s)).trans rfl
@[simp] theorem mixerStopStep_obs (j : Job) (s : State) : (mixerStopStep j s).obs = s.obs := (congrArg State.obs (mixerStopStep_only j s)).trans rfl

theorem mixerSyncStep_only (j : Job) (s : State) :
    mixerSyncStep j s = { s with cur := (mixerSyncStep j s).cur, result := (mixerSyncStep j s).result, irqPend := (mixerSyncStep j s).irqPend, mixer := (mixerSyncStep j s).mixer } := by
  unfold mixerSyncStep; repeat' split
  all_goals rfl

@[simp] theorem mixerSyncStep_cfg (j : Job) (s : State) : (mixerSyncStep j s).cfg = s.cfg := (congrArg State.cfg (mixerSyncStep_only j s)).trans rfl
@[simp] theorem mixerSyncStep_arg0 (j : Job) (s : State) : (mixerSyncStep j s).arg0 = s.arg0 := (congrArg State.arg0 (mixerSyncStep_only j s)).trans rfl
@[simp] theorem mixerSyncStep_arg1 (j : Job) (s : State) : (mixerSyncStep j s).arg1 = s.arg1 := (congrArg State.arg1 (mixerSyncStep_only j s)).trans rfl
@[simp] theorem mixerSyncStep_err (j : Job) (s : State) : (mixerSyncStep j s).err = s.err := (congrArg State.err (mixerSyncStep_only j s)).trans rfl
@[simp] theorem mixerSyncStep_irqEn (j : Job) (s : State) : (mixerSyncStep j s).irqEn = s.irqEn := (congrArg State.irqEn (mixerSyncStep_only j s)).trans rfl
@[simp] theorem mixerSyncStep_flags (j : Job) (s : State) : (mixerSyncStep j s).flags = s.flags := (congrArg State.flags (mixerSyncStep_only j s)).trans rfl
@[simp] theorem mixerSyncStep_counters (j : Job) (s : State) : (mixerSyncStep j s).counters = s.counters := (congrArg State.counters (mixerSyncStep_only j s)).trans rfl
@[simp] theorem mixerSyncStep_stream (j : Job) (s : State) : (mixerSyncStep j s).stream = s.stream := (congrArg State.stream (mixerSyncStep_only j s)).trans rfl
@[simp] theorem mixerSyncStep_frame (j : Job) (s : State) : (mixerSyncStep j s).frame = s.frame := (congrArg State.frame (mixerSyncStep_only j s)).trans rfl
@[simp] theorem mixerSyncStep_hdr (j : Job) (s : State) : (mixerSyncStep j s).hdr = s.hdr := (congrArg State.hdr (mixerSyncStep_only j s)).trans rfl
@[simp] theorem mixerSyncStep_vbr (j : Job) (s : State) : (mixerSyncStep j s).vbr = s.vbr := (congrArg State.vbr (mixerSyncStep_only j s)).trans rfl
@[simp] theorem mixerSyncStep_dec (j : Job) (s : State) : (mixerSyncStep j s).dec = s.dec := (congrArg State.dec (mixerSyncStep_only j s)).trans rfl
@[simp] theorem mixerSyncStep_sink (j : Job) (s : State) : (mixerSyncStep j s).sink = s.sink := (congrArg State.sink (mixerSyncStep_only j s)).trans rfl
@[simp] theorem mixerSyncStep_clips (j : Job) (s : State) : (mixerSyncStep j s).clips = s.clips := (congrArg State.clips (mixerSyncStep_only j s)).trans rfl
@[simp] theorem mixerSyncStep_voices (j : Job) (s : State) : (mixerSyncStep j s).voices = s.voices := (congrArg State.voices (mixerSyncStep_only j s)).trans rfl
@[simp] theorem mixerSyncStep_stopped (j : Job) (s : State) : (mixerSyncStep j s).stopped = s.stopped := (congrArg State.stopped (mixerSyncStep_only j s)).trans rfl
@[simp] theorem mixerSyncStep_ring (j : Job) (s : State) : (mixerSyncStep j s).ring = s.ring := (congrArg State.ring (mixerSyncStep_only j s)).trans rfl
@[simp] theorem mixerSyncStep_line (j : Job) (s : State) : (mixerSyncStep j s).line = s.line := (congrArg State.line (mixerSyncStep_only j s)).trans rfl
@[simp] theorem mixerSyncStep_env (j : Job) (s : State) : (mixerSyncStep j s).env = s.env := (congrArg State.env (mixerSyncStep_only j s)).trans rfl
@[simp] theorem mixerSyncStep_obs (j : Job) (s : State) : (mixerSyncStep j s).obs = s.obs := (congrArg State.obs (mixerSyncStep_only j s)).trans rfl

theorem bypassFirst_only (c : Nat) (j : Job) (s : State) :
    bypassFirst c j s = { s with cur := (bypassFirst c j s).cur, err := (bypassFirst c j s).err, irqPend := (bypassFirst c j s).irqPend } := by
  unfold bypassFirst; dsimp only; repeat' split
  all_goals rfl

@[simp] theorem bypassFirst_cfg (c : Nat) (j : Job) (s : State) : (bypassFirst c j s).cfg = s.cfg := (congrArg State.cfg (bypassFirst_only c j s)).trans rfl
@[simp] theorem bypassFirst_arg0 (c : Nat) (j : Job) (s : State) : (bypassFirst c j s).arg0 = s.arg0 := (congrArg State.arg0 (bypassFirst_only c j s)).trans rfl
@[simp] theorem bypassFirst_arg1 (c : Nat) (j : Job) (s : State) : (bypassFirst c j s).arg1 = s.arg1 := (congrArg State.arg1 (bypassFirst_only c j s)).trans rfl
@[simp] theorem bypassFirst_result (c : Nat) (j : Job) (s : State) : (bypassFirst c j s).result = s.result := (congrArg State.result (bypassFirst_only c j s)).trans rfl
@[simp] theorem bypassFirst_irqEn (c : Nat) (j : Job) (s : State) : (bypassFirst c j s).irqEn = s.irqEn := (congrArg State.irqEn (bypassFirst_only c j s)).trans rfl
@[simp] theorem bypassFirst_flags (c : Nat) (j : Job) (s : State) : (bypassFirst c j s).flags = s.flags := (congrArg State.flags (bypassFirst_only c j s)).trans rfl
@[simp] theorem bypassFirst_counters (c : Nat) (j : Job) (s : State) : (bypassFirst c j s).counters = s.counters := (congrArg State.counters (bypassFirst_only c j s)).trans rfl
@[simp] theorem bypassFirst_stream (c : Nat) (j : Job) (s : State) : (bypassFirst c j s).stream = s.stream := (congrArg State.stream (bypassFirst_only c j s)).trans rfl
@[simp] theorem bypassFirst_frame (c : Nat) (j : Job) (s : State) : (bypassFirst c j s).frame = s.frame := (congrArg State.frame (bypassFirst_only c j s)).trans rfl
@[simp] theorem bypassFirst_hdr (c : Nat) (j : Job) (s : State) : (bypassFirst c j s).hdr = s.hdr := (congrArg State.hdr (bypassFirst_only c j s)).trans rfl
@[simp] theorem bypassFirst_vbr (c : Nat) (j : Job) (s : State) : (bypassFirst c j s).vbr = s.vbr := (congrArg State.vbr (bypassFirst_only c j s)).trans rfl
@[simp] theorem bypassFirst_dec (c : Nat) (j : Job) (s : State) : (bypassFirst c j s).dec = s.dec := (congrArg State.dec (bypassFirst_only c j s)).trans rfl
@[simp] theorem bypassFirst_sink (c : Nat) (j : Job) (s : State) : (bypassFirst c j s).sink = s.sink := (congrArg State.sink (bypassFirst_only c j s)).trans rfl
@[simp] theorem bypassFirst_clips (c : Nat) (j : Job) (s : State) : (bypassFirst c j s).clips = s.clips := (congrArg State.clips (bypassFirst_only c j s)).trans rfl
@[simp] theorem bypassFirst_voices (c : Nat) (j : Job) (s : State) : (bypassFirst c j s).voices = s.voices := (congrArg State.voices (bypassFirst_only c j s)).trans rfl
@[simp] theorem bypassFirst_stopped (c : Nat) (j : Job) (s : State) : (bypassFirst c j s).stopped = s.stopped := (congrArg State.stopped (bypassFirst_only c j s)).trans rfl
@[simp] theorem bypassFirst_ring (c : Nat) (j : Job) (s : State) : (bypassFirst c j s).ring = s.ring := (congrArg State.ring (bypassFirst_only c j s)).trans rfl
@[simp] theorem bypassFirst_mixer (c : Nat) (j : Job) (s : State) : (bypassFirst c j s).mixer = s.mixer := (congrArg State.mixer (bypassFirst_only c j s)).trans rfl
@[simp] theorem bypassFirst_line (c : Nat) (j : Job) (s : State) : (bypassFirst c j s).line = s.line := (congrArg State.line (bypassFirst_only c j s)).trans rfl
@[simp] theorem bypassFirst_env (c : Nat) (j : Job) (s : State) : (bypassFirst c j s).env = s.env := (congrArg State.env (bypassFirst_only c j s)).trans rfl
@[simp] theorem bypassFirst_obs (c : Nat) (j : Job) (s : State) : (bypassFirst c j s).obs = s.obs := (congrArg State.obs (bypassFirst_only c j s)).trans rfl

theorem bypassLater_only (c : Nat) (j : Job) (d : ClipDesc) (i : Nat) (s : State) :
    bypassLater c j d i s = { s with cur := (bypassLater c j d i s).cur, result := (bypassLater c j d i s).result, err := (bypassLater c j d i s).err, irqPend := (bypassLater c j d i s).irqPend, counters := (bypassLater c j d i s).counters, line := (bypassLater c j d i s).line, obs := (bypassLater c j d i s).obs } := by
  unfold bypassLater; dsimp only; repeat' split
  all_goals first | rfl | (apply State.ext_fields <;> simp)

@[simp] theorem bypassLater_cfg (c : Nat) (j : Job) (d : ClipDesc) (i : Nat) (s : State) : (bypassLater c j d i s).cfg = s.cfg := (congrArg State.cfg (bypassLater_only c j d i s)).trans rfl
@[simp] theorem bypassLater_arg0 (c : Nat) (j : Job) (d : ClipDesc) (i : Nat) (s : State) : (bypassLater c j d i s).arg0 = s.arg0 := (congrArg State.arg0 (bypassLater_only c j d i s)).trans rfl
@[simp] theorem bypassLater_arg1 (c : Nat) (j : Job) (d : ClipDesc) (i : Nat) (s : State) : (bypassLater c j d i s).arg1 = s.arg1 := (congrArg State.arg1 (bypassLater_only c j d i s)).trans rfl
@[simp] theorem bypassLater_irqEn (c : Nat) (j : Job) (d : ClipDesc) (i : Nat) (s : State) : (bypassLater c j d i s).irqEn = s.irqEn := (congrArg State.irqEn (bypassLater_only c j d i s)).trans rfl
@[simp] theorem bypassLater_flags (c : Nat) (j : Job) (d : ClipDesc) (i : Nat) (s : State) : (bypassLater c j d i s).flags = s.flags := (congrArg State.flags (bypassLater_only c j d i s)).trans rfl
@[simp] theorem bypassLater_stream (c : Nat) (j : Job) (d : ClipDesc) (i : Nat) (s : State) : (bypassLater c j d i s).stream = s.stream := (congrArg State.stream (bypassLater_only c j d i s)).trans rfl
@[simp] theorem bypassLater_frame (c : Nat) (j : Job) (d : ClipDesc) (i : Nat) (s : State) : (bypassLater c j d i s).frame = s.frame := (congrArg State.frame (bypassLater_only c j d i s)).trans rfl
@[simp] theorem bypassLater_hdr (c : Nat) (j : Job) (d : ClipDesc) (i : Nat) (s : State) : (bypassLater c j d i s).hdr = s.hdr := (congrArg State.hdr (bypassLater_only c j d i s)).trans rfl
@[simp] theorem bypassLater_vbr (c : Nat) (j : Job) (d : ClipDesc) (i : Nat) (s : State) : (bypassLater c j d i s).vbr = s.vbr := (congrArg State.vbr (bypassLater_only c j d i s)).trans rfl
@[simp] theorem bypassLater_dec (c : Nat) (j : Job) (d : ClipDesc) (i : Nat) (s : State) : (bypassLater c j d i s).dec = s.dec := (congrArg State.dec (bypassLater_only c j d i s)).trans rfl
@[simp] theorem bypassLater_sink (c : Nat) (j : Job) (d : ClipDesc) (i : Nat) (s : State) : (bypassLater c j d i s).sink = s.sink := (congrArg State.sink (bypassLater_only c j d i s)).trans rfl
@[simp] theorem bypassLater_clips (c : Nat) (j : Job) (d : ClipDesc) (i : Nat) (s : State) : (bypassLater c j d i s).clips = s.clips := (congrArg State.clips (bypassLater_only c j d i s)).trans rfl
@[simp] theorem bypassLater_voices (c : Nat) (j : Job) (d : ClipDesc) (i : Nat) (s : State) : (bypassLater c j d i s).voices = s.voices := (congrArg State.voices (bypassLater_only c j d i s)).trans rfl
@[simp] theorem bypassLater_stopped (c : Nat) (j : Job) (d : ClipDesc) (i : Nat) (s : State) : (bypassLater c j d i s).stopped = s.stopped := (congrArg State.stopped (bypassLater_only c j d i s)).trans rfl
@[simp] theorem bypassLater_ring (c : Nat) (j : Job) (d : ClipDesc) (i : Nat) (s : State) : (bypassLater c j d i s).ring = s.ring := (congrArg State.ring (bypassLater_only c j d i s)).trans rfl
@[simp] theorem bypassLater_mixer (c : Nat) (j : Job) (d : ClipDesc) (i : Nat) (s : State) : (bypassLater c j d i s).mixer = s.mixer := (congrArg State.mixer (bypassLater_only c j d i s)).trans rfl
@[simp] theorem bypassLater_env (c : Nat) (j : Job) (d : ClipDesc) (i : Nat) (s : State) : (bypassLater c j d i s).env = s.env := (congrArg State.env (bypassLater_only c j d i s)).trans rfl

theorem bypassStep_only (c : Nat) (j : Job) (s : State) :
    bypassStep c j s = { s with cur := (bypassStep c j s).cur, result := (bypassStep c j s).result, err := (bypassStep c j s).err, irqPend := (bypassStep c j s).irqPend, counters := (bypassStep c j s).counters, line := (bypassStep c j s).line, obs := (bypassStep c j s).obs } := by
  unfold bypassStep; split
  all_goals (apply State.ext_fields <;> simp)

@[simp] theorem bypassStep_cfg (c : Nat) (j : Job) (s : State) : (bypassStep c j s).cfg = s.cfg := (congrArg State.cfg (bypassStep_only c j s)).trans rfl
@[simp] theorem bypassStep_arg0 (c : Nat) (j : Job) (s : State) : (bypassStep c j s).arg0 = s.arg0 := (congrArg State.arg0 (bypassStep_only c j s)).trans rfl
@[simp] theorem bypassStep_arg1 (c : Nat) (j : Job) (s : State) : (bypassStep c j s).arg1 = s.arg1 := (congrArg State.arg1 (bypassStep_only c j s)).trans rfl
@[simp] theorem bypassStep_irqEn (c : Nat) (j : Job) (s : State) : (bypassStep c j s).irqEn = s.irqEn := (congrArg State.irqEn (bypassStep_only c j s)).trans rfl
@[simp] theorem bypassStep_flags (c : Nat) (j : Job) (s : State) : (bypassStep c j s).flags = s.flags := (congrArg State.flags (bypassStep_only c j s)).trans rfl
@[simp] theorem bypassStep_stream (c : Nat) (j : Job) (s : State) : (bypassStep c j s).stream = s.stream := (congrArg State.stream (bypassStep_only c j s)).trans rfl
@[simp] theorem bypassStep_frame (c : Nat) (j : Job) (s : State) : (bypassStep c j s).frame = s.frame := (congrArg State.frame (bypassStep_only c j s)).trans rfl
@[simp] theorem bypassStep_hdr (c : Nat) (j : Job) (s : State) : (bypassStep c j s).hdr = s.hdr := (congrArg State.hdr (bypassStep_only c j s)).trans rfl
@[simp] theorem bypassStep_vbr (c : Nat) (j : Job) (s : State) : (bypassStep c j s).vbr = s.vbr := (congrArg State.vbr (bypassStep_only c j s)).trans rfl
@[simp] theorem bypassStep_dec (c : Nat) (j : Job) (s : State) : (bypassStep c j s).dec = s.dec := (congrArg State.dec (bypassStep_only c j s)).trans rfl
@[simp] theorem bypassStep_sink (c : Nat) (j : Job) (s : State) : (bypassStep c j s).sink = s.sink := (congrArg State.sink (bypassStep_only c j s)).trans rfl
@[simp] theorem bypassStep_clips (c : Nat) (j : Job) (s : State) : (bypassStep c j s).clips = s.clips := (congrArg State.clips (bypassStep_only c j s)).trans rfl
@[simp] theorem bypassStep_voices (c : Nat) (j : Job) (s : State) : (bypassStep c j s).voices = s.voices := (congrArg State.voices (bypassStep_only c j s)).trans rfl
@[simp] theorem bypassStep_stopped (c : Nat) (j : Job) (s : State) : (bypassStep c j s).stopped = s.stopped := (congrArg State.stopped (bypassStep_only c j s)).trans rfl
@[simp] theorem bypassStep_ring (c : Nat) (j : Job) (s : State) : (bypassStep c j s).ring = s.ring := (congrArg State.ring (bypassStep_only c j s)).trans rfl
@[simp] theorem bypassStep_mixer (c : Nat) (j : Job) (s : State) : (bypassStep c j s).mixer = s.mixer := (congrArg State.mixer (bypassStep_only c j s)).trans rfl
@[simp] theorem bypassStep_env (c : Nat) (j : Job) (s : State) : (bypassStep c j s).env = s.env := (congrArg State.env (bypassStep_only c j s)).trans rfl

theorem setLoopEffect_only (v : Nat) (loop : Bool) (s : State) :
    setLoopEffect v loop s = { s with cur := (setLoopEffect v loop s).cur, result := (setLoopEffect v loop s).result, err := (setLoopEffect v loop s).err, irqPend := (setLoopEffect v loop s).irqPend, voices := (setLoopEffect v loop s).voices } := by
  unfold setLoopEffect; split <;> rfl

@[simp] theorem setLoopEffect_cfg (v : Nat) (loop : Bool) (s : State) : (setLoopEffect v loop s).cfg = s.cfg := (congrArg State.cfg (setLoopEffect_only v loop s)).trans rfl
@[simp] theorem setLoopEffect_arg0 (v : Nat) (loop : Bool) (s : State) : (setLoopEffect v loop s).arg0 = s.arg0 := (congrArg State.arg0 (setLoopEffect_only v loop s)).trans rfl
@[simp] theorem setLoopEffect_arg1 (v : Nat) (loop : Bool) (s : State) : (setLoopEffect v loop s).arg1 = s.arg1 := (congrArg State.arg1 (setLoopEffect_only v loop s)).trans rfl
@[simp] theorem setLoopEffect_irqEn (v : Nat) (loop : Bool) (s : State) : (setLoopEffect v loop s).irqEn = s.irqEn := (congrArg State.irqEn (setLoopEffect_only v loop s)).trans rfl
@[simp] theorem setLoopEffect_flags (v : Nat) (loop : Bool) (s : State) : (setLoopEffect v loop s).flags = s.flags := (congrArg State.flags (setLoopEffect_only v loop s)).trans rfl
@[simp] theorem setLoopEffect_counters (v : Nat) (loop : Bool) (s : State) : (setLoopEffect v loop s).counters = s.counters := (congrArg State.counters (setLoopEffect_only v loop s)).trans rfl
@[simp] theorem setLoopEffect_stream (v : Nat) (loop : Bool) (s : State) : (setLoopEffect v loop s).stream = s.stream := (congrArg State.stream (setLoopEffect_only v loop s)).trans rfl
@[simp] theorem setLoopEffect_frame (v : Nat) (loop : Bool) (s : State) : (setLoopEffect v loop s).frame = s.frame := (congrArg State.frame (setLoopEffect_only v loop s)).trans rfl
@[simp] theorem setLoopEffect_hdr (v : Nat) (loop : Bool) (s : State) : (setLoopEffect v loop s).hdr = s.hdr := (congrArg State.hdr (setLoopEffect_only v loop s)).trans rfl
@[simp] theorem setLoopEffect_vbr (v : Nat) (loop : Bool) (s : State) : (setLoopEffect v loop s).vbr = s.vbr := (congrArg State.vbr (setLoopEffect_only v loop s)).trans rfl
@[simp] theorem setLoopEffect_dec (v : Nat) (loop : Bool) (s : State) : (setLoopEffect v loop s).dec = s.dec := (congrArg State.dec (setLoopEffect_only v loop s)).trans rfl
@[simp] theorem setLoopEffect_sink (v : Nat) (loop : Bool) (s : State) : (setLoopEffect v loop s).sink = s.sink := (congrArg State.sink (setLoopEffect_only v loop s)).trans rfl
@[simp] theorem setLoopEffect_clips (v : Nat) (loop : Bool) (s : State) : (setLoopEffect v loop s).clips = s.clips := (congrArg State.clips (setLoopEffect_only v loop s)).trans rfl
@[simp] theorem setLoopEffect_stopped (v : Nat) (loop : Bool) (s : State) : (setLoopEffect v loop s).stopped = s.stopped := (congrArg State.stopped (setLoopEffect_only v loop s)).trans rfl
@[simp] theorem setLoopEffect_ring (v : Nat) (loop : Bool) (s : State) : (setLoopEffect v loop s).ring = s.ring := (congrArg State.ring (setLoopEffect_only v loop s)).trans rfl
@[simp] theorem setLoopEffect_mixer (v : Nat) (loop : Bool) (s : State) : (setLoopEffect v loop s).mixer = s.mixer := (congrArg State.mixer (setLoopEffect_only v loop s)).trans rfl
@[simp] theorem setLoopEffect_line (v : Nat) (loop : Bool) (s : State) : (setLoopEffect v loop s).line = s.line := (congrArg State.line (setLoopEffect_only v loop s)).trans rfl
@[simp] theorem setLoopEffect_env (v : Nat) (loop : Bool) (s : State) : (setLoopEffect v loop s).env = s.env := (congrArg State.env (setLoopEffect_only v loop s)).trans rfl
@[simp] theorem setLoopEffect_obs (v : Nat) (loop : Bool) (s : State) : (setLoopEffect v loop s).obs = s.obs := (congrArg State.obs (setLoopEffect_only v loop s)).trans rfl

theorem admitAll_only (s : State) :
    s.admitAll = { s with voices := (s.admitAll).voices, mixer := (s.admitAll).mixer } := by
  unfold State.admitAll
  generalize s.mixer.fifo = vs
  have h : ∀ t : State, vs.foldl (fun t v => t.setVoice v (t.voiceAt v).enter) t =
      { t with voices := (vs.foldl (fun t v => t.setVoice v (t.voiceAt v).enter) t).voices } := by
    induction vs with
    | nil => intro t; rfl
    | cons v vs ih => intro t; rw [List.foldl_cons, ih]; rfl
  rw [h]

@[simp] theorem admitAll_cfg (s : State) : (s.admitAll).cfg = s.cfg := (congrArg State.cfg (admitAll_only s)).trans rfl
@[simp] theorem admitAll_cur (s : State) : (s.admitAll).cur = s.cur := (congrArg State.cur (admitAll_only s)).trans rfl
@[simp] theorem admitAll_arg0 (s : State) : (s.admitAll).arg0 = s.arg0 := (congrArg State.arg0 (admitAll_only s)).trans rfl
@[simp] theorem admitAll_arg1 (s : State) : (s.admitAll).arg1 = s.arg1 := (congrArg State.arg1 (admitAll_only s)).trans rfl
@[simp] theorem admitAll_result (s : State) : (s.admitAll).result = s.result := (congrArg State.result (admitAll_only s)).trans rfl
@[simp] theorem admitAll_err (s : State) : (s.admitAll).err = s.err := (congrArg State.err (admitAll_only s)).trans rfl
@[simp] theorem admitAll_irqEn (s : State) : (s.admitAll).irqEn = s.irqEn := (congrArg State.irqEn (admitAll_only s)).trans rfl
@[simp] theorem admitAll_irqPend (s : State) : (s.admitAll).irqPend = s.irqPend := (congrArg State.irqPend (admitAll_only s)).trans rfl
@[simp] theorem admitAll_flags (s : State) : (s.admitAll).flags = s.flags := (congrArg State.flags (admitAll_only s)).trans rfl
@[simp] theorem admitAll_counters (s : State) : (s.admitAll).counters = s.counters := (congrArg State.counters (admitAll_only s)).trans rfl
@[simp] theorem admitAll_stream (s : State) : (s.admitAll).stream = s.stream := (congrArg State.stream (admitAll_only s)).trans rfl
@[simp] theorem admitAll_frame (s : State) : (s.admitAll).frame = s.frame := (congrArg State.frame (admitAll_only s)).trans rfl
@[simp] theorem admitAll_hdr (s : State) : (s.admitAll).hdr = s.hdr := (congrArg State.hdr (admitAll_only s)).trans rfl
@[simp] theorem admitAll_vbr (s : State) : (s.admitAll).vbr = s.vbr := (congrArg State.vbr (admitAll_only s)).trans rfl
@[simp] theorem admitAll_dec (s : State) : (s.admitAll).dec = s.dec := (congrArg State.dec (admitAll_only s)).trans rfl
@[simp] theorem admitAll_sink (s : State) : (s.admitAll).sink = s.sink := (congrArg State.sink (admitAll_only s)).trans rfl
@[simp] theorem admitAll_clips (s : State) : (s.admitAll).clips = s.clips := (congrArg State.clips (admitAll_only s)).trans rfl
@[simp] theorem admitAll_stopped (s : State) : (s.admitAll).stopped = s.stopped := (congrArg State.stopped (admitAll_only s)).trans rfl
@[simp] theorem admitAll_ring (s : State) : (s.admitAll).ring = s.ring := (congrArg State.ring (admitAll_only s)).trans rfl
@[simp] theorem admitAll_line (s : State) : (s.admitAll).line = s.line := (congrArg State.line (admitAll_only s)).trans rfl
@[simp] theorem admitAll_env (s : State) : (s.admitAll).env = s.env := (congrArg State.env (admitAll_only s)).trans rfl
@[simp] theorem admitAll_obs (s : State) : (s.admitAll).obs = s.obs := (congrArg State.obs (admitAll_only s)).trans rfl

theorem visit_only (m : Mix) (v : Nat) :
    (visit m v).s = { m.s with irqPend := ((visit m v).s).irqPend, voices := ((visit m v).s).voices, stopped := ((visit m v).s).stopped, ring := ((visit m v).s).ring } := by
  unfold visit; dsimp only; split
  all_goals first | rfl | (apply State.ext_fields <;> simp)

@[simp] theorem visit_cfg (m : Mix) (v : Nat) : ((visit m v).s).cfg = m.s.cfg := (congrArg State.cfg (visit_only m v)).trans rfl
@[simp] theorem visit_cur (m : Mix) (v : Nat) : ((visit m v).s).cur = m.s.cur := (congrArg State.cur (visit_only m v)).trans rfl
@[simp] theorem visit_arg0 (m : Mix) (v : Nat) : ((visit m v).s).arg0 = m.s.arg0 := (congrArg State.arg0 (visit_only m v)).trans rfl
@[simp] theorem visit_arg1 (m : Mix) (v : Nat) : ((visit m v).s).arg1 = m.s.arg1 := (congrArg State.arg1 (visit_only m v)).trans rfl
@[simp] theorem visit_result (m : Mix) (v : Nat) : ((visit m v).s).result = m.s.result := (congrArg State.result (visit_only m v)).trans rfl
@[simp] theorem visit_err (m : Mix) (v : Nat) : ((visit m v).s).err = m.s.err := (congrArg State.err (visit_only m v)).trans rfl
@[simp] theorem visit_irqEn (m : Mix) (v : Nat) : ((visit m v).s).irqEn = m.s.irqEn := (congrArg State.irqEn (visit_only m v)).trans rfl
@[simp] theorem visit_flags (m : Mix) (v : Nat) : ((visit m v).s).flags = m.s.flags := (congrArg State.flags (visit_only m v)).trans rfl
@[simp] theorem visit_counters (m : Mix) (v : Nat) : ((visit m v).s).counters = m.s.counters := (congrArg State.counters (visit_only m v)).trans rfl
@[simp] theorem visit_stream (m : Mix) (v : Nat) : ((visit m v).s).stream = m.s.stream := (congrArg State.stream (visit_only m v)).trans rfl
@[simp] theorem visit_frame (m : Mix) (v : Nat) : ((visit m v).s).frame = m.s.frame := (congrArg State.frame (visit_only m v)).trans rfl
@[simp] theorem visit_hdr (m : Mix) (v : Nat) : ((visit m v).s).hdr = m.s.hdr := (congrArg State.hdr (visit_only m v)).trans rfl
@[simp] theorem visit_vbr (m : Mix) (v : Nat) : ((visit m v).s).vbr = m.s.vbr := (congrArg State.vbr (visit_only m v)).trans rfl
@[simp] theorem visit_dec (m : Mix) (v : Nat) : ((visit m v).s).dec = m.s.dec := (congrArg State.dec (visit_only m v)).trans rfl
@[simp] theorem visit_sink (m : Mix) (v : Nat) : ((visit m v).s).sink = m.s.sink := (congrArg State.sink (visit_only m v)).trans rfl
@[simp] theorem visit_clips (m : Mix) (v : Nat) : ((visit m v).s).clips = m.s.clips := (congrArg State.clips (visit_only m v)).trans rfl
@[simp] theorem visit_mixer (m : Mix) (v : Nat) : ((visit m v).s).mixer = m.s.mixer := (congrArg State.mixer (visit_only m v)).trans rfl
@[simp] theorem visit_line (m : Mix) (v : Nat) : ((visit m v).s).line = m.s.line := (congrArg State.line (visit_only m v)).trans rfl
@[simp] theorem visit_env (m : Mix) (v : Nat) : ((visit m v).s).env = m.s.env := (congrArg State.env (visit_only m v)).trans rfl
@[simp] theorem visit_obs (m : Mix) (v : Nat) : ((visit m v).s).obs = m.s.obs := (congrArg State.obs (visit_only m v)).trans rfl

theorem foldl_visit_only (vs : List Nat) (m : Mix) :
    (vs.foldl visit m).s = { m.s with
      voices := (vs.foldl visit m).s.voices, ring := (vs.foldl visit m).s.ring
      stopped := (vs.foldl visit m).s.stopped, irqPend := (vs.foldl visit m).s.irqPend } := by
  induction vs generalizing m with
  | nil => rfl
  | cons v vs ih =>
    rw [List.foldl_cons, ih]
    apply State.ext_fields <;> simp

theorem visits_only (s : State) :
    s.visits.s = { s with irqPend := (s.visits.s).irqPend, voices := (s.visits.s).voices, stopped := (s.visits.s).stopped, ring := (s.visits.s).ring } := by
  exact foldl_visit_only _ _

@[simp] theorem visits_cfg (s : State) : (s.visits.s).cfg = s.cfg := (congrArg State.cfg (visits_only s)).trans rfl
@[simp] theorem visits_cur (s : State) : (s.visits.s).cur = s.cur := (congrArg State.cur (visits_only s)).trans rfl
@[simp] theorem visits_arg0 (s : State) : (s.visits.s).arg0 = s.arg0 := (congrArg State.arg0 (visits_only s)).trans rfl
@[simp] theorem visits_arg1 (s : State) : (s.visits.s).arg1 = s.arg1 := (congrArg State.arg1 (visits_only s)).trans rfl
@[simp] theorem visits_result (s : State) : (s.visits.s).result = s.result := (congrArg State.result (visits_only s)).trans rfl
@[simp] theorem visits_err (s : State) : (s.visits.s).err = s.err := (congrArg State.err (visits_only s)).trans rfl
@[simp] theorem visits_irqEn (s : State) : (s.visits.s).irqEn = s.irqEn := (congrArg State.irqEn (visits_only s)).trans rfl
@[simp] theorem visits_flags (s : State) : (s.visits.s).flags = s.flags := (congrArg State.flags (visits_only s)).trans rfl
@[simp] theorem visits_counters (s : State) : (s.visits.s).counters = s.counters := (congrArg State.counters (visits_only s)).trans rfl
@[simp] theorem visits_stream (s : State) : (s.visits.s).stream = s.stream := (congrArg State.stream (visits_only s)).trans rfl
@[simp] theorem visits_frame (s : State) : (s.visits.s).frame = s.frame := (congrArg State.frame (visits_only s)).trans rfl
@[simp] theorem visits_hdr (s : State) : (s.visits.s).hdr = s.hdr := (congrArg State.hdr (visits_only s)).trans rfl
@[simp] theorem visits_vbr (s : State) : (s.visits.s).vbr = s.vbr := (congrArg State.vbr (visits_only s)).trans rfl
@[simp] theorem visits_dec (s : State) : (s.visits.s).dec = s.dec := (congrArg State.dec (visits_only s)).trans rfl
@[simp] theorem visits_sink (s : State) : (s.visits.s).sink = s.sink := (congrArg State.sink (visits_only s)).trans rfl
@[simp] theorem visits_clips (s : State) : (s.visits.s).clips = s.clips := (congrArg State.clips (visits_only s)).trans rfl
@[simp] theorem visits_mixer (s : State) : (s.visits.s).mixer = s.mixer := (congrArg State.mixer (visits_only s)).trans rfl
@[simp] theorem visits_line (s : State) : (s.visits.s).line = s.line := (congrArg State.line (visits_only s)).trans rfl
@[simp] theorem visits_env (s : State) : (s.visits.s).env = s.env := (congrArg State.env (visits_only s)).trans rfl
@[simp] theorem visits_obs (s : State) : (s.visits.s).obs = s.obs := (congrArg State.obs (visits_only s)).trans rfl

theorem removeInUse_only (vs : List Nat) (s : State) :
    s.removeInUse vs = { s with irqPend := (s.removeInUse vs).irqPend, voices := (s.removeInUse vs).voices, stopped := (s.removeInUse vs).stopped, ring := (s.removeInUse vs).ring } := by
  unfold State.removeInUse
  induction vs generalizing s with
  | nil => rfl
  | cons v vs ih =>
    rw [List.foldl_cons, ih]
    split <;> rfl

@[simp] theorem removeInUse_cfg (vs : List Nat) (s : State) : (s.removeInUse vs).cfg = s.cfg := (congrArg State.cfg (removeInUse_only vs s)).trans rfl
@[simp] theorem removeInUse_cur (vs : List Nat) (s : State) : (s.removeInUse vs).cur = s.cur := (congrArg State.cur (removeInUse_only vs s)).trans rfl
@[simp] theorem removeInUse_arg0 (vs : List Nat) (s : State) : (s.removeInUse vs).arg0 = s.arg0 := (congrArg State.arg0 (removeInUse_only vs s)).trans rfl
@[simp] theorem removeInUse_arg1 (vs : List Nat) (s : State) : (s.removeInUse vs).arg1 = s.arg1 := (congrArg State.arg1 (removeInUse_only vs s)).trans rfl
@[simp] theorem removeInUse_result (vs : List Nat) (s : State) : (s.removeInUse vs).result = s.result := (congrArg State.result (removeInUse_only vs s)).trans rfl
@[simp] theorem removeInUse_err (vs : List Nat) (s : State) : (s.removeInUse vs).err = s.err := (congrArg State.err (removeInUse_only vs s)).trans rfl
@[simp] theorem removeInUse_irqEn (vs : List Nat) (s : State) : (s.removeInUse vs).irqEn = s.irqEn := (congrArg State.irqEn (removeInUse_only vs s)).trans rfl
@[simp] theorem removeInUse_flags (vs : List Nat) (s : State) : (s.removeInUse vs).flags = s.flags := (congrArg State.flags (removeInUse_only vs s)).trans rfl
@[simp] theorem removeInUse_counters (vs : List Nat) (s : State) : (s.removeInUse vs).counters = s.counters := (congrArg State.counters (removeInUse_only vs s)).trans rfl
@[simp] theorem removeInUse_stream (vs : List Nat) (s : State) : (s.removeInUse vs).stream = s.stream := (congrArg State.stream (removeInUse_only vs s)).trans rfl
@[simp] theorem removeInUse_frame (vs : List Nat) (s : State) : (s.removeInUse vs).frame = s.frame := (congrArg State.frame (removeInUse_only vs s)).trans rfl
@[simp] theorem removeInUse_hdr (vs : List Nat) (s : State) : (s.removeInUse vs).hdr = s.hdr := (congrArg State.hdr (removeInUse_only vs s)).trans rfl
@[simp] theorem removeInUse_vbr (vs : List Nat) (s : State) : (s.removeInUse vs).vbr = s.vbr := (congrArg State.vbr (removeInUse_only vs s)).trans rfl
@[simp] theorem removeInUse_dec (vs : List Nat) (s : State) : (s.removeInUse vs).dec = s.dec := (congrArg State.dec (removeInUse_only vs s)).trans rfl
@[simp] theorem removeInUse_sink (vs : List Nat) (s : State) : (s.removeInUse vs).sink = s.sink := (congrArg State.sink (removeInUse_only vs s)).trans rfl
@[simp] theorem removeInUse_clips (vs : List Nat) (s : State) : (s.removeInUse vs).clips = s.clips := (congrArg State.clips (removeInUse_only vs s)).trans rfl
@[simp] theorem removeInUse_mixer (vs : List Nat) (s : State) : (s.removeInUse vs).mixer = s.mixer := (congrArg State.mixer (removeInUse_only vs s)).trans rfl
@[simp] theorem removeInUse_line (vs : List Nat) (s : State) : (s.removeInUse vs).line = s.line := (congrArg State.line (removeInUse_only vs s)).trans rfl
@[simp] theorem removeInUse_env (vs : List Nat) (s : State) : (s.removeInUse vs).env = s.env := (congrArg State.env (removeInUse_only vs s)).trans rfl
@[simp] theorem removeInUse_obs (vs : List Nat) (s : State) : (s.removeInUse vs).obs = s.obs := (congrArg State.obs (removeInUse_only vs s)).trans rfl

theorem emit_only (acc : List (Int × Int)) (vs : List Nat) (s : State) :
    s.emit acc vs = { s with err := (s.emit acc vs).err, irqPend := (s.emit acc vs).irqPend, counters := (s.emit acc vs).counters, voices := (s.emit acc vs).voices, stopped := (s.emit acc vs).stopped, ring := (s.emit acc vs).ring, line := (s.emit acc vs).line, obs := (s.emit acc vs).obs } := by
  unfold State.emit; dsimp only; split
  all_goals (apply State.ext_fields <;> simp)

@[simp] theorem emit_cfg (acc : List (Int × Int)) (vs : List Nat) (s : State) : (s.emit acc vs).cfg = s.cfg := (congrArg State.cfg (emit_only acc vs s)).trans rfl
@[simp] theorem emit_cur (acc : List (Int × Int)) (vs : List Nat) (s : State) : (s.emit acc vs).cur = s.cur := (congrArg State.cur (emit_only acc vs s)).trans rfl
@[simp] theorem emit_arg0 (acc : List (Int × Int)) (vs : List Nat) (s : State) : (s.emit acc vs).arg0 = s.arg0 := (congrArg State.arg0 (emit_only acc vs s)).trans rfl
@[simp] theorem emit_arg1 (acc : List (Int × Int)) (vs : List Nat) (s : State) : (s.emit acc vs).arg1 = s.arg1 := (congrArg State.arg1 (emit_only acc vs s)).trans rfl
@[simp] theorem emit_result (acc : List (Int × Int)) (vs : List Nat) (s : State) : (s.emit acc vs).result = s.result := (congrArg State.result (emit_only acc vs s)).trans rfl
@[simp] theorem emit_irqEn (acc : List (Int × Int)) (vs : List Nat) (s : State) : (s.emit acc vs).irqEn = s.irqEn := (congrArg State.irqEn (emit_only acc vs s)).trans rfl
@[simp] theorem emit_flags (acc : List (Int × Int)) (vs : List Nat) (s : State) : (s.emit acc vs).flags = s.flags := (congrArg State.flags (emit_only acc vs s)).trans rfl
@[simp] theorem emit_stream (acc : List (Int × Int)) (vs : List Nat) (s : State) : (s.emit acc vs).stream = s.stream := (congrArg State.stream (emit_only acc vs s)).trans rfl
@[simp] theorem emit_frame (acc : List (Int × Int)) (vs : List Nat) (s : State) : (s.emit acc vs).frame = s.frame := (congrArg State.frame (emit_only acc vs s)).trans rfl
@[simp] theorem emit_hdr (acc : List (Int × Int)) (vs : List Nat) (s : State) : (s.emit acc vs).hdr = s.hdr := (congrArg State.hdr (emit_only acc vs s)).trans rfl
@[simp] theorem emit_vbr (acc : List (Int × Int)) (vs : List Nat) (s : State) : (s.emit acc vs).vbr = s.vbr := (congrArg State.vbr (emit_only acc vs s)).trans rfl
@[simp] theorem emit_dec (acc : List (Int × Int)) (vs : List Nat) (s : State) : (s.emit acc vs).dec = s.dec := (congrArg State.dec (emit_only acc vs s)).trans rfl
@[simp] theorem emit_sink (acc : List (Int × Int)) (vs : List Nat) (s : State) : (s.emit acc vs).sink = s.sink := (congrArg State.sink (emit_only acc vs s)).trans rfl
@[simp] theorem emit_clips (acc : List (Int × Int)) (vs : List Nat) (s : State) : (s.emit acc vs).clips = s.clips := (congrArg State.clips (emit_only acc vs s)).trans rfl
@[simp] theorem emit_mixer (acc : List (Int × Int)) (vs : List Nat) (s : State) : (s.emit acc vs).mixer = s.mixer := (congrArg State.mixer (emit_only acc vs s)).trans rfl
@[simp] theorem emit_env (acc : List (Int × Int)) (vs : List Nat) (s : State) : (s.emit acc vs).env = s.env := (congrArg State.env (emit_only acc vs s)).trans rfl

theorem tick_only (s : State) :
    s.tick = { s with err := (s.tick).err, irqPend := (s.tick).irqPend, counters := (s.tick).counters, voices := (s.tick).voices, stopped := (s.tick).stopped, ring := (s.tick).ring, mixer := (s.tick).mixer, line := (s.tick).line, obs := (s.tick).obs } := by
  unfold State.tick; dsimp only; split
  all_goals (apply State.ext_fields <;> simp)

@[simp] theorem tick_cfg (s : State) : (s.tick).cfg = s.cfg := (congrArg State.cfg (tick_only s)).trans rfl
@[simp] theorem tick_cur (s : State) : (s.tick).cur = s.cur := (congrArg State.cur (tick_only s)).trans rfl
@[simp] theorem tick_arg0 (s : State) : (s.tick).arg0 = s.arg0 := (congrArg State.arg0 (tick_only s)).trans rfl
@[simp] theorem tick_arg1 (s : State) : (s.tick).arg1 = s.arg1 := (congrArg State.arg1 (tick_only s)).trans rfl
@[simp] theorem tick_result (s : State) : (s.tick).result = s.result := (congrArg State.result (tick_only s)).trans rfl
@[simp] theorem tick_irqEn (s : State) : (s.tick).irqEn = s.irqEn := (congrArg State.irqEn (tick_only s)).trans rfl
@[simp] theorem tick_flags (s : State) : (s.tick).flags = s.flags := (congrArg State.flags (tick_only s)).trans rfl
@[simp] theorem tick_stream (s : State) : (s.tick).stream = s.stream := (congrArg State.stream (tick_only s)).trans rfl
@[simp] theorem tick_frame (s : State) : (s.tick).frame = s.frame := (congrArg State.frame (tick_only s)).trans rfl
@[simp] theorem tick_hdr (s : State) : (s.tick).hdr = s.hdr := (congrArg State.hdr (tick_only s)).trans rfl
@[simp] theorem tick_vbr (s : State) : (s.tick).vbr = s.vbr := (congrArg State.vbr (tick_only s)).trans rfl
@[simp] theorem tick_dec (s : State) : (s.tick).dec = s.dec := (congrArg State.dec (tick_only s)).trans rfl
@[simp] theorem tick_sink (s : State) : (s.tick).sink = s.sink := (congrArg State.sink (tick_only s)).trans rfl
@[simp] theorem tick_clips (s : State) : (s.tick).clips = s.clips := (congrArg State.clips (tick_only s)).trans rfl
@[simp] theorem tick_env (s : State) : (s.tick).env = s.env := (congrArg State.env (tick_only s)).trans rfl

theorem lineTurn_only (s : State) :
    s.lineTurn = { s with line := (s.lineTurn).line, obs := (s.lineTurn).obs } := by
  unfold State.lineTurn; repeat' split
  all_goals rfl

@[simp] theorem lineTurn_cfg (s : State) : (s.lineTurn).cfg = s.cfg := (congrArg State.cfg (lineTurn_only s)).trans rfl
@[simp] theorem lineTurn_cur (s : State) : (s.lineTurn).cur = s.cur := (congrArg State.cur (lineTurn_only s)).trans rfl
@[simp] theorem lineTurn_arg0 (s : State) : (s.lineTurn).arg0 = s.arg0 := (congrArg State.arg0 (lineTurn_only s)).trans rfl
@[simp] theorem lineTurn_arg1 (s : State) : (s.lineTurn).arg1 = s.arg1 := (congrArg State.arg1 (lineTurn_only s)).trans rfl
@[simp] theorem lineTurn_result (s : State) : (s.lineTurn).result = s.result := (congrArg State.result (lineTurn_only s)).trans rfl
@[simp] theorem lineTurn_err (s : State) : (s.lineTurn).err = s.err := (congrArg State.err (lineTurn_only s)).trans rfl
@[simp] theorem lineTurn_irqEn (s : State) : (s.lineTurn).irqEn = s.irqEn := (congrArg State.irqEn (lineTurn_only s)).trans rfl
@[simp] theorem lineTurn_irqPend (s : State) : (s.lineTurn).irqPend = s.irqPend := (congrArg State.irqPend (lineTurn_only s)).trans rfl
@[simp] theorem lineTurn_flags (s : State) : (s.lineTurn).flags = s.flags := (congrArg State.flags (lineTurn_only s)).trans rfl
@[simp] theorem lineTurn_counters (s : State) : (s.lineTurn).counters = s.counters := (congrArg State.counters (lineTurn_only s)).trans rfl
@[simp] theorem lineTurn_stream (s : State) : (s.lineTurn).stream = s.stream := (congrArg State.stream (lineTurn_only s)).trans rfl
@[simp] theorem lineTurn_frame (s : State) : (s.lineTurn).frame = s.frame := (congrArg State.frame (lineTurn_only s)).trans rfl
@[simp] theorem lineTurn_hdr (s : State) : (s.lineTurn).hdr = s.hdr := (congrArg State.hdr (lineTurn_only s)).trans rfl
@[simp] theorem lineTurn_vbr (s : State) : (s.lineTurn).vbr = s.vbr := (congrArg State.vbr (lineTurn_only s)).trans rfl
@[simp] theorem lineTurn_dec (s : State) : (s.lineTurn).dec = s.dec := (congrArg State.dec (lineTurn_only s)).trans rfl
@[simp] theorem lineTurn_sink (s : State) : (s.lineTurn).sink = s.sink := (congrArg State.sink (lineTurn_only s)).trans rfl
@[simp] theorem lineTurn_clips (s : State) : (s.lineTurn).clips = s.clips := (congrArg State.clips (lineTurn_only s)).trans rfl
@[simp] theorem lineTurn_voices (s : State) : (s.lineTurn).voices = s.voices := (congrArg State.voices (lineTurn_only s)).trans rfl
@[simp] theorem lineTurn_stopped (s : State) : (s.lineTurn).stopped = s.stopped := (congrArg State.stopped (lineTurn_only s)).trans rfl
@[simp] theorem lineTurn_ring (s : State) : (s.lineTurn).ring = s.ring := (congrArg State.ring (lineTurn_only s)).trans rfl
@[simp] theorem lineTurn_mixer (s : State) : (s.lineTurn).mixer = s.mixer := (congrArg State.mixer (lineTurn_only s)).trans rfl
@[simp] theorem lineTurn_env (s : State) : (s.lineTurn).env = s.env := (congrArg State.env (lineTurn_only s)).trans rfl

theorem mixerTurn_only (s : State) :
    s.mixerTurn = { s with err := (s.mixerTurn).err, irqPend := (s.mixerTurn).irqPend, counters := (s.mixerTurn).counters, voices := (s.mixerTurn).voices, stopped := (s.mixerTurn).stopped, ring := (s.mixerTurn).ring, mixer := (s.mixerTurn).mixer, line := (s.mixerTurn).line, obs := (s.mixerTurn).obs } := by
  unfold State.mixerTurn; split
  · exact tick_only s
  · rfl

@[simp] theorem mixerTurn_cfg (s : State) : (s.mixerTurn).cfg = s.cfg := (congrArg State.cfg (mixerTurn_only s)).trans rfl
@[simp] theorem mixerTurn_cur (s : State) : (s.mixerTurn).cur = s.cur := (congrArg State.cur (mixerTurn_only s)).trans rfl
@[simp] theorem mixerTurn_arg0 (s : State) : (s.mixerTurn).arg0 = s.arg0 := (congrArg State.arg0 (mixerTurn_only s)).trans rfl
@[simp] theorem mixerTurn_arg1 (s : State) : (s.mixerTurn).arg1 = s.arg1 := (congrArg State.arg1 (mixerTurn_only s)).trans rfl
@[simp] theorem mixerTurn_result (s : State) : (s.mixerTurn).result = s.result := (congrArg State.result (mixerTurn_only s)).trans rfl
@[simp] theorem mixerTurn_irqEn (s : State) : (s.mixerTurn).irqEn = s.irqEn := (congrArg State.irqEn (mixerTurn_only s)).trans rfl
@[simp] theorem mixerTurn_flags (s : State) : (s.mixerTurn).flags = s.flags := (congrArg State.flags (mixerTurn_only s)).trans rfl
@[simp] theorem mixerTurn_stream (s : State) : (s.mixerTurn).stream = s.stream := (congrArg State.stream (mixerTurn_only s)).trans rfl
@[simp] theorem mixerTurn_frame (s : State) : (s.mixerTurn).frame = s.frame := (congrArg State.frame (mixerTurn_only s)).trans rfl
@[simp] theorem mixerTurn_hdr (s : State) : (s.mixerTurn).hdr = s.hdr := (congrArg State.hdr (mixerTurn_only s)).trans rfl
@[simp] theorem mixerTurn_vbr (s : State) : (s.mixerTurn).vbr = s.vbr := (congrArg State.vbr (mixerTurn_only s)).trans rfl
@[simp] theorem mixerTurn_dec (s : State) : (s.mixerTurn).dec = s.dec := (congrArg State.dec (mixerTurn_only s)).trans rfl
@[simp] theorem mixerTurn_sink (s : State) : (s.mixerTurn).sink = s.sink := (congrArg State.sink (mixerTurn_only s)).trans rfl
@[simp] theorem mixerTurn_clips (s : State) : (s.mixerTurn).clips = s.clips := (congrArg State.clips (mixerTurn_only s)).trans rfl
@[simp] theorem mixerTurn_env (s : State) : (s.mixerTurn).env = s.env := (congrArg State.env (mixerTurn_only s)).trans rfl

theorem readEffect_only (r : Reg) (s : State) :
    s.readEffect r = { s with err := (s.readEffect r).err, irqPend := (s.readEffect r).irqPend, sink := (s.readEffect r).sink, clips := (s.readEffect r).clips } := by
  unfold State.readEffect; repeat' split
  all_goals rfl

@[simp] theorem readEffect_cfg (r : Reg) (s : State) : (s.readEffect r).cfg = s.cfg := (congrArg State.cfg (readEffect_only r s)).trans rfl
@[simp] theorem readEffect_cur (r : Reg) (s : State) : (s.readEffect r).cur = s.cur := (congrArg State.cur (readEffect_only r s)).trans rfl
@[simp] theorem readEffect_arg0 (r : Reg) (s : State) : (s.readEffect r).arg0 = s.arg0 := (congrArg State.arg0 (readEffect_only r s)).trans rfl
@[simp] theorem readEffect_arg1 (r : Reg) (s : State) : (s.readEffect r).arg1 = s.arg1 := (congrArg State.arg1 (readEffect_only r s)).trans rfl
@[simp] theorem readEffect_result (r : Reg) (s : State) : (s.readEffect r).result = s.result := (congrArg State.result (readEffect_only r s)).trans rfl
@[simp] theorem readEffect_irqEn (r : Reg) (s : State) : (s.readEffect r).irqEn = s.irqEn := (congrArg State.irqEn (readEffect_only r s)).trans rfl
@[simp] theorem readEffect_flags (r : Reg) (s : State) : (s.readEffect r).flags = s.flags := (congrArg State.flags (readEffect_only r s)).trans rfl
@[simp] theorem readEffect_counters (r : Reg) (s : State) : (s.readEffect r).counters = s.counters := (congrArg State.counters (readEffect_only r s)).trans rfl
@[simp] theorem readEffect_stream (r : Reg) (s : State) : (s.readEffect r).stream = s.stream := (congrArg State.stream (readEffect_only r s)).trans rfl
@[simp] theorem readEffect_frame (r : Reg) (s : State) : (s.readEffect r).frame = s.frame := (congrArg State.frame (readEffect_only r s)).trans rfl
@[simp] theorem readEffect_hdr (r : Reg) (s : State) : (s.readEffect r).hdr = s.hdr := (congrArg State.hdr (readEffect_only r s)).trans rfl
@[simp] theorem readEffect_vbr (r : Reg) (s : State) : (s.readEffect r).vbr = s.vbr := (congrArg State.vbr (readEffect_only r s)).trans rfl
@[simp] theorem readEffect_dec (r : Reg) (s : State) : (s.readEffect r).dec = s.dec := (congrArg State.dec (readEffect_only r s)).trans rfl
@[simp] theorem readEffect_voices (r : Reg) (s : State) : (s.readEffect r).voices = s.voices := (congrArg State.voices (readEffect_only r s)).trans rfl
@[simp] theorem readEffect_stopped (r : Reg) (s : State) : (s.readEffect r).stopped = s.stopped := (congrArg State.stopped (readEffect_only r s)).trans rfl
@[simp] theorem readEffect_ring (r : Reg) (s : State) : (s.readEffect r).ring = s.ring := (congrArg State.ring (readEffect_only r s)).trans rfl
@[simp] theorem readEffect_mixer (r : Reg) (s : State) : (s.readEffect r).mixer = s.mixer := (congrArg State.mixer (readEffect_only r s)).trans rfl
@[simp] theorem readEffect_line (r : Reg) (s : State) : (s.readEffect r).line = s.line := (congrArg State.line (readEffect_only r s)).trans rfl
@[simp] theorem readEffect_env (r : Reg) (s : State) : (s.readEffect r).env = s.env := (congrArg State.env (readEffect_only r s)).trans rfl
@[simp] theorem readEffect_obs (r : Reg) (s : State) : (s.readEffect r).obs = s.obs := (congrArg State.obs (readEffect_only r s)).trans rfl

theorem hostRead_only (a : BitVec 13) (w : AccessWidth) (s : State) :
    s.hostRead a w = { s with err := (s.hostRead a w).err, irqPend := (s.hostRead a w).irqPend, sink := (s.hostRead a w).sink, clips := (s.hostRead a w).clips, obs := (s.hostRead a w).obs } := by
  unfold State.hostRead; split
  · rfl
  · apply State.ext_fields <;> simp

@[simp] theorem hostRead_cfg (a : BitVec 13) (w : AccessWidth) (s : State) : (s.hostRead a w).cfg = s.cfg := (congrArg State.cfg (hostRead_only a w s)).trans rfl
@[simp] theorem hostRead_cur (a : BitVec 13) (w : AccessWidth) (s : State) : (s.hostRead a w).cur = s.cur := (congrArg State.cur (hostRead_only a w s)).trans rfl
@[simp] theorem hostRead_arg0 (a : BitVec 13) (w : AccessWidth) (s : State) : (s.hostRead a w).arg0 = s.arg0 := (congrArg State.arg0 (hostRead_only a w s)).trans rfl
@[simp] theorem hostRead_arg1 (a : BitVec 13) (w : AccessWidth) (s : State) : (s.hostRead a w).arg1 = s.arg1 := (congrArg State.arg1 (hostRead_only a w s)).trans rfl
@[simp] theorem hostRead_result (a : BitVec 13) (w : AccessWidth) (s : State) : (s.hostRead a w).result = s.result := (congrArg State.result (hostRead_only a w s)).trans rfl
@[simp] theorem hostRead_irqEn (a : BitVec 13) (w : AccessWidth) (s : State) : (s.hostRead a w).irqEn = s.irqEn := (congrArg State.irqEn (hostRead_only a w s)).trans rfl
@[simp] theorem hostRead_flags (a : BitVec 13) (w : AccessWidth) (s : State) : (s.hostRead a w).flags = s.flags := (congrArg State.flags (hostRead_only a w s)).trans rfl
@[simp] theorem hostRead_counters (a : BitVec 13) (w : AccessWidth) (s : State) : (s.hostRead a w).counters = s.counters := (congrArg State.counters (hostRead_only a w s)).trans rfl
@[simp] theorem hostRead_stream (a : BitVec 13) (w : AccessWidth) (s : State) : (s.hostRead a w).stream = s.stream := (congrArg State.stream (hostRead_only a w s)).trans rfl
@[simp] theorem hostRead_frame (a : BitVec 13) (w : AccessWidth) (s : State) : (s.hostRead a w).frame = s.frame := (congrArg State.frame (hostRead_only a w s)).trans rfl
@[simp] theorem hostRead_hdr (a : BitVec 13) (w : AccessWidth) (s : State) : (s.hostRead a w).hdr = s.hdr := (congrArg State.hdr (hostRead_only a w s)).trans rfl
@[simp] theorem hostRead_vbr (a : BitVec 13) (w : AccessWidth) (s : State) : (s.hostRead a w).vbr = s.vbr := (congrArg State.vbr (hostRead_only a w s)).trans rfl
@[simp] theorem hostRead_dec (a : BitVec 13) (w : AccessWidth) (s : State) : (s.hostRead a w).dec = s.dec := (congrArg State.dec (hostRead_only a w s)).trans rfl
@[simp] theorem hostRead_voices (a : BitVec 13) (w : AccessWidth) (s : State) : (s.hostRead a w).voices = s.voices := (congrArg State.voices (hostRead_only a w s)).trans rfl
@[simp] theorem hostRead_stopped (a : BitVec 13) (w : AccessWidth) (s : State) : (s.hostRead a w).stopped = s.stopped := (congrArg State.stopped (hostRead_only a w s)).trans rfl
@[simp] theorem hostRead_ring (a : BitVec 13) (w : AccessWidth) (s : State) : (s.hostRead a w).ring = s.ring := (congrArg State.ring (hostRead_only a w s)).trans rfl
@[simp] theorem hostRead_mixer (a : BitVec 13) (w : AccessWidth) (s : State) : (s.hostRead a w).mixer = s.mixer := (congrArg State.mixer (hostRead_only a w s)).trans rfl
@[simp] theorem hostRead_line (a : BitVec 13) (w : AccessWidth) (s : State) : (s.hostRead a w).line = s.line := (congrArg State.line (hostRead_only a w s)).trans rfl
@[simp] theorem hostRead_env (a : BitVec 13) (w : AccessWidth) (s : State) : (s.hostRead a w).env = s.env := (congrArg State.env (hostRead_only a w s)).trans rfl

theorem pushByte_only (b : Byte) (s : State) :
    s.pushByte b = { s with err := (s.pushByte b).err, irqPend := (s.pushByte b).irqPend, stream := (s.pushByte b).stream } := by
  unfold State.pushByte; repeat' split
  all_goals rfl

@[simp] theorem pushByte_cfg (b : Byte) (s : State) : (s.pushByte b).cfg = s.cfg := (congrArg State.cfg (pushByte_only b s)).trans rfl
@[simp] theorem pushByte_cur (b : Byte) (s : State) : (s.pushByte b).cur = s.cur := (congrArg State.cur (pushByte_only b s)).trans rfl
@[simp] theorem pushByte_arg0 (b : Byte) (s : State) : (s.pushByte b).arg0 = s.arg0 := (congrArg State.arg0 (pushByte_only b s)).trans rfl
@[simp] theorem pushByte_arg1 (b : Byte) (s : State) : (s.pushByte b).arg1 = s.arg1 := (congrArg State.arg1 (pushByte_only b s)).trans rfl
@[simp] theorem pushByte_result (b : Byte) (s : State) : (s.pushByte b).result = s.result := (congrArg State.result (pushByte_only b s)).trans rfl
@[simp] theorem pushByte_irqEn (b : Byte) (s : State) : (s.pushByte b).irqEn = s.irqEn := (congrArg State.irqEn (pushByte_only b s)).trans rfl
@[simp] theorem pushByte_flags (b : Byte) (s : State) : (s.pushByte b).flags = s.flags := (congrArg State.flags (pushByte_only b s)).trans rfl
@[simp] theorem pushByte_counters (b : Byte) (s : State) : (s.pushByte b).counters = s.counters := (congrArg State.counters (pushByte_only b s)).trans rfl
@[simp] theorem pushByte_frame (b : Byte) (s : State) : (s.pushByte b).frame = s.frame := (congrArg State.frame (pushByte_only b s)).trans rfl
@[simp] theorem pushByte_hdr (b : Byte) (s : State) : (s.pushByte b).hdr = s.hdr := (congrArg State.hdr (pushByte_only b s)).trans rfl
@[simp] theorem pushByte_vbr (b : Byte) (s : State) : (s.pushByte b).vbr = s.vbr := (congrArg State.vbr (pushByte_only b s)).trans rfl
@[simp] theorem pushByte_dec (b : Byte) (s : State) : (s.pushByte b).dec = s.dec := (congrArg State.dec (pushByte_only b s)).trans rfl
@[simp] theorem pushByte_sink (b : Byte) (s : State) : (s.pushByte b).sink = s.sink := (congrArg State.sink (pushByte_only b s)).trans rfl
@[simp] theorem pushByte_clips (b : Byte) (s : State) : (s.pushByte b).clips = s.clips := (congrArg State.clips (pushByte_only b s)).trans rfl
@[simp] theorem pushByte_voices (b : Byte) (s : State) : (s.pushByte b).voices = s.voices := (congrArg State.voices (pushByte_only b s)).trans rfl
@[simp] theorem pushByte_stopped (b : Byte) (s : State) : (s.pushByte b).stopped = s.stopped := (congrArg State.stopped (pushByte_only b s)).trans rfl
@[simp] theorem pushByte_ring (b : Byte) (s : State) : (s.pushByte b).ring = s.ring := (congrArg State.ring (pushByte_only b s)).trans rfl
@[simp] theorem pushByte_mixer (b : Byte) (s : State) : (s.pushByte b).mixer = s.mixer := (congrArg State.mixer (pushByte_only b s)).trans rfl
@[simp] theorem pushByte_line (b : Byte) (s : State) : (s.pushByte b).line = s.line := (congrArg State.line (pushByte_only b s)).trans rfl
@[simp] theorem pushByte_env (b : Byte) (s : State) : (s.pushByte b).env = s.env := (congrArg State.env (pushByte_only b s)).trans rfl
@[simp] theorem pushByte_obs (b : Byte) (s : State) : (s.pushByte b).obs = s.obs := (congrArg State.obs (pushByte_only b s)).trans rfl

theorem clipDataWrite_only (x : Sample) (s : State) :
    s.clipDataWrite x = { s with err := (s.clipDataWrite x).err, irqPend := (s.clipDataWrite x).irqPend, clips := (s.clipDataWrite x).clips } := by
  unfold State.clipDataWrite; dsimp only; repeat' split
  all_goals rfl

@[simp] theorem clipDataWrite_cfg (x : Sample) (s : State) : (s.clipDataWrite x).cfg = s.cfg := (congrArg State.cfg (clipDataWrite_only x s)).trans rfl
@[simp] theorem clipDataWrite_cur (x : Sample) (s : State) : (s.clipDataWrite x).cur = s.cur := (congrArg State.cur (clipDataWrite_only x s)).trans rfl
@[simp] theorem clipDataWrite_arg0 (x : Sample) (s : State) : (s.clipDataWrite x).arg0 = s.arg0 := (congrArg State.arg0 (clipDataWrite_only x s)).trans rfl
@[simp] theorem clipDataWrite_arg1 (x : Sample) (s : State) : (s.clipDataWrite x).arg1 = s.arg1 := (congrArg State.arg1 (clipDataWrite_only x s)).trans rfl
@[simp] theorem clipDataWrite_result (x : Sample) (s : State) : (s.clipDataWrite x).result = s.result := (congrArg State.result (clipDataWrite_only x s)).trans rfl
@[simp] theorem clipDataWrite_irqEn (x : Sample) (s : State) : (s.clipDataWrite x).irqEn = s.irqEn := (congrArg State.irqEn (clipDataWrite_only x s)).trans rfl
@[simp] theorem clipDataWrite_flags (x : Sample) (s : State) : (s.clipDataWrite x).flags = s.flags := (congrArg State.flags (clipDataWrite_only x s)).trans rfl
@[simp] theorem clipDataWrite_counters (x : Sample) (s : State) : (s.clipDataWrite x).counters = s.counters := (congrArg State.counters (clipDataWrite_only x s)).trans rfl
@[simp] theorem clipDataWrite_stream (x : Sample) (s : State) : (s.clipDataWrite x).stream = s.stream := (congrArg State.stream (clipDataWrite_only x s)).trans rfl
@[simp] theorem clipDataWrite_frame (x : Sample) (s : State) : (s.clipDataWrite x).frame = s.frame := (congrArg State.frame (clipDataWrite_only x s)).trans rfl
@[simp] theorem clipDataWrite_hdr (x : Sample) (s : State) : (s.clipDataWrite x).hdr = s.hdr := (congrArg State.hdr (clipDataWrite_only x s)).trans rfl
@[simp] theorem clipDataWrite_vbr (x : Sample) (s : State) : (s.clipDataWrite x).vbr = s.vbr := (congrArg State.vbr (clipDataWrite_only x s)).trans rfl
@[simp] theorem clipDataWrite_dec (x : Sample) (s : State) : (s.clipDataWrite x).dec = s.dec := (congrArg State.dec (clipDataWrite_only x s)).trans rfl
@[simp] theorem clipDataWrite_sink (x : Sample) (s : State) : (s.clipDataWrite x).sink = s.sink := (congrArg State.sink (clipDataWrite_only x s)).trans rfl
@[simp] theorem clipDataWrite_voices (x : Sample) (s : State) : (s.clipDataWrite x).voices = s.voices := (congrArg State.voices (clipDataWrite_only x s)).trans rfl
@[simp] theorem clipDataWrite_stopped (x : Sample) (s : State) : (s.clipDataWrite x).stopped = s.stopped := (congrArg State.stopped (clipDataWrite_only x s)).trans rfl
@[simp] theorem clipDataWrite_ring (x : Sample) (s : State) : (s.clipDataWrite x).ring = s.ring := (congrArg State.ring (clipDataWrite_only x s)).trans rfl
@[simp] theorem clipDataWrite_mixer (x : Sample) (s : State) : (s.clipDataWrite x).mixer = s.mixer := (congrArg State.mixer (clipDataWrite_only x s)).trans rfl
@[simp] theorem clipDataWrite_line (x : Sample) (s : State) : (s.clipDataWrite x).line = s.line := (congrArg State.line (clipDataWrite_only x s)).trans rfl
@[simp] theorem clipDataWrite_env (x : Sample) (s : State) : (s.clipDataWrite x).env = s.env := (congrArg State.env (clipDataWrite_only x s)).trans rfl
@[simp] theorem clipDataWrite_obs (x : Sample) (s : State) : (s.clipDataWrite x).obs = s.obs := (congrArg State.obs (clipDataWrite_only x s)).trans rfl

theorem regWrite_only (r : Reg) (v : Word) (s : State) :
    s.regWrite r v = { s with arg0 := (s.regWrite r v).arg0, arg1 := (s.regWrite r v).arg1, err := (s.regWrite r v).err, irqEn := (s.regWrite r v).irqEn, irqPend := (s.regWrite r v).irqPend, stream := (s.regWrite r v).stream, sink := (s.regWrite r v).sink, clips := (s.regWrite r v).clips, stopped := (s.regWrite r v).stopped } := by
  unfold State.regWrite; split
  all_goals first | rfl | (split <;> rfl) | (apply State.ext_fields <;> simp)

@[simp] theorem regWrite_cfg (r : Reg) (v : Word) (s : State) : (s.regWrite r v).cfg = s.cfg := (congrArg State.cfg (regWrite_only r v s)).trans rfl
@[simp] theorem regWrite_cur (r : Reg) (v : Word) (s : State) : (s.regWrite r v).cur = s.cur := (congrArg State.cur (regWrite_only r v s)).trans rfl
@[simp] theorem regWrite_result (r : Reg) (v : Word) (s : State) : (s.regWrite r v).result = s.result := (congrArg State.result (regWrite_only r v s)).trans rfl
@[simp] theorem regWrite_flags (r : Reg) (v : Word) (s : State) : (s.regWrite r v).flags = s.flags := (congrArg State.flags (regWrite_only r v s)).trans rfl
@[simp] theorem regWrite_counters (r : Reg) (v : Word) (s : State) : (s.regWrite r v).counters = s.counters := (congrArg State.counters (regWrite_only r v s)).trans rfl
@[simp] theorem regWrite_frame (r : Reg) (v : Word) (s : State) : (s.regWrite r v).frame = s.frame := (congrArg State.frame (regWrite_only r v s)).trans rfl
@[simp] theorem regWrite_hdr (r : Reg) (v : Word) (s : State) : (s.regWrite r v).hdr = s.hdr := (congrArg State.hdr (regWrite_only r v s)).trans rfl
@[simp] theorem regWrite_vbr (r : Reg) (v : Word) (s : State) : (s.regWrite r v).vbr = s.vbr := (congrArg State.vbr (regWrite_only r v s)).trans rfl
@[simp] theorem regWrite_dec (r : Reg) (v : Word) (s : State) : (s.regWrite r v).dec = s.dec := (congrArg State.dec (regWrite_only r v s)).trans rfl
@[simp] theorem regWrite_voices (r : Reg) (v : Word) (s : State) : (s.regWrite r v).voices = s.voices := (congrArg State.voices (regWrite_only r v s)).trans rfl
@[simp] theorem regWrite_ring (r : Reg) (v : Word) (s : State) : (s.regWrite r v).ring = s.ring := (congrArg State.ring (regWrite_only r v s)).trans rfl
@[simp] theorem regWrite_mixer (r : Reg) (v : Word) (s : State) : (s.regWrite r v).mixer = s.mixer := (congrArg State.mixer (regWrite_only r v s)).trans rfl
@[simp] theorem regWrite_line (r : Reg) (v : Word) (s : State) : (s.regWrite r v).line = s.line := (congrArg State.line (regWrite_only r v s)).trans rfl
@[simp] theorem regWrite_env (r : Reg) (v : Word) (s : State) : (s.regWrite r v).env = s.env := (congrArg State.env (regWrite_only r v s)).trans rfl
@[simp] theorem regWrite_obs (r : Reg) (v : Word) (s : State) : (s.regWrite r v).obs = s.obs := (congrArg State.obs (regWrite_only r v s)).trans rfl

end Sys2Proof.Machine
end

