-- ==== Sys2Proof/Laws/Decoder.lean ====
section
/-! SUPPORT. What decoding a frame leaves: the sizes of what it writes, and its two outcomes (41_decoder.md R190 to R207). -/

namespace Sys2Proof.Machine

/-! ### Sizes -/

theorem channelsOf_one_or_two (f : HeaderFields) : channelsOf f = 1 ∨ channelsOf f = 2 := by
  unfold channelsOf
  split <;> simp

@[simp] theorem length_interleave (chans : List (List Sample)) : (interleave chans).length = 32 * chans.length := by
  have h : ∀ n, ((List.range n).flatMap (fun j => chans.map (fun c => c.getD j 0))).length = n * chans.length := by
    intro n
    induction n with
    | zero => simp
    | succ n ih =>
      rw [List.range_succ, List.flatMap_append, List.length_append, ih]
      simp [Nat.succ_mul]
  exact h 32

theorem synthesise_lengths (x : Nat → Nat → Nat → Num) (n t : Nat) (delay : List (List Num)) :
    (synthesise x n t delay).1.length = delay.length ∧
      (synthesise x n t delay).2.length = n * 32 * delay.length := by
  induction n generalizing t delay with
  | zero => simp [synthesise]
  | succ n ih =>
    obtain ⟨h1, h2⟩ := ih (t + 1) (delay.mapIdx (fun c v => shiftDelay v (x c t)))
    simp only [synthesise, List.length_append, length_interleave, List.length_map, List.length_mapIdx] at *
    exact ⟨h1, by rw [h2]; ring⟩

/-- One delay line for each channel of an initialised decoder. -/
def Decoder.ok (d : Decoder) : Prop := d.init = true → (d.dch = 1 ∨ d.dch = 2) ∧ d.delay.length = d.dch

theorem initDecoder_init (f : Frame) (r : Nat) (d : Decoder) : (initDecoder f r d).init = true := by
  unfold initDecoder
  split <;> simp_all

/-- An initialised decoder is kept. -/
theorem initDecoder_of_init (f : Frame) (r : Nat) {d : Decoder} (h : d.init = true) : initDecoder f r d = d := by
  unfold initDecoder
  rw [if_pos h]

/-- The first frame fixes the channel count and the rate. -/
theorem initDecoder_fresh (f : Frame) (r : Nat) {d : Decoder} (h : d.init = false) :
    (initDecoder f r d).dch = channelsOf f.fields ∧ (initDecoder f r d).drate = r := by
  unfold initDecoder
  rw [if_neg (by simp [h])]
  exact ⟨rfl, rfl⟩

theorem initDecoder_ok (f : Frame) (r : Nat) {d : Decoder} (h : d.ok) : (initDecoder f r d).ok := by
  unfold initDecoder
  split
  · exact h
  · intro _
    exact ⟨channelsOf_one_or_two _, List.length_replicate⟩

@[simp] theorem initDecoder_res (f : Frame) (r : Nat) (d : Decoder) : (initDecoder f r d).res = d.res := by
  unfold initDecoder
  split <;> rfl

theorem length_appendReservoir (f : Frame) (res : List Byte) : (appendReservoir f res).length ≤ 511 := by
  have : reservoirCap f.fields ≤ 511 := by unfold reservoirCap; split <;> decide
  simp only [appendReservoir, List.length_drop, List.length_append]
  omega

/-! ### main_data_begin (R202) -/

/-- The side information's size in numbers (40_stream.md R162). -/
theorem sideInfoSize_eq (f : HeaderFields) :
    sideInfoSize f = (if f.version = .v1 then (if f.mode = .mono then 17 else 32)
      else (if f.mode = .mono then 9 else 17)) := by
  unfold sideInfoSize channelsOf
  cases f.version <;> cases f.mode <;> rfl

/-- A bit of a reader, 0 past the end of its bytes. -/
theorem Reader.nextBit_fst (r : Reader) :
    r.nextBit.1 = (r.bytes.getD (r.cursor / 8) 0).getLsbD (7 - r.cursor % 8) := by
  unfold Reader.nextBit
  split
  · rfl
  · rename_i h
    have : r.bytes.length ≤ r.cursor / 8 := by omega
    simp [List.getD_eq_getElem?_getD, List.getElem?_eq_none this]

@[simp] theorem Reader.nextBit_bytes (r : Reader) : r.nextBit.2.bytes = r.bytes := by
  unfold Reader.nextBit
  split <;> rfl

@[simp] theorem Reader.nextBit_cursor (r : Reader) : r.nextBit.2.cursor = r.cursor + 1 := by
  unfold Reader.nextBit
  split <;> rfl

/-- The first eight bits of a reader are its first byte, a missing one 0; the ninth is the top bit of the next byte. -/
theorem getBits_start (l : List Byte) :
    ((Reader.start l).getBits 8).1 = (l.getD 0 0).setWidth 32 ∧
      ((Reader.start l).getBits 9).1 = 2 * (l.getD 0 0).setWidth 32 + (l.getD 1 0).setWidth 32 / 128 := by
  have byte : ∀ b : Byte, (List.range 8).foldl
      (fun (v : Word) i => (v <<< 1) ||| (BitVec.ofBool (b.getLsbD (7 - i))).setWidth 32) (0 : Word) = b.setWidth 32 := by
    decide +kernel
  have next : ∀ b c : Byte, (b.setWidth 32 <<< 1 ||| (BitVec.ofBool (c.getLsbD 7)).setWidth 32) =
      2 * b.setWidth 32 + c.setWidth 32 / 128 := by
    have h1 : ∀ (b : Byte) (x : Bool), (b.setWidth 32 <<< 1 ||| (BitVec.ofBool x).setWidth 32) =
        2 * b.setWidth 32 + (if x then 1 else 0) := by decide +kernel
    have h2 : ∀ c : Byte, (if c.getLsbD 7 then 1 else 0 : Word) = c.setWidth 32 / 128 := by decide +kernel
    intro b c
    rw [h1, h2]
  have h8 := byte (l.getD 0 0)
  rw [show List.range 8 = [0, 1, 2, 3, 4, 5, 6, 7] from rfl] at h8
  simp only [List.foldl] at h8
  simp only [Reader.getBits, Reader.loop, Reader.nextBit_fst, Reader.nextBit_bytes, Reader.nextBit_cursor, Reader.start]
  norm_num only at h8 ⊢
  rw [h8]
  exact ⟨rfl, next _ _⟩

/-- main_data_begin in numbers (R202). -/
theorem mainDataBegin_eq (f : Frame) :
    let d := layerData f.fields f.payload
    mainDataBegin f =
      (if f.fields.version = .v1 then 2 * (d.getD 0 0).toNat + (d.getD 1 0).toNat / 128 else (d.getD 0 0).toNat) := by
  intro d
  have hs : 2 ≤ sideInfoSize f.fields := by
    rw [sideInfoSize_eq]
    split <;> split <;> decide
  obtain ⟨h8, h9⟩ := getBits_start (sideInfo f)
  have e0 : (sideInfo f).getD 0 0 = d.getD 0 0 := by
    simp [sideInfo, d, List.getD_eq_getElem?_getD, List.getElem?_take_of_lt (show 0 < sideInfoSize f.fields by omega)]
  have e1 : (sideInfo f).getD 1 0 = d.getD 1 0 := by
    simp [sideInfo, d, List.getD_eq_getElem?_getD, List.getElem?_take_of_lt (show 1 < sideInfoSize f.fields by omega)]
  unfold mainDataBegin
  split
  · rw [h9, e0, e1]
    have := (d.getD 0 0).isLt
    have := (d.getD 1 0).isLt
    generalize d.getD 0 0 = b at *
    generalize d.getD 1 0 = c at *
    simp [BitVec.toNat_add, BitVec.toNat_mul, BitVec.toNat_udiv]
    omega
  · rw [h8, e0]
    generalize d.getD 0 0 = b at *
    have := b.isLt
    simp only [BitVec.toNat_setWidth]
    omega

/-! ### The two outcomes of decoding -/

/-- decodeWith on a frame that decodes, and on one that is skipped. -/
theorem decodeWith_cases (f : Frame) (spf : Nat) (d : Decoder) :
    (channelsOf f.fields = d.dch ∧ ∃ ys l3 delay,
      decodeWith f spf d =
        ({ d with delay := delay, l3 := l3, res := if f.fields.layer = .III then appendReservoir f d.res else d.res },
          some ys) ∧
      delay.length = d.delay.length ∧ ys.length = spf / 32 * 32 * d.delay.length) ∨
    decodeWith f spf d =
      ({ d with res := if f.fields.layer = .III then appendReservoir f d.res else d.res }, none) := by
  unfold decodeWith
  dsimp only
  split
  · exact .inr rfl
  · rename_i out h
    left
    refine ⟨?_, _, _, _, rfl, synthesise_lengths _ _ _ _⟩
    by_contra hc
    simp [hc] at h

/-- DecodeCurrent on a frame that decodes, and on one that is skipped (R191, R192, R207). -/
theorem decodeCurrent_cases (op : Byte) (f : Frame) (s : State) :
    let c := s.checkCrc f
    let d := initDecoder f s.hdr.sampleRate.toNat s.dec
    let res := if f.fields.layer = .III then appendReservoir f s.dec.res else s.dec.res
    (channelsOf f.fields = d.dch ∧ ∃ ys l3 delay,
      s.decodeCurrent op f =
        ({ c with frame := some { f with pending := false }, sink := ⟨ys, d.dch, 0⟩
                  dec := { d with delay := delay, l3 := l3, res := res } }, true) ∧
      delay.length = d.delay.length ∧
      ys.length = s.hdr.samplesPerFrame.toNat / 32 * 32 * d.delay.length) ∨
    s.decodeCurrent op f =
      (({ c with frame := some { f with pending := false }, sink := ⟨[], d.dch, 0⟩, dec := { d with res := res }
                 counters := { c.counters with skipCount := c.counters.skipCount + 1 } }).record .decodeError op 0,
        false) := by
  dsimp only
  rcases decodeWith_cases f s.hdr.samplesPerFrame.toNat (initDecoder f s.hdr.sampleRate.toNat s.dec) with
    ⟨hc, ys, l3, delay, h, h1, h2⟩ | h
  · left
    refine ⟨hc, ys, l3, delay, ?_, h1, h2⟩
    simp only [State.decodeCurrent, h, initDecoder_res]
  · right
    simp only [State.decodeCurrent, h, initDecoder_res]

/-- A frame of the decoder's channel count is decoded where its layer decoder does not fail, into a sample for each of its sample frames and channels. -/
theorem decodeCurrent_ok {op : Byte} {f : Frame} {s : State} {d : Decoder} {o : DecodeOut}
    (hd : initDecoder f s.hdr.sampleRate.toNat s.dec = d) (hc : channelsOf f.fields = d.dch)
    (ho : decodeLayer f d = some o) :
    (s.decodeCurrent op f).2 = true ∧
      (s.decodeCurrent op f).1.sink.samples.length = s.hdr.samplesPerFrame.toNat / 32 * 32 * d.delay.length := by
  simp only [State.decodeCurrent, decodeWith, hd, if_pos hc, ho]
  exact ⟨trivial, (synthesise_lengths _ _ _ _).2⟩

/-- The frames of a sink, as many as it has samples a channel. -/
theorem length_sinkFrames_pairs (xs : List Sample) : (sinkFrames.pairs xs).length = xs.length / 2 := by
  induction xs using sinkFrames.pairs.induct with
  | case1 l r rest ih => simp only [sinkFrames.pairs, List.length_cons, ih]; omega
  | case2 x => simp [sinkFrames.pairs]
  | case3 => simp [sinkFrames.pairs]

theorem length_sinkFrames {ch n : Nat} {xs : List Sample} (hc : ch = 1 ∨ ch = 2) (h : xs.length = n * ch) :
    (sinkFrames ch xs).length = n := by
  unfold sinkFrames
  rcases hc with rfl | rfl
  · simpa using h
  · simp [length_sinkFrames_pairs, h]

/-- The frames of a sink of one or two channels hold its samples in order. -/
theorem flatMap_samples_sinkFrames {ch n : Nat} {xs : List Sample} (hc : ch = 1 ∨ ch = 2) (h : xs.length = n * ch) :
    (sinkFrames ch xs).flatMap RingFrame.samples = xs := by
  unfold sinkFrames
  rcases hc with rfl | rfl
  · simp only [if_true]
    clear h
    induction xs with
    | nil => rfl
    | cons x xs ih => simpa [RingFrame.samples] using ih
  · simp only [if_neg (show ¬ (2 : Nat) = 1 by decide)]
    induction xs using sinkFrames.pairs.induct generalizing n with
    | case1 l r rest ih => simp [sinkFrames.pairs, RingFrame.samples, ih (n := n - 1) (by simp at h; omega)]
    | case2 x => simp at h; omega
    | case3 => simp [sinkFrames.pairs]

/-- Each of them has as many samples as the sink has channels. -/
theorem length_samples_sinkFrames {ch : Nat} (hc : ch = 1 ∨ ch = 2) (xs : List Sample) :
    ∀ f ∈ sinkFrames ch xs, f.samples.length = ch := by
  unfold sinkFrames
  rcases hc with rfl | rfl
  · simp [RingFrame.samples]
  · simp only [if_neg (show ¬ (2 : Nat) = 1 by decide)]
    induction xs using sinkFrames.pairs.induct with
    | case1 l r rest ih =>
      simp only [sinkFrames.pairs, List.mem_cons, forall_eq_or_imp]
      exact ⟨rfl, ih⟩
    | case2 x => simp [sinkFrames.pairs]
    | case3 => simp [sinkFrames.pairs]

/-- What the ring takes of a decoded frame (R210): as many frames as the sink has, each of rch samples. -/
@[simp] theorem length_ringFrames (s : State) :
    s.ringFrames.length = (sinkFrames s.sink.ch s.sink.samples).length := by
  unfold State.ringFrames
  dsimp only
  split <;> simp

theorem length_samples_ringFrames {s : State} (hc : s.ring.ch = 1 ∨ s.ring.ch = 2) :
    ∀ f ∈ s.ringFrames, f.samples.length = s.ring.ch := by
  unfold State.ringFrames
  dsimp only
  split
  · rename_i h
    rw [h]
    exact length_samples_sinkFrames hc _
  · intro f hf
    simp only [List.mem_map] at hf
    obtain ⟨i, -, rfl⟩ := hf
    unfold freeRingFrame
    rcases hc with h | h <;> rw [h] <;> rfl

/-- What CheckCrc changes (R198). -/
theorem checkCrc_cases (f : Frame) (s : State) :
    (f.fields.hasCrc = false ∧ s.checkCrc f = s) ∨
    (f.fields.hasCrc = true ∧ frameCrc f = s.hdr.crcStored ∧
      s.checkCrc f = { s with hdr := { s.hdr with crcComputed := frameCrc f } }) ∨
    (f.fields.hasCrc = true ∧ frameCrc f ≠ s.hdr.crcStored ∧
      s.checkCrc f =
        { s with
          hdr := { s.hdr with crcComputed := frameCrc f }
          flags := { s.flags with crcErr := true }
          counters := { s.counters with crcErrCount := s.counters.crcErrCount + 1 }
          irqPend := s.irqPend ||| irqCrc }) := by
  unfold State.checkCrc
  cases hb : f.fields.hasCrc with
  | false => simp
  | true =>
    by_cases hc : frameCrc f = s.hdr.crcStored
    · right; left; simp [hc]
    · right; right; simp [hc]

/-- A decoded or skipped frame leaves a decoder that is initialised and ok, and a sink of the decoder's channels. -/
theorem decodeCurrent_dec (op : Byte) (f : Frame) {s : State} (h : s.dec.ok) :
    let t := (s.decodeCurrent op f).1
    t.dec.init = true ∧ t.dec.ok ∧ t.sink.ch = t.dec.dch ∧ t.sink.addr = 0 ∧
      (s.dec.res.length ≤ 511 → t.dec.res.length ≤ 511) ∧
      t.sink.samples.length ≤ s.hdr.samplesPerFrame.toNat * t.dec.dch := by
  have hd := initDecoder_ok f s.hdr.sampleRate.toNat h
  have hi := initDecoder_init f s.hdr.sampleRate.toNat s.dec
  have hres : s.dec.res.length ≤ 511 →
      (if f.fields.layer = .III then appendReservoir f s.dec.res else s.dec.res).length ≤ 511 := by
    intro h
    split
    · exact length_appendReservoir _ _
    · exact h
  obtain ⟨hd1, hd2⟩ := hd hi
  dsimp only
  rcases decodeCurrent_cases op f s with ⟨hc, ys, l3, delay, h, h1, h2⟩ | h
  · rw [h]
    refine ⟨hi, fun _ => ⟨hd1, h1.trans hd2⟩, rfl, rfl, hres, ?_⟩
    dsimp only
    rw [h2, hd2]
    exact Nat.mul_le_mul_right _ (Nat.div_mul_le_self _ _)
  · rw [h]
    exact ⟨hi, fun _ => ⟨hd1, hd2⟩, rfl, rfl, hres, Nat.zero_le _⟩

/-- Decoding writes no header register but HDR_CRC (R198). -/
theorem hdr_decodeCurrent (op : Byte) (f : Frame) (s : State) :
    ∃ c, (s.decodeCurrent op f).1.hdr = { s.hdr with crcComputed := c } := by
  have hc : ∃ c, (s.checkCrc f).hdr = { s.hdr with crcComputed := c } := by
    rcases checkCrc_cases f s with ⟨-, h⟩ | ⟨-, -, h⟩ | ⟨-, -, h⟩ <;> rw [h] <;> exact ⟨_, rfl⟩
  rcases decodeCurrent_cases op f s with ⟨-, ys, l3, delay, h, -, -⟩ | h <;> rw [h] <;> exact hc

end Sys2Proof.Machine
end

