-- ==== Sys2Proof/Laws/Memory.lean ====
section
/-! SUPPORT. The laws of clip memory: what a read answers after a write, and that every operation keeps the canonical form. -/

namespace Sys2Proof.Machine

/-- The canonical form, as a relation of all pairs. -/
theorem Memory.wf_iff_pairwise (m : Memory) : Memory.wf m = true ↔ m.Pairwise (fun c d => c.1 < d.1) := by
  induction m with
  | nil => simp [Memory.wf]
  | cons c m ih =>
    cases m with
    | nil => simp [Memory.wf]
    | cons d m =>
      simp only [Memory.wf, Bool.and_eq_true, decide_eq_true_eq, ih, List.pairwise_cons, List.mem_cons,
        forall_eq_or_imp]
      constructor
      · rintro ⟨h, hd, hm⟩
        exact ⟨⟨h, fun x hx => h.trans (hd x hx)⟩, hd, hm⟩
      · rintro ⟨⟨h, -⟩, hd, hm⟩
        exact ⟨h, hd, hm⟩

@[simp] theorem Memory.length_block (base : Nat) (xs : List Sample) :
    (Memory.block base xs).length = xs.length := by
  induction xs generalizing base with
  | nil => rfl
  | cons x xs ih => simp [Memory.block, ih]

/-- Every cell of a block lies in its range. -/
theorem Memory.mem_block {base : Nat} {xs : List Sample} {c : Nat × Sample} (h : c ∈ Memory.block base xs) :
    base ≤ c.1 ∧ c.1 < base + xs.length := by
  induction xs generalizing base with
  | nil => simp [Memory.block] at h
  | cons x xs ih =>
    rcases List.mem_cons.1 h with rfl | h
    · simp
    · have := ih h
      simp only [List.length_cons]
      omega

theorem Memory.pairwise_block (base : Nat) (xs : List Sample) :
    (Memory.block base xs).Pairwise (fun c d => c.1 < d.1) := by
  induction xs generalizing base with
  | nil => simp [Memory.block]
  | cons x xs ih =>
    refine List.pairwise_cons.2 ⟨fun d hd => ?_, ih _⟩
    have := (Memory.mem_block hd).1
    simp only
    omega

theorem Memory.read?_append (m m' : Memory) (a : Nat) :
    Memory.read? (m ++ m') a = (Memory.read? m a).or (Memory.read? m' a) := by
  induction m with
  | nil => simp [Memory.read?]
  | cons c m ih =>
    simp only [List.cons_append, Memory.read?]
    split <;> simp [ih]

/-- A cell below every listed cell is not listed. -/
theorem Memory.read?_eq_none {m : Memory} {a : Nat} (h : ∀ c ∈ m, c.1 ≠ a) : Memory.read? m a = none := by
  induction m with
  | nil => rfl
  | cons c m ih =>
    simp only [List.mem_cons, forall_eq_or_imp] at h
    simp [Memory.read?, h.1, ih h.2]

theorem Memory.read?_block (base : Nat) (xs : List Sample) (a : Nat) :
    Memory.read? (Memory.block base xs) a = if base ≤ a then xs[a - base]? else none := by
  induction xs generalizing base with
  | nil => simp [Memory.block, Memory.read?]
  | cons x xs ih =>
    simp only [Memory.block, Memory.read?, ih]
    by_cases h : base = a
    · simp [h]
    · by_cases hb : base ≤ a
      · have : a - base = (a - (base + 1)) + 1 := by omega
        rw [if_neg h, if_pos (by omega), if_pos hb, this, List.getElem?_cons_succ]
      · rw [if_neg h, if_neg (by omega), if_neg hb]

/-- What a prefix dropped from a sorted memory does to a read. -/
theorem Memory.read?_dropWhile {m : Memory} (hm : m.Pairwise (fun c d => c.1 < d.1)) (n a : Nat) :
    Memory.read? (m.dropWhile (fun d => decide (d.1 < n))) a = if a < n then none else Memory.read? m a := by
  induction m with
  | nil => simp [Memory.read?]
  | cons c m ih =>
    rw [List.pairwise_cons] at hm
    by_cases hc : c.1 < n
    · rw [List.dropWhile_cons_of_pos (by simpa using hc), ih hm.2]
      by_cases ha : a < n
      · simp [ha]
      · have : c.1 ≠ a := by omega
        simp [Memory.read?, this]
    · rw [List.dropWhile_cons_of_neg (by simpa using hc)]
      by_cases ha : a < n
      · rw [if_pos ha]
        refine Memory.read?_eq_none fun d hd => ?_
        rcases List.mem_cons.1 hd with rfl | hd
        · omega
        · have := hm.1 d hd
          omega
      · simp [ha]

theorem Memory.mem_writeBlock {m : Memory} {base : Nat} {xs : List Sample} {c : Nat × Sample}
    (h : c ∈ Memory.writeBlock m base xs) : c ∈ m ∨ (base ≤ c.1 ∧ c.1 < base + xs.length) := by
  induction m with
  | nil => exact .inr (Memory.mem_block h)
  | cons d m ih =>
    rw [Memory.writeBlock] at h
    split at h
    · rcases List.mem_cons.1 h with rfl | h
      · simp
      · rcases ih h with h | h
        · simp [h]
        · exact .inr h
    · rcases List.mem_append.1 h with h | h
      · exact .inr (Memory.mem_block h)
      · exact .inl ((List.dropWhile_sublist _).subset h)

theorem Memory.pairwise_writeBlock {m : Memory} (hm : m.Pairwise (fun c d => c.1 < d.1)) (base : Nat)
    (xs : List Sample) : (Memory.writeBlock m base xs).Pairwise (fun c d => c.1 < d.1) := by
  induction m with
  | nil => exact Memory.pairwise_block base xs
  | cons c m ih =>
    rw [Memory.writeBlock]
    split
    · rename_i hc
      rw [List.pairwise_cons] at hm
      refine List.pairwise_cons.2 ⟨fun d hd => ?_, ih hm.2⟩
      rcases Memory.mem_writeBlock hd with hd | hd
      · exact hm.1 d hd
      · omega
    · refine List.pairwise_append.2 ⟨Memory.pairwise_block base xs, hm.sublist (List.dropWhile_sublist _), ?_⟩
      intro x hx y hy
      have h1 := (Memory.mem_block hx).2
      by_contra hlt
      have h2 : Memory.read? (List.dropWhile (fun d => decide (d.1 < base + xs.length)) (c :: m)) y.1 = none := by
        rw [Memory.read?_dropWhile hm, if_pos (by omega)]
      clear hx h1 hlt
      revert h2 hy
      generalize List.dropWhile (fun d => decide (d.1 < base + xs.length)) (c :: m) = l
      intro hy h2
      induction l with
      | nil => simp at hy
      | cons z l ihl =>
        rw [Memory.read?] at h2
        split at h2
        · simp at h2
        · rcases List.mem_cons.1 hy with rfl | hy
          · simp at *
          · exact ihl hy h2

/-- A block write keeps the canonical form. -/
theorem Memory.wf_writeBlock {m : Memory} (hm : Memory.wf m = true) (base : Nat) (xs : List Sample) :
    Memory.wf (Memory.writeBlock m base xs) = true := by
  rw [Memory.wf_iff_pairwise] at *
  exact Memory.pairwise_writeBlock hm base xs

/-- A write of one cell keeps the canonical form. -/
theorem Memory.wf_write {m : Memory} (hm : Memory.wf m = true) (a : Nat) (x : Sample) :
    Memory.wf (Memory.write m a x) = true := Memory.wf_writeBlock hm a [x]

/-- A read after a block write: inside the block the value written, elsewhere what was there. -/
theorem Memory.read?_writeBlock {m : Memory} (hm : Memory.wf m = true) (base : Nat) (xs : List Sample) (a : Nat) :
    Memory.read? (Memory.writeBlock m base xs) a =
      if base ≤ a ∧ a < base + xs.length then xs[a - base]? else Memory.read? m a := by
  rw [Memory.wf_iff_pairwise] at hm
  induction m with
  | nil =>
    rw [Memory.writeBlock, Memory.read?_block]
    by_cases hb : base ≤ a
    · by_cases ha : a < base + xs.length
      · simp [hb, ha]
      · rw [if_pos hb, if_neg (by omega), List.getElem?_eq_none (by omega)]; rfl
    · rw [if_neg hb, if_neg (by omega)]; rfl
  | cons c m ih =>
    rw [Memory.writeBlock]
    have hm' := hm
    rw [List.pairwise_cons] at hm'
    split
    · rename_i hc
      rw [Memory.read?, ih hm'.2, Memory.read?]
      by_cases ha : c.1 = a
      · rw [if_pos ha, if_neg (by omega), if_pos ha]
      · rw [if_neg ha, if_neg ha]
    · rename_i hc
      rw [Memory.read?_append, Memory.read?_block, Memory.read?_dropWhile hm]
      by_cases hb : base ≤ a
      · by_cases ha : a < base + xs.length
        · have : a - base < xs.length := by omega
          simp [hb, ha, this]
        · rw [if_pos hb, List.getElem?_eq_none (by omega), if_neg ha, if_neg (by omega)]; rfl
      · rw [if_neg hb, if_pos (by omega), if_neg (by omega)]
        refine (Memory.read?_eq_none fun d hd => ?_).symm
        rcases List.mem_cons.1 hd with rfl | hd
        · omega
        · have := hm'.1 d hd
          omega

/-- A read after a write of one cell. -/
theorem Memory.read?_write {m : Memory} (hm : Memory.wf m = true) (a : Nat) (x : Sample) (b : Nat) :
    Memory.read? (Memory.write m a x) b = if b = a then some x else Memory.read? m b := by
  rw [Memory.write, Memory.read?_writeBlock hm]
  by_cases h : b = a
  · simp [h]
  · rw [if_neg (by simp; omega), if_neg h]

/-- A cell outside a block write reads as before. -/
theorem Memory.read_writeBlock_of_outside {m : Memory} (hm : Memory.wf m = true) {base : Nat} {xs : List Sample}
    {a : Nat} (h : a < base ∨ base + xs.length ≤ a) :
    Memory.read (Memory.writeBlock m base xs) a = Memory.read m a := by
  rw [Memory.read, Memory.read?_writeBlock hm, if_neg (by omega), Memory.read]

/-- A written cell stays written, whatever is written next. -/
theorem Memory.isSome_writeBlock {m : Memory} (hm : Memory.wf m = true) (base : Nat) (xs : List Sample) {a : Nat}
    (h : (Memory.read? m a).isSome = true ∨ (base ≤ a ∧ a < base + xs.length)) :
    (Memory.read? (Memory.writeBlock m base xs) a).isSome = true := by
  rw [Memory.read?_writeBlock hm]
  split
  · rename_i hb
    rw [List.getElem?_eq_getElem (by omega)]; rfl
  · rcases h with h | h
    · exact h
    · contradiction

/-- The memory of the reset state is in canonical form. -/
theorem reset_mem_wf : Memory.wf State.reset.clips.mem = true := rfl

end Sys2Proof.Machine
end

