-- ==== Sys2Proof/Laws/Voices.lean ====
section
/-! SUPPORT. The voice slots and descriptors: reading a slot after it is written, the lowest free slot, the slots that satisfy a condition, and what the removal of voices does. -/

namespace Sys2Proof.Machine

variable (s : State)

/-! ### Reading slots -/

theorem voiceAt_eq_getElem {v : Nat} (h : v < s.voices.length) : s.voiceAt v = s.voices[v] := by
  simp [State.voiceAt, h]

theorem voiceAt_of_ge {v : Nat} (h : s.voices.length ≤ v) : s.voiceAt v = .free := by
  simp [State.voiceAt, h]

theorem voiceAt_mem {v : Nat} (h : v < s.voices.length) : s.voiceAt v ∈ s.voices := by
  rw [voiceAt_eq_getElem s h]
  exact List.getElem_mem h

/-- A slot past the last one is free. -/
theorem lt_of_inUse {v : Nat} (h : (s.voiceAt v).inUse = true) : v < s.voices.length := by
  by_contra hc
  rw [voiceAt_of_ge s (by omega)] at h
  simp [Voice.free, Voice.inUse] at h

/-- A property of the free slot and of every slot holds of every slot number. -/
theorem forall_voiceAt {p : Voice → Prop} (h0 : p .free) (h : ∀ x ∈ s.voices, p x) (v : Nat) : p (s.voiceAt v) := by
  by_cases hv : v < s.voices.length
  · exact h _ (voiceAt_mem s hv)
  · rw [voiceAt_of_ge s (by omega)]
    exact h0

theorem forall_mem_voices {p : Voice → Prop} (h : ∀ v, v < s.voices.length → p (s.voiceAt v)) :
    ∀ x ∈ s.voices, p x := by
  intro x hx
  obtain ⟨v, hv, rfl⟩ := List.getElem_of_mem hx
  have := h v hv
  rwa [voiceAt_eq_getElem s hv] at this

/-- Slot u of a state whose slot v was replaced. -/
theorem getD_set (l : List Voice) (v u : Nat) (x d : Voice) :
    (l.set v x).getD u d = if u = v ∧ v < l.length then x else l.getD u d := by
  by_cases h : v = u
  · subst h
    by_cases hv : v < l.length
    · simp [List.getD_eq_getElem?_getD, hv]
    · simp [List.getD_eq_getElem?_getD, hv]
  · have h' : ¬ (u = v ∧ v < l.length) := fun hc => h hc.1.symm
    rw [if_neg h']
    simp [List.getD_eq_getElem?_getD, List.getElem?_set_ne h]

theorem voiceAt_setVoice (v u : Nat) (x : Voice) :
    (s.setVoice v x).voiceAt u = if u = v ∧ v < s.voices.length then x else s.voiceAt u := getD_set _ _ _ _ _

theorem voiceAt_queueVoice (v u : Nat) (x : Voice) :
    (s.queueVoice v x).voiceAt u = if u = v ∧ v < s.voices.length then x else s.voiceAt u := getD_set _ _ _ _ _

theorem removed_free : Voice.removed .free = .free := rfl

theorem voiceAt_removeVoice (v u : Nat) :
    (s.removeVoice v).voiceAt u = if u = v then (s.voiceAt u).removed else s.voiceAt u := by
  show (s.voices.set v (s.voiceAt v).removed).getD u .free = _
  rw [getD_set]
  by_cases h : u = v
  · subst h
    by_cases hu : u < s.voices.length
    · simp [hu]
    · rw [if_neg (by simp [hu]), if_pos rfl, voiceAt_of_ge s (by omega), removed_free,
        List.getD_eq_getElem?_getD, List.getElem?_eq_none (by omega)]
      rfl
  · rw [if_neg (by simp [h]), if_neg h]
    rfl

@[simp] theorem length_voices_setVoice (v : Nat) (x : Voice) : (s.setVoice v x).voices.length = s.voices.length := by
  simp

@[simp] theorem length_voices_removeVoice (v : Nat) : (s.removeVoice v).voices.length = s.voices.length := by
  simp

/-! ### Free slots and searches -/

/-- The lowest free slot is found (R232). -/
theorem freeSlot_eq_some_iff (v : Nat) :
    s.freeSlot = some v ↔
      v < s.voices.length ∧ (s.voiceAt v).inUse = false ∧ ∀ u, u < v → (s.voiceAt u).inUse = true := by
  unfold State.freeSlot
  rw [List.findIdx?_eq_some_iff_getElem]
  constructor
  · rintro ⟨hv, h1, h2⟩
    refine ⟨hv, by rw [voiceAt_eq_getElem s hv]; simpa using h1, fun u hu => ?_⟩
    rw [voiceAt_eq_getElem s (by omega)]
    simpa using h2 u hu
  · rintro ⟨hv, h1, h2⟩
    rw [voiceAt_eq_getElem s hv] at h1
    refine ⟨hv, by simpa using h1, fun u hu => ?_⟩
    have := h2 u hu
    rw [voiceAt_eq_getElem s (by omega)] at this
    simpa using this

theorem freeSlot_eq_none_iff :
    s.freeSlot = none ↔ ∀ u, u < s.voices.length → (s.voiceAt u).inUse = true := by
  unfold State.freeSlot
  rw [List.findIdx?_eq_none_iff]
  constructor
  · intro h u hu
    have := h _ (voiceAt_mem s hu)
    simpa using this
  · intro h
    simpa using forall_mem_voices s h

theorem mem_slotsWhere {p : Voice → Bool} {v : Nat} :
    v ∈ s.slotsWhere p ↔ v < s.voices.length ∧ p (s.voiceAt v) = true := by
  simp [State.slotsWhere]

theorem nodup_slotsWhere (p : Voice → Bool) : (s.slotsWhere p).Nodup :=
  List.nodup_range.filter _

/-- A descriptor that exists is the one read. -/
theorem descAt_of_getElem? {c : Nat} {d : ClipDesc} (h : s.clips.descs[c]? = some d) : s.descAt c = d := by
  simp [State.descAt, List.getD_eq_getElem?_getD, h]

theorem lt_of_getElem? {c : Nat} {d : ClipDesc} (h : s.clips.descs[c]? = some d) : c < s.nClips :=
  (List.getElem?_eq_some_iff.1 h).1

/-- A descriptor read as valid is a descriptor of the store. -/
theorem descAt_mem {c : Nat} (h : (s.descAt c).valid = true) : s.descAt c ∈ s.clips.descs := by
  by_cases hc : c < s.clips.descs.length
  · have : s.descAt c = s.clips.descs[c] := by simp [State.descAt, hc]
    rw [this]
    exact List.getElem_mem hc
  · have : s.descAt c = .invalid := by simp [State.descAt, Nat.le_of_not_lt hc]
    rw [this] at h
    simp [ClipDesc.invalid] at h

/-- A clip operand that passes its checks (R232, R266). -/
theorem clipError_eq_none {c : Nat} (h : s.clipError c = none) :
    c < s.nClips ∧ (s.descAt c).valid = true ∧ (s.descAt c).rate = Config.lineRate := by
  unfold State.clipError at h
  split at h
  · cases h
  · split at h
    · cases h
    · split at h
      · cases h
      · rename_i h1 h2 h3
        exact ⟨Nat.lt_of_not_le h1, by simpa using h2, by simpa using h3⟩

/-! ### Removing voices (R256) -/

@[simp] theorem removed_inUse (x : Voice) : x.removed.inUse = false := rfl
@[simp] theorem removed_pending (x : Voice) : x.removed.pending = false := rfl
@[simp] theorem removed_active (x : Voice) : x.removed.active = false := rfl
@[simp] theorem removed_stream (x : Voice) : x.removed.stream = x.stream := rfl
@[simp] theorem removed_vol (x : Voice) : x.removed.vol = x.vol := rfl
theorem removed_removed (x : Voice) : x.removed.removed = x.removed := rfl

/-- The slots after a list of them is removed: those of the list removed, the others as before. -/
theorem voiceAt_removeVoices (vs : List Nat) (u : Nat) :
    (s.removeVoices vs).voiceAt u = if u ∈ vs then (s.voiceAt u).removed else s.voiceAt u := by
  induction vs generalizing s with
  | nil => simp [State.removeVoices]
  | cons v vs ih =>
    show ((s.removeVoice v).removeVoices vs).voiceAt u = _
    rw [ih, voiceAt_removeVoice]
    by_cases h : u = v <;> by_cases h' : u ∈ vs <;> simp [h, h', removed_removed]

@[simp] theorem length_voices_removeVoices (vs : List Nat) :
    (s.removeVoices vs).voices.length = s.voices.length := by
  induction vs generalizing s with
  | nil => rfl
  | cons v vs ih =>
    show ((s.removeVoice v).removeVoices vs).voices.length = _
    rw [ih]
    simp

/-- The bit of voice v in STOPPED_MASK. -/
theorem getLsbD_stoppedBit (v n : Nat) (hn : n < 256) : (stoppedBit v).getLsbD n = decide (n = v) := by
  unfold stoppedBit
  rw [BitVec.getLsbD_shiftLeft]
  by_cases h : n = v
  · subst h
    simp [hn]
  · simp only [h, decide_false]
    by_cases hv : n < v
    · simp [hv]
    · have : 0 < n - v := by omega
      simp [BitVec.getLsbD_one]
      omega

/-- The STOPPED_MASK bits after a list of slots is removed. -/
theorem getLsbD_stopped_removeVoices (vs : List Nat) (n : Nat) (hn : n < 256) :
    (s.removeVoices vs).stopped.getLsbD n = (s.stopped.getLsbD n || decide (n ∈ vs)) := by
  induction vs generalizing s with
  | nil => simp [State.removeVoices]
  | cons v vs ih =>
    show ((s.removeVoice v).removeVoices vs).stopped.getLsbD n = _
    rw [ih, State.removeVoice_stopped, BitVec.getLsbD_or, getLsbD_stoppedBit v n hn]
    by_cases h : n = v <;> by_cases h' : n ∈ vs <;> simp [h, h']

/-- Bits once set in IRQ_PEND stay set as voices are removed, and VOICE_STOPPED is set by any removal. -/
theorem irqPend_removeVoices (vs : List Nat) :
    (s.removeVoices vs).irqPend = if vs = [] then s.irqPend else s.irqPend ||| irqVoiceStopped := by
  have idem : ∀ x : BitVec 5, x ||| irqVoiceStopped ||| irqVoiceStopped = x ||| irqVoiceStopped := by decide
  induction vs generalizing s with
  | nil => rfl
  | cons v vs ih =>
    show ((s.removeVoice v).removeVoices vs).irqPend = _
    rw [ih]
    by_cases h : vs = [] <;> simp [h, idem]

/-- An unbound ring is as after reset. -/
theorem unbind_eq (r : Ring) : r.unbind = ⟨false, false, 0, 0, []⟩ := rfl

/-- Whether a configuration is legal depends on the parameters and the numbers of slots only. -/
theorem configLegal_congr {s t : State} (hc : t.cfg = s.cfg) (hv : t.nVoices = s.nVoices) (hn : t.nClips = s.nClips) :
    t.configLegal = s.configLegal := by
  unfold State.configLegal
  rw [hc, hv, hn]

@[simp] theorem unbind_unbind (r : Ring) : r.unbind.unbind = r.unbind := rfl

/-- The ring after a list of slots is removed: unbound when a stream voice was among them. -/
theorem ring_removeVoices (vs : List Nat) :
    (s.removeVoices vs).ring =
      if ∃ v ∈ vs, (s.voiceAt v).stream = true then s.ring.unbind else s.ring := by
  induction vs generalizing s with
  | nil => simp [State.removeVoices]
  | cons v vs ih =>
    show ((s.removeVoice v).removeVoices vs).ring = _
    have hs : ∀ u, ((s.removeVoice v).voiceAt u).stream = (s.voiceAt u).stream := by
      intro u
      rw [voiceAt_removeVoice]
      split <;> rfl
    rw [ih]
    simp only [hs, List.mem_cons, exists_eq_or_imp, State.removeVoice_ring]
    by_cases h1 : (s.voiceAt v).stream = true <;> by_cases h2 : ∃ u ∈ vs, (s.voiceAt u).stream = true <;>
      simp [h1, h2]

end Sys2Proof.Machine
end

