-- ==== Sys2Proof/Laws/Mixer.lean ====
section
/-! SUPPORT. The tick taken apart: what admission, the read of a voice, a visit and the emission do, and the rule by which a tick is shown to keep a property (42_mixer.md R250 to R257). -/

namespace Sys2Proof.Machine

/-! ### Admission -/

theorem enter_enter (x : Voice) : x.enter.enter = x.enter := rfl

theorem length_voices_foldl_admit (vs : List Nat) (s : State) :
    (vs.foldl (fun t v => t.setVoice v (t.voiceAt v).enter) s).voices.length = s.voices.length := by
  induction vs generalizing s with
  | nil => rfl
  | cons v vs ih => rw [List.foldl_cons, ih]; simp

theorem voiceAt_foldl_admit (vs : List Nat) (s : State) (u : Nat) (hu : u < s.voices.length) :
    (vs.foldl (fun t v => t.setVoice v (t.voiceAt v).enter) s).voiceAt u =
      if u ∈ vs then (s.voiceAt u).enter else s.voiceAt u := by
  induction vs generalizing s with
  | nil => simp
  | cons v vs ih =>
    rw [List.foldl_cons, ih _ (by simpa using hu), voiceAt_setVoice]
    by_cases h : u = v
    · subst h
      by_cases h' : u ∈ vs <;> simp [h', hu, enter_enter]
    · by_cases h' : u ∈ vs <;> simp [h, h']

@[simp] theorem length_voices_admitAll (s : State) : s.admitAll.voices.length = s.voices.length :=
  length_voices_foldl_admit _ _

/-- The slots after admission: the queued ones active, the others as before. -/
theorem voiceAt_admitAll (s : State) (u : Nat) :
    s.admitAll.voiceAt u =
      if u ∈ s.mixer.fifo ∧ u < s.voices.length then (s.voiceAt u).enter else s.voiceAt u := by
  by_cases hu : u < s.voices.length
  · simp only [hu, and_true]
    exact voiceAt_foldl_admit _ _ _ hu
  · rw [if_neg (by simp [hu]), voiceAt_of_ge s (by omega), voiceAt_of_ge _ (by simp; omega)]

@[simp] theorem mixer_admitAll (s : State) : s.admitAll.mixer = { s.mixer with fifo := [] } := rfl

/-! ### The read of one voice -/

theorem readClipLoop_cases (m : Memory) (lp : Bool) (n : Nat) (x : Voice) :
    ∃ p st, (readClipLoop m lp n x).1 = { x with pos := p, state := st } := by
  induction n generalizing x with
  | zero => exact ⟨x.pos, x.state, rfl⟩
  | succ n ih =>
    rw [readClipLoop]
    split
    · exact ⟨x.pos, .stopped, rfl⟩
    · rename_i p _
      obtain ⟨q, st, h⟩ := ih { x with pos := p + 1 }
      exact ⟨q, st, h⟩

theorem readClip_cases (m : Memory) (n : Nat) (lp : Bool) (x : Voice) :
    ∃ p st, (readClip m n lp x).1 = { x with pos := p, state := st } := by
  unfold readClip
  split
  · exact ⟨x.pos, x.state, rfl⟩
  · split
    · exact ⟨x.pos, .stopped, rfl⟩
    · exact readClipLoop_cases m lp n x

/-- A read of a clip that is not empty leaves the position within it (R252). -/
theorem pos_readClipLoop_le (m : Memory) (lp : Bool) (n : Nat) (x : Voice) (hl : x.len ≠ 0) (h : x.pos ≤ x.len) :
    (readClipLoop m lp n x).1.pos ≤ x.len := by
  induction n generalizing x with
  | zero => exact h
  | succ n ih =>
    rw [readClipLoop]
    split
    · exact h
    · rename_i p hp
      have : p < x.len := by
        unfold wrapPos at hp
        split at hp
        · split at hp
          · injection hp with hp
            omega
          · cases hp
        · injection hp with hp
          omega
      exact ih { x with pos := p + 1 } hl (by simpa using this)

theorem pos_readClip_le (m : Memory) (n : Nat) (lp : Bool) {x : Voice} (h : x.pos ≤ x.len) :
    (readClip m n lp x).1.pos ≤ x.len := by
  unfold readClip
  split
  · exact h
  · split
    · exact h
    · exact pos_readClipLoop_le m lp n x (by assumption) h

/-- A read changes only the slot's position and state, and takes frames from the ring only for a stream voice. -/
theorem readVoice_cases (v : Nat) (s : State) :
    ∃ p st k, (s.readVoice v).1 =
        { s.setVoice v { s.voiceAt v with pos := p, state := st } with
          ring := { s.ring with buf := s.ring.buf.drop k } } ∧
      ((s.voiceAt v).stream = false → k = 0) := by
  unfold State.readVoice
  dsimp only
  split
  · rename_i hs
    unfold readStream
    split
    · exact ⟨_, _, 0, rfl, fun _ => rfl⟩
    · exact ⟨_, _, _, rfl, fun h => absurd h (by simp [hs])⟩
  · obtain ⟨p, st, h⟩ := readClip_cases s.clips.mem s.cfg.mixBlock (s.voiceAt v).loop (s.voiceAt v)
    exact ⟨p, st, 0, by rw [h]; rfl, fun _ => rfl⟩

@[simp] theorem length_voices_readVoice (v : Nat) (s : State) :
    (s.readVoice v).1.voices.length = s.voices.length := by
  obtain ⟨p, st, k, h, -⟩ := readVoice_cases v s
  rw [h]
  simp

theorem voiceAt_readVoice_ne {v u : Nat} (h : u ≠ v) (s : State) :
    (s.readVoice v).1.voiceAt u = s.voiceAt u := by
  obtain ⟨p, st, k, h', -⟩ := readVoice_cases v s
  rw [h']
  exact (voiceAt_setVoice s v u _).trans (if_neg (by simp [h]))

/-- A read keeps everything of its slot but position and state. -/
theorem voiceAt_readVoice_self (v : Nat) (s : State) :
    ∃ p st, (s.readVoice v).1.voiceAt v = { s.voiceAt v with pos := p, state := st } := by
  obtain ⟨p, st, k, h, -⟩ := readVoice_cases v s
  rw [h]
  by_cases hv : v < s.voices.length
  · exact ⟨p, st, (voiceAt_setVoice s v v _).trans (if_pos ⟨rfl, hv⟩)⟩
  · refine ⟨(s.voiceAt v).pos, (s.voiceAt v).state, ?_⟩
    exact (voiceAt_setVoice s v v _).trans (if_neg (by simp [hv]))

/-! ### A visit -/

@[simp] theorem length_addFrames (vol : Nat) (acc : List (Int × Int)) (fs : List StereoFrame) :
    (addFrames vol acc fs).length = acc.length := by
  induction acc generalizing fs with
  | nil => cases fs <;> rfl
  | cons a acc ih => cases fs with
    | nil => rfl
    | cons f fs => simp [addFrames, ih]

@[simp] theorem length_acc_visit (m : Mix) (v : Nat) : (visit m v).acc.length = m.acc.length := by
  unfold visit
  dsimp only
  split <;> simp

@[simp] theorem length_acc_foldl_visit (vs : List Nat) (m : Mix) : (vs.foldl visit m).acc.length = m.acc.length := by
  induction vs generalizing m with
  | nil => rfl
  | cons v vs ih => rw [List.foldl_cons, ih]; simp

@[simp] theorem length_voices_reap (v : Nat) (s : State) : (s.reap v).voices.length = s.voices.length := by
  unfold State.reap
  split <;> simp

@[simp] theorem length_voices_visit (m : Mix) (v : Nat) : (visit m v).s.voices.length = m.s.voices.length := by
  unfold visit
  dsimp only
  split <;> simp

@[simp] theorem length_voices_foldl_visit (vs : List Nat) (m : Mix) :
    (vs.foldl visit m).s.voices.length = m.s.voices.length := by
  induction vs generalizing m with
  | nil => rfl
  | cons v vs ih => rw [List.foldl_cons, ih]; simp

/-- A visit touches no other slot. -/
theorem voiceAt_visit_ne {v u : Nat} (h : u ≠ v) (m : Mix) : (visit m v).s.voiceAt u = m.s.voiceAt u := by
  unfold visit
  dsimp only
  split
  · show (m.s.removeVoice v).voiceAt u = _
    rw [voiceAt_removeVoice, if_neg h]
  · rfl
  · show ((m.s.readVoice v).1.reap v).voiceAt u = _
    unfold State.reap
    split
    · rw [voiceAt_removeVoice, if_neg h, voiceAt_readVoice_ne h]
    · rw [voiceAt_readVoice_ne h]

theorem voiceAt_foldl_visit_of_not_mem {vs : List Nat} {u : Nat} (h : u ∉ vs) (m : Mix) :
    (vs.foldl visit m).s.voiceAt u = m.s.voiceAt u := by
  induction vs generalizing m with
  | nil => rfl
  | cons v vs ih =>
    simp only [List.mem_cons, not_or] at h
    rw [List.foldl_cons, ih h.2, voiceAt_visit_ne h.1]

/-- A property that the removal and the read of an active slot keep is kept by its visit. -/
theorem visit_keeps {I : State → Prop} {v : Nat}
    (remove : ∀ t, I t → (t.voiceAt v).active = true → I (t.removeVoice v))
    (read : ∀ t, I t → (t.voiceAt v).active = true → I (t.readVoice v).1)
    {m : Mix} (h : I m.s) (ha : (m.s.voiceAt v).active = true) : I (visit m v).s := by
  unfold visit
  dsimp only
  split
  · exact remove _ h ha
  · exact h
  · have h1 := read _ h ha
    show I ((m.s.readVoice v).1.reap v)
    unfold State.reap
    split
    · refine remove _ h1 ?_
      obtain ⟨p, st, he⟩ := voiceAt_readVoice_self v m.s
      rw [he]
      exact ha
    · exact h1

theorem foldl_visit_keeps {I : State → Prop}
    (remove : ∀ t v, I t → (t.voiceAt v).active = true → I (t.removeVoice v))
    (read : ∀ t v, I t → (t.voiceAt v).active = true → I (t.readVoice v).1)
    {vs : List Nat} (hn : vs.Nodup) {m : Mix} (ha : ∀ v ∈ vs, (m.s.voiceAt v).active = true) (h : I m.s) :
    I (vs.foldl visit m).s := by
  induction vs generalizing m with
  | nil => exact h
  | cons v vs ih =>
    rw [List.nodup_cons] at hn
    rw [List.foldl_cons]
    refine ih hn.2 (fun u hu => ?_) (visit_keeps (fun t => remove t v) (fun t => read t v) h (ha v (by simp)))
    rw [voiceAt_visit_ne (by rintro rfl; exact hn.1 hu)]
    exact ha u (by simp [hu])

/-- The accumulator's place i after one voice's frames are added. -/
theorem getElem?_addFrames (vol : Nat) (acc : List (Int × Int)) (fs : List StereoFrame) (i : Nat) :
    (addFrames vol acc fs)[i]? = acc[i]?.map (fun a =>
      (a.1 + (fs[i]?.map (fun f => scale f.l vol)).getD 0, a.2 + (fs[i]?.map (fun f => scale f.r vol)).getD 0)) := by
  induction acc generalizing fs i with
  | nil => cases fs <;> simp [addFrames]
  | cons a acc ih =>
    cases fs with
    | nil => cases h : (a :: acc)[i]? <;> simp [addFrames, h]
    | cons f fs => cases i with
      | zero => simp [addFrames]
      | succ i => simpa [addFrames] using ih fs i

/-- A visit adds what its voice supplies, at the volume it has before the visit. -/
theorem acc_visit (m : Mix) (v : Nat) :
    (visit m v).acc = addFrames (m.s.voiceAt v).vol m.acc (m.s.supplies v) := by
  have h0 : ∀ vol acc, addFrames vol acc [] = acc := by
    intro vol acc
    cases acc <;> rfl
  unfold visit State.supplies
  dsimp only
  cases h : (m.s.voiceAt v).state <;> simp [h0]

/-- What a voice supplies depends on its slot, the block size, clip memory and, for a stream voice, the ring. -/
theorem supplies_congr {s t : State} {v : Nat} (hv : t.voiceAt v = s.voiceAt v) (hc : t.cfg = s.cfg)
    (hm : t.clips = s.clips) (hr : (s.voiceAt v).stream = true → t.ring = s.ring) :
    t.supplies v = s.supplies v := by
  unfold State.supplies State.readVoice
  rw [hv]
  split
  · dsimp only
    split
    · rename_i h
      rw [hr h, hc]
    · rw [hc, hm]
  · rfl

/-- A visit of a clip voice leaves the ring alone. -/
theorem ring_visit_of_clip (m : Mix) {v : Nat} (h : (m.s.voiceAt v).stream = false) :
    (visit m v).s.ring = m.s.ring := by
  unfold visit
  dsimp only
  split
  · show (m.s.removeVoice v).ring = _
    rw [State.removeVoice_ring, h]
    rfl
  · rfl
  · obtain ⟨p, st, k, he, hk⟩ := readVoice_cases v m.s
    have hr : (m.s.readVoice v).1.ring = m.s.ring := by
      rw [he, hk h]
      rfl
    show ((m.s.readVoice v).1.reap v).ring = _
    unfold State.reap
    split
    · obtain ⟨p', st', hs⟩ := voiceAt_readVoice_self v m.s
      rw [State.removeVoice_ring, hs]
      simp [h, hr]
    · exact hr

/-- Only a playing voice contributes. -/
theorem contrib_visit (m : Mix) (v : Nat) :
    (visit m v).contrib = m.contrib ∨
      (m.s.voiceAt v).state = .playing ∧ (visit m v).contrib = m.contrib ++ [v] := by
  unfold visit
  dsimp only
  cases h : (m.s.voiceAt v).state with
  | stopped => exact .inl rfl
  | paused => exact .inl rfl
  | playing =>
    dsimp only
    split
    · exact .inl rfl
    · exact .inr ⟨rfl, rfl⟩

theorem mem_contrib_foldl_visit {vs : List Nat} (hn : vs.Nodup) {m : Mix} {u : Nat}
    (h : u ∈ (vs.foldl visit m).contrib) :
    u ∈ m.contrib ∨ u ∈ vs ∧ (m.s.voiceAt u).state = .playing := by
  induction vs generalizing m with
  | nil => exact .inl h
  | cons v vs ih =>
    rw [List.nodup_cons] at hn
    rw [List.foldl_cons] at h
    rcases ih hn.2 h with h | ⟨h1, h2⟩
    · rcases contrib_visit m v with e | ⟨hp, e⟩ <;> rw [e] at h
      · exact .inl h
      · rcases List.mem_append.1 h with h | h
        · exact .inl h
        · obtain rfl : u = v := by simpa using h
          exact .inr ⟨by simp, hp⟩
    · refine .inr ⟨by simp [h1], ?_⟩
      rwa [voiceAt_visit_ne (by rintro rfl; exact hn.1 h1)] at h2

/-- The slot of a voice that is visited is as its own visit leaves it. -/
theorem voiceAt_foldl_visit_of_mem {vs : List Nat} (hn : vs.Nodup) {u : Nat} (h : u ∈ vs) (m : Mix) :
    ∃ m' : Mix, m'.s.voiceAt u = m.s.voiceAt u ∧ (vs.foldl visit m).s.voiceAt u = (visit m' u).s.voiceAt u := by
  induction vs generalizing m with
  | nil => cases h
  | cons v vs ih =>
    rw [List.nodup_cons] at hn
    rw [List.foldl_cons]
    by_cases hu : u = v
    · subst hu
      exact ⟨m, rfl, voiceAt_foldl_visit_of_not_mem hn.1 _⟩
    · obtain ⟨m', h1, h2⟩ := ih hn.2 (by simpa [hu] using h) (visit m v)
      exact ⟨m', h1.trans (voiceAt_visit_ne hu m), h2⟩

/-! ### Emission and the tick -/

@[simp] theorem length_emitBlock (acc : List (Int × Int)) : (emitBlock acc).length = acc.length := by
  simp [emitBlock]

theorem removeInUse_keeps {I : State → Prop}
    (remove : ∀ t v, I t → (t.voiceAt v).inUse = true → I (t.removeVoice v)) (vs : List Nat) {s : State} (h : I s) :
    I (s.removeInUse vs) := by
  unfold State.removeInUse
  induction vs generalizing s with
  | nil => exact h
  | cons v vs ih =>
    rw [List.foldl_cons]
    refine ih ?_
    split
    · rename_i hu
      exact remove _ _ h hu
    · exact h

@[simp] theorem length_voices_removeInUse (vs : List Nat) (s : State) :
    (s.removeInUse vs).voices.length = s.voices.length :=
  removeInUse_keeps (I := fun t => t.voices.length = s.voices.length) (fun t v h _ => by simpa using h) vs rfl

/-- A slot outside the list, or no longer in use, is left alone. -/
theorem voiceAt_removeInUse_of_not {vs : List Nat} {s : State} {u : Nat} (h : u ∉ vs ∨ (s.voiceAt u).inUse = false) :
    (s.removeInUse vs).voiceAt u = s.voiceAt u := by
  unfold State.removeInUse
  induction vs generalizing s with
  | nil => rfl
  | cons v vs ih =>
    rw [List.foldl_cons]
    have hs : (if (s.voiceAt v).inUse then s.removeVoice v else s).voiceAt u = s.voiceAt u := by
      split
      · rename_i hv
        rw [voiceAt_removeVoice, if_neg]
        rintro rfl
        rcases h with h | h
        · simp at h
        · rw [h] at hv
          cases hv
      · rfl
    rw [ih (by rw [hs]; exact h.imp (fun h => by simp at h; exact h.2) id), hs]

@[simp] theorem length_acc_visits (s : State) : s.visits.acc.length = s.cfg.mixBlock := by
  simp [State.visits]

/-- What a tick does after its visits: no line write when no voice supplied a frame; else one write of a block, with the contributing voices removed and LINE_WRITE_FAIL recorded when it fails. -/
theorem tick_cases (s : State) :
    (s.admitAll.visits.contrib = [] ∧
      s.tick = { s.admitAll.visits.s with mixer := { s.admitAll.visits.s.mixer with syncreq := false } }) ∨
    ∃ u : State, u = s.admitAll.visits.s.lineWrite (emitBlock s.admitAll.visits.acc) ∧
      (s.env.lineDraw = .ok ∧ s.tick = { u with mixer := { u.mixer with syncreq := false } } ∨
       s.env.lineDraw = .fail ∧
        ∃ r, r = (u.removeInUse s.admitAll.visits.contrib).record .lineWriteFail noOp
            (idx8 (s.admitAll.visits.contrib.headD 0)) ∧
          s.tick = { r with mixer := { r.mixer with syncreq := false } }) := by
  unfold State.tick
  dsimp only
  by_cases hc : s.admitAll.visits.contrib = []
  · left
    rw [if_pos (by simp [hc])]
    exact ⟨hc, rfl⟩
  · right
    rw [if_neg (by simpa using hc)]
    refine ⟨_, rfl, ?_⟩
    have he : s.admitAll.visits.s.env = s.env := by simp
    unfold State.emit State.lineOk
    rw [he]
    cases hd : s.env.lineDraw with
    | ok => simp
    | fail => simp

/-- A property that each part of a tick keeps is kept by the tick. -/
theorem tick_keeps {I : State → Prop} {s : State}
    (enter : I s.admitAll)
    (remove : ∀ t v, I t → (t.voiceAt v).inUse = true → I (t.removeVoice v))
    (read : ∀ t v, I t → (t.voiceAt v).active = true → I (t.readVoice v).1)
    (lineWrite : ∀ fs t, I t → t.cfg = s.cfg → t.line = s.line → fs.length = s.cfg.mixBlock → I (t.lineWrite fs))
    (record : ∀ t e o x, I t → I (State.record e o x t))
    (syncreq : ∀ t, I t → I { t with mixer := { t.mixer with syncreq := false } }) : I s.tick := by
  have hv : I s.admitAll.visits.s := by
    refine foldl_visit_keeps (fun t v h ha => remove t v h ?_) read (nodup_slotsWhere _ _) (fun v hv => ?_) enter
    · simp [Voice.inUse, ha]
    · exact ((mem_slotsWhere _).1 hv).2
  rcases tick_cases s with ⟨-, h⟩ | ⟨u, hu, h⟩
  · rw [h]; exact syncreq _ hv
  · have hI : I u := hu ▸ lineWrite _ _ hv (by simp) (by simp) (by simp)
    rcases h with ⟨-, h⟩ | ⟨-, r, hr, h⟩
    · rw [h]; exact syncreq _ hI
    · rw [h]
      exact syncreq _ (hr ▸ record _ _ _ _ (removeInUse_keeps remove _ hI))

end Sys2Proof.Machine
end

