-- ==== Sys2Proof/Laws/Stream.lean ====
section
/-! SUPPORT. What one call of the synchroniser answers, case by case (40_stream.md R150), and what it does to the stream. -/

namespace Sys2Proof.Machine

variable {s : State}

theorem setKind_self {k : StreamKind} (h : s.stream.kind = k) : s.setKind k = s := by subst h; rfl

theorem syncStep_failed (op : Byte) (k : Nat) (h : s.stream.mode = .failed) :
    s.syncStep op k = (.malformed, k, s) := by
  simp [State.syncStep, h]

/-- The WAV cases of SyncStep. -/
theorem syncStep_wav (op : Byte) (k : Nat) (hm : s.stream.mode ≠ .failed)
    (h : s.stream.kind = .wav ∨ s.stream.kind = .unknown ∧ s.stream.input.take 4 = riffTag) :
    s.syncStep op k = (.wav, k, s.setKind .wav) := by
  rcases h with h | ⟨h, ht⟩
  · simp [State.syncStep, hm, h, setKind_self h]
  · have hl : ¬ s.stream.input.length < 4 := by
      intro hl
      have := congrArg List.length ht
      simp [riffTag] at this
      omega
    simp [State.syncStep, hm, h, hl, ht]

/-- Fewer than four bytes and no end of the stream: hold. -/
theorem syncStep_short (op : Byte) (k : Nat) (hm : s.stream.mode ≠ .failed) (hk : s.stream.kind ≠ .wav)
    (hl : s.stream.input.length < 4) :
    s.syncStep op k = if s.stream.eos then (.ended, k, s.setKind .mpeg) else (.hold, k, s) := by
  cases h : s.stream.kind with
  | wav => contradiction
  | unknown => simp only [State.syncStep, hm, h, if_false, hl, if_true]
  | mpeg =>
    simp only [State.syncStep, hm, h, if_false, State.scan, candidate, hl, if_true, setKind_self h]
    cases s.stream.eos <;> rfl

/-- A stream of at least four bytes that is not WAV is scanned as MPEG. -/
theorem syncStep_scan (op : Byte) (k : Nat) (hm : s.stream.mode ≠ .failed)
    (hk : s.stream.kind = .mpeg ∨ s.stream.kind = .unknown ∧ s.stream.input.take 4 ≠ riffTag)
    (hl : 4 ≤ s.stream.input.length) :
    s.syncStep op k = (s.setKind .mpeg).scan op k := by
  rcases hk with h | ⟨h, ht⟩
  · simp only [State.syncStep, hm, h, if_false, setKind_self h]
  · simp only [State.syncStep, hm, h, if_false, ht, if_neg (Nat.not_lt.2 hl)]

/-- The candidate at the cursor does not depend on the stream's kind. -/
@[simp] theorem candidate_setKind (k : StreamKind) : candidate (s.setKind k).stream = candidate s.stream := rfl

variable {st : Stream} {h : Word}

/-- A confirmed candidate (R155). -/
theorem candidate_accepted (hh : h = be32 st.input 0) (hs : syncMark h st.mode st.word = true)
    (hl : 4 ≤ st.input.length)
    (hc : frameLen h + 4 ≤ st.input.length ∧ syncMark (be32 st.input (frameLen h)) st.mode st.word = true ∨
      st.eos = true ∧ frameLen h ≤ st.input.length ∧ st.input.length < frameLen h + 4) :
    candidate st = .accepted h := by
  subst hh
  rw [candidate, if_neg (by omega)]
  dsimp only
  rw [if_pos hs]
  rcases hc with ⟨h1, h2⟩ | ⟨h1, h2, h3⟩
  · rw [if_neg (by omega), if_neg (by omega), if_pos (.inr h2)]
  · rw [if_neg (by simp [h1]), if_neg (by omega), if_pos (.inl h3)]

/-- A rejected candidate (R157). -/
theorem candidate_rejected (hh : h = be32 st.input 0) (hl : 4 ≤ st.input.length)
    (hc : syncMark h st.mode st.word = false ∨
      frameLen h + 4 ≤ st.input.length ∧ syncMark (be32 st.input (frameLen h)) st.mode st.word = false) :
    candidate st = .rejected := by
  subst hh
  rw [candidate, if_neg (by omega)]
  dsimp only
  rcases hc with hc | ⟨h1, h2⟩
  · simp [hc]
  · by_cases hs : syncMark (be32 st.input 0) st.mode st.word = true
    · rw [if_pos hs, if_neg (by omega), if_neg (by omega), if_neg (by simp [h2]; omega)]
    · rw [if_neg hs]

/-- A candidate whose frame or next header is not all there: wait while more may come (R150). -/
theorem candidate_wait (hl : 4 ≤ st.input.length) (hs : syncMark (be32 st.input 0) st.mode st.word = true)
    (he : st.eos = false) (hc : st.input.length < frameLen (be32 st.input 0) + 4) : candidate st = .wait := by
  rw [candidate, if_neg (by omega)]
  dsimp only
  rw [if_pos hs, if_pos (by simp [he, hc])]

/-- A frame cut off by the end of the stream (R176). -/
theorem candidate_ended (hl : 4 ≤ st.input.length) (hs : syncMark (be32 st.input 0) st.mode st.word = true)
    (he : st.eos = true) (hc : st.input.length < frameLen (be32 st.input 0)) : candidate st = .ended := by
  rw [candidate, if_neg (by omega)]
  dsimp only
  rw [if_pos hs, if_neg (by simp [he]), if_pos hc]

/-! ### SyncStep as a whole, on a stream that is scanned -/

section
variable (op : Byte) (k : Nat) (hm : s.stream.mode ≠ .failed)
include hm

/-- SyncStep accepts a confirmed candidate. -/
theorem syncStep_accepted
    (hk : s.stream.kind = .mpeg ∨ s.stream.kind = .unknown ∧ s.stream.input.take 4 ≠ riffTag)
    (hl : 4 ≤ s.stream.input.length) (hh : h = be32 s.stream.input 0)
    (hs : syncMark h s.stream.mode s.stream.word = true)
    (hc : frameLen h + 4 ≤ s.stream.input.length ∧
        syncMark (be32 s.stream.input (frameLen h)) s.stream.mode s.stream.word = true ∨
      s.stream.eos = true ∧ frameLen h ≤ s.stream.input.length ∧ s.stream.input.length < frameLen h + 4) :
    s.syncStep op k = (.frame, k, (s.setKind .mpeg).accept op h) := by
  rw [syncStep_scan op k hm hk hl, State.scan, candidate_setKind, candidate_accepted hh hs hl hc]

/-- SyncStep on a rejected candidate: one byte further, or the end of the scan window. -/
theorem syncStep_rejected
    (hk : s.stream.kind = .mpeg ∨ s.stream.kind = .unknown ∧ s.stream.input.take 4 ≠ riffTag)
    (hl : 4 ≤ s.stream.input.length) (hh : h = be32 s.stream.input 0)
    (hc : syncMark h s.stream.mode s.stream.word = false ∨
      frameLen h + 4 ≤ s.stream.input.length ∧
        syncMark (be32 s.stream.input (frameLen h)) s.stream.mode s.stream.word = false) :
    s.syncStep op k =
      if k = s.cfg.maxResync then
        (.malformed, k, { s with stream := { s.stream with mode := .failed, kind := .mpeg } })
      else
        (.cont, k + 1,
          { s with
            stream := { s.stream with input := s.stream.input.drop 1, pos := s.stream.pos + 1, kind := .mpeg }
            counters := { s.counters with resyncBytes := s.counters.resyncBytes + 1 } }) := by
  rw [syncStep_scan op k hm hk hl, State.scan, candidate_setKind, candidate_rejected hh hl hc]
  rfl

/-- SyncStep at the end of the stream. -/
theorem syncStep_ended (hk : s.stream.kind ≠ .wav) (he : s.stream.eos = true)
    (hc : s.stream.input.length < 4 ∨
      (s.stream.kind = .mpeg ∨ s.stream.input.take 4 ≠ riffTag) ∧
        syncMark (be32 s.stream.input 0) s.stream.mode s.stream.word = true ∧
        s.stream.input.length < frameLen (be32 s.stream.input 0)) :
    s.syncStep op k = (.ended, k, s.setKind .mpeg) := by
  by_cases hl : s.stream.input.length < 4
  · rw [syncStep_short op k hm hk hl, if_pos he]
  · obtain ⟨h1, h2, h3⟩ := hc.resolve_left hl
    have hk' : s.stream.kind = .mpeg ∨ s.stream.kind = .unknown ∧ s.stream.input.take 4 ≠ riffTag := by
      cases hkk : s.stream.kind <;> simp_all
    rw [syncStep_scan op k hm hk' (by omega), State.scan, candidate_setKind, candidate_ended (by omega) h2 he h3]

/-- SyncStep waits for input. -/
theorem syncStep_hold (hk : s.stream.kind ≠ .wav) (he : s.stream.eos = false)
    (hc : s.stream.input.length < 4 ∨
      (s.stream.kind = .mpeg ∨ s.stream.input.take 4 ≠ riffTag) ∧
        syncMark (be32 s.stream.input 0) s.stream.mode s.stream.word = true ∧
        s.stream.input.length < frameLen (be32 s.stream.input 0) + 4) :
    ∃ t, s.syncStep op k = (.hold, k, t) := by
  by_cases hl : s.stream.input.length < 4
  · exact ⟨s, by rw [syncStep_short op k hm hk hl, if_neg (by simp [he])]⟩
  · obtain ⟨h1, h2, h3⟩ := hc.resolve_left hl
    have hk' : s.stream.kind = .mpeg ∨ s.stream.kind = .unknown ∧ s.stream.input.take 4 ≠ riffTag := by
      cases hkk : s.stream.kind <;> simp_all
    exact ⟨_, by
      rw [syncStep_scan op k hm hk' (by omega), State.scan, candidate_setKind, candidate_wait (by omega) h2 he h3]⟩

end

/-- What an accepted candidate was. -/
theorem of_candidate_accepted (hc : candidate st = .accepted h) :
    h = be32 st.input 0 ∧ syncMark h st.mode st.word = true ∧ 4 ≤ st.input.length ∧
      frameLen h ≤ st.input.length := by
  unfold candidate at hc
  dsimp only at hc
  split at hc
  · split at hc <;> cases hc
  · rename_i h4
    split at hc
    · rename_i hs
      split at hc
      · cases hc
      · split at hc
        · cases hc
        · split at hc
          · cases hc
            exact ⟨rfl, hs, by omega, by omega⟩
          · cases hc
    · cases hc

/-- What one call of SyncStep does to the state, whatever it answers. -/
inductive SyncEffect (op : Byte) (k : Nat) (s : State) : SyncOutcome × Nat × State → Prop where
  /-- It holds; its caller then has no effect at all (log 10). -/
  | hold (t : State) : SyncEffect op k s (.hold, k, t)
  /-- It finds the end, a WAV stream or a stream given up before; at most the kind is settled. -/
  | settle (o : SyncOutcome) (kind : StreamKind) (end_ : o = .ended ∨ o = .wav ∨ o = .malformed) :
      SyncEffect op k s (o, k, s.setKind kind)
  /-- It gives the stream up. -/
  | giveUp (mode : s.stream.mode ≠ .failed) :
      SyncEffect op k s
        (.malformed, k, { s with stream := { s.stream with mode := .failed, kind := .mpeg } })
  /-- It moves one byte on. -/
  | skip (mode : s.stream.mode ≠ .failed) :
      SyncEffect op k s
        (.cont, k + 1,
          { s with
            stream := { s.stream with input := s.stream.input.drop 1, pos := s.stream.pos + 1, kind := .mpeg }
            counters := { s.counters with resyncBytes := s.counters.resyncBytes + 1 } })
  /-- It accepts a frame. -/
  | frame (h : Word) (mode : s.stream.mode ≠ .failed) (cand : candidate s.stream = .accepted h) :
      SyncEffect op k s (.frame, k, (s.setKind .mpeg).accept op h)

theorem scan_effect (op : Byte) (k : Nat) (s : State) (hm : s.stream.mode ≠ .failed) :
    SyncEffect op k s ((s.setKind .mpeg).scan op k) := by
  unfold State.scan
  rw [candidate_setKind]
  cases hc : candidate s.stream with
  | wait => exact .hold _
  | ended => exact .settle _ _ (.inl rfl)
  | accepted h => exact .frame h hm hc
  | rejected =>
    show SyncEffect op k s ((s.setKind .mpeg).reject k)
    unfold State.reject
    split
    · exact .giveUp hm
    · exact .skip hm

theorem syncStep_effect (op : Byte) (k : Nat) (s : State) : SyncEffect op k s (s.syncStep op k) := by
  by_cases hm : s.stream.mode = .failed
  · rw [syncStep_failed op k hm]
    have := SyncEffect.settle (op := op) (k := k) (s := s) .malformed s.stream.kind (by simp)
    rwa [setKind_self rfl] at this
  · cases hk : s.stream.kind with
    | wav =>
      rw [syncStep_wav op k hm (.inl hk)]
      exact .settle _ _ (by simp)
    | mpeg =>
      have h := scan_effect op k s hm
      rw [setKind_self hk] at h
      simpa only [State.syncStep, hm, hk, if_false] using h
    | unknown =>
      by_cases hl : s.stream.input.length < 4
      · rw [syncStep_short op k hm (by simp [hk]) hl]
        split
        · exact .settle _ _ (by simp)
        · exact .hold _
      · by_cases ht : s.stream.input.take 4 = riffTag
        · rw [syncStep_wav op k hm (.inr ⟨hk, ht⟩)]
          exact .settle _ _ (by simp)
        · rw [syncStep_scan op k hm (.inr ⟨hk, ht⟩) (by omega)]
          exact scan_effect op k s hm

/-- What Accept leaves of the stream, the current frame and the header registers (R156). -/
theorem accept_stream (op : Byte) (h : Word) (s : State) :
    (s.accept op h).stream =
      { s.stream with
        input := s.stream.input.drop (frameLen h)
        pos := s.stream.pos + frameLen h
        mode := if s.stream.mode = .initial then .strict else s.stream.mode
        word := if s.stream.mode = .initial then h &&& frozenMask else s.stream.word
        nframes := s.stream.nframes + 1 } ∧
    (s.accept op h).frame =
      some { hdr := h, payload := slice s.stream.input 4 (frameLen h - 4), pending := true } ∧
    (s.accept op h).hdr = headerRegisters h s.stream.pos (slice s.stream.input 4 (frameLen h - 4)) := by
  unfold State.accept State.applyVbr
  dsimp only
  split
  · rename_i hi
    simp only [decide_eq_true_eq] at hi
    split <;> simp [hi]
  · rename_i hi
    simp only [decide_eq_true_eq] at hi
    simp [hi]

/-- The VBR registers change only with the first frame (R175). -/
theorem accept_vbr (op : Byte) (h : Word) (s : State) (hm : s.stream.mode ≠ .initial) :
    (s.accept op h).vbr = s.vbr := by
  unfold State.accept
  simp [hm]

end Sys2Proof.Machine
end

