-- ==== Sys2Proof/Laws/Commands.lean ====
section
/-! SUPPORT. What a sequencer step of any command can do to the voices, the queue and the ring, to the clip store, and to the command in progress, each said once as a list of cases. -/

namespace Sys2Proof.Machine

/-! ### Volumes and operands -/

theorem clampv_le (x : Int) : clampv x ≤ 32768 := by
  unfold clampv
  omega

theorem volumeOperand_le (w : Word) : volumeOperand w ≤ 32768 := clampv_le _

/-- The three ends of a voice command (R233). -/
theorem onVoice_cases (op : Byte) (v : Nat) (act : State → State) (s : State) :
    (s.nVoices ≤ v ∧ onVoice op v act s = s.raise .badIndex op (idx8 v)) ∨
    (v < s.nVoices ∧ (s.voiceAt v).inUse = false ∧ onVoice op v act s = s.complete 1) ∨
    (v < s.nVoices ∧ (s.voiceAt v).inUse = true ∧ onVoice op v act s = act s) := by
  unfold onVoice
  by_cases h : s.nVoices ≤ v
  · exact .inl ⟨h, if_pos h⟩
  · rw [if_neg h]
    cases hu : (s.voiceAt v).inUse with
    | false => exact .inr (.inl ⟨by omega, rfl, if_pos (by simp)⟩)
    | true => exact .inr (.inr ⟨by omega, rfl, if_neg (by simp)⟩)

/-! ### The ring -/

/-- Every frame of the ring has rch samples, where rch is 1 or 2 (10_state.md R27). -/
def Ring.framesOk (r : Ring) : Prop := r.ch = 1 ∨ r.ch = 2 → ∀ f ∈ r.buf, f.samples.length = r.ch

/-- A ring that a step leaves as it was, or, bound, with its flag `closed` and its frames changed, their samples still rch. -/
def Ring.KeptBy (r r' : Ring) : Prop :=
  r' = r ∨ r.bound = true ∧ ∃ c b, r' = { r with closed := c, buf := b } ∧ (r.framesOk → r'.framesOk)

theorem ring_keptBy_resetStream (s : State) : s.ring.KeptBy s.resetStream.ring := by
  show s.ring.KeptBy (if s.ring.bound then { s.ring with closed := true, buf := [] } else s.ring)
  split
  · exact .inr ⟨by assumption, _, _, rfl, fun _ _ => nofun⟩
  · exact .inl rfl

theorem ring_keptBy_closeRing (s : State) : s.ring.KeptBy s.closeRing.ring := by
  rw [State.closeRing_ring]
  split
  · exact .inr ⟨by assumption, _, _, rfl, id⟩
  · exact .inl rfl

theorem ring_keptBy_ringAppend (s : State) : s.ring.KeptBy s.ringAppend.ring := by
  unfold State.ringAppend
  split
  · rename_i h
    simp only [Bool.and_eq_true] at h
    refine .inr ⟨h.1, _, _, rfl, fun hk hc f hf => ?_⟩
    rcases List.mem_append.1 hf with hf | hf
    · exact hk hc f hf
    · exact length_samples_ringFrames (s := s) hc f hf
  · exact .inl rfl

theorem ring_keptBy_readFrameStep (j : Job) (s : State) : s.ring.KeptBy (readFrameStep j s).ring := by
  unfold readFrameStep
  dsimp only
  split <;> rename_i hq <;> first
    | exact .inl rfl
    | (have e := congrArg (fun x => x.2.2) hq
       dsimp only at e
       subst e
       first
         | (refine .inl ?_; simp; done)
         | (have h := ring_keptBy_closeRing (State.setEosSeen true (State.syncStep Instr.readFrame.opcode j.progress.skipped s).2.2)
            simpa using h))

theorem ring_keptBy_decodeFrameStep (j : Job) (s : State) : s.ring.KeptBy (decodeFrameStep j s).ring := by
  unfold decodeFrameStep
  dsimp only
  split
  · exact .inl rfl
  · rename_i f _
    split
    · exact .inl rfl
    · split
      · exact .inl rfl
      · split
        · have h := ring_keptBy_ringAppend (s.decodeCurrent Instr.decodeFrame.opcode f).1
          rw [decodeCurrent_ring] at h
          exact h
        · refine .inl ?_
          simp

/-! ### Voices, queue and ring -/

/-- What a sequencer step can do to the voices, the queue and the ring. -/
inductive VoiceEffect (s t : State) : Prop where
  /-- Nothing, but that a bound ring may be closed or its frames change. -/
  | none (voices : t.voices = s.voices) (fifo : t.mixer.fifo = s.mixer.fifo) (ring : s.ring.KeptBy t.ring)
  /-- The state, volume or loop flag of one slot in use. -/
  | set (v : Nat) (st : VoiceState) (vol : Nat) (lp : Bool) (lt : v < s.voices.length)
      (inUse : (s.voiceAt v).inUse = true) (volOk : vol = (s.voiceAt v).vol ∨ vol ≤ 32768)
      (voices : t.voices = s.voices.set v { s.voiceAt v with state := st, vol := vol, loop := lp })
      (fifo : t.mixer.fifo = s.mixer.fifo) (ring : t.ring = s.ring)
  /-- A new clip voice in a free slot, on a valid clip. -/
  | clip (v c : Nat) (lp : Bool) (vol : Nat) (free : s.freeSlot = some v) (volOk : vol ≤ 32768)
      (desc : s.clipError c = Option.none)
      (voices : t.voices = s.voices.set v (newClipVoice c (s.descAt c) lp vol))
      (fifo : t.mixer.fifo = s.mixer.fifo ++ [v]) (ring : t.ring = s.ring)
  /-- A new stream voice in a free slot, with the ring bound to it. -/
  | stream (v ch vol : Nat) (free : s.freeSlot = some v) (volOk : vol ≤ 32768) (unbound : s.ring.bound = false)
      (frames : s.stream.nframes ≠ 0) (channels : ch = s.streamChannels)
      (voices : t.voices = s.voices.set v (newStreamVoice ch vol))
      (fifo : t.mixer.fifo = s.mixer.fifo ++ [v])
      (ring : t.ring = { bound := true, closed := false, voice := v, ch := ch, buf := [] })
  /-- The poison pill of MIXER_STOP. -/
  | poison (voices : t.voices = s.poison.voices) (fifo : t.mixer.fifo = []) (ring : t.ring = s.poison.ring)

theorem voiceEffect_of_same {s t : State} (hv : t.voices = s.voices) (hm : t.mixer = s.mixer)
    (hr : t.ring = s.ring) : VoiceEffect s t := .none hv (by rw [hm]) (.inl hr)

/-- A voice command that changes one slot in use. -/
theorem voiceEffect_onVoice (op : Byte) (v : Nat) (act : State → State) (s : State)
    (h : v < s.voices.length → (s.voiceAt v).inUse = true → VoiceEffect s (act s)) :
    VoiceEffect s (onVoice op v act s) := by
  rcases onVoice_cases op v act s with ⟨-, e⟩ | ⟨-, -, e⟩ | ⟨h1, h2, e⟩
  · rw [e]; exact voiceEffect_of_same rfl rfl rfl
  · rw [e]; exact voiceEffect_of_same rfl rfl rfl
  · rw [e]; exact h h1 h2

/-- The effect of a sequencer step on the voices, for every command. -/
theorem voiceEffect_body (i : Instr) (j : Job) (s : State) : VoiceEffect s (bodyOf i j s) := by
  cases i with
  | nop => exact voiceEffect_of_same rfl rfl rfl
  | resetStream => exact .none rfl rfl (ring_keptBy_resetStream s)
  | readFrame => exact .none (by simp [bodyOf]) (by simp [bodyOf]) (ring_keptBy_readFrameStep j s)
  | decodeFrame => exact .none (by simp [bodyOf]) (by simp [bodyOf]) (ring_keptBy_decodeFrameStep j s)
  | loadClip c => exact voiceEffect_of_same (by simp [bodyOf]) (by simp [bodyOf]) (by simp [bodyOf])
  | playStream =>
    show VoiceEffect s (playStreamStep j s)
    unfold playStreamStep
    dsimp only
    split
    · exact voiceEffect_of_same rfl rfl rfl
    · rename_i hb
      split
      · exact voiceEffect_of_same rfl rfl rfl
      · split
        · exact voiceEffect_of_same rfl rfl rfl
        · split
          · exact voiceEffect_of_same rfl rfl rfl
          · rename_i v hv
            exact .stream v s.streamChannels _ hv (volumeOperand_le _) (by simpa using hb) (by assumption) rfl rfl rfl rfl
  | clipDefine c => exact voiceEffect_of_same (by simp [bodyOf]) (by simp [bodyOf]) (by simp [bodyOf])
  | clipFreeAll => exact voiceEffect_of_same (by simp [bodyOf]) (by simp [bodyOf]) (by simp [bodyOf])
  | mixerStart =>
    refine .none (by simp [bodyOf]) ?_ (.inl (by simp [bodyOf]))
    show (mixerStartStep j s).mixer.fifo = _
    unfold mixerStartStep
    repeat' split
    all_goals rfl
  | mixerStop =>
    show VoiceEffect s (mixerStopStep j s)
    unfold mixerStopStep
    split
    · split <;> exact voiceEffect_of_same rfl rfl rfl
    · split <;> exact .poison rfl rfl rfl
  | mixerSync =>
    refine .none (by simp [bodyOf]) ?_ (.inl (by simp [bodyOf]))
    show (mixerSyncStep j s).mixer.fifo = _
    unfold mixerSyncStep
    repeat' split
    all_goals rfl
  | playVoice c loop =>
    show VoiceEffect s (playVoiceStep c loop j s)
    unfold playVoiceStep
    dsimp only
    split
    · exact voiceEffect_of_same rfl rfl rfl
    · rename_i hc
      split
      · exact voiceEffect_of_same rfl rfl rfl
      · rename_i v hv
        exact .clip v c loop _ hv (volumeOperand_le _) hc rfl rfl rfl
  | pauseVoice v =>
    refine voiceEffect_onVoice (Instr.pauseVoice v).opcode v
      (fun s => (s.setVoice v (s.voiceAt v).pause).complete 0) s fun h1 h2 => ?_
    refine .set v (s.voiceAt v).pause.state (s.voiceAt v).vol (s.voiceAt v).loop h1 h2 (.inl rfl) ?_ rfl rfl
    show s.voices.set v (s.voiceAt v).pause = _
    congr 1
    unfold Voice.pause
    split <;> rfl
  | resumeVoice v =>
    refine voiceEffect_onVoice (Instr.resumeVoice v).opcode v
      (fun s => (s.setVoice v (s.voiceAt v).resume).complete 0) s fun h1 h2 => ?_
    refine .set v (s.voiceAt v).resume.state (s.voiceAt v).vol (s.voiceAt v).loop h1 h2 (.inl rfl) ?_ rfl rfl
    show s.voices.set v (s.voiceAt v).resume = _
    congr 1
    unfold Voice.resume
    split <;> rfl
  | stopVoice v =>
    exact voiceEffect_onVoice (Instr.stopVoice v).opcode v
      (fun s => (s.setVoice v { s.voiceAt v with state := .stopped }).complete 0) s fun h1 h2 =>
      .set v .stopped (s.voiceAt v).vol (s.voiceAt v).loop h1 h2 (.inl rfl) rfl rfl rfl
  | setVolume v =>
    exact voiceEffect_onVoice (Instr.setVolume v).opcode v
      (fun s => (s.setVoice v { s.voiceAt v with vol := volumeOperand j.arg0 }).complete 0) s fun h1 h2 =>
      .set v (s.voiceAt v).state _ (s.voiceAt v).loop h1 h2 (.inr (volumeOperand_le j.arg0)) rfl rfl rfl
  | setLoop v loop =>
    refine voiceEffect_onVoice (Instr.setLoop v loop).opcode v (setLoopEffect v loop) s fun h1 h2 => ?_
    unfold setLoopEffect
    split
    · exact voiceEffect_of_same rfl rfl rfl
    · exact .set v (s.voiceAt v).state (s.voiceAt v).vol loop h1 h2 (.inl rfl) rfl rfl rfl
  | bypassWrite c => exact voiceEffect_of_same (by simp [bodyOf]) (by simp [bodyOf]) (by simp [bodyOf])

/-- A sequencer step sets STOPPED_MASK bits only by the poison pill (R244, R256). -/
theorem stopped_body (i : Instr) (j : Job) (s : State) :
    (bodyOf i j s).stopped = s.stopped ∨ (bodyOf i j s).stopped = s.poison.stopped := by
  have voice : ∀ (op : Byte) (v : Nat) (act : State → State),
      (∀ u : State, (act u).stopped = u.stopped) → (onVoice op v act s).stopped = s.stopped := by
    intro op v act h
    rcases onVoice_cases op v act s with ⟨-, e⟩ | ⟨-, -, e⟩ | ⟨-, -, e⟩ <;> rw [e]
    · rfl
    · rfl
    · exact h s
  cases i with
  | mixerStop =>
    show (mixerStopStep j s).stopped = _ ∨ (mixerStopStep j s).stopped = _
    unfold mixerStopStep
    split
    · split <;> exact .inl rfl
    · split <;> exact .inr rfl
  | pauseVoice v => exact .inl (voice _ _ (fun s => (s.setVoice v (s.voiceAt v).pause).complete 0) fun _ => rfl)
  | resumeVoice v => exact .inl (voice _ _ (fun s => (s.setVoice v (s.voiceAt v).resume).complete 0) fun _ => rfl)
  | stopVoice v =>
    exact .inl (voice _ _ (fun s => (s.setVoice v { s.voiceAt v with state := .stopped }).complete 0) fun _ => rfl)
  | setVolume v =>
    exact .inl (voice _ _ (fun s => (s.setVoice v { s.voiceAt v with vol := volumeOperand j.arg0 }).complete 0)
      fun _ => rfl)
  | setLoop v loop =>
    refine .inl (voice _ _ (setLoopEffect v loop) fun u => ?_)
    unfold setLoopEffect
    split <;> rfl
  | _ => exact .inl (by simp [bodyOf])

/-! ### The slots after the poison pill -/

theorem voiceAt_poison (s : State) (u : Nat) :
    s.poison.voiceAt u = if (s.voiceAt u).inUse = true then (s.voiceAt u).removed else s.voiceAt u := by
  show (s.removeVoices (s.slotsWhere Voice.inUse)).voiceAt u = _
  rw [voiceAt_removeVoices]
  simp only [mem_slotsWhere]
  by_cases h : (s.voiceAt u).inUse = true
  · simp [h, lt_of_inUse s h]
  · simp [h]

@[simp] theorem length_voices_poison (s : State) : s.poison.voices.length = s.voices.length :=
  length_voices_removeVoices s _

/-- The poison pill unbinds the ring when a stream voice is in use, and else leaves it. -/
theorem ring_poison (s : State) :
    ((∃ v, (s.voiceAt v).streaming = true) → s.poison.ring = s.ring.unbind) ∧
    ((∀ v, (s.voiceAt v).streaming = false) → s.poison.ring = s.ring) := by
  have hr : s.poison.ring = (s.removeVoices (s.slotsWhere Voice.inUse)).ring := rfl
  rw [hr, ring_removeVoices]
  constructor
  · rintro ⟨v, h⟩
    simp only [Voice.streaming, Bool.and_eq_true] at h
    exact if_pos ⟨v, (mem_slotsWhere s).2 ⟨lt_of_inUse s h.1, h.1⟩, h.2⟩
  · intro h
    refine if_neg ?_
    rintro ⟨v, h1, h2⟩
    have := h v
    simp [Voice.streaming, ((mem_slotsWhere s).1 h1).2, h2] at this

/-! ### The clip store -/

/-- What a step of LOAD_CLIP can do to the clip store and to its own progress. -/
inductive LoadEffect (c : Nat) (j : Job) (l : LoadProgress) (s t : State) : Prop where
  /-- It holds. -/
  | held (h : t = s)
  /-- It fails. -/
  | failed (clips : t.clips = s.clips) (cur : t.cur = none)
  /-- It goes on with the same samples. -/
  | same (k : Nat) (clips : t.clips = s.clips) (cur : t.cur = some { j with progress := .loading { l with skipped := k } })
  /-- It stores a decoded frame. -/
  | stored (xs : List Sample) (ch rate : Nat) (fits : l.base + l.w + xs.length ≤ s.cfg.clipMemSamples)
      (chOk : ch = 1 ∨ ch = 2 ∨ 0 < l.nfr ∧ ch = l.ch)
      (clips : t.clips = { s.clips with mem := Memory.writeBlock s.clips.mem (l.base + l.w) xs })
      (cur : t.cur = some { j with progress := .loading ⟨l.base, l.w + xs.length, l.nfr + 1, ch, rate, 0⟩ })
  /-- It makes the clip. -/
  | ended (some : l.nfr ≠ 0)
      (clips : t.clips = { s.clips with descs := s.clips.descs.set c ⟨true, l.base, l.w / l.ch, l.rate, l.ch⟩
                                        alloc := l.base + l.w })
      (cur : t.cur = none)

/-- A decoded frame leaves a decoder of one or two channels. -/
theorem dch_of_decoded (op : Byte) (f : Frame) (s : State) (h : (s.decodeCurrent op f).2 = true) :
    (s.decodeCurrent op f).1.dec.dch = 1 ∨ (s.decodeCurrent op f).1.dec.dch = 2 := by
  rcases decodeCurrent_cases op f s with ⟨hc, ys, l3, delay, h', -, -⟩ | h'
  · rw [h']
    show (initDecoder f s.hdr.sampleRate.toNat s.dec).dch = 1 ∨ (initDecoder f s.hdr.sampleRate.toNat s.dec).dch = 2
    rw [← hc]
    exact channelsOf_one_or_two _
  · rw [h'] at h
    cases h

theorem loadEffect_step (c : Nat) (j : Job) (s : State) :
    LoadEffect c j (j.progress.load s.clips.alloc) s (loadClipStep c j s) := by
  unfold loadClipStep
  dsimp only
  split <;> rename_i hq
  · exact .held rfl
  all_goals
    have e := congrArg (fun x => x.2.2) hq
    dsimp only at e
    subst e
  · exact .same _ (by simp) rfl
  · exact .failed (by simp) rfl
  · exact .failed (by simp) rfl
  · unfold loadClipEnd
    dsimp only
    split
    · exact .failed (by simp) rfl
    · exact .ended (by assumption) (by simp) rfl
  · unfold loadClipFrame
    generalize hl : j.progress.load s.clips.alloc = l
    generalize hu : (s.syncStep (Instr.loadClip c).opcode l.skipped).2.2 = u
    have huc : u.clips = s.clips := by rw [← hu]; simp
    have hug : u.cfg = s.cfg := by rw [← hu]; simp
    rw [hl] at hq
    have huf : ∃ f, u.frame = some f := by
      have he := syncStep_effect (Instr.loadClip c).opcode l.skipped s
      generalize s.syncStep (Instr.loadClip c).opcode l.skipped = r at hq hu he
      subst hu
      cases he with
      | frame h _ _ => exact ⟨_, (accept_stream _ _ _).2.1⟩
      | settle o _ ho => rcases ho with rfl | rfl | rfl <;> cases hq
      | hold | giveUp | skip => cases hq
    obtain ⟨f, hf⟩ := huf
    rw [hf]
    dsimp only
    split
    · rename_i hdec
      rw [hug]
      split
      · exact .failed (by simp [huc]) rfl
      · rename_i hfit
        refine .stored (u.decodeCurrent (Instr.loadClip c).opcode f).1.sink.samples _ _ (by omega) ?_
          (by simp [huc]) rfl
        have hd := dch_of_decoded _ f u hdec
        split
        · rcases hd with hd | hd
          · exact .inl hd
          · exact .inr (.inl hd)
        · exact .inr (.inr ⟨by omega, rfl⟩)
    · exact .same 0 (by simp [huc]) rfl

/-! ### The command in progress -/

/-- The progress records with which a command goes on. -/
def goesOnWith (p : Progress) : Instr → Prop
  | .readFrame => ∃ n, p = .reading n
  | .loadClip _ => ∃ l, p = .loading l
  | .mixerStop => p = .draining
  | .mixerSync => p = .syncing
  | .bypassWrite _ => ∃ d n, p = .bypass d n
  | _ => False

/-- The command `i` holds as it was, goes on with a new progress record, or has ended with CMD_DONE pending (R325). -/
def State.GoesOnOrEnds (i : Instr) (j : Job) (t : State) : Prop :=
  t.cur = some j ∨ (∃ p, goesOnWith p i ∧ t.cur = some { j with progress := p }) ∨
  (t.cur = none ∧ t.irqPend &&& irqCmdDone = irqCmdDone)

theorem ends_complete (i : Instr) (j : Job) (r : Nat) (s : State) : (s.complete r).GoesOnOrEnds i j := by
  refine .inr (.inr ⟨rfl, ?_⟩)
  show (s.irqPend ||| irqCmdDone) &&& irqCmdDone = irqCmdDone
  generalize s.irqPend = x
  revert x
  decide

theorem ends_raise (i : Instr) (j : Job) (e : ErrCode) (op idx : Byte) (s : State) : (s.raise e op idx).GoesOnOrEnds i j := by
  refine .inr (.inr ⟨rfl, ?_⟩)
  show (s.irqPend ||| irqError ||| irqCmdDone) &&& irqCmdDone = irqCmdDone
  generalize s.irqPend = x
  revert x
  decide

theorem goesOn_goOn {i : Instr} (j : Job) {p : Progress} (s : State) (h : goesOnWith p i) :
    (s.goOn j p).GoesOnOrEnds i j := .inr (.inl ⟨p, h, rfl⟩)

theorem goesOn_held (i : Instr) {j : Job} {s : State} (h : s.cur = some j) : s.GoesOnOrEnds i j := .inl h

theorem goesOn_onVoice (i : Instr) (j : Job) (op : Byte) (v : Nat) (act : State → State) (s : State)
    (h : (act s).GoesOnOrEnds i j) : (onVoice op v act s).GoesOnOrEnds i j := by
  rcases onVoice_cases op v act s with ⟨-, e⟩ | ⟨-, -, e⟩ | ⟨-, -, e⟩ <;> rw [e]
  · exact ends_raise _ _ _ _ _ _
  · exact ends_complete _ _ _ _
  · exact h

/-- A sequencer step never replaces the command in progress. -/
theorem goesOn_body (i : Instr) {j : Job} {s : State} (h : s.cur = some j) : (bodyOf i j s).GoesOnOrEnds i j := by
  cases i with
  | nop => exact ends_complete _ _ _ _
  | resetStream => exact ends_complete _ _ _ _
  | readFrame =>
    show (readFrameStep j s).GoesOnOrEnds .readFrame j
    unfold readFrameStep
    dsimp only
    split
    all_goals first
      | exact goesOn_held _ h
      | exact ends_complete _ _ _ _
      | exact goesOn_goOn _ _ ⟨_, rfl⟩
  | decodeFrame =>
    show (decodeFrameStep j s).GoesOnOrEnds .decodeFrame j
    unfold decodeFrameStep
    dsimp only
    split
    · exact ends_raise _ _ _ _ _ _
    · split
      · exact ends_raise _ _ _ _ _ _
      · split
        · exact ends_complete _ _ _ _
        · split <;> exact ends_complete _ _ _ _
  | loadClip c =>
    show (loadClipStep c j s).GoesOnOrEnds (.loadClip c) j
    unfold loadClipStep
    dsimp only
    split <;> rename_i hq
    · exact goesOn_held _ h
    · exact goesOn_goOn _ _ ⟨_, rfl⟩
    · exact ends_raise _ _ _ _ _ _
    · exact ends_raise _ _ _ _ _ _
    · unfold loadClipEnd
      dsimp only
      split
      · exact ends_raise _ _ _ _ _ _
      · exact ends_complete _ _ _ _
    · have e := congrArg (fun x => x.2.2) hq
      dsimp only at e
      subst e
      unfold loadClipFrame
      split
      · exact goesOn_held _ (by simpa using h)
      · dsimp only
        split
        · split
          · exact ends_raise _ _ _ _ _ _
          · exact goesOn_goOn _ _ ⟨_, rfl⟩
        · exact goesOn_goOn _ _ ⟨_, rfl⟩
  | playStream =>
    show (playStreamStep j s).GoesOnOrEnds .playStream j
    unfold playStreamStep
    dsimp only
    repeat' split
    all_goals first
      | exact ends_raise _ _ _ _ _ _
      | exact ends_complete _ _ _ _
  | clipDefine c =>
    show (clipDefineStep c j s).GoesOnOrEnds (.clipDefine c) j
    unfold clipDefineStep
    dsimp only
    repeat' split
    all_goals first
      | exact ends_raise _ _ _ _ _ _
      | exact ends_complete _ _ _ _
  | clipFreeAll =>
    show (clipFreeAllStep j s).GoesOnOrEnds .clipFreeAll j
    unfold clipFreeAllStep
    split
    · exact ends_raise _ _ _ _ _ _
    · exact ends_complete _ _ _ _
  | mixerStart =>
    show (mixerStartStep j s).GoesOnOrEnds .mixerStart j
    unfold mixerStartStep
    repeat' split
    all_goals first
      | exact ends_raise _ _ _ _ _ _
      | exact ends_complete _ _ _ _
  | mixerStop =>
    show (mixerStopStep j s).GoesOnOrEnds .mixerStop j
    unfold mixerStopStep
    repeat' split
    all_goals first
      | exact goesOn_held _ h
      | exact goesOn_goOn _ _ rfl
      | exact ends_complete _ _ _ _
  | mixerSync =>
    show (mixerSyncStep j s).GoesOnOrEnds .mixerSync j
    unfold mixerSyncStep
    repeat' split
    all_goals first
      | exact goesOn_held _ h
      | exact goesOn_goOn _ _ rfl
      | exact ends_complete _ _ _ _
  | playVoice c loop =>
    show (playVoiceStep c loop j s).GoesOnOrEnds (.playVoice c loop) j
    unfold playVoiceStep
    dsimp only
    repeat' split
    all_goals first
      | exact ends_raise _ _ _ _ _ _
      | exact ends_complete _ _ _ _
  | pauseVoice v => exact goesOn_onVoice _ j _ v _ s (ends_complete _ _ _ _)
  | resumeVoice v => exact goesOn_onVoice _ j _ v _ s (ends_complete _ _ _ _)
  | stopVoice v => exact goesOn_onVoice _ j _ v _ s (ends_complete _ _ _ _)
  | setVolume v => exact goesOn_onVoice _ j _ v _ s (ends_complete _ _ _ _)
  | setLoop v loop =>
    refine goesOn_onVoice _ j _ v _ s ?_
    unfold setLoopEffect
    split
    · exact ends_raise _ _ _ _ _ _
    · exact ends_complete _ _ _ _
  | bypassWrite c =>
    show (bypassStep c j s).GoesOnOrEnds (.bypassWrite c) j
    have first' : (bypassFirst c j s).GoesOnOrEnds (.bypassWrite c) j := by
      unfold bypassFirst
      dsimp only
      repeat' split
      all_goals first
        | exact ends_raise _ _ _ _ _ _
        | exact goesOn_goOn _ _ ⟨_, _, rfl⟩
    unfold bypassStep
    split
    · unfold bypassLater
      dsimp only
      repeat' split
      all_goals first
        | exact goesOn_held _ h
        | exact goesOn_goOn _ _ ⟨_, _, rfl⟩
        | exact ends_complete _ _ _ _
    all_goals exact first'

/-! ### What no command changes -/

/-- The configuration, the operand registers, the enables, the environment (the frames the ring took apart) and the numbers of slots: no sequencer step changes them. -/
def State.SameSettings (s t : State) : Prop :=
  t.cfg = s.cfg ∧ t.arg0 = s.arg0 ∧ t.arg1 = s.arg1 ∧ t.irqEn = s.irqEn ∧
  t.env = { s.env with ringTaken := t.env.ringTaken } ∧
  t.clips.sel = s.clips.sel ∧ t.clips.addr = s.clips.addr ∧
  t.voices.length = s.voices.length ∧ t.clips.descs.length = s.clips.descs.length

theorem length_voices_of_effect {s t : State} (h : VoiceEffect s t) : t.voices.length = s.voices.length := by
  cases h with
  | none hv => rw [hv]
  | set _ _ _ _ _ _ _ hv => rw [hv, List.length_set]
  | clip _ _ _ _ _ _ _ hv => rw [hv, List.length_set]
  | stream _ _ _ _ _ _ _ _ hv => rw [hv, List.length_set]
  | poison hv => rw [hv, length_voices_poison]

theorem sameSettings_onVoice (op : Byte) (v : Nat) (act : State → State) (s : State)
    (h : s.SameSettings (act s)) : s.SameSettings (onVoice op v act s) := by
  rcases onVoice_cases op v act s with ⟨-, e⟩ | ⟨-, -, e⟩ | ⟨-, -, e⟩ <;> rw [e]
  · exact ⟨rfl, rfl, rfl, rfl, rfl, rfl, rfl, rfl, rfl⟩
  · exact ⟨rfl, rfl, rfl, rfl, rfl, rfl, rfl, rfl, rfl⟩
  · exact h

theorem sameSettings_body (i : Instr) (j : Job) (s : State) : s.SameSettings (bodyOf i j s) := by
  have hv := length_voices_of_effect (voiceEffect_body i j s)
  cases i with
  | loadClip c =>
    have h : (loadClipStep c j s).clips.sel = s.clips.sel ∧ (loadClipStep c j s).clips.addr = s.clips.addr ∧
        (loadClipStep c j s).clips.descs.length = s.clips.descs.length := by
      have he := loadEffect_step c j s
      generalize loadClipStep c j s = t at he
      cases he with
      | held h => rw [h]; exact ⟨rfl, rfl, rfl⟩
      | failed h => rw [h]; exact ⟨rfl, rfl, rfl⟩
      | same _ h => rw [h]; exact ⟨rfl, rfl, rfl⟩
      | stored _ _ _ _ _ h => rw [h]; exact ⟨rfl, rfl, rfl⟩
      | ended _ h => rw [h]; exact ⟨rfl, rfl, List.length_set⟩
    exact ⟨by simp [bodyOf], by simp [bodyOf], by simp [bodyOf], by simp [bodyOf], by simp [bodyOf], h.1, h.2.1, hv,
      h.2.2⟩
  | clipDefine c =>
    have h : (clipDefineStep c j s).clips.sel = s.clips.sel ∧ (clipDefineStep c j s).clips.addr = s.clips.addr ∧
        (clipDefineStep c j s).clips.descs.length = s.clips.descs.length := by
      unfold clipDefineStep
      dsimp only
      repeat' split
      all_goals first
        | exact ⟨rfl, rfl, rfl⟩
        | exact ⟨rfl, rfl, List.length_set⟩
    exact ⟨by simp [bodyOf], by simp [bodyOf], by simp [bodyOf], by simp [bodyOf], by simp [bodyOf], h.1, h.2.1, hv,
      h.2.2⟩
  | clipFreeAll =>
    have h : (clipFreeAllStep j s).clips.sel = s.clips.sel ∧ (clipFreeAllStep j s).clips.addr = s.clips.addr ∧
        (clipFreeAllStep j s).clips.descs.length = s.clips.descs.length := by
      unfold clipFreeAllStep
      split
      · exact ⟨rfl, rfl, rfl⟩
      · exact ⟨rfl, rfl, List.length_map _⟩
    exact ⟨by simp [bodyOf], by simp [bodyOf], by simp [bodyOf], by simp [bodyOf], by simp [bodyOf], h.1, h.2.1, hv,
      h.2.2⟩
  | pauseVoice v => exact sameSettings_onVoice _ v _ s ⟨rfl, rfl, rfl, rfl, rfl, rfl, rfl, by simp, rfl⟩
  | resumeVoice v => exact sameSettings_onVoice _ v _ s ⟨rfl, rfl, rfl, rfl, rfl, rfl, rfl, by simp, rfl⟩
  | stopVoice v => exact sameSettings_onVoice _ v _ s ⟨rfl, rfl, rfl, rfl, rfl, rfl, rfl, by simp, rfl⟩
  | setVolume v => exact sameSettings_onVoice _ v _ s ⟨rfl, rfl, rfl, rfl, rfl, rfl, rfl, by simp, rfl⟩
  | setLoop v loop =>
    refine sameSettings_onVoice _ v _ s ?_
    unfold setLoopEffect
    split
    · exact ⟨rfl, rfl, rfl, rfl, rfl, rfl, rfl, rfl, rfl⟩
    · exact ⟨rfl, rfl, rfl, rfl, rfl, rfl, rfl, by simp, rfl⟩
  | decodeFrame =>
    exact ⟨by simp [bodyOf], by simp [bodyOf], by simp [bodyOf], by simp [bodyOf], decodeFrameStep_env j s,
      by simp [bodyOf], by simp [bodyOf], hv, by simp [bodyOf]⟩
  | _ =>
    exact ⟨by simp [bodyOf], by simp [bodyOf], by simp [bodyOf], by simp [bodyOf], by simp [bodyOf],
      by simp [bodyOf], by simp [bodyOf], hv, by simp [bodyOf]⟩

/-! ### The stream -/

/-- `t` has the stream, the VBR registers and the samples per frame of `s`. -/
def State.SameStream (s t : State) : Prop :=
  t.stream = s.stream ∧ t.vbr = s.vbr ∧ t.hdr.samplesPerFrame = s.hdr.samplesPerFrame

theorem sameStream_decodeCurrent (op : Byte) (f : Frame) (s : State) : s.SameStream (s.decodeCurrent op f).1 := by
  rcases decodeCurrent_cases op f s with ⟨-, ys, l3, delay, h, -, -⟩ | h <;> rw [h] <;>
    rcases checkCrc_cases f s with ⟨-, h⟩ | ⟨-, -, h⟩ | ⟨-, -, h⟩ <;> rw [h] <;> exact ⟨rfl, rfl, rfl⟩

theorem sameStream_onVoice (op : Byte) (v : Nat) (act : State → State) (s : State)
    (h : s.SameStream (act s)) : s.SameStream (onVoice op v act s) := by
  rcases onVoice_cases op v act s with ⟨-, e⟩ | ⟨-, -, e⟩ | ⟨-, -, e⟩ <;> rw [e]
  · exact ⟨rfl, rfl, rfl⟩
  · exact ⟨rfl, rfl, rfl⟩
  · exact h

/-- A sequencer step other than RESET_STREAM leaves the stream alone, or leaves it as one call of SyncStep does. -/
theorem stream_body (i : Instr) (j : Job) (s : State) (hi : i ≠ .resetStream) :
    s.SameStream (bodyOf i j s) ∨
    ∃ op k, (s.syncStep op k).1 ≠ .hold ∧ State.SameStream (s.syncStep op k).2.2 (bodyOf i j s) := by
  cases i with
  | resetStream => exact absurd rfl hi
  | readFrame =>
    show s.SameStream (readFrameStep j s) ∨ ∃ op k, _ ∧ State.SameStream _ (readFrameStep j s)
    unfold readFrameStep
    dsimp only
    split <;> rename_i hq
    · exact .inl ⟨rfl, rfl, rfl⟩
    all_goals exact .inr ⟨_, _, by rw [hq]; simp, by rw [hq]; exact ⟨rfl, rfl, rfl⟩⟩
  | decodeFrame =>
    left
    show s.SameStream (decodeFrameStep j s)
    unfold decodeFrameStep
    dsimp only
    split
    · exact ⟨rfl, rfl, rfl⟩
    · split
      · exact ⟨rfl, rfl, rfl⟩
      · split
        · exact ⟨rfl, rfl, rfl⟩
        · split
          · show s.SameStream (State.ringAppend _)
            unfold State.ringAppend
            split <;> exact sameStream_decodeCurrent _ _ _
          · exact sameStream_decodeCurrent _ _ _
  | loadClip c =>
    show s.SameStream (loadClipStep c j s) ∨ ∃ op k, _ ∧ State.SameStream _ (loadClipStep c j s)
    unfold loadClipStep
    dsimp only
    split <;> rename_i hq
    · exact .inl ⟨rfl, rfl, rfl⟩
    all_goals refine .inr ⟨_, _, by rw [hq]; simp, ?_⟩; rw [hq]
    · exact ⟨rfl, rfl, rfl⟩
    · exact ⟨rfl, rfl, rfl⟩
    · exact ⟨rfl, rfl, rfl⟩
    · unfold loadClipEnd
      dsimp only
      split <;> exact ⟨rfl, rfl, rfl⟩
    · unfold loadClipFrame
      split
      · exact ⟨rfl, rfl, rfl⟩
      · dsimp only
        split
        · split <;> exact sameStream_decodeCurrent _ _ _
        · exact sameStream_decodeCurrent _ _ _
  | pauseVoice v => exact .inl (sameStream_onVoice _ v _ s ⟨rfl, rfl, rfl⟩)
  | resumeVoice v => exact .inl (sameStream_onVoice _ v _ s ⟨rfl, rfl, rfl⟩)
  | stopVoice v => exact .inl (sameStream_onVoice _ v _ s ⟨rfl, rfl, rfl⟩)
  | setVolume v => exact .inl (sameStream_onVoice _ v _ s ⟨rfl, rfl, rfl⟩)
  | setLoop v loop => exact .inl (sameStream_onVoice _ v _ s ⟨by simp, by simp, by simp⟩)
  | _ => exact .inl ⟨by simp [bodyOf], by simp [bodyOf], by simp [bodyOf]⟩

end Sys2Proof.Machine
end

