-- ==== Sys2Proof/Laws/Encoding.lean ====
section
/-! SUPPORT. The command word as numbers: its fields, the word of a command, and the mask test of the decoder. -/

namespace Sys2Proof

@[simp] theorem opField_toNat (w : Word) : (opField w).toNat = w.toNat % 2 ^ 8 := by
  simp [opField, BitVec.extractLsb'_toNat]

@[simp] theorem idxField_toNat (w : Word) : (idxField w).toNat = w.toNat / 2 ^ 8 % 2 ^ 8 := by
  simp [idxField, BitVec.extractLsb'_toNat, Nat.shiftRight_eq_div_pow]

theorem loopField_eq (w : Word) : loopField w = decide (w.toNat / 2 ^ 16 % 2 = 1) := by
  simp [loopField, BitVec.getLsbD, Nat.testBit_eq_decide_div_mod_eq]

/-- The word of a command as a number. -/
theorem encode_toNat (i : Instr) :
    (encode i).toNat = i.opcode.toNat + 2 ^ 8 * (i.idx % 2 ^ 8) + 2 ^ 16 * (if i.loopFlag then 1 else 0) := by
  have h := i.opcode.isLt
  have hx : i.idx % 2 ^ 8 < 2 ^ 8 := Nat.mod_lt _ (by decide)
  simp only [encode, Instr.idxByte, BitVec.toNat_append, BitVec.toNat_ofNat, BitVec.toNat_ofBool]
  rw [← Nat.shiftLeft_add_eq_or_of_lt h, Nat.shiftLeft_eq, ← Nat.shiftLeft_add_eq_or_of_lt hx, Nat.shiftLeft_eq]
  cases i.loopFlag <;> simp <;> omega

/-- No bit outside the mask. -/
theorem and_not_eq_zero_iff (w m : Word) : w &&& ~~~ m = 0#32 ↔ w &&& m = w := by
  constructor
  · intro h
    ext k hk
    have := congrArg (fun x : Word => x[k]) h
    simp at this ⊢
    exact this
  · intro h
    ext k hk
    have := congrArg (fun x : Word => x[k]) h
    simp at this ⊢
    exact this

/-- A word under a mask of its n low bits. -/
theorem and_low_mask_iff (w : Word) (n : Nat) (hn : n < 32) :
    w &&& ~~~ BitVec.ofNat 32 (2 ^ n - 1) = 0#32 ↔ w.toNat < 2 ^ n := by
  have hp : 2 ^ n ≤ 2 ^ 31 := Nat.pow_le_pow_right (by decide) (by omega)
  have hpos : 0 < 2 ^ n := Nat.two_pow_pos n
  rw [and_not_eq_zero_iff, ← BitVec.toNat_inj, BitVec.toNat_and, BitVec.toNat_ofNat,
    Nat.mod_eq_of_lt (by omega), Nat.and_two_pow_sub_one_eq_mod]
  constructor
  · intro h; rw [← h]; exact Nat.mod_lt _ hpos
  · exact Nat.mod_eq_of_lt

/-- A legal word: it carries the opcode of a row and nothing outside the row's fields. -/
theorem decode_ok_iff (w : Word) (i : Instr) :
    decode w = .ok i ↔ ∃ r ∈ opTable, r.op = opField w ∧ w &&& ~~~ r.mask = 0#32 ∧
      instrOf (opField w) (idxField w).toNat (loopField w) = some i := by
  have huniq : ∀ r ∈ opTable, ∀ op : Byte, r.op = op → opTable.find? (fun r => r.op == op) = some r := by
    intro r hr op h
    subst h
    revert r
    decide
  unfold decode
  cases h : opTable.find? (fun r => r.op == opField w) with
  | none =>
    simp only [reduceCtorEq, false_iff, not_exists, not_and]
    intro r hr ho
    rw [huniq r hr _ ho] at h
    cases h
  | some r =>
    have hr := List.mem_of_find?_eq_some h
    have ho : r.op = opField w := by simpa using List.find?_some h
    constructor
    · intro hd
      dsimp only at hd
      split at hd
      · cases hd
      · rename_i hm
        split at hd
        · rename_i i' hi
          cases hd
          exact ⟨r, hr, ho, by simpa using hm, hi⟩
        · cases hd
    · rintro ⟨r', hr', ho', hm, hi⟩
      rw [huniq r' hr' _ ho'] at h
      cases h
      dsimp only
      rw [if_neg (by simp [hm]), hi]

end Sys2Proof
end

