-- ==== Sys2Proof/Laws/Events.lean ====
section
/-! SUPPORT. What stays: the first error, pending interrupts and stopped-voice bits, through every part of a step but the host's acknowledgements (60_exceptions.md R322, R330, R332). -/

namespace Sys2Proof.Machine

/-- The first error, every pending interrupt and every stopped-voice bit of `s` is still there in `t`, and a stopped-voice bit that is new comes with VOICE_STOPPED. -/
def State.Sticky (s t : State) : Prop :=
  (s.err.code ≠ .none → t.err = s.err ∨ t.err = { s.err with ovf := true }) ∧
  s.irqPend &&& t.irqPend = s.irqPend ∧ s.stopped &&& t.stopped = s.stopped ∧
  ∀ v, s.stopped.getLsbD v = false → t.stopped.getLsbD v = true → t.irqPend &&& irqVoiceStopped = irqVoiceStopped

variable {s t u : State}

theorem and_of_and_eq {w : Nat} {x y z : BitVec w} (h1 : x &&& y = x) (h2 : y &&& z = y) : x &&& z = x := by
  rw [← h1, BitVec.and_assoc, h2]

theorem and_or_self {w : Nat} (x y : BitVec w) : x &&& (x ||| y) = x := by
  ext i
  simp only [BitVec.getElem_and, BitVec.getElem_or]
  cases x[i] <;> simp

theorem State.Sticky.of_eq (he : t.err = s.err) (hi : t.irqPend = s.irqPend) (hs : t.stopped = s.stopped) :
    s.Sticky t := by
  refine ⟨fun _ => .inl he, by rw [hi, BitVec.and_self], by rw [hs, BitVec.and_self], fun v h1 h2 => ?_⟩
  rw [hs, h1] at h2
  cases h2

theorem State.Sticky.refl (s : State) : s.Sticky s := .of_eq rfl rfl rfl

theorem State.Sticky.trans (h1 : s.Sticky t) (h2 : t.Sticky u) : s.Sticky u := by
  obtain ⟨a1, a2, a3, a4⟩ := h1
  obtain ⟨b1, b2, b3, b4⟩ := h2
  refine ⟨fun h => ?_, and_of_and_eq a2 b2, and_of_and_eq a3 b3, fun v h1 h2 => ?_⟩
  · rcases a1 h with e | e
    · rw [e] at b1
      exact b1 h
    · rw [e] at b1
      exact .inr ((b1 h).elim id id)
  · cases ht : t.stopped.getLsbD v with
    | false => exact b4 v ht h2
    | true =>
      have h3 := a4 v h1 ht
      rw [BitVec.and_comm] at h3 ⊢
      exact and_of_and_eq h3 b2

/-- A new pending bit and nothing else of the three. -/
theorem State.Sticky.of_irq (x : BitVec 5) (he : t.err = s.err) (hi : t.irqPend = s.irqPend ||| x)
    (hs : t.stopped = s.stopped) : s.Sticky t := by
  refine ⟨fun _ => .inl he, by rw [hi, and_or_self], by rw [hs, BitVec.and_self], fun v h1 h2 => ?_⟩
  rw [hs, h1] at h2
  cases h2

theorem sticky_record (e : ErrCode) (op idx : Byte) (s : State) : s.Sticky (s.record e op idx) := by
  refine ⟨fun h => .inr ?_, and_or_self _ _, BitVec.and_self, fun v h1 h2 => ?_⟩
  · show s.err.record e op idx = _
    unfold ErrReg.record
    rw [if_neg h]
  · exact absurd (h1.symm.trans h2) (by simp)

theorem sticky_complete (r : Nat) (s : State) : s.Sticky (s.complete r) := .of_irq _ rfl rfl rfl

theorem sticky_raise (e : ErrCode) (op idx : Byte) (s : State) : s.Sticky (s.raise e op idx) :=
  (sticky_record e op idx s).trans (.of_irq (irqError ||| irqCmdDone) rfl (by
    show s.irqPend ||| irqError ||| irqCmdDone = (s.irqPend ||| irqError) ||| (irqError ||| irqCmdDone)
    generalize s.irqPend = x
    revert x
    decide) rfl)

theorem sticky_removeVoice (v : Nat) (s : State) : s.Sticky (s.removeVoice v) := by
  refine ⟨fun _ => .inl rfl, and_or_self _ _, and_or_self _ _, fun _ _ _ => ?_⟩
  show (s.irqPend ||| irqVoiceStopped) &&& irqVoiceStopped = irqVoiceStopped
  generalize s.irqPend = x
  revert x
  decide

theorem sticky_removeVoices (vs : List Nat) (s : State) : s.Sticky (s.removeVoices vs) := by
  induction vs generalizing s with
  | nil => exact .refl s
  | cons v vs ih => exact (sticky_removeVoice v s).trans (ih _)

theorem sticky_removeInUse (vs : List Nat) (s : State) : s.Sticky (s.removeInUse vs) :=
  removeInUse_keeps (I := fun t => s.Sticky t) (fun t v h _ => h.trans (sticky_removeVoice v t)) vs (.refl s)

theorem sticky_lineWrite (fs : List StereoFrame) (s : State) : s.Sticky (s.lineWrite fs) :=
  .of_eq (by simp) (by simp) (by simp)

theorem sticky_tick (s : State) : s.Sticky s.tick := by
  refine tick_keeps (I := fun t => s.Sticky t) ?_ ?_ ?_ ?_ ?_ ?_
  · exact .of_eq (by simp) (by simp) (by simp)
  · exact fun t v h _ => h.trans (sticky_removeVoice v t)
  · intro t v h _
    obtain ⟨p, st, k, he, -⟩ := readVoice_cases v t
    rw [he]
    exact h.trans (.of_eq rfl rfl rfl)
  · exact fun fs t h _ _ _ => h.trans (sticky_lineWrite fs t)
  · exact fun t e o x h => h.trans (sticky_record e o x t)
  · exact fun t h => h.trans (.of_eq rfl rfl rfl)

/-! ### The parts of a sequencer step -/

theorem sticky_accept (op : Byte) (h : Word) (s : State) : s.Sticky (s.accept op h) := by
  unfold State.accept State.applyVbr
  dsimp only
  split
  · split
    · exact .of_irq irqFrame rfl rfl rfl
    · refine .trans (t := { s with irqPend := s.irqPend ||| irqFrame }) (.of_irq irqFrame rfl rfl rfl) ?_
      exact (sticky_record .corruptVbrHeader op 0 _).trans (.of_eq rfl rfl rfl)
    · exact .of_irq irqFrame rfl rfl rfl
  · exact .of_irq irqFrame rfl rfl rfl

theorem sticky_syncStep (op : Byte) (k : Nat) (s : State) :
    (s.syncStep op k).1 = .hold ∨ s.Sticky (s.syncStep op k).2.2 := by
  have h := syncStep_effect op k s
  generalize s.syncStep op k = r at h ⊢
  cases h with
  | hold => exact .inl rfl
  | settle => exact .inr (.of_eq rfl rfl rfl)
  | giveUp => exact .inr (.of_eq rfl rfl rfl)
  | skip => exact .inr (.of_eq rfl rfl rfl)
  | frame h => exact .inr (.trans (t := s.setKind .mpeg) (.of_eq rfl rfl rfl) (sticky_accept op h _))

theorem sticky_checkCrc (f : Frame) (s : State) : s.Sticky (s.checkCrc f) := by
  rcases checkCrc_cases f s with ⟨-, h⟩ | ⟨-, -, h⟩ | ⟨-, -, h⟩ <;> rw [h]
  · exact .refl s
  · exact .of_eq rfl rfl rfl
  · exact .of_irq irqCrc rfl rfl rfl

theorem sticky_decodeCurrent (op : Byte) (f : Frame) (s : State) : s.Sticky (s.decodeCurrent op f).1 := by
  rcases decodeCurrent_cases op f s with ⟨-, ys, l3, delay, h, -, -⟩ | h <;> rw [h]
  · exact (sticky_checkCrc f s).trans (.of_eq rfl rfl rfl)
  · exact (sticky_checkCrc f s).trans (.trans (.of_eq rfl rfl rfl) (sticky_record _ _ _ _))

theorem sticky_onVoice (op : Byte) (v : Nat) (act : State → State) (s : State) (h : s.Sticky (act s)) :
    s.Sticky (onVoice op v act s) := by
  rcases onVoice_cases op v act s with ⟨-, e⟩ | ⟨-, -, e⟩ | ⟨-, -, e⟩ <;> rw [e]
  · exact sticky_raise _ _ _ _
  · exact sticky_complete _ _
  · exact h

theorem sticky_then_complete (r : Nat) (h : s.Sticky t) : s.Sticky (t.complete r) := h.trans (sticky_complete r t)

theorem sticky_then_raise (e : ErrCode) (op idx : Byte) (h : s.Sticky t) : s.Sticky (t.raise e op idx) :=
  h.trans (sticky_raise e op idx t)

/-! ### Every command -/

theorem sticky_readFrameStep (j : Job) (s : State) : s.Sticky (readFrameStep j s) := by
  have h := sticky_syncStep Instr.readFrame.opcode j.progress.skipped s
  unfold readFrameStep
  dsimp only
  split <;> rename_i hq <;> rw [hq] at h <;> dsimp only at h
  · exact .refl s
  all_goals have h := h.resolve_left (by simp)
  · exact h.trans (.of_eq rfl rfl rfl)
  · exact sticky_then_complete _ (h.trans (.of_eq rfl rfl rfl))
  · exact sticky_then_complete _ (h.trans (.of_eq rfl rfl rfl))
  · refine sticky_then_complete _ (h.trans ?_)
    refine .trans ?_ (sticky_record _ _ _ _)
    exact .of_eq rfl rfl rfl
  · exact sticky_then_complete _ (h.trans (.of_eq rfl rfl rfl))

theorem sticky_decodeFrameStep (j : Job) (s : State) : s.Sticky (decodeFrameStep j s) := by
  unfold decodeFrameStep
  dsimp only
  split
  · exact sticky_raise _ _ _ _
  · rename_i f _
    have h := sticky_decodeCurrent Instr.decodeFrame.opcode f s
    split
    · exact sticky_raise _ _ _ _
    · split
      · exact sticky_complete _ _
      · split
        · refine sticky_then_complete _ (h.trans ?_)
          unfold State.ringAppend
          split
          · exact .of_eq rfl rfl rfl
          · exact .refl _
        · exact sticky_then_complete _ h

theorem sticky_loadClipStep (c : Nat) (j : Job) (s : State) : s.Sticky (loadClipStep c j s) := by
  have h := sticky_syncStep (Instr.loadClip c).opcode (j.progress.load s.clips.alloc).skipped s
  unfold loadClipStep
  dsimp only
  split <;> rename_i hq <;> rw [hq] at h <;> dsimp only at h
  · exact .refl s
  all_goals have h := h.resolve_left (by simp)
  · exact h.trans (.of_eq rfl rfl rfl)
  · exact sticky_then_raise _ _ _ (h.trans (.of_eq rfl rfl rfl))
  · exact sticky_then_raise _ _ _ (h.trans (.of_eq rfl rfl rfl))
  · refine h.trans ?_
    unfold loadClipEnd
    dsimp only
    split
    · exact sticky_then_raise _ _ _ (.of_eq rfl rfl rfl)
    · exact sticky_then_complete _ (.of_eq rfl rfl rfl)
  · refine h.trans ?_
    unfold loadClipFrame
    split
    · exact .refl _
    · rename_i f _
      dsimp only
      split
      · split
        · exact sticky_then_raise _ _ _ (sticky_decodeCurrent _ _ _)
        · exact (sticky_decodeCurrent _ _ _).trans (.of_eq rfl rfl rfl)
      · exact (sticky_decodeCurrent _ _ _).trans (.of_eq rfl rfl rfl)

theorem sticky_poison (s : State) : s.Sticky s.poison :=
  (sticky_removeVoices (s.slotsWhere Voice.inUse) s).trans (.of_eq rfl rfl rfl)

/-- Every sequencer step keeps the first error, the pending interrupts and the stopped-voice bits. -/
theorem sticky_body (i : Instr) (j : Job) (s : State) : s.Sticky (bodyOf i j s) := by
  cases i with
  | nop => exact sticky_complete 0 s
  | resetStream => exact sticky_then_complete 0 (.of_eq (by simp) (by simp) (by simp))
  | readFrame => exact sticky_readFrameStep j s
  | decodeFrame => exact sticky_decodeFrameStep j s
  | loadClip c => exact sticky_loadClipStep c j s
  | playStream =>
    show s.Sticky (playStreamStep j s)
    unfold playStreamStep
    dsimp only
    repeat' split
    all_goals first
      | exact sticky_raise _ _ _ _
      | exact sticky_then_complete _ (.of_eq rfl rfl rfl)
  | clipDefine c =>
    show s.Sticky (clipDefineStep c j s)
    unfold clipDefineStep
    dsimp only
    repeat' split
    all_goals first
      | exact sticky_raise _ _ _ _
      | exact sticky_then_complete _ (.of_eq rfl rfl rfl)
  | clipFreeAll =>
    show s.Sticky (clipFreeAllStep j s)
    unfold clipFreeAllStep
    split
    · exact sticky_raise _ _ _ _
    · exact sticky_then_complete _ (.of_eq rfl rfl rfl)
  | mixerStart =>
    show s.Sticky (mixerStartStep j s)
    unfold mixerStartStep
    repeat' split
    all_goals first
      | exact sticky_raise _ _ _ _
      | exact sticky_then_complete _ (.of_eq rfl rfl rfl)
  | mixerStop =>
    show s.Sticky (mixerStopStep j s)
    unfold mixerStopStep
    split
    · split
      · exact sticky_then_complete _ (.of_eq rfl rfl rfl)
      · exact .refl s
    · split
      · exact (sticky_poison s).trans (.of_eq rfl rfl rfl)
      · exact sticky_then_complete _ (sticky_poison s)
  | mixerSync =>
    show s.Sticky (mixerSyncStep j s)
    unfold mixerSyncStep
    repeat' split
    all_goals first
      | exact sticky_complete _ _
      | exact .of_eq rfl rfl rfl
  | playVoice c loop =>
    show s.Sticky (playVoiceStep c loop j s)
    unfold playVoiceStep
    dsimp only
    repeat' split
    all_goals first
      | exact sticky_raise _ _ _ _
      | exact sticky_then_complete _ (.of_eq rfl rfl rfl)
  | pauseVoice v => exact sticky_onVoice _ v _ s (sticky_then_complete _ (.of_eq rfl rfl rfl))
  | resumeVoice v => exact sticky_onVoice _ v _ s (sticky_then_complete _ (.of_eq rfl rfl rfl))
  | stopVoice v => exact sticky_onVoice _ v _ s (sticky_then_complete _ (.of_eq rfl rfl rfl))
  | setVolume v => exact sticky_onVoice _ v _ s (sticky_then_complete _ (.of_eq rfl rfl rfl))
  | setLoop v loop =>
    refine sticky_onVoice _ v _ s ?_
    unfold setLoopEffect
    split
    · exact sticky_raise _ _ _ _
    · exact sticky_then_complete _ (.of_eq rfl rfl rfl)
  | bypassWrite c =>
    show s.Sticky (bypassStep c j s)
    have first' : s.Sticky (bypassFirst c j s) := by
      unfold bypassFirst
      dsimp only
      repeat' split
      all_goals first
        | exact sticky_raise _ _ _ _
        | exact .of_eq rfl rfl rfl
    unfold bypassStep
    split
    · unfold bypassLater
      dsimp only
      split
      · exact sticky_complete _ _
      · split
        · exact .refl s
        · split
          · exact (sticky_lineWrite _ s).trans (.of_eq rfl rfl rfl)
          · exact sticky_then_complete _ ((sticky_lineWrite _ s).trans (sticky_record _ _ _ _))
    all_goals exact first'

theorem sticky_start (i : Instr) (s : State) : s.Sticky (startOf i (s.latch i)) := by
  have h : s.Sticky (s.latch i) := .of_eq rfl rfl rfl
  cases i with
  | readFrame => exact .of_eq rfl rfl rfl
  | loadClip c =>
    refine h.trans ?_
    show State.Sticky _ (loadClipStart c _)
    unfold loadClipStart
    dsimp only
    repeat' split
    all_goals first
      | exact sticky_raise _ _ _ _
      | exact .of_eq rfl rfl rfl
  | _ => exact h

/-- A register write keeps them too, but for the three registers of acknowledgement. -/
theorem sticky_regWrite (r : Reg) (v : Word) (s : State)
    (hr : r ≠ .err ∧ r ≠ .irqPend ∧ ∀ k, r ≠ .stoppedMask k) : s.Sticky (s.regWrite r v) := by
  obtain ⟨h1, h2, h3⟩ := hr
  cases r with
  | err => exact absurd rfl h1
  | irqPend => exact absurd rfl h2
  | stoppedMask k => exact absurd rfl (h3 k)
  | inData =>
    show s.Sticky (s.pushByte _)
    unfold State.pushByte
    repeat' split
    all_goals first
      | exact sticky_record _ _ _ _
      | exact .of_eq rfl rfl rfl
  | inCtrl =>
    show s.Sticky (if v.getLsbD 0 then _ else s)
    split <;> exact .of_eq rfl rfl rfl
  | clipData =>
    show s.Sticky (s.clipDataWrite _)
    unfold State.clipDataWrite
    dsimp only
    repeat' split
    · exact .trans (t := s.nextClipAddr) (.of_eq rfl rfl rfl) (sticky_record _ _ _ _)
    · exact .trans (t := s.nextClipAddr) (.of_eq rfl rfl rfl) (sticky_record _ _ _ _)
    · exact .of_eq rfl rfl rfl
  | _ => exact .of_eq rfl rfl rfl

theorem sticky_readEffect (r : Reg) (s : State) : s.Sticky (s.readEffect r) := by
  unfold State.readEffect
  repeat' split
  · exact .of_eq rfl rfl rfl
  · exact .trans (t := s.nextClipAddr) (.of_eq rfl rfl rfl) (sticky_record _ _ _ _)
  · exact .of_eq rfl rfl rfl
  · exact .refl s

end Sys2Proof.Machine
end

