-- ==== Sys2Proof/Laws/Host.lean ====
section
/-! SUPPORT. The host's turns: which register an offset reaches, and what a step does on a host access. -/

namespace Sys2Proof.Machine

theorem mem_of_lookup {a : Nat} {r : Reg} {l : List (Nat × Reg)} (h : l.lookup a = some r) : (a, r) ∈ l := by
  induction l with
  | nil => simp at h
  | cons p l ih =>
    obtain ⟨b, q⟩ := p
    rw [List.lookup_cons] at h
    cases hb : a == b with
    | true =>
      rw [hb] at h
      have : a = b := by simpa using hb
      cases h
      simp [this]
    | false =>
      rw [hb] at h
      exact List.mem_cons_of_mem _ (ih h)

/-- Where a mapped offset lies: in one of the two maps of single registers, the TOC, the mask registers or a voice window. -/
theorem regAt_cases {n a : Nat} {r : Reg} (h : regAt n a = some r) :
    (a, r) ∈ controlMap ∨ (a, r) ∈ deviceMap ∨ (r = .vbrToc ((a - 0x080) / 4) ∧ 0x080 ≤ a ∧ a < 0x0E4) ∨
    (r = .stoppedMask ((a - 0x400) / 4) ∧ 0x400 ≤ a ∧ a < 0x420) ∨
    (r = windowReg ((a - 0x1000) / 16) ((a - 0x1000) % 16) ∧ 0x1000 ≤ a) := by
  unfold regAt at h
  split at h
  · exact .inl (mem_of_lookup h)
  · split at h
    · cases h
      exact .inr (.inr (.inl ⟨rfl, by omega, by omega⟩))
    · split at h
      · exact .inr (.inl (mem_of_lookup h))
      · split at h
        · split at h
          · cases h
            exact .inr (.inr (.inr (.inl ⟨rfl, by omega, by omega⟩)))
          · cases h
        · split at h
          · cases h
          · split at h
            · rename_i hw _
              exact .inr (.inr (.inr (.inr ⟨(Option.some.inj h).symm, Nat.le_of_not_lt hw⟩)))
            · cases h

theorem windowReg_cases (v off : Nat) :
    windowReg v off = .vState v ∨ windowReg v off = .vPos v ∨ windowReg v off = .vVol v ∨
      windowReg v off = .vLen v := by
  unfold windowReg
  split
  · simp
  · split
    · simp
    · split <;> simp

/-- A single register is reached at its own offset only. -/
theorem regAt_single {n a : Nat} {r : Reg} (h : regAt n a = some r)
    (hr : (∀ k, r ≠ .vbrToc k) ∧ (∀ k, r ≠ .stoppedMask k) ∧ (∀ v, r ≠ .vState v) ∧ (∀ v, r ≠ .vPos v) ∧
      (∀ v, r ≠ .vVol v) ∧ (∀ v, r ≠ .vLen v)) :
    (a, r) ∈ controlMap ++ deviceMap := by
  obtain ⟨h1, h2, h3, h4, h5, h6⟩ := hr
  rcases regAt_cases h with h | h | ⟨h, -⟩ | ⟨h, -⟩ | ⟨h, -⟩
  · exact List.mem_append_left _ h
  · exact List.mem_append_right _ h
  · exact absurd h (h1 _)
  · exact absurd h (h2 _)
  · rcases windowReg_cases ((a - 0x1000) / 16) ((a - 0x1000) % 16) with h' | h' | h' | h' <;> rw [h'] at h
    · exact absurd h (h3 _)
    · exact absurd h (h4 _)
    · exact absurd h (h5 _)
    · exact absurd h (h6 _)

theorem regAt_clipData {n a : Nat} (h : regAt n a = some .clipData) : a = 0x118 := by
  have h1 := regAt_single h (by simp)
  have h2 : ∀ p ∈ controlMap ++ deviceMap, p.2 = Reg.clipData → p.1 = 0x118 := by decide
  exact h2 _ h1 rfl

theorem regAt_pcmData {n a : Nat} (h : regAt n a = some .pcmData) : a = 0x12C := by
  have h1 := regAt_single h (by simp)
  have h2 : ∀ p ∈ controlMap ++ deviceMap, p.2 = Reg.pcmData → p.1 = 0x12C := by decide
  exact h2 _ h1 rfl

theorem regAt_err {n a : Nat} (h : regAt n a = some .err) : a = 0x018 := by
  have h1 := regAt_single h (by simp)
  have h2 : ∀ p ∈ controlMap ++ deviceMap, p.2 = Reg.err → p.1 = 0x018 := by decide
  exact h2 _ h1 rfl

theorem regAt_irqPend {n a : Nat} (h : regAt n a = some .irqPend) : a = 0x020 := by
  have h1 := regAt_single h (by simp)
  have h2 : ∀ p ∈ controlMap ++ deviceMap, p.2 = Reg.irqPend → p.1 = 0x020 := by decide
  exact h2 _ h1 rfl

theorem regAt_stoppedMask {n a k : Nat} (h : regAt n a = some (.stoppedMask k)) : 0x400 ≤ a ∧ a < 0x420 := by
  rcases regAt_cases h with h | h | ⟨h, -⟩ | ⟨-, h1, h2⟩ | ⟨h, -⟩
  · exfalso
    simp [controlMap] at h
  · exfalso
    simp [deviceMap] at h
  · cases h
  · exact ⟨h1, h2⟩
  · rcases windowReg_cases ((a - 0x1000) / 16) ((a - 0x1000) % 16) with h' | h' | h' | h' <;> rw [h'] at h <;>
      cases h

variable {s : State} {a : BitVec 13} {width : AccessWidth} {v : Word}

/-- The register an access reaches does not depend on the turn being taken. -/
@[simp] theorem taking_accessed (s : State) (a : BitVec 13) (width : AccessWidth) :
    s.taking.accessed a width = s.accessed a width := rfl

theorem accessed_cases {r : Reg} (h : s.accessed a width = some r) :
    width = .w32 ∧ a.toNat % 4 = 0 ∧ regAt s.nVoices a.toNat = some r := by
  unfold State.accessed at h
  split at h
  · rename_i hw
    exact ⟨hw.1, hw.2, h⟩
  · cases h

theorem step_of_read (hn : s.env.nextTurn = .host (.read a width)) : step s = .next (s.taking.hostRead a width) := by
  unfold step State.runTurn
  rw [hn]

theorem step_of_write (hn : s.env.nextTurn = .host (.write a width v)) :
    step s = .next (s.taking.afterWrite a width v) := by
  unfold step State.runTurn
  rw [hn]
  exact hostWrite_eq _ _ _ _

/-- A write to a register other than CMD. -/
theorem step_of_regWrite (r : Reg) (hn : s.env.nextTurn = .host (.write a width v))
    (hr : s.accessed a width = some r) (hc : r ≠ .cmd) : step s = .next (s.taking.regWrite r v) := by
  rw [step_of_write hn]
  unfold State.afterWrite
  rw [taking_accessed, hr]
  simp [hc]

/-- A write to CMD. -/
theorem step_of_cmdWrite (hn : s.env.nextTurn = cmdWriteTurn v) : step s = .next (s.taking.afterIssue v) := by
  rw [step_of_write hn]
  rfl

end Sys2Proof.Machine
end

