-- ==== Sys2Proof/Laws/PerInstr.lean ====
section
/-! SUPPORT. The laws said of every command one by one: LegalWord, that a command with an encoding has a word whose fields are its opcode and operands and whose other bits are zero (30_encoding.md R100, R101, R104). -/

namespace Sys2Proof.Laws.LegalWord

/-- The word of `i` carries its opcode, its IDX and its LOOP operand in their fields, and zero in every bit that the command's row does not use. -/
def Statement (i : Instr) : Prop :=
  i.wf = true →
    opField (encode i) = i.opcode ∧ (idxField (encode i)).toNat = i.idx ∧ loopField (encode i) = i.loopFlag ∧
    ∃ r ∈ opTable, r.op = i.opcode ∧ encode i &&& ~~~ r.mask = 0#32

/-- The fields of a command's word. -/
theorem fields (i : Instr) (h : i.idx < 256) :
    opField (encode i) = i.opcode ∧ (idxField (encode i)).toNat = i.idx ∧ loopField (encode i) = i.loopFlag := by
  have he := encode_toNat i
  have hop := i.opcode.isLt
  refine ⟨?_, ?_, ?_⟩
  · apply BitVec.eq_of_toNat_eq
    rw [opField_toNat, he]
    split <;> omega
  · rw [idxField_toNat, he]
    split <;> omega
  · rw [loopField_eq, he]
    cases i.loopFlag <;> simp <;> omega

/-- A command whose row leaves IDX and LOOP unused. -/
theorem of_plain (i : Instr) (hr : ⟨i.opcode, false, false⟩ ∈ opTable) (hi : i.idx = 0)
    (hl : i.loopFlag = false) : Statement i := by
  intro _
  obtain ⟨h1, h2, h3⟩ := fields i (by omega)
  refine ⟨h1, h2, h3, _, hr, rfl, ?_⟩
  have hm : OpRow.mask ⟨i.opcode, false, false⟩ = BitVec.ofNat 32 (2 ^ 8 - 1) := by
    show OpRow.mask ⟨0, false, false⟩ = _
    decide
  rw [hm, and_low_mask_iff (encode i) 8 (by decide)]
  have := i.opcode.isLt
  rw [encode_toNat, hi, hl]
  simpa using this

/-- A command whose row uses IDX and leaves LOOP unused. -/
theorem of_idx (i : Instr) (hr : ⟨i.opcode, true, false⟩ ∈ opTable) (hw : i.wf = fitsIdx i.idx)
    (hl : i.loopFlag = false) : Statement i := by
  intro h
  rw [hw] at h
  have hi : i.idx < 256 := by simpa [fitsIdx] using h
  obtain ⟨h1, h2, h3⟩ := fields i hi
  refine ⟨h1, h2, h3, _, hr, rfl, ?_⟩
  have hm : OpRow.mask ⟨i.opcode, true, false⟩ = BitVec.ofNat 32 (2 ^ 16 - 1) := by
    show OpRow.mask ⟨0, true, false⟩ = _
    decide
  rw [hm, and_low_mask_iff (encode i) 16 (by decide)]
  have := i.opcode.isLt
  rw [encode_toNat, hl]
  simp
  omega

/-- A command whose row uses IDX and LOOP. -/
theorem of_loop (i : Instr) (hr : ⟨i.opcode, true, true⟩ ∈ opTable) (hw : i.wf = fitsIdx i.idx) : Statement i := by
  intro h
  rw [hw] at h
  have hi : i.idx < 256 := by simpa [fitsIdx] using h
  obtain ⟨h1, h2, h3⟩ := fields i hi
  refine ⟨h1, h2, h3, _, hr, rfl, ?_⟩
  have hm : OpRow.mask ⟨i.opcode, true, true⟩ = BitVec.ofNat 32 (2 ^ 17 - 1) := by
    show OpRow.mask ⟨0, true, true⟩ = _
    decide
  rw [hm, and_low_mask_iff (encode i) 17 (by decide)]
  have := i.opcode.isLt
  rw [encode_toNat]
  split <;> omega

theorem nop : Statement .nop := of_plain .nop (by simp [opTable, Instr.opcode]) rfl rfl

theorem resetStream : Statement .resetStream := of_plain .resetStream (by simp [opTable, Instr.opcode]) rfl rfl

theorem readFrame : Statement .readFrame := of_plain .readFrame (by simp [opTable, Instr.opcode]) rfl rfl

theorem decodeFrame : Statement .decodeFrame := of_plain .decodeFrame (by simp [opTable, Instr.opcode]) rfl rfl

theorem loadClip (c : Nat) : Statement (.loadClip c) := of_idx (.loadClip c) (by simp [opTable, Instr.opcode]) rfl rfl

theorem playStream : Statement .playStream := of_plain .playStream (by simp [opTable, Instr.opcode]) rfl rfl

theorem clipDefine (c : Nat) : Statement (.clipDefine c) := of_idx (.clipDefine c) (by simp [opTable, Instr.opcode]) rfl rfl

theorem clipFreeAll : Statement .clipFreeAll := of_plain .clipFreeAll (by simp [opTable, Instr.opcode]) rfl rfl

theorem mixerStart : Statement .mixerStart := of_plain .mixerStart (by simp [opTable, Instr.opcode]) rfl rfl

theorem mixerStop : Statement .mixerStop := of_plain .mixerStop (by simp [opTable, Instr.opcode]) rfl rfl

theorem mixerSync : Statement .mixerSync := of_plain .mixerSync (by simp [opTable, Instr.opcode]) rfl rfl

theorem playVoice (c : Nat) (loop : Bool) : Statement (.playVoice c loop) := of_loop (.playVoice c loop) (by simp [opTable, Instr.opcode]) rfl

theorem pauseVoice (v : Nat) : Statement (.pauseVoice v) := of_idx (.pauseVoice v) (by simp [opTable, Instr.opcode]) rfl rfl

theorem resumeVoice (v : Nat) : Statement (.resumeVoice v) := of_idx (.resumeVoice v) (by simp [opTable, Instr.opcode]) rfl rfl

theorem stopVoice (v : Nat) : Statement (.stopVoice v) := of_idx (.stopVoice v) (by simp [opTable, Instr.opcode]) rfl rfl

theorem setVolume (v : Nat) : Statement (.setVolume v) := of_idx (.setVolume v) (by simp [opTable, Instr.opcode]) rfl rfl

theorem setLoop (v : Nat) (loop : Bool) : Statement (.setLoop v loop) := of_loop (.setLoop v loop) (by simp [opTable, Instr.opcode]) rfl

theorem bypassWrite (c : Nat) : Statement (.bypassWrite c) := of_idx (.bypassWrite c) (by simp [opTable, Instr.opcode]) rfl rfl

end Sys2Proof.Laws.LegalWord
end

