-- ==== Sys2Proof/Laws/Tick.lean ====
section
/-! SUPPORT. A tick slot by slot: which voices contribute, and what the visits and the removals after a failing line write leave of one slot and of the ring (42_mixer.md R250 to R256, R271). -/

namespace Sys2Proof.Machine

/-! ### Visits, one after the other -/

/-- The contributing voices after a visit. -/
theorem contrib_visit_eq (m : Mix) (v : Nat) :
    (visit m v).contrib = m.contrib ++ if m.s.supplies v = [] then [] else [v] := by
  unfold visit State.supplies
  dsimp only
  cases h : (m.s.voiceAt v).state <;> simp
  split <;> simp_all

/-- At most one of the slots `vs` holds a stream voice. -/
def State.OneStream (a : State) (vs : List Nat) : Prop :=
  ∀ x ∈ vs, ∀ y ∈ vs, (a.voiceAt x).stream = true → (a.voiceAt y).stream = true → x = y

theorem State.OneStream.tail {a : State} {v : Nat} {vs : List Nat} (h : a.OneStream (v :: vs)) : a.OneStream vs :=
  fun x hx y hy => h x (by simp [hx]) y (by simp [hy])

/-- The mix `m` has not yet touched what the visits of `vs` see of the state `a`. -/
structure Mix.Agrees (m : Mix) (a : State) (vs : List Nat) : Prop where
  voices : ∀ v ∈ vs, m.s.voiceAt v = a.voiceAt v
  cfg : m.s.cfg = a.cfg
  clips : m.s.clips = a.clips
  ring : ∀ v ∈ vs, (a.voiceAt v).stream = true → m.s.ring = a.ring

theorem agrees_visit {a : State} {v : Nat} {vs : List Nat} {m : Mix} (hn : (v :: vs).Nodup)
    (h : m.Agrees a (v :: vs)) (hs : a.OneStream (v :: vs)) : (visit m v).Agrees a vs := by
  rw [List.nodup_cons] at hn
  refine ⟨fun u hu => ?_, ?_, ?_, fun u hu hst => ?_⟩
  · rw [voiceAt_visit_ne (by rintro rfl; exact hn.1 hu)]
    exact h.voices u (by simp [hu])
  · rw [← h.cfg]; simp
  · rw [← h.clips]; simp
  · rw [ring_visit_of_clip]
    · exact h.ring u (by simp [hu]) hst
    · rw [h.voices v (by simp)]
      by_contra hc
      simp only [Bool.not_eq_false] at hc
      exact hn.1 (hs u (by simp [hu]) v (by simp) hst hc ▸ hu)

theorem agrees_foldl_visit {a : State} {as bs : List Nat} {m : Mix} (hn : (as ++ bs).Nodup)
    (h : m.Agrees a (as ++ bs)) (hs : a.OneStream (as ++ bs)) : (as.foldl visit m).Agrees a bs := by
  induction as generalizing m with
  | nil => exact h
  | cons v vs ih => exact ih (List.nodup_cons.1 hn).2 (agrees_visit hn h hs) hs.tail

theorem contrib_foldl_visit {a : State} {vs : List Nat} {m : Mix} (hn : vs.Nodup) (h : m.Agrees a vs)
    (hs : a.OneStream vs) :
    (vs.foldl visit m).contrib = m.contrib ++ vs.filter (fun v => decide (a.supplies v ≠ [])) := by
  induction vs generalizing m with
  | nil => simp
  | cons v vs ih =>
    have hv : m.s.supplies v = a.supplies v := supplies_congr (h.voices v (by simp)) h.cfg h.clips (h.ring v (by simp))
    rw [List.foldl_cons, ih (List.nodup_cons.1 hn).2 (agrees_visit hn h hs) hs.tail, contrib_visit_eq, hv,
      List.filter_cons]
    by_cases he : a.supplies v = [] <;> simp [he]

/-- Visits of clip voices leave the ring alone. -/
theorem ring_foldl_visit_of_clips {a : State} {vs : List Nat} {m : Mix} (hn : vs.Nodup)
    (hv : ∀ v ∈ vs, m.s.voiceAt v = a.voiceAt v) (hc : ∀ v ∈ vs, (a.voiceAt v).stream = false) :
    (vs.foldl visit m).s.ring = m.s.ring := by
  induction vs generalizing m with
  | nil => rfl
  | cons v vs ih =>
    rw [List.nodup_cons] at hn
    rw [List.foldl_cons, ih hn.2 (fun u hu => ?_) (fun u hu => hc u (by simp [hu])), ring_visit_of_clip]
    · rw [hv v (by simp)]
      exact hc v (by simp)
    · rw [voiceAt_visit_ne (by rintro rfl; exact hn.1 hu)]
      exact hv u (by simp [hu])

theorem stopped_visit_ne {v w : Nat} (h : v ≠ w) (hv : v < 256) (m : Mix) :
    (visit m w).s.stopped.getLsbD v = m.s.stopped.getLsbD v := by
  have hr : ∀ s : State, (s.removeVoice w).stopped.getLsbD v = s.stopped.getLsbD v := by
    intro s
    rw [State.removeVoice_stopped, BitVec.getLsbD_or, getLsbD_stoppedBit w v hv]
    simp [h]
  unfold visit
  dsimp only
  split
  · exact hr _
  · rfl
  · have e : (m.s.readVoice w).1.stopped = m.s.stopped := by
      obtain ⟨p, st, k, he, -⟩ := readVoice_cases w m.s
      rw [he]
      rfl
    show ((m.s.readVoice w).1.reap w).stopped.getLsbD v = _
    unfold State.reap
    split
    · rw [hr, e]
    · rw [e]

theorem stopped_foldl_visit_of_not_mem {v : Nat} (hv : v < 256) {vs : List Nat} (h : v ∉ vs) (m : Mix) :
    (vs.foldl visit m).s.stopped.getLsbD v = m.s.stopped.getLsbD v := by
  induction vs generalizing m with
  | nil => rfl
  | cons w vs ih =>
    simp only [List.mem_cons, not_or] at h
    rw [List.foldl_cons, ih h.2, stopped_visit_ne h.1 hv]

theorem sticky_foldl_visit (vs : List Nat) (m : Mix) : m.s.Sticky (vs.foldl visit m).s := by
  induction vs generalizing m with
  | nil => exact .refl _
  | cons v vs ih =>
    rw [List.foldl_cons]
    refine .trans ?_ (ih _)
    unfold visit
    dsimp only
    split
    · exact sticky_removeVoice _ _
    · exact .refl _
    · have h : m.s.Sticky (m.s.readVoice v).1 := by
        obtain ⟨p, st, k, e, -⟩ := readVoice_cases v m.s
        rw [e]
        exact .of_eq rfl rfl rfl
      show m.s.Sticky ((m.s.readVoice v).1.reap v)
      unfold State.reap
      split
      · exact h.trans (sticky_removeVoice _ _)
      · exact h

/-! ### The visits of a tick -/

/-- Admission changes no slot's streaming, and after it at most one active slot is a stream voice. -/
theorem oneStream_admitAll {s : State} (hq : s.QueueOk) (hr : s.RingOk) :
    (∀ v, (s.admitAll.voiceAt v).streaming = (s.voiceAt v).streaming) ∧
    s.admitAll.OneStream (s.admitAll.slotsWhere Voice.active) := by
  have hst : ∀ v, (s.admitAll.voiceAt v).streaming = (s.voiceAt v).streaming := by
    intro v
    rw [voiceAt_admitAll]
    split
    · rename_i e
      have := (hq.2 v).1 e.1
      simp [Voice.streaming, Voice.inUse, Voice.enter, this]
    · rfl
  have hact : ∀ v ∈ s.admitAll.slotsWhere Voice.active, (s.admitAll.voiceAt v).stream = true →
      (s.voiceAt v).streaming = true := by
    intro v hv h
    rw [← hst]
    simp [Voice.streaming, Voice.inUse, ((mem_slotsWhere _).1 hv).2, h]
  exact ⟨hst, fun x hx y hy h1 h2 =>
    (hr.2.1 x (hact x hx h1)).2.symm.trans (hr.2.1 y (hact y hy h2)).2⟩

/-- C, the voices that supplied a frame: the active slots, in increasing number, that supply one (R250). -/
theorem contrib_visits {s : State} (hq : s.QueueOk) (hr : s.RingOk) :
    s.admitAll.visits.contrib =
      (s.admitAll.slotsWhere Voice.active).filter (fun v => decide (s.admitAll.supplies v ≠ [])) :=
  (contrib_foldl_visit (a := s.admitAll) (nodup_slotsWhere _ _) ⟨fun _ _ => rfl, rfl, rfl, fun _ _ _ => rfl⟩
    (oneStream_admitAll hq hr).2).trans (List.nil_append _)

/-- The lowest slot that meets `p` and `q` heads the list of those that do. -/
theorem headD_filter_slotsWhere {s : State} {p : Voice → Bool} {q : Nat → Bool} {v : Nat} (hv : v < s.voices.length)
    (hp : p (s.voiceAt v) = true) (hq : q v = true) (hlow : ∀ u, u < v → p (s.voiceAt u) = true → q u = false) :
    ((s.slotsWhere p).filter q).headD 0 = v := by
  unfold State.slotsWhere
  rw [List.filter_filter]
  generalize s.voices.length = n at hv ⊢
  have h0 : ((List.range n).take v).filter (fun a => q a && p (s.voiceAt a)) = [] := by
    rw [List.filter_eq_nil_iff, List.take_range]
    intro a ha
    have hav : a < v := by simp at ha; omega
    by_cases hpa : p (s.voiceAt a) = true
    · simp [hlow a hav hpa]
    · simp [hpa]
  have h1 : (List.range n).filter (fun a => q a && p (s.voiceAt a)) =
      v :: ((List.range n).drop (v + 1)).filter (fun a => q a && p (s.voiceAt a)) := by
    conv_lhs => rw [← List.take_append_drop v (List.range n)]
    rw [List.filter_append, h0, List.drop_eq_getElem_cons (by simpa using hv)]
    simp [hq, hp]
  rw [h1]
  rfl

/-- What the visits of a tick leave of an active slot v, of its STOPPED_MASK bit, and, for a stream voice, of the ring is what its own visit leaves, from a mix that agrees with the start on them. -/
theorem visits_at {a : State} {v : Nat} (hv : v < 256) (ha : (a.voiceAt v).active = true)
    (hs : a.OneStream (a.slotsWhere Voice.active)) :
    ∃ m : Mix, m.Agrees a [v] ∧ m.s.stopped.getLsbD v = a.stopped.getLsbD v ∧
      a.visits.s.voiceAt v = (visit m v).s.voiceAt v ∧
      a.visits.s.stopped.getLsbD v = (visit m v).s.stopped.getLsbD v ∧
      ((a.voiceAt v).stream = true → a.visits.s.ring = (visit m v).s.ring) ∧ (visit m v).s.Sticky a.visits.s := by
  have hmem : v ∈ a.slotsWhere Voice.active :=
    (mem_slotsWhere _).2 ⟨lt_of_inUse a (by simp [Voice.inUse, ha]), ha⟩
  have hnd := nodup_slotsWhere a Voice.active
  unfold State.visits
  generalize a.slotsWhere Voice.active = vs at *
  obtain ⟨as, bs, rfl⟩ := List.append_of_mem hmem
  have hnot : v ∉ as ∧ v ∉ bs := by
    rw [List.nodup_append] at hnd
    exact ⟨fun h => hnd.2.2 v h v (by simp) rfl, (List.nodup_cons.1 hnd.2.1).1⟩
  have hbs := (List.nodup_append.1 hnd).2.1
  have h1 := agrees_foldl_visit (m := ⟨a, List.replicate a.cfg.mixBlock (0, 0), []⟩) hnd
    ⟨fun _ _ => rfl, rfl, rfl, fun _ _ _ => rfl⟩ hs
  have h2 := stopped_foldl_visit_of_not_mem hv hnot.1 ⟨a, List.replicate a.cfg.mixBlock (0, 0), []⟩
  rw [List.foldl_append, List.foldl_cons]
  generalize as.foldl visit _ = m at *
  refine ⟨m, ⟨fun u hu => h1.voices u (by simp at hu; simp [hu]), h1.cfg, h1.clips,
    fun u hu => h1.ring u (by simp at hu; simp [hu])⟩, h2, voiceAt_foldl_visit_of_not_mem hnot.2 _,
    stopped_foldl_visit_of_not_mem hv hnot.2 _, fun hst => ?_, sticky_foldl_visit _ _⟩
  refine ring_foldl_visit_of_clips (a := a) (List.nodup_cons.1 hbs).2 (fun u hu => ?_) (fun u hu => ?_)
  · rw [voiceAt_visit_ne (by rintro rfl; exact hnot.2 hu)]
    exact h1.voices u (by simp [hu])
  · by_contra hc
    simp only [Bool.not_eq_false] at hc
    exact hnot.2 (hs u (by simp [hu]) v (by simp) hc hst ▸ hu)

/-! ### The removals after a failing line write (R255) -/

theorem irqPend_removeVoice (s : State) (w : Nat) : (s.removeVoice w).irqPend &&& irqVoiceStopped = irqVoiceStopped := by
  show (s.irqPend ||| irqVoiceStopped) &&& irqVoiceStopped = _
  generalize s.irqPend = x
  revert x
  decide

/-- A slot of the list that is in use is removed. -/
theorem removeInUse_of_mem {vs : List Nat} {s : State} {v : Nat} (hv : v ∈ vs) (hu : (s.voiceAt v).inUse = true)
    (h256 : v < 256) :
    (s.removeInUse vs).voiceAt v = (s.voiceAt v).removed ∧ (s.removeInUse vs).stopped.getLsbD v = true ∧
    (s.removeInUse vs).irqPend &&& irqVoiceStopped = irqVoiceStopped ∧
    ((s.voiceAt v).stream = true → (s.removeInUse vs).ring = s.ring.unbind) := by
  let Done (t : State) : Prop := t.voiceAt v = (s.voiceAt v).removed ∧ t.stopped.getLsbD v = true ∧
    t.irqPend &&& irqVoiceStopped = irqVoiceStopped ∧ ((s.voiceAt v).stream = true → t.ring = s.ring.unbind)
  have key : ∀ (vs : List Nat) (t : State), t.ring.unbind = s.ring.unbind →
      (t.voiceAt v = s.voiceAt v ∧ v ∈ vs ∨ Done t) →
      Done (vs.foldl (fun t v => if (t.voiceAt v).inUse then t.removeVoice v else t) t) := by
    intro vs
    induction vs with
    | nil =>
      intro t _ h
      exact h.resolve_left (by simp)
    | cons w vs ih =>
      intro t hr h
      rw [List.foldl_cons]
      refine ih _ ?_ ?_
      · split
        · rw [State.removeVoice_ring]
          split <;> exact hr
        · exact hr
      · rcases h with ⟨h1, h2⟩ | ⟨h1, h2, h3, h4⟩
        · by_cases hw : v = w
          · subst hw
            refine .inr ?_
            rw [h1, hu, if_pos rfl]
            refine ⟨by rw [voiceAt_removeVoice, if_pos rfl, h1], ?_, irqPend_removeVoice _ _, fun hs => ?_⟩
            · rw [State.removeVoice_stopped, BitVec.getLsbD_or, getLsbD_stoppedBit v v h256]
              simp
            · rw [State.removeVoice_ring, h1, hs, if_pos rfl]
              exact hr
          · refine .inl ⟨?_, by simpa [hw] using h2⟩
            split
            · rw [voiceAt_removeVoice, if_neg hw, h1]
            · exact h1
        · refine .inr ?_
          by_cases hw : v = w
          · subst hw
            rw [h1]
            simp only [removed_inUse, Bool.false_eq_true, if_false]
            exact ⟨h1, h2, h3, h4⟩
          · split
            · refine ⟨by rw [voiceAt_removeVoice, if_neg hw, h1], ?_, irqPend_removeVoice _ _, fun hs => ?_⟩
              · rw [State.removeVoice_stopped, BitVec.getLsbD_or, h2]
                simp
              · rw [State.removeVoice_ring, h4 hs]
                split <;> rfl
            · exact ⟨h1, h2, h3, h4⟩
  exact key vs s rfl (.inl ⟨rfl, hv⟩)

theorem stopped_removeInUse_of_not {vs : List Nat} {s : State} {v : Nat}
    (h : v ∉ vs ∨ (s.voiceAt v).inUse = false) (h256 : v < 256) :
    (s.removeInUse vs).stopped.getLsbD v = s.stopped.getLsbD v := by
  unfold State.removeInUse
  induction vs generalizing s with
  | nil => rfl
  | cons w vs ih =>
    rw [List.foldl_cons]
    have hs : (if (s.voiceAt w).inUse then s.removeVoice w else s).voiceAt v = s.voiceAt v ∧
        (if (s.voiceAt w).inUse then s.removeVoice w else s).stopped.getLsbD v = s.stopped.getLsbD v := by
      split
      · rename_i hv
        have hne : v ≠ w := by
          rintro rfl
          rcases h with h | h
          · simp at h
          · rw [h] at hv
            cases hv
        rw [voiceAt_removeVoice, if_neg hne, State.removeVoice_stopped, BitVec.getLsbD_or,
          getLsbD_stoppedBit w v h256]
        simp [hne]
      · exact ⟨rfl, rfl⟩
    rw [ih (by rw [hs.1]; exact h.imp (fun h => by simp at h; exact h.2) id), hs.2]

/-- Removing clip voices leaves the ring alone. -/
theorem ring_removeInUse_of_clips {vs : List Nat} {s : State}
    (h : ∀ v ∈ vs, (s.voiceAt v).inUse = true → (s.voiceAt v).stream = false) :
    (s.removeInUse vs).ring = s.ring := by
  unfold State.removeInUse
  induction vs generalizing s with
  | nil => rfl
  | cons w vs ih =>
    rw [List.foldl_cons, ih]
    · split
      · rename_i hu
        rw [State.removeVoice_ring, h w (by simp) hu]
        rfl
      · rfl
    · intro u hu
      split
      · rw [voiceAt_removeVoice]
        split
        · simp
        · exact h u (by simp [hu])
      · exact h u (by simp [hu])

/-! ### Taking the turn -/

/-- Taking a turn changes neither what admission leaves of a slot nor what the slot supplies. -/
theorem admitAll_taking (s : State) (v : Nat) :
    s.taking.admitAll.voiceAt v = s.admitAll.voiceAt v ∧ s.taking.admitAll.supplies v = s.admitAll.supplies v := by
  have hv : s.taking.admitAll.voiceAt v = s.admitAll.voiceAt v := by
    rw [voiceAt_admitAll, voiceAt_admitAll]
    rfl
  exact ⟨hv, supplies_congr hv (by simp) (by simp) (fun _ => by simp)⟩

end Sys2Proof.Machine
end

