-- ==== Sys2Proof/Machine/HostProgram.lean ====
section
/-! DEFINITION. Host programs as scripts of turns: the host actions and schedule annotations of 30_encoding.md R126, and the pseudo-instructions of R128 that need no answer of the block.
The block knows nothing of them: it sees only the accesses. -/

namespace Sys2Proof.Machine

/-- `write NAME, v` for the register at an offset. -/
def writeTurn (offset : BitVec 13) (v : Word) : Turn := .host (.write offset .w32 v)

/-- `read NAME` for the register at an offset. -/
def readTurn (offset : BitVec 13) : Turn := .host (.read offset .w32)

/-- `push b0 b1 ...`. -/
def pushTurns (bs : List Byte) : List Turn := bs.map (fun b => writeTurn 0x140#13 (b.setWidth 32))

/-- `eos`. -/
def eosTurn : Turn := writeTurn 0x144#13 1#32

/-- ARG1 of a format: `{0b0000000000, ch[1:0], rate[19:0]}`. -/
def formatWord (rate ch : Nat) : Word := (0#10 ++ BitVec.ofNat 2 ch) ++ BitVec.ofNat 20 rate

/-- `MNEMONIC ...`: ARG0 and ARG1 written when given, then CMD. -/
def commandTurns (i : Instr) (arg0 arg1 : Option Word) : List Turn :=
  (arg0.map (writeTurn 0x008#13)).toList ++ (arg1.map (writeTurn 0x00C#13)).toList ++ [cmdWriteTurn (encode i)]

/-- A sequencer turn with a line that accepts and no timeout. -/
def seqTurn : Turn := .sequencer .ok false

/-- `wait idle` for a command that ends within n sequencer turns. -/
def waitTurns (n : Nat) : List Turn := List.replicate n seqTurn

/-- `tick`. -/
def tickTurn : Turn := .mixer .ok

/-- A tick whose line write fails: `linefail` before a `tick`. -/
def tickFailTurn : Turn := .mixer .fail

/-- `consume n`. -/
def consumeTurns (n : Nat) : List Turn := List.replicate n .line

/-- A volume written as an integer of the Q1.15 scale. -/
def volumeWord (v : Int) : Word := BitVec.ofInt 32 v

/-- `PLAY_SOUND clip=c [, vol=v] [, loop=l]`; the defaults are 1.0 and 0 (D30). -/
def playSound (c : Nat) (vol : Int := 32768) (loop : Bool := false) : List Turn :=
  commandTurns (.playVoice c loop) (some (volumeWord vol)) none

/-- `PAUSE_MUSIC`, with the host's music voice m. -/
def pauseMusic (m : Nat) : List Turn := commandTurns (.pauseVoice m) none none

/-- `RESUME_MUSIC`. -/
def resumeMusic (m : Nat) : List Turn := commandTurns (.resumeVoice m) none none

/-- `STOP_MUSIC`. -/
def stopMusic (m : Nat) : List Turn := commandTurns (.stopVoice m) none none

/-- `SHUTDOWN`. -/
def shutdown (drainTurns : Nat) : List Turn := commandTurns .mixerStop none none ++ waitTurns (1 + drainTurns)

/-- `LOAD_SOUND clip=c, bytes`, for bytes that fit the input buffer; n sequencer turns end the load. -/
def loadSound (c : Nat) (bytes : List Byte) (n : Nat) : List Turn :=
  commandTurns .resetStream none none ++ waitTurns 1 ++ commandTurns (.loadClip c) none none ++
    pushTurns bytes ++ [eosTurn] ++ waitTurns n

/-- `SET_VOLUME voice=m, vol=v` and its one sequencer turn. -/
def setVolumeTurns (m : Nat) (v : Int) : List Turn :=
  commandTurns (.setVolume m) (some (volumeWord v)) none ++ waitTurns 1

/-- `FADE_OUT voice=m` in n steps from volume v0; the waits between steps are host time. -/
def fadeOut (m : Nat) (v0 : Int) (n : Nat) : List Turn :=
  (List.range n).flatMap (fun k => setVolumeTurns m (v0 * (n - (k + 1)) / n)) ++
    commandTurns (.stopVoice m) none none ++ waitTurns 1

/-- The volume steps of `FADE_IN` to g in n steps, on the voice that PLAY_VOICE answered. -/
def fadeInSteps (voice : Nat) (g : Int) (n : Nat) : List Turn :=
  (List.range n).flatMap (fun k => setVolumeTurns voice (g * (k + 1) / n))

end Sys2Proof.Machine
end

