-- ==== Sys2Proof/Tests/Slice0.lean ====
section
/-! SUPPORT. Tests of the model on the vectors of 95_test_vectors.md (each test names its vector), and for every obligation a state that meets its hypotheses. -/

namespace Sys2Proof.Tests
open Sys2Proof Sys2Proof.Machine

/-! ### Well-formedness: one ill-formed term for each check -/

theorem test_wf_loadClip : (Instr.loadClip 256).wf = false := by decide
theorem test_wf_clipDefine : (Instr.clipDefine 256).wf = false := by decide
theorem test_wf_playVoice : (Instr.playVoice 256 true).wf = false := by decide
theorem test_wf_pauseVoice : (Instr.pauseVoice 256).wf = false := by decide
theorem test_wf_resumeVoice : (Instr.resumeVoice 256).wf = false := by decide
theorem test_wf_stopVoice : (Instr.stopVoice 256).wf = false := by decide
theorem test_wf_setVolume : (Instr.setVolume 256).wf = false := by decide
theorem test_wf_setLoop : (Instr.setLoop 256 false).wf = false := by decide
theorem test_wf_bypassWrite : (Instr.bypassWrite 256).wf = false := by decide

/-! ### Decoding: words written out from the fields of R100 and R104, bits 31:17 reserved, LOOP, IDX, OP -/

theorem test_decode_nop : decode 0b000000000000000_0_00000000_00000000#32 = .ok .nop := by decide
theorem test_decode_resetStream : decode 0b000000000000000_0_00000000_00000001#32 = .ok .resetStream := by decide
theorem test_decode_readFrame : decode 0b000000000000000_0_00000000_00000010#32 = .ok .readFrame := by decide
theorem test_decode_decodeFrame : decode 0b000000000000000_0_00000000_00000011#32 = .ok .decodeFrame := by decide
theorem test_decode_loadClip : decode 0b000000000000000_0_11111111_00000100#32 = .ok (.loadClip 255) := by decide
theorem test_decode_playStream : decode 0b000000000000000_0_00000000_00000101#32 = .ok .playStream := by decide
theorem test_decode_clipDefine : decode 0b000000000000000_0_00000101_00001000#32 = .ok (.clipDefine 5) := by decide
theorem test_decode_clipFreeAll : decode 0b000000000000000_0_00000000_00001001#32 = .ok .clipFreeAll := by decide
theorem test_decode_mixerStart : decode 0b000000000000000_0_00000000_00010000#32 = .ok .mixerStart := by decide
theorem test_decode_mixerStop : decode 0b000000000000000_0_00000000_00010001#32 = .ok .mixerStop := by decide
theorem test_decode_mixerSync : decode 0b000000000000000_0_00000000_00010010#32 = .ok .mixerSync := by decide
theorem test_decode_playVoice : decode 0b000000000000000_1_00000011_00010011#32 = .ok (.playVoice 3 true) := by decide
theorem test_decode_pauseVoice : decode 0b000000000000000_0_00000010_00010100#32 = .ok (.pauseVoice 2) := by decide
theorem test_decode_resumeVoice : decode 0b000000000000000_0_00000010_00010101#32 = .ok (.resumeVoice 2) := by decide
theorem test_decode_stopVoice : decode 0b000000000000000_0_00000001_00010110#32 = .ok (.stopVoice 1) := by decide
theorem test_decode_setVolume : decode 0b000000000000000_0_00000100_00010111#32 = .ok (.setVolume 4) := by decide
theorem test_decode_setLoop : decode 0b000000000000000_1_00000000_00011000#32 = .ok (.setLoop 0 true) := by decide
theorem test_decode_bypassWrite : decode 0b000000000000000_0_00000001_00011001#32 = .ok (.bypassWrite 1) := by decide

/-- 2.1: the illegal words. -/
theorem test_decode_illegal :
    [0x00000100#32, 0x00010000#32, 0x00010004#32, 0x00010005#32, 0x00000105#32, 0x00010014#32, 0x00020013#32,
      0x80000002#32, 0x00000006#32, 0x00000007#32, 0x0000000A#32, 0x0000000F#32, 0x0000001A#32, 0x000000FF#32,
      0x00000306#32].all (fun w => (decode w).toOption.isNone) = true := by decide

/-- A row of spec/opcode_table.json under its own numbering. -/
theorem test_decodeTableWord : decodeTableWord 32 0x00010313 = some (.playVoice 3 true) := by decide

/-! ### Small states -/

/-- Two voices, two clips, blocks of two frames and a line of four. -/
def tiny : State :=
  { State.reset with
    cfg := { clipMemSamples := 16, mixBlock := 2, lineCap := 4, inCap := 4096, maxResync := 4, ringCap := 1152
             linePresent := true }
    voices := List.replicate 2 .free
    clips := ⟨0, 0, 0, List.replicate 2 .invalid, []⟩ }

/-- `tiny` with a command in progress. -/
def busy (i : Instr) (p : Progress := .initial) (s : State := tiny) : State :=
  { s with cur := some ⟨i, s.arg0, s.arg1, p⟩ }

/-- `s` with the input stream `bs`, ended or not. -/
def withInput (bs : List Byte) (eos : Bool) (s : State := tiny) : State :=
  { s with stream := { s.stream with input := bs, eos := eos } }

/-- The state that a command's part leaves. -/
def after (i : Instr) (s : State) : State :=
  match exec i s with
  | .next t => t
  | .fault _ => s
  | .refused _ => s

/-- The state that a step leaves. -/
def stepped (s : State) : State :=
  match step s with
  | .next t => t
  | .fault _ => s
  | .refused _ => s

/-- The bytes of a word, big-endian. -/
def wordBytes (h : Word) : List Byte :=
  [h.extractLsb' 24 8, h.extractLsb' 16 8, h.extractLsb' 8 8, h.extractLsb' 0 8]

/-- A frame of zeros (the conventions of 95_test_vectors.md). -/
def zeroFrame (h : Word) (n : Nat) : List Byte := wordBytes h ++ List.replicate (n - 4) 0

/-- A mono clip [1000, −2000, 30000] in slot 0 (P2), and one at 48000 Hz in slot 1. -/
def clipStore : ClipStore :=
  ⟨0, 0, 4, [⟨true, 0, 3, 44100, 1⟩, ⟨true, 3, 1, 48000, 1⟩],
    [(0, 1000), (1, 0xF830), (2, 30000), (3, 5)]⟩

/-- A playing voice over clip 0 from position `pos`. -/
def clipVoice (pending loop : Bool) (pos vol : Nat) : Voice :=
  ⟨.playing, loop, false, pending, !pending, 0, 0, 3, 1, 44100, pos, vol⟩

/-- A playing stream voice. -/
def streamVoice : Voice := ⟨.playing, false, true, false, true, 0, 0, 0, 2, 44100, 0, 32768⟩

/-- A running mixer with an open, empty line, the clips of `clipStore`, and voice 0 active over clip 0. -/
def playing (loop : Bool := false) (pos : Nat := 0) (vol : Nat := 16384) : State :=
  { tiny with
    clips := clipStore, voices := [clipVoice false loop pos vol, .free]
    mixer := ⟨true, [], false⟩, line := ⟨true, []⟩ }

/-- `playing` with a stream voice in slot 1 bound to the ring. -/
def streaming (closed : Bool := false) (buf : List RingFrame := []) : State :=
  { playing with voices := [clipVoice false false 0 16384, streamVoice], ring := ⟨true, closed, 1, 2, buf⟩ }

/-! ### One step of each command -/

/-- H1. -/
theorem test_nop : (after .nop (busy .nop)).irqPend = 1 ∧ (after .nop (busy .nop)).cur = none := by decide

/-- Y12: RESET_STREAM after FAILED. -/
theorem test_resetStream :
    let s := after .resetStream (busy .resetStream .initial
      { tiny with stream := ⟨[0, 0], true, 4, .failed, 0, .mpeg, 0⟩, counters := ⟨0, 0, 0, 4⟩ })
    s.stream.mode = .initial ∧ s.regValue .streamPos = 0 ∧ s.regValue .inLevel = 0 ∧
      s.regValue .resyncBytes = 0 ∧ s.regValue .inCtrl = 0 ∧ s.result = 0 := by decide

/-- R364 with R361: MIXER_STOP of a bound ring leaves the ring as after reset. -/
theorem test_mixerStop_ring :
    (after .mixerStop (busy .mixerStop .initial streaming)).ring = State.reset.ring := by decide

/-- `tiny` with other numbers of slots. -/
def sized (voices clips : Nat) : State :=
  { tiny with
    voices := List.replicate voices .free, clips := { tiny.clips with descs := List.replicate clips .invalid } }

theorem configLegal_sized (v c : Nat) :
    (sized v c).configLegal = (decide (1 ≤ v) && decide (v ≤ 256) && decide (1 ≤ c) && decide (c ≤ 256)) := by
  simp only [State.configLegal, State.nVoices, State.nClips, sized, List.length_replicate]
  rfl

/-- R6: N_VOICES and N_CLIPS lie in 1 to 256. -/
theorem test_configLegal :
    (sized 1 1).configLegal = true ∧ (sized 256 256).configLegal = true ∧ (sized 0 1).configLegal = false ∧
    (sized 1 0).configLegal = false ∧ (sized 257 1).configLegal = false ∧ (sized 1 257).configLegal = false := by
  simp only [configLegal_sized]
  decide

/-- W8: RESET_STREAM with a bound ring. -/
theorem test_resetStream_ring :
    let s := after .resetStream (busy .resetStream .initial
      { streaming with ring := ⟨true, false, 0, 2, [.stereo 1 2]⟩ })
    s.regValue .ringInfo = 0x0000000B#32 ∧ s.regValue .ringLevel = 0 := by decide

/-- 2.2 on 0xFFF314C0, accepted as the last frame of the stream (as in Y4). -/
theorem test_readFrame :
    let s := after .readFrame (busy .readFrame (.reading 0) (withInput (zeroFrame 0xFFF314C0#32 24) true))
    s.result = 0 ∧ s.hdr.fields = 0x0020344D#32 ∧ s.hdr.subbands = 8 ∧ s.hdr.slotCount = 11 ∧
      s.hdr.frameLen = 24 ∧ s.hdr.sampleRate = 24000 ∧ s.regValue .syncWord = 0xFFF20400#32 ∧
      s.stream.pos = 24 ∧ s.irqPend = 0x11 := by decide

/-- Y6: the scan window used up. -/
theorem test_readFrame_malformed :
    let s := after .readFrame (busy .readFrame (.reading 4) (withInput (List.replicate 6 0) true))
    s.result = 2 ∧ s.regValue .err = 0x00000201#32 ∧ s.stream.mode = .failed ∧ s.irqPend = 3 := by decide

/-- 2.2 on 0xFFFE9050 (Layer I, joint stereo) and 0xFFFDE400 (Layer II): bitrate, frame length, SUBBANDS and HDR_FIELDS. -/
theorem test_headerRegisters :
    [headerRegisters 0xFFFE9050#32 0 [], headerRegisters 0xFFFDE400#32 0 []].map (fun r =>
      (r.bitrate, r.frameLen, r.subbands, r.fields)) =
      [(288000, 312, 0x00000820, 0x00405254), (384000, 1152, 0x0000001B, 0x00400788)] := by decide +kernel

/-- D1. -/
theorem test_decodeFrame_noFrame :
    let s := after .decodeFrame (busy .decodeFrame)
    s.regValue .err = 0x00000313#32 ∧ s.irqPend = 3 := by decide

/-- A decoder set up with two channels and a mono frame 0xFFFB90C0, not yet decoded (D5). -/
def monoFrame : State :=
  { tiny with
    frame := some ⟨0xFFFB90C0#32, [], true⟩
    hdr := headerRegisters 0xFFFB90C0#32 0 []
    dec := ⟨true, 2, 44100, [[], []], [], []⟩ }

/-- D5: a frame of another channel count is skipped. -/
theorem test_decodeFrame_channels :
    let s := after .decodeFrame (busy .decodeFrame .initial monoFrame)
    s.result = 1 ∧ s.counters.skipCount = 1 ∧ s.regValue .err = 0x00000303#32 ∧ s.frame.map (·.pending) = some false := by
  decide

/-- R27: a decoded frame of two channels gives a mono ring frames of one sample. -/
theorem test_ringFrames :
    let s : State := { tiny with ring := ⟨true, false, 0, 1, []⟩, sink := ⟨[1, 2, 3, 4], 2, 0⟩ }
    s.ringAppend.ring.buf.map (fun f => f.samples.length) = [1, 1] ∧ s.ringAppend.env.ringTaken = 2 := by decide

/-- R210: the ring takes a stereo frame as it is decoded. -/
theorem test_ringFrames_own :
    let s : State := { tiny with ring := ⟨true, false, 0, 2, []⟩, sink := ⟨[1, 2, 3, 4], 2, 0⟩ }
    s.ringAppend.ring.buf = [.stereo 1 2, .stereo 3 4] := by decide

/-- D9. -/
theorem test_loadClip_wav :
    let s := after (.loadClip 0) (busy (.loadClip 0) (.loading ⟨0, 0, 0, 0, 0, 0⟩)
      (withInput [0x52, 0x49, 0x46, 0x46] false))
    s.regValue .err = 0x0000041A#32 ∧ s.stream.kind = .wav := by decide

/-- D6, its last step: two frames of 1152 mono samples are decoded and the stream ends. -/
theorem test_loadClip_end :
    let s := after (.loadClip 0) (busy (.loadClip 0) (.loading ⟨0, 2304, 2, 1, 44100, 0⟩) (withInput [] true))
    s.result = 2304 ∧ s.regValue .clipLen = 2304 ∧ s.regValue .clipRate = 44100 ∧ s.regValue .clipInfo = 3 ∧
      s.clips.alloc = 2304 ∧ s.flags.eosSeen = true := by decide

/-- W1: the first frame 0xFFFB9064 accepted. -/
theorem test_playStream :
    let s := after .playStream (busy .playStream .initial
      { tiny with
        arg0 := 32768, stream := { tiny.stream with nframes := 1 }, hdr := headerRegisters 0xFFFB9064#32 0 [] })
    s.result = 0 ∧ s.regValue .ringInfo = 0x00000009#32 ∧ s.regValue (.vState 0) = 0x00000019#32 ∧
      s.regValue (.vLen 0) = 0 := by decide

/-- W3. -/
theorem test_playStream_noFrame :
    (after .playStream (busy .playStream)).regValue .err = 0x00000519#32 := by decide

/-- H4, at base 4: a stereo clip of 3 frames. -/
theorem test_clipDefine :
    let s := after (.clipDefine 1) (busy (.clipDefine 1) .initial
      { tiny with arg0 := 3, arg1 := 0x0020AC44#32, clips := clipStore })
    s.result = 4 ∧ s.clips.alloc = 10 ∧ s.descAt 1 = ⟨true, 4, 3, 44100, 2⟩ ∧ Memory.read? s.clips.mem 9 = some 0 := by
  decide

/-- H5, H6 and H7. -/
theorem test_clipDefine_format :
    [0x0030AC44#32, 0x00100000#32, 0x0050AC44#32].all (fun w =>
      decide ((after (.clipDefine 0) (busy (.clipDefine 0) .initial
        { tiny with arg0 := 1, arg1 := w })).regValue .err = 0x00000810#32)) = true := by decide

/-- H10. -/
theorem test_clipFreeAll :
    let s := after .clipFreeAll (busy .clipFreeAll .initial { tiny with clips := clipStore })
    s.result = 0 ∧ s.clips.alloc = 0 ∧ s.clips.descs.all (fun d => !d.valid) = true ∧ s.clips.mem = clipStore.mem := by
  decide

/-- H11. -/
theorem test_clipFreeAll_busy :
    (after .clipFreeAll (busy .clipFreeAll .initial playing)).regValue .err = 0x00000915#32 := by decide

/-- M1. -/
theorem test_mixerStart :
    (after .mixerStart (busy .mixerStart)).regValue .status = 0x00001800#32 := by decide

/-- M3. -/
theorem test_mixerStart_absent :
    (after .mixerStart (busy .mixerStart .initial { tiny with cfg := { tiny.cfg with linePresent := false } })).regValue .err =
      0x00001005#32 := by decide

/-- M4, with voice 0 in use. -/
theorem test_mixerStop :
    let s := after .mixerStop (busy .mixerStop .initial { playing with mixer := ⟨false, [], false⟩ })
    s.result = 0 ∧ s.regValue (.stoppedMask 0) = 1 ∧ s.irqPend = 5 ∧ s.line.isOpen = true := by decide

/-- S6: the timeout draw ends the drain. -/
theorem test_mixerStop_timeout :
    let s := after .mixerStop (busy .mixerStop .draining
      { tiny with line := ⟨true, [⟨1, 2⟩]⟩, env := { tiny.env with timeout := true } })
    s.result = 0 ∧ s.line = ⟨false, []⟩ ∧ s.cur = none := by decide

/-- M7: MIXER_SYNC asks for a tick. -/
theorem test_mixerSync :
    let s := after .mixerSync (busy .mixerSync .initial playing)
    s.mixer.syncreq = true ∧ s.regValue .status = 0x00001801#32 := by decide

/-- M8. -/
theorem test_mixerSync_noRoom :
    let s := after .mixerSync (busy .mixerSync .initial { playing with line := ⟨true, List.replicate 3 ⟨0, 0⟩⟩ })
    s.result = 0 ∧ s.cur = none ∧ s.mixer.syncreq = false := by decide

/-- V2: after V1, a second voice, looping at volume 0.5. -/
theorem test_playVoice :
    let s := after (.playVoice 0 true) (busy (.playVoice 0 true) .initial
      { tiny with arg0 := 16384, clips := clipStore, voices := [clipVoice true false 0 32768, .free], mixer := ⟨false, [0], false⟩ })
    s.result = 1 ∧ s.regValue (.vState 1) = 0x00000015#32 ∧ s.mixer.fifo = [0, 1] := by decide

/-- V4. -/
theorem test_playVoice_format :
    (after (.playVoice 1 false) (busy (.playVoice 1 false) .initial { tiny with clips := clipStore })).regValue .err =
      0x00011316#32 := by decide

/-- V5. -/
theorem test_pauseVoice :
    (after (.pauseVoice 0) (busy (.pauseVoice 0) .initial
      { tiny with voices := [clipVoice true false 0 32768, .free] })).regValue (.vState 0) = 0x00000012#32 := by decide

/-- V13. -/
theorem test_resumeVoice :
    (after (.resumeVoice 0) (busy (.resumeVoice 0) .initial
      { tiny with voices := [{ clipVoice false false 0 32768 with state := .stopped }, .free] })).regValue (.vState 0) =
      0x00000020#32 := by decide

/-- V7. -/
theorem test_stopVoice :
    let s := after (.stopVoice 0) (busy (.stopVoice 0) .initial playing)
    s.regValue (.vState 0) = 0x00000020#32 ∧ s.result = 0 ∧ s.stopped = 0 := by decide

/-- V8, on the free slot 1. -/
theorem test_stopVoice_free :
    let s := after (.stopVoice 1) (busy (.stopVoice 1) .initial playing)
    s.result = 1 ∧ s.voices = playing.voices := by decide

/-- S5. -/
theorem test_setVolume :
    (after (.setVolume 0) (busy (.setVolume 0) .initial { playing with arg0 := 55706 })).regValue (.vVol 0) = 32768 ∧
    (after (.setVolume 0) (busy (.setVolume 0) .initial { playing with arg0 := 0xFFFFD99A#32 })).regValue (.vVol 0) = 0 := by
  decide

/-- V11. -/
theorem test_setLoop :
    (after (.setLoop 0 true) (busy (.setLoop 0 true) .initial playing)).regValue (.vState 0) = 0x00000025#32 := by decide

/-- V12, on the stream voice in slot 1. -/
theorem test_setLoop_stream :
    (after (.setLoop 1 true) (busy (.setLoop 1 true) .initial streaming)).regValue .err = 0x00011819#32 := by decide

/-- B2: the second write fails. -/
theorem test_bypassWrite_fail :
    let s := after (.bypassWrite 1) (busy (.bypassWrite 1) (.bypass ⟨true, 0, 3, 44100, 1⟩ 2)
      { tiny with line := ⟨true, [⟨5, 5⟩, ⟨6, 6⟩]⟩, clips := ⟨0, 0, 3, [], [(0, 5), (1, 6), (2, 7)]⟩, env := { tiny.env with lineDraw := .fail } })
    s.result = 2 ∧ s.regValue .err = 0x00011906#32 ∧ s.line.buf = [⟨5, 5⟩, ⟨6, 6⟩] := by decide

/-- B1: the last chunk. -/
theorem test_bypassWrite :
    let s := after (.bypassWrite 1) (busy (.bypassWrite 1) (.bypass ⟨true, 0, 3, 44100, 1⟩ 2)
      { tiny with line := ⟨true, [⟨5, 5⟩, ⟨6, 6⟩]⟩, clips := ⟨0, 0, 3, [], [(0, 5), (1, 6), (2, 7)]⟩ })
    s.line.buf = [⟨5, 5⟩, ⟨6, 6⟩, ⟨7, 7⟩] ∧ s.counters.samplesOut = 1 := by decide

/-! ### Turns of the other agents -/

/-- P2, tick 1. -/
theorem test_tick :
    let s := stepped (playing.withTurn tickTurn)
    s.line.buf = [⟨500, 500⟩, ⟨0xFC18, 0xFC18⟩] ∧ s.counters.samplesOut = 2 ∧ s.regValue (.vPos 0) = 2 := by decide

/-- P2, tick 2. -/
theorem test_tick_last :
    let s := stepped ((playing false 2).withTurn tickTurn)
    s.line.buf = [⟨15000, 15000⟩, ⟨0, 0⟩] ∧ s.regValue (.vState 0) = 0 ∧ s.regValue (.vPos 0) = 3 ∧
      s.regValue (.stoppedMask 0) = 1 ∧ s.irqPend = 4 := by decide

/-- S4, tick 2: a looping voice wraps. -/
theorem test_tick_loop :
    let s := stepped ((playing true 2 32768).withTurn tickTurn)
    s.line.buf = [⟨30000, 30000⟩, ⟨1000, 1000⟩] ∧ s.regValue (.vPos 0) = 1 ∧ s.regValue (.vState 0) = 0x25 := by decide

/-- E5: the mixer's line write fails, here for voice 0. -/
theorem test_tick_fail :
    let s := stepped (playing.withTurn tickFailTurn)
    s.line.buf = [] ∧ s.regValue .err = 0x0000FF06#32 ∧ s.regValue (.stoppedMask 0) = 1 ∧ s.irqPend = 6 := by decide

/-- W6: an empty open ring enables no tick. -/
theorem test_underrun : ({ streaming with voices := [.free, streamVoice] } : State).tickEnabled = false := by decide

/-- 2.9: the line's byte order. -/
theorem test_lineBytes : StereoFrame.bytes ⟨0xFC18, 15000⟩ = [0x18, 0xFC, 0x98, 0x3A] := by decide

/-- 2.9: Scale. -/
theorem test_scale :
    [scale 0xFFFD#16 16384, scale 1#16 1, scale 0xFFFF#16 1, scale 32767#16 1, scale 0x8000#16 1, scale 0x8000#16 32768] =
      [-2, 0, -1, 0, -1, -32768] := by decide

/-- 2.6: the check value of the CRC, and the protected bits of a frame 0xFFF280C0. -/
theorem test_crc :
    crc16 (bytesBits [0x31, 0x32, 0x33, 0x34, 0x35, 0x36, 0x37, 0x38, 0x39]) = 0xAEE7#16 ∧
    frameCrc ⟨0xFFF280C0#32, [0x4F, 0xE8, 0, 0, 0, 0, 0, 0, 0, 0, 0], true⟩ = 0x4FE8#16 := by decide +kernel

/-- X5: a corrupt Xing header. -/
theorem test_xing_corrupt :
    parseVbr (List.replicate 9 0 ++ [0x58, 0x69, 0x6E, 0x67, 0, 0, 0, 1, 0, 0, 0]) (fieldsOf 0xFFF314C0#32) = .corrupt := by
  decide

/-- X8: a VBRI header. -/
theorem test_vbri :
    (match parseVbr (List.replicate 32 0 ++ [0x56, 0x42, 0x52, 0x49, 0, 0, 0, 0, 0, 0, 0, 1, 0, 0, 0, 0, 1, 0])
        (fieldsOf 0xFFFB9064#32) with
      | .found v => decide (v.info = 0x32 ∧ v.frames = 256 ∧ v.bytes = 65536 ∧ v.scale = 0xFFFFFFFF)
      | .absent => false
      | .corrupt => false) = true := by decide +kernel

/-- H14. -/
theorem test_clipData_busy :
    let s := stepped (({ playing with clips := { clipStore with addr := 1 } } : State).withTurn (writeTurn 0x118#13 7))
    s.regValue .err = 0x0000FF15#32 ∧ s.clips.mem = clipStore.mem ∧ s.clips.addr = 2 := by decide

/-- H13: the read sign-extends. -/
theorem test_clipData_read :
    let s := stepped (({ tiny with clips := { clipStore with addr := 1 } } : State).withTurn (readTurn 0x118#13))
    s.obs.readData = 0xFFFFF830#32 ∧ s.clips.addr = 2 := by decide

/-- H20, H21 and H25. -/
theorem test_reads :
    (stepped (tiny.withTurn (.host (.read 0x010#13 .w16)))).regValue .err = 0x0000FF1B#32 ∧
    (stepped (tiny.withTurn (readTurn 0x001#13))).regValue .err = 0x0000FF1B#32 ∧
    (stepped (tiny.withTurn (readTurn 0x03C#13))).regValue .err = 0x0000FF1B#32 ∧
    (stepped (tiny.withTurn (readTurn 0x004#13))).regValue .err = 0 := by decide

/-- 2.1: CMD_BUSY comes before the check of the word. -/
theorem test_cmdBusy :
    (stepped ((busy .readFrame (.reading 0)).withTurn (writeTurn 0x004#13 0x100#32))).regValue .err = 0x00010012#32 := by decide

/-- 2.1: an illegal word on an idle block. -/
theorem test_badCommand :
    let s := stepped (tiny.withTurn (writeTurn 0x004#13 0x306#32))
    s.regValue .err = 0x00030610#32 ∧ s.irqPend = 2 ∧ s.cur = none := by decide

/-! ### Witnesses: the hypotheses of every obligation are met, each clause at the edges of its range -/

theorem witness_DecodeOfEncode : (Instr.setLoop 255 true).wf = true ∧ (Instr.loadClip 0).wf = true := by decide

theorem witness_LegalWords : decode 0x0001FF13#32 = .ok (.playVoice 255 true) := by decide

theorem witness_StepRunsTheCommand :
    (∃ (s : State) (w : Word) (i : Instr), s.cur = none ∧ s.env.nextTurn = .host (.write 0x004#13 .w32 w) ∧ decode w = .ok i) ∧
    (∃ (s : State) (j : Job) (d : LineDraw) (b : Bool), s.cur = some j ∧ s.env.nextTurn = .sequencer d b) :=
  ⟨⟨tiny.withTurn (cmdWriteTurn 0x00010018#32), 0x00010018#32, .setLoop 0 true, rfl, rfl, by decide⟩,
    (busy .nop).withTurn (.sequencer .fail true), _, .fail, true, rfl, rfl⟩

theorem witness_PlacedWordRuns : (Instr.bypassWrite 255).wf = true := by decide

theorem witness_CommandStarts :
    tiny.cur = none ∧ (tiny.nClips ≤ 2) ∧ ¬ (tiny.nClips ≤ 1) ∧ tiny.ring.bound = false ∧
    streaming.cur = none ∧ ¬ (streaming.nClips ≤ 0) ∧ streaming.ring.bound = true := by decide

theorem witness_RejectedWords :
    (∃ (s : State) (w : Word), s.cur = none ∧ s.env.nextTurn = .host (.write 0x004#13 .w32 w) ∧ ∀ i, decode w ≠ .ok i) ∧
    (∃ (s : State) (w : Word) (j : Job), s.cur = some j ∧ s.env.nextTurn = .host (.write 0x004#13 .w32 w)) := by
  refine ⟨⟨tiny.withTurn (cmdWriteTurn 6), 6, rfl, rfl, ?_⟩, (busy .nop).withTurn (cmdWriteTurn 0), 0, _, rfl, rfl⟩
  intro i h
  have : decode 6 = .error .unassignedOpcode := by decide
  rw [this] at h
  cases h

/-- A state with an error recorded. -/
def erring : State := tiny.record .badIndex 0x04 7

theorem witness_RecordRaiseComplete : tiny.err.code = .none ∧ erring.err.code ≠ .none := by decide

theorem witness_RunningCommandKept :
    ∃ (s t : State) (j : Job), s.cur = some j ∧ step s = .next t :=
  ⟨busy .mixerSync .syncing, _, _, rfl, step_eq _⟩

/-- The run that takes the turns `ts` and then the line's for ever. -/
def runOf : List Turn → State → Nat → State
  | _, s, 0 => s
  | ts, s, n + 1 => runOf ts.tail (stepped (s.withTurn (ts.headD .line))) n

theorem step_stepped (s : State) : step s = .next (stepped s) := by
  unfold stepped
  rw [step_eq]

theorem scheduled_runOf (ts : List Turn) (s : State) : Scheduled (fun n => ts.getD n .line) (runOf ts s) := by
  intro n
  induction n generalizing ts s with
  | zero => cases ts <;> exact step_stepped _
  | succ n ih => cases ts <;> exact ih _ _

/-- Nobody but the host has anything to do. -/
def State.atRest (c : State) : Prop := c.cur = none ∧ c.tickEnabled = false ∧ (c.line.isOpen = false ∨ c.line.buf = [])

/-- The line's turn leaves such a state as it is. -/
theorem stepped_atRest {c : State} (h : State.atRest c) : stepped (c.withTurn .line) = c := by
  have hs : step (c.withTurn .line) = .next c.lineTurn := rfl
  unfold stepped
  rw [hs]
  show c.lineTurn = c
  unfold State.lineTurn
  obtain ⟨-, -, h | h⟩ := h <;> rw [h]
  · rfl
  · split <;> rfl

/-- A run at rest after its listed turns stays there. -/
theorem runOf_rest (ts : List Turn) {s : State} (h : State.atRest (runOf ts s ts.length)) (n : Nat) :
    runOf ts s (n + ts.length) = runOf ts s ts.length := by
  induction ts generalizing s with
  | nil =>
    induction n with
    | zero => rfl
    | succ n ih =>
      have hs : stepped (s.withTurn .line) = s := stepped_atRest h
      show runOf [] (stepped (s.withTurn .line)) n = s
      rw [hs]
      exact ih
  | cons t ts ih => exact ih h

/-- Such a run is weakly fair. -/
theorem fair_runOf (ts : List Turn) {s : State} (h : State.atRest (runOf ts s ts.length)) :
    WeaklyFair (fun n => ts.getD n .line) (runOf ts s) := by
  intro a n ha he
  obtain ⟨t, ht, hen⟩ := he (n + ts.length) (by omega)
  rw [runOf_rest ts h] at hen
  obtain ⟨h1, h2, h3⟩ := h
  cases t with
  | host _ => exact absurd ht.symm ha
  | sequencer d b =>
    refine absurd ?_ hen
    show (match (runOf ts s ts.length).cur with | none => _ | some j => _) = _
    rw [h1]
  | mixer d => exact absurd (h2.symm.trans hen) (by decide)
  | line => exact h3.elim (fun h => absurd (h.symm.trans hen.1) (by decide)) (fun h => absurd h hen.2)

/-- A stream that has ended, and an open line with the empty clip 0. -/
def endable : State :=
  { withInput [] true with
    line := ⟨true, []⟩, clips := ⟨0, 0, 0, [⟨true, 0, 0, 44100, 1⟩, .invalid], []⟩ }

/-- The hypotheses of StartedCommandsEnd at the start of a run. -/
def Starts (i : Instr) (σ : Nat → Turn) (r : Nat → State) : Prop :=
  Scheduled σ r ∧ WeaklyFair σ r ∧ (r 0).cfg.legal = true ∧ (r 0).cur = none ∧
  (∃ j, (r 1).cur = some j ∧ j.instr = i) ∧ (∃ m, 0 < m ∧ (r m).stream.eos = true) ∧
  ∃ k, ∀ m, k ≤ m → (r m).tickEnabled = false

theorem starts_runOf {i : Instr} {ts : List Turn} {s : State} {p : Progress} {c : State}
    (h1 : runOf ts s 1 = busy i p s) (he : s.stream.eos = true) (hl : s.cfg.legal = true) (h0 : s.cur = none)
    (hc : runOf ts s ts.length = c) (hr : State.atRest c) :
    Starts i (fun n => ts.getD n .line) (runOf ts s) := by
  subst hc
  refine ⟨scheduled_runOf _ _, fair_runOf _ hr, hl, h0, ⟨_, by rw [h1]; rfl, rfl⟩, ⟨1, by decide, by rw [h1]; exact he⟩,
    ts.length, fun m hm => ?_⟩
  obtain ⟨n, rfl⟩ := Nat.exists_eq_add_of_le' hm
  exact (congrArg State.tickEnabled (runOf_rest ts hr n)).trans hr.2.1

/-- The host's accesses are over once the listed turns that are its own are. -/
theorem hostDone_of {ts : List Turn} {k : Nat} (h : ∀ t ∈ ts.drop k, agentOf t ≠ .host) :
    HostDone (fun n => ts.getD n .line) k := by
  intro m hm
  show agentOf (ts.getD m .line) ≠ .host
  by_cases hl : m < ts.length
  · refine h _ (List.mem_iff_getElem.2 ⟨m - k, by rw [List.length_drop]; omega, ?_⟩)
    simp [List.getD_eq_getElem?_getD, hl, Nat.add_sub_cancel' hm]
  · simp [List.getD_eq_getElem?_getD, Nat.le_of_not_lt hl, agentOf]

/-- Fair runs in which NOP, READ_FRAME and BYPASS_WRITE start; the host has ended the input, and no tick is enabled.
In the last the host is done at 1, where the command is still in progress. -/
theorem witness_StartedCommandsEnd :
    (∃ σ r, Starts .nop σ r) ∧ (∃ σ r, Starts .readFrame σ r) ∧
    ∃ σ r, Starts (.bypassWrite 0) σ r ∧ HostDone σ 1 ∧ (r 1).stream.eos = true := by
  refine ⟨⟨_, _, starts_runOf (ts := [cmdWriteTurn 0, .sequencer .ok false]) (s := endable)
      (c := { endable with irqPend := 1 }) rfl rfl (by decide) rfl rfl ⟨rfl, by decide, .inr rfl⟩⟩,
    ⟨_, _, starts_runOf (ts := [cmdWriteTurn 2, .sequencer .ok false]) (s := endable)
      (c := { endable with
        stream := { endable.stream with kind := .mpeg }, flags := { endable.flags with eosSeen := true }
        result := 1, irqPend := 1 }) rfl rfl (by decide) rfl rfl ⟨rfl, by decide, .inr rfl⟩⟩,
    ⟨_, _, starts_runOf (ts := [cmdWriteTurn 0x19, .sequencer .ok false, .sequencer .ok false]) (s := endable)
      (c := { endable with irqPend := 1 }) rfl rfl (by decide) rfl rfl ⟨rfl, by decide, .inr rfl⟩,
      hostDone_of (by decide), rfl⟩⟩

/-- R392: the run of a program that writes NOP to CMD ends after the command's one sequencer step, not before its access and not while the command runs; the line writes of a tick in it are observed. -/
theorem test_runEnds :
    RunEnds (fun n => [cmdWriteTurn 0, seqTurn].getD n .line) (runOf [cmdWriteTurn 0, seqTurn] endable) 2 ∧
    (observedWrites (runOf [tickFailTurn] playing) 1).map LineWrite.draw = [.fail] := by
  refine ⟨⟨⟨hostDone_of (by decide), by decide⟩, fun k hk h => ?_⟩, by decide⟩
  match k with
  | 0 => exact h.1 0 (by decide) rfl
  | 1 => exact absurd h.2 (by decide)

/-- Every statement about a sequencer step of a command has this hypothesis. -/
theorem witness_busy (i : Instr) (p : Progress) (s : State) : ∃ j, (busy i p s).cur = some j := ⟨_, rfl⟩

theorem witness_NopResult : ∃ j, (busy .nop).cur = some j := ⟨_, rfl⟩

theorem witness_ResetStreamResult :
    (∃ j, (busy .resetStream).cur = some j) ∧ ∃ j, (busy .resetStream .initial streaming).cur = some j := ⟨⟨_, rfl⟩, _, rfl⟩

/-- The bytes of a mono frame of 24 bytes (2.2) and of the header after it. -/
def frame24 : List Byte := zeroFrame 0xFFF314C0#32 24 ++ wordBytes 0xFFF316C0#32

/-- A stream after its first frame, of header 0xFFF314C0 (2.3). -/
def strictOn (s : State) : State :=
  { s with stream := { s.stream with mode := .strict, word := 0xFFF20400#32, kind := .mpeg, pos := 24, nframes := 1 } }

/-- The first frame with exactly the next header in the buffer, the last frame with nothing and with three bytes after it, and a frame in STRICT mode. -/
theorem witness_ReadFrameAccepts :
    [withInput frame24 false, withInput (frame24.take 24) true, withInput (frame24.take 27) true,
      strictOn (withInput frame24 false)].all (fun s =>
        decide (s.stream.mode ≠ .failed) &&
        decide (s.stream.kind = .mpeg ∨ s.stream.kind = .unknown ∧ s.stream.input.take 4 ≠ [0x52, 0x49, 0x46, 0x46]) &&
        decide (frameLen (be32 s.stream.input 0) = 24) &&
        syncMark (be32 s.stream.input 0) s.stream.mode s.stream.word &&
        (decide (24 + 4 ≤ s.stream.input.length) && syncMark (be32 s.stream.input 24) s.stream.mode s.stream.word ||
          s.stream.eos && decide (24 ≤ s.stream.input.length) && decide (s.stream.input.length < 24 + 4))) = true := by
  decide

/-- Four bytes that are no header, and a frame that no header follows; the last skip allowed. -/
theorem witness_ReadsSkipOneByte :
    [withInput [0, 0, 0, 0] false, withInput (zeroFrame 0xFFF314C0#32 24 ++ [0, 0, 0, 0]) false].all (fun s =>
        decide (s.stream.mode ≠ .failed) && decide (s.stream.kind = .unknown) &&
        decide (s.stream.input.take 4 ≠ [0x52, 0x49, 0x46, 0x46]) && decide (4 ≤ s.stream.input.length) &&
        (!syncMark (be32 s.stream.input 0) s.stream.mode s.stream.word ||
          decide (frameLen (be32 s.stream.input 0) + 4 ≤ s.stream.input.length) &&
            !syncMark (be32 s.stream.input (frameLen (be32 s.stream.input 0))) s.stream.mode s.stream.word)) = true ∧
    tiny.cfg.maxResync ≠ 3 ∧ tiny.cfg.maxResync ≠ 0 := by decide

/-- Three bytes, and a frame with three of the four bytes of the next header. -/
theorem witness_ReadsHoldForInput :
    (withInput [0, 0, 0] false).stream.input.length < 4 ∧
    (let s := withInput (frame24.take 27) false
     s.stream.eos = false ∧ s.stream.mode ≠ .failed ∧ s.stream.kind ≠ .wav ∧
     s.stream.input.take 4 ≠ [0x52, 0x49, 0x46, 0x46] ∧
     syncMark (be32 s.stream.input 0) s.stream.mode s.stream.word = true ∧
     s.stream.input.length < frameLen (be32 s.stream.input 0) + 4) := by decide

/-- Three bytes, a frame of one byte less, both ways to be WAV, FAILED mode, and a rejected candidate with the window used up. -/
theorem witness_ReadFrameEnds :
    (let s := withInput [0, 0, 0] true
     s.stream.eos = true ∧ s.stream.mode ≠ .failed ∧ s.stream.kind ≠ .wav ∧ s.stream.input.length < 4) ∧
    (let s := withInput (frame24.take 23) true
     s.stream.eos = true ∧ s.stream.input.take 4 ≠ [0x52, 0x49, 0x46, 0x46] ∧
     syncMark (be32 s.stream.input 0) s.stream.mode s.stream.word = true ∧
     s.stream.input.length < frameLen (be32 s.stream.input 0)) ∧
    (let s := withInput [0x52, 0x49, 0x46, 0x46] false
     s.stream.mode ≠ .failed ∧ s.stream.kind = .unknown ∧ s.stream.input.take 4 = [0x52, 0x49, 0x46, 0x46]) ∧
    (State.setKind .wav tiny).stream.kind = .wav ∧
    ({ tiny with stream := { tiny.stream with mode := .failed } } : State).stream.mode = .failed ∧
    (let s := busy .readFrame (.reading 4) (withInput [0, 0, 0, 0] true)
     s.cur = some ⟨.readFrame, 0, 0, .reading s.cfg.maxResync⟩ ∧ s.stream.mode ≠ .failed ∧
     s.stream.kind = .unknown ∧ s.stream.input.take 4 ≠ [0x52, 0x49, 0x46, 0x46] ∧ 4 ≤ s.stream.input.length ∧
     syncMark (be32 s.stream.input 0) s.stream.mode s.stream.word = false) := by decide

theorem witness_FrameLengthBounds :
    headerOk 0xFFFB9064#32 = true ∧ (fieldsOf 0xFFFB9064#32).layer = .III ∧ slotCountOf (fieldsOf 0xFFF21400#32) = 1 := by
  decide

/-- Legal headers of every layer, version and mode, at the lowest and the highest bitrate index (2.2), and reserved ones. -/
theorem witness_HeaderRegisters :
    [0xFFFE9050#32, 0xFFFFEAC0#32, 0xFFFDE400#32, 0xFFFCEA00#32, 0xFFFD20C0#32, 0xFFFB9064#32, 0xFFF280C0#32, 0xFFF21400#32,
      0xFFE31800#32, 0xFFFBE2C4#32].all headerOk = true ∧
    [0xFFEB9064#32, 0xFFF99064#32, 0xFFFB0064#32, 0xFFFBF064#32, 0xFFFB1CC0#32].all (fun h => !headerOk h) = true ∧
    syncMark 0xFFFBA064#32 .strict 0xFFFA0000#32 = true ∧ syncMark 0xFFFB9464#32 .strict 0xFFFA0000#32 = false := by
  decide +kernel

/-- A mono MPEG-2 payload with the tag "Xing" at 9, then the bytes `bs` (X5, X6). -/
def xing (bs : List Byte) : List Byte := List.replicate 9 0 ++ [0x58, 0x69, 0x6E, 0x67] ++ bs

/-- A payload of 40 bytes and `n` more with the tag "VBRI" at 32 (X8, X9). -/
def vbri (n : Nat) : List Byte := List.replicate 32 0 ++ [0x56, 0x42, 0x52, 0x49] ++ List.replicate (n + 4) 0

/-- The tag "Xing" with its one field whole, cut off by one byte, and without its flags; "VBRI" with 50 bytes and with 49; and no tag. -/
theorem witness_VbrRegisters :
    (let f := fieldsOf 0xFFF314C0#32
     f.version ≠ .v1 ∧ f.mode = .mono ∧
     (be32 (xing [0, 0, 0, 1, 0, 0, 0, 7]) 13).getLsbD 0 = true ∧ (xing [0, 0, 0, 1, 0, 0, 0, 7]).length = 21 ∧
     (xing [0, 0, 0, 1, 0, 0, 0]).length < 21 ∧ (xing [0, 0, 0]).length < 17) ∧
    ((xing [0, 0, 0, 1, 0, 0, 0, 7]).drop 9).take 4 = [0x58, 0x69, 0x6E, 0x67] ∧
    ((vbri 10).drop 32).take 4 = [0x56, 0x42, 0x52, 0x49] ∧ ((vbri 10).drop 9).take 4 ≠ [0x58, 0x69, 0x6E, 0x67] ∧
    (vbri 10).length = 50 ∧ (vbri 9).length < 50 ∧
    (([] : List Byte).drop 9).take 4 ≠ [0x58, 0x69, 0x6E, 0x67] ∧
    (([] : List Byte).drop 32).take 4 ≠ [0x56, 0x42, 0x52, 0x49] := by decide

/-- X2 and X10: a Xing header with its two counts, and the tag at the place of another mode. -/
theorem test_xing :
    (match parseVbr (List.replicate 32 0 ++ [0x58, 0x69, 0x6E, 0x67, 0, 0, 0, 3, 0, 0, 0, 0x64, 0, 1, 0, 0])
        (fieldsOf 0xFFFB9064#32) with
      | .found v => decide (v.info = 0x31 ∧ v.frames = 100 ∧ v.bytes = 65536 ∧ v.scale = 0xFFFFFFFF)
      | .absent => false
      | .corrupt => false) = true ∧
    parseVbr (List.replicate 17 0 ++ [0x58, 0x69, 0x6E, 0x67] ++ List.replicate 40 0) (fieldsOf 0xFFFB9064#32) = .absent := by
  decide +kernel

/-- No frame; a frame already decoded; a ring with room for one frame less than needed (D13). -/
theorem witness_DecodeFrameRefuses :
    tiny.frame = none ∧
    ({ monoFrame with frame := some ⟨0xFFFB90C0#32, [], false⟩ } : State).frame = some ⟨0xFFFB90C0#32, [], false⟩ ∧
    (let s : State := { monoFrame with ring := ⟨true, false, 0, 2, [.stereo 0 0]⟩ }
     s.frame = some ⟨0xFFFB90C0#32, [], true⟩ ∧ s.ring.bound = true ∧ s.ring.closed = false ∧
     s.cfg.ringCap - s.ring.buf.length < s.hdr.samplesPerFrame.toNat) := by decide

/-- A DECODE_FRAME about to run on a frame of header `h` and payload `p`, with the reservoir `r`. -/
def layer3Frame (h : Word) (p r : List Byte) : State :=
  busy .decodeFrame .initial
    { monoFrame with frame := some ⟨h, p, true⟩, hdr := headerRegisters h 0 p, dec := { monoFrame.dec with res := r } }

/-- What a frame of header `h` and payload `p` names its parts in the statements on decoding. -/
def FrameParts (h : Word) (p : List Byte) (side begin : Nat) (body : List Byte) : Prop :=
  side = (if (fieldsOf h).version = .v1 then (if (fieldsOf h).mode = .mono then 17 else 32)
    else (if (fieldsOf h).mode = .mono then 9 else 17)) ∧
  body = p.drop (if (fieldsOf h).hasCrc = true then 2 else 0) ∧
  begin = (if (fieldsOf h).version = .v1 then 2 * (body.getD 0 0).toNat + (body.getD 1 0).toNat / 128
    else (body.getD 0 0).toNat)

/-- A frame for a ring of one channel and for one of two; then main_data_begin at the reservoir's length and one past it, in MPEG-1 and in MPEG-2, with and without a checksum, and its largest value. -/
theorem witness_DecodeFrameCompletes :
    (∀ ch, ch = 1 ∨ ch = 2 → ∃ (s : State) (j : Job) (f : Frame),
      s.SinkOk ∧ s.cur = some j ∧ s.frame = some f ∧ f.pending = true ∧ FrameParts f.hdr f.payload 17 0 [] ∧
      s.ring.bound = true ∧ s.ring.closed = false ∧ s.hdr.samplesPerFrame.toNat ≤ s.cfg.ringCap - s.ring.buf.length ∧
      s.ring.ch = ch ∧ s.dec.init = true ∧ s.dec.dch = 2) ∧
    (∀ r ∈ [[], [7]], (layer3Frame 0xFFFB90C0#32 [0, 0x80] r).SinkOk ∧ (layer3Frame 0xFFF314C0#32 [1] r).SinkOk) ∧
    (fieldsOf 0xFFFB90C0#32).layer = .III ∧ FrameParts 0xFFFB90C0#32 [0, 0x80] 17 1 [0, 0x80] ∧
    FrameParts 0xFFFA90C0#32 [0, 0, 0xFF, 0x80] 17 511 [0xFF, 0x80] ∧ FrameParts 0xFFF314C0#32 [1] 9 1 [1] := by
  refine ⟨fun ch hch => ⟨busy .decodeFrame .initial { monoFrame with ring := ⟨true, false, 0, ch, []⟩ }, _,
    ⟨0xFFFB90C0#32, [], true⟩, ?_, rfl, rfl, rfl, ?_, rfl, rfl, ?_, rfl, rfl, rfl⟩, ?_, ?_⟩
  · unfold State.SinkOk
    rcases hch with rfl | rfl <;> decide
  · unfold FrameParts
    decide
  · rcases hch with rfl | rfl <;> decide
  · unfold State.SinkOk
    decide
  · unfold FrameParts
    decide

/-- R202: main data that begins one byte back, and two bytes back of one held. -/
theorem test_mainData :
    (let f : Frame := ⟨0xFFFB90C0#32, [0, 0x80] ++ List.replicate 15 0 ++ [1, 2], true⟩
     mainData f [7, 8] = some [8, 1, 2] ∧ mainData f [] = none) ∧
    mainData ⟨0xFFF314C0#32, [2] ++ List.replicate 8 0, true⟩ [7] = none := by decide

/-- R202: the reservoir keeps its last 511 bytes, in MPEG-2 its last 255. -/
theorem test_appendReservoir :
    appendReservoir ⟨0xFFFB90C0#32, List.replicate 17 0 ++ [1, 2], true⟩ (5 :: 6 :: List.replicate 509 3) =
      List.replicate 509 3 ++ [1, 2] ∧
    appendReservoir ⟨0xFFF314C0#32, List.replicate 9 0 ++ [1], true⟩ (5 :: List.replicate 254 3) =
      List.replicate 254 3 ++ [1] := by decide +kernel

/-- A mono frame 0xFFF280C0 with the checksum `c`, before a two-channel decoder (D5, 2.6). -/
def crcFrame (h : Word) (c : List Byte) : State :=
  let p := c ++ List.replicate 9 0
  busy .decodeFrame .initial { monoFrame with frame := some ⟨h, p, true⟩, hdr := headerRegisters h 0 p }

/-- A right checksum, a wrong one, and none. -/
theorem witness_DecodeFrameChecksCrc :
    (∃ (s t : State) (f : Frame), s.frame = some f ∧ f.pending = true ∧ exec .decodeFrame s = .next t ∧ t.result ≠ 2 ∧
      f.fields.hasCrc = true ∧ frameCrc f = s.hdr.crcStored) ∧
    (∃ (s t : State) (f : Frame), s.frame = some f ∧ f.pending = true ∧ exec .decodeFrame s = .next t ∧ t.result ≠ 2 ∧
      f.fields.hasCrc = true ∧ frameCrc f ≠ s.hdr.crcStored) ∧
    (∃ (s t : State) (f : Frame), s.frame = some f ∧ f.pending = true ∧ exec .decodeFrame s = .next t ∧ t.result ≠ 2 ∧
      f.fields.hasCrc = false) :=
  ⟨⟨crcFrame 0xFFF280C0#32 [0x4F, 0xE8], _, _, rfl, rfl, exec_of_busy _ rfl, by decide +kernel, by decide, by decide +kernel⟩,
    ⟨crcFrame 0xFFF280C0#32 [0, 0], _, _, rfl, rfl, exec_of_busy _ rfl, by decide +kernel, by decide, by decide +kernel⟩,
    ⟨crcFrame 0xFFF314C0#32 [], _, _, rfl, rfl, exec_of_busy _ rfl, by decide +kernel, by decide⟩⟩

/-- The first and the last bit of a byte sequence, and the three layers of a frame that carries a checksum. -/
theorem witness_DecodeFrameChecksCrc_bits :
    7 < 8 * ([1] : List Byte).length ∧ (fieldsOf 0xFFFE9050#32).hasCrc = true ∧ (fieldsOf 0xFFFE9050#32).layer = .I ∧
    (fieldsOf 0xFFFE9050#32).mode = .jointStereo ∧ (fieldsOf 0xFFFCEA00#32).hasCrc = true ∧
    (fieldsOf 0xFFFCEA00#32).layer = .II ∧ (fieldsOf 0xFFFA9064#32).hasCrc = true ∧ (fieldsOf 0xFFFA9064#32).layer = .III := by
  decide

/-- The first and the last slot, place, channel and index of the ranges. -/
theorem witness_SynthesisAndSilence :
    (0 : Nat) < 64 ∧ (63 : Nat) < 64 ∧ (64 : Nat) ≤ 64 ∧ (1023 : Nat) < 1024 ∧ (7 : Nat) < 8 ∧ (31 : Nat) < 32 ∧
    (1 : Nat) < ([[], []] : List (List Sys2Proof.Num)).length := by decide

/-- R205, the map of V into U at the ends of its ranges. -/
theorem test_uIndex :
    [0, 31, 32, 63, 64, 95, 96, 511].map uIndex = [0, 31, 96, 127, 128, 159, 224, 1023] := by decide

/-- R200: the subbands from SUBBANDS up are zero for Layer II, here 8 (R165's example), and kept for Layer III. -/
theorem test_maskSubbands :
    maskSubbands (fieldsOf 0xFFFD20C0#32) (fun _ _ k => k + 1) 0 0 7 = 8 ∧
    maskSubbands (fieldsOf 0xFFFD20C0#32) (fun _ _ k => k + 1) 0 0 8 = Config.synth.zero ∧
    maskSubbands (fieldsOf 0xFFFB9064#32) (fun _ _ k => k + 1) 0 0 31 = 32 := by
  refine ⟨?_, ?_, ?_⟩ <;> rfl

/-- R195: eight bits across the end of 0xA5 0x3C, read from bit 12 on, and 32 bits of a whole word. -/
theorem test_getBits :
    (let r : Reader := ⟨[0xA5, 0x3C], 12, false⟩
     (r.getBits 4).1 = 0xC#32 ∧ (r.getBits 4).2.overRead = false ∧
     (r.getBits 8).1 = 0xC0#32 ∧ (r.getBits 8).2 = ⟨[0xA5, 0x3C], 20, true⟩ ∧ (r.getBits 0).2 = r) ∧
    ((Reader.start [0x12, 0x34, 0x56, 0x78]).getBits 32).1 = 0x12345678#32 := by decide

/-- Two headers that differ in the private, copyright, original and emphasis bits, and two stereo ones that differ in the mode extension.
A Layer III frame whose main data begins at the oldest byte held, one whose main data begins before it, and frames of the other layers; and the least and the greatest width of GetBits. -/
theorem witness_LayerDecoderContract :
    ([(0xFFFB9064#32, 0xFFFB916B#32), (0xFFFB9004#32, 0xFFFB9034#32)].all (fun p =>
      let f : Frame := ⟨p.1, [], true⟩
      let g : Frame := ⟨p.2, [], true⟩
      decide (f.fields ≠ g.fields ∧ f.payload = g.payload ∧ f.fields.version = g.fields.version ∧
        f.fields.layer = g.fields.layer ∧ f.fields.hasCrc = g.fields.hasCrc ∧
        f.fields.bitrateIndex = g.fields.bitrateIndex ∧ f.fields.srateIndex = g.fields.srateIndex ∧
        f.fields.padded = g.fields.padded ∧ f.fields.mode = g.fields.mode ∧
        (f.fields.mode = .jointStereo → f.fields.modeExt = g.fields.modeExt))) = true) ∧
    (let f : Frame := ⟨0xFFF314C0#32, [1], true⟩
     f.fields.layer = .III ∧ mainData f [7] = some [7] ∧ mainData f [] = none) ∧
    (fieldsOf 0xFFFF9004#32).layer = .I ∧ (fieldsOf 0xFFFD9004#32).layer = .II ∧
    (0 : Nat) ≤ 32 ∧ (32 : Nat) ≤ 32 := by decide

/-- The five clauses in their order. -/
theorem witness_LoadClipEndsOrFails :
    (let s := withInput (frame24.take 23) true
     s.stream.eos = true ∧ s.stream.mode ≠ .failed ∧ s.stream.kind ≠ .wav ∧
     s.stream.input.take 4 ≠ [0x52, 0x49, 0x46, 0x46] ∧
     syncMark (be32 s.stream.input 0) s.stream.mode s.stream.word = true ∧
     s.stream.input.length < frameLen (be32 s.stream.input 0)) ∧
    (let s := withInput [] true
     s.stream.eos = true ∧ s.stream.mode ≠ .failed ∧ s.stream.kind ≠ .wav ∧ s.stream.input.length < 4) ∧
    ({ tiny with stream := { tiny.stream with mode := .failed } } : State).stream.mode = .failed ∧
    (let s := busy (.loadClip 0) (.loading ⟨0, 0, 0, 0, 0, 4⟩) (withInput [0, 0, 0, 0] true)
     s.cur = some ⟨.loadClip 0, 0, 0, .loading ⟨0, 0, 0, 0, 0, s.cfg.maxResync⟩⟩ ∧ s.stream.mode ≠ .failed ∧
     s.stream.kind = .unknown ∧ s.stream.input.take 4 ≠ [0x52, 0x49, 0x46, 0x46] ∧
     4 ≤ s.stream.input.length ∧ syncMark (be32 s.stream.input 0) s.stream.mode s.stream.word = false) ∧
    (let s := withInput [0x52, 0x49, 0x46, 0x46] false
     s.stream.kind = .unknown ∧ s.stream.input.take 4 = [0x52, 0x49, 0x46, 0x46]) := by decide

/-- A LOAD_CLIP about to accept a frame of header 0xFFF314C0 and payload `p`, with the decoder `d` before it and `room` cells of clip memory. -/
def loadingFrom (p : List Byte) (d : Decoder) (room : Nat) : State :=
  busy (.loadClip 0) (.loading ⟨0, 0, 0, 0, 0, 0⟩)
    { withInput (wordBytes 0xFFF314C0#32 ++ p ++ wordBytes 0xFFF316C0#32) false with
      dec := d, cfg := { tiny.cfg with clipMemSamples := room } }

/-- A LOAD_CLIP about to accept the frame of `frame24`. -/
def loadingFrame (d : Decoder) (room : Nat) : State := loadingFrom (List.replicate 20 0) d room

/-- The frame that `loadingFrame` accepts. -/
def frame24Record : Frame := ⟨0xFFF314C0#32, List.replicate 20 0, true⟩

/-- `s` is about to accept the frame of header 0xFFF314C0 and payload `p`, in LOAD_CLIP. -/
def LoadAccepts (s : State) (p : List Byte) : Prop :=
  s.MemOk ∧ s.SinkOk ∧ s.cur = some ⟨.loadClip 0, 0, 0, .loading ⟨0, 0, 0, 0, 0, 0⟩⟩ ∧ s.stream.mode ≠ .failed ∧
    (s.stream.kind = .mpeg ∨ s.stream.kind = .unknown ∧ s.stream.input.take 4 ≠ [0x52, 0x49, 0x46, 0x46]) ∧
    be32 s.stream.input 0 = 0xFFF314C0#32 ∧ frameLen 0xFFF314C0#32 = 24 ∧
    syncMark 0xFFF314C0#32 s.stream.mode s.stream.word = true ∧
    24 + 4 ≤ s.stream.input.length ∧ syncMark (be32 s.stream.input 24) s.stream.mode s.stream.word = true ∧
    p = (s.stream.input.drop 4).take 20

/-- A first frame without a VBR header, with one, and with one cut off by a byte; a frame in STRICT mode; and main_data_begin at the reservoir's length and one past it. -/
theorem witness_LoadClipStoresFrame :
    LoadAccepts (loadingFrame tiny.dec 576) (List.replicate 20 0) ∧
    LoadAccepts (loadingFrom (xing (List.replicate 7 0)) tiny.dec 576) (xing (List.replicate 7 0)) ∧
    LoadAccepts (loadingFrom (xing [0, 0, 0, 1, 0, 0, 0]) tiny.dec 575) (xing [0, 0, 0, 1, 0, 0, 0]) ∧
    LoadAccepts { strictOn (loadingFrame ⟨true, 2, 24000, [[], []], [], []⟩ 16) with
      hdr := headerRegisters 0xFFF314C0#32 0 [] } (List.replicate 20 0) ∧
    (∀ r ∈ [[], [7]], LoadAccepts (loadingFrom (1 :: List.replicate 19 0) { tiny.dec with res := r } 16)
      (1 :: List.replicate 19 0)) ∧
    parseVbr (List.replicate 20 0) (fieldsOf 0xFFF314C0#32) = .absent ∧
    parseVbr (xing [0, 0, 0, 1, 0, 0, 0]) (fieldsOf 0xFFF314C0#32) = .corrupt ∧
    FrameParts 0xFFF314C0#32 (1 :: List.replicate 19 0) 9 1 (1 :: List.replicate 19 0) := by
  unfold LoadAccepts FrameParts State.MemOk State.SinkOk
  exact ⟨by decide, by decide, by decide, by decide, by decide, rfl, rfl, by decide⟩

/-- The same acceptance with a fresh decoder: where DecodeL3, which the spec leaves open, does not fail on the frame, the decode answers its 576 samples, which fit in 576 cells and not in 575. -/
theorem witness_LoadClipStoresFrame_decoded
    (hok : (decodeLayer frame24Record (initDecoder frame24Record 24000 tiny.dec)).isSome = true) :
    (∃ (a d : State) (f : Frame), (loadingFrame tiny.dec 576).syncStep 0x04 0 = (.frame, 0, a) ∧ a.frame = some f ∧
      a.decodeCurrent 0x04 f = (d, true) ∧ d.sink.samples.length = 576) ∧
    (∃ (a d : State) (f : Frame), (loadingFrame tiny.dec 575).syncStep 0x04 0 = (.frame, 0, a) ∧ a.frame = some f ∧
      a.decodeCurrent 0x04 f = (d, true) ∧ d.sink.samples.length = 576) := by
  obtain ⟨o, ho⟩ := Option.isSome_iff_exists.1 hok
  have h1 : (loadingFrame tiny.dec 576).syncStep 0x04 0 =
      (.frame, 0, (State.setKind .mpeg (loadingFrame tiny.dec 576)).accept 0x04 0xFFF314C0#32) := rfl
  have h2 : (loadingFrame tiny.dec 575).syncStep 0x04 0 =
      (.frame, 0, (State.setKind .mpeg (loadingFrame tiny.dec 575)).accept 0x04 0xFFF314C0#32) := rfl
  have d1 := decodeCurrent_ok (op := 0x04) (f := frame24Record)
    (s := (State.setKind .mpeg (loadingFrame tiny.dec 576)).accept 0x04 0xFFF314C0#32) rfl rfl ho
  have d2 := decodeCurrent_ok (op := 0x04) (f := frame24Record)
    (s := (State.setKind .mpeg (loadingFrame tiny.dec 575)).accept 0x04 0xFFF314C0#32) rfl rfl ho
  exact ⟨⟨_, _, frame24Record, h1, rfl, Prod.ext rfl d1.1, d1.2⟩, _, _, frame24Record, h2, rfl, Prod.ext rfl d2.1, d2.2⟩

/-- A clip that fills the memory exactly, one sample more, a slot past the last, and a wrong format; no clip voice in use, only the stream voice in use (H12), and a clip voice in use. -/
theorem witness_ClipDefineAndFreeAll :
    Memory.wf clipStore.mem = true ∧
    (1 : Nat) < ({ tiny with clips := clipStore } : State).nClips ∧ ¬ (2 : Nat) < ({ tiny with clips := clipStore } : State).nClips ∧
    (0x0020AC44#32).toNat / 2 ^ 20 = 2 ∧ (0x0020AC44#32).toNat % 2 ^ 20 ≠ 0 ∧
    clipStore.alloc + 6 * 2 ≤ tiny.cfg.clipMemSamples ∧ tiny.cfg.clipMemSamples < clipStore.alloc + 13 * 1 ∧
    (0x00FFFFFF#32).toNat / 2 ^ 20 ≠ 2 ∧ (0x00FFFFFF#32).toNat / 2 ^ 20 ≠ 1 ∧ (0x00100000#32).toNat % 2 ^ 20 = 0 ∧
    (∀ x ∈ tiny.voices, x.onClip = false) ∧
    (∀ x ∈ ({ streaming with voices := [.free, streamVoice] } : State).voices, x.onClip = false) ∧
    (∃ x ∈ playing.voices, x.onClip = true) := by decide

/-- Slot 1 the lowest free one; an invalid clip, one at another rate, no free slot, and a slot past the last. -/
theorem witness_PlayVoice :
    playing.clips.descs[0]? = some ⟨true, 0, 3, 44100, 1⟩ ∧ 1 < playing.nVoices ∧ (playing.voiceAt 1).inUse = false ∧
    (∀ u, u < 1 → (playing.voiceAt u).inUse = true) ∧ playing.nClips ≤ 2 ∧
    tiny.clips.descs[1]? = some .invalid ∧ playing.clips.descs[1]? = some ⟨true, 3, 1, 48000, 1⟩ ∧
    (∀ u, u < streaming.nVoices → (streaming.voiceAt u).inUse = true) := by decide

theorem witness_VoiceOperandCheck :
    tiny.nVoices ≤ 2 ∧ 1 < tiny.nVoices ∧ (tiny.voiceAt 1).inUse = false ∧
    Instr.setLoop 2 true ∈ [Instr.pauseVoice 2, .resumeVoice 2, .stopVoice 2, .setVolume 2, .setLoop 2 true] := by decide

theorem witness_VoiceCommandResults :
    1 < streaming.nVoices ∧ (streaming.voiceAt 1).inUse = true ∧ (streaming.voiceAt 1).stream = true ∧
    (streaming.voiceAt 0).inUse = true ∧ (streaming.voiceAt 0).stream = false := by decide

/-- A stream of 44100 Hz after its first frame; and a bound ring, no frame, another rate, and no free slot. -/
theorem witness_PlayStreamResult :
    (let s : State := { playing with stream := { playing.stream with nframes := 1 }, hdr := headerRegisters 0xFFFB9064#32 0 [] }
     s.ring.bound = false ∧ s.stream.nframes ≠ 0 ∧ s.hdr.sampleRate.toNat = 44100 ∧ 1 < s.nVoices ∧
     (s.voiceAt 1).inUse = false ∧ (∀ u, u < 1 → (s.voiceAt u).inUse = true) ∧ s.dec.init = false ∧
     s.hdr.fields.toNat / 2 ^ 21 % 4 = 2) ∧
    streaming.ring.bound = true ∧ tiny.stream.nframes = 0 ∧
    (headerRegisters 0xFFF314C0#32 0 []).sampleRate.toNat ≠ 44100 ∧
    (∀ u, u < streaming.nVoices → (streaming.voiceAt u).inUse = true) := by decide

/-- Slots in use and not in use, a stream voice and none, a running mixer and a stopped one, and the three ways of the drain. -/
theorem witness_MixerStop :
    Progress.initial ≠ .draining ∧ (streaming.voiceAt 1).streaming = true ∧ streaming.mixer.running = true ∧
    streaming.line.isOpen = true ∧ (playing.voiceAt 1).inUse = false ∧ (playing.voiceAt 0).inUse = true ∧
    tiny.mixer.running = false ∧ playing.line.buf = [] ∧ playing.env.timeout = false ∧
    ({ playing with line := ⟨true, [⟨0, 0⟩]⟩ } : State).line.buf ≠ [] := by decide

/-- A running mixer and a stopped one, with and without a line; a tick enabled at exactly MIX_BLOCK places, and not with one less. -/
theorem witness_MixerStartAndSync :
    playing.mixer.running = true ∧ tiny.mixer.running = false ∧ tiny.cfg.linePresent = true ∧
    ({ tiny with cfg := { tiny.cfg with linePresent := false } } : State).cfg.linePresent = false ∧
    Progress.initial ≠ .syncing ∧
    ({ playing with line := ⟨true, List.replicate 2 ⟨0, 0⟩⟩ } : State).tickEnabled = true ∧
    ({ playing with line := ⟨true, List.replicate 3 ⟨0, 0⟩⟩ } : State).tickEnabled = false ∧
    playing.mixer.syncreq = false ∧
    (let s : State := { playing with mixer := ⟨true, [], true⟩ }
     s.mixer.syncreq = true ∧ s.tickEnabled = true) := by decide

/-- The checks of the first step, and a later step at the end, with exactly its room, and with one place less. -/
theorem witness_BypassWrite :
    playing.nClips ≤ 2 ∧ tiny.clips.descs[1]? = some .invalid ∧ playing.clips.descs[1]? = some ⟨true, 3, 1, 48000, 1⟩ ∧
    playing.clips.descs[0]? = some ⟨true, 0, 3, 44100, 1⟩ ∧ playing.line.isOpen = true ∧ tiny.line.isOpen = false ∧
    min playing.cfg.mixBlock (3 - 0) = 2 ∧ min playing.cfg.mixBlock (3 - 2) = 1 ∧
    2 ≤ playing.cfg.lineCap - (List.replicate 2 (⟨0, 0⟩ : StereoFrame)).length ∧
    playing.cfg.lineCap - (List.replicate 3 (⟨0, 0⟩ : StereoFrame)).length < 2 ∧
    playing.env.lineDraw = .ok ∧ ({ playing with env := { playing.env with lineDraw := .fail } } : State).env.lineDraw = .fail := by
  decide

/-- Another width, a misaligned offset, unmapped offsets, and the turns of a read and of a write. -/
theorem witness_BadAccess :
    AccessWidth.w16 ≠ .w32 ∧ (0x001#13).toNat % 4 ≠ 0 ∧ regAt tiny.nVoices (0x03C#13).toNat = none ∧
    regAt tiny.nVoices (0x1020#13).toNat = none ∧
    (tiny.withTurn (readTurn 0x03C#13)).env.nextTurn = .host (.read 0x03C#13 .w32) ∧
    (tiny.withTurn (writeTurn 0x03C#13 1)).env.nextTurn = .host (.write 0x03C#13 .w32 1) := by decide

/-- CLIP_ADDR at the last cell and just past it. -/
theorem witness_ReadSideEffects :
    (tiny.withTurn (readTurn 0x101C#13)).env.nextTurn = .host (.read 0x101C#13 .w32) ∧
    (0x101C#13).toNat % 4 = 0 ∧ regAt tiny.nVoices (0x101C#13).toNat = some (.vLen 1) ∧
    (0x101C#13 : BitVec 13) ≠ 0x118#13 ∧ (0x101C#13 : BitVec 13) ≠ 0x12C#13 ∧
    (tiny.withTurn (readTurn 0x118#13)).env.nextTurn = .host (.read 0x118#13 .w32) ∧
    (tiny.withTurn (readTurn 0x12C#13)).env.nextTurn = .host (.read 0x12C#13 .w32) ∧
    (15#32).toNat < tiny.cfg.clipMemSamples ∧ tiny.cfg.clipMemSamples ≤ (16#32).toNat := by
  decide +kernel

/-- The last STOPPED_MASK and the last slot of 256 voices, the first offset past the two slots of `tiny`, and a hole. -/
theorem witness_RegisterMap :
    32 * 7 < 256 ∧ ¬ 32 * 1 < tiny.nVoices ∧ 255 < 256 ∧ 0x1FFC = 0x100C + 16 * 255 ∧ 0x1000 + 16 * 2 ≤ 0x1020 ∧
    0x1020 % 4 = 0 ∧ 0x03C % 4 = 0 := by decide

/-- The hypotheses of the register views: an initialised decoder and a fresh one, a bound ring and an unbound one, slots, descriptors at CLIP_SEL and past the end, and the last cell. -/
theorem witness_RegisterViews :
    tiny.dec.init = false ∧ monoFrame.dec.init = true ∧ monoFrame.dec.dch < 4 ∧ streaming.ring.ch < 4 ∧
    streaming.ring.voice < 256 ∧ streaming.ring.bound = true ∧ (streaming.voiceAt 1).clip < 256 ∧
    tiny.ring.bound = false ∧ tiny.ring.ch < 4 ∧ tiny.ring.voice < 256 ∧
    playing.clips.descs[playing.clips.sel.toNat]? = some ⟨true, 0, 3, 44100, 1⟩ ∧
    (let s : State := { playing with clips := { clipStore with sel := 2 } }
     s.nClips ≤ s.clips.sel.toNat) ∧
    (let s : State := { playing with clips := { clipStore with addr := 15 } }
     s.clips.addr.toNat < s.cfg.clipMemSamples) := by decide

/-- A buffer one byte short of full, a full one, an ended stream, and both values of EOS. -/
theorem witness_InputPort :
    (tiny.withTurn (writeTurn 0x140#13 0x12)).env.nextTurn = .host (.write 0x140#13 .w32 0x12) ∧
    (tiny.withTurn eosTurn).env.nextTurn = .host (.write 0x144#13 .w32 1) ∧
    (1#32).getLsbD 0 = true ∧ (0#32).getLsbD 0 = false ∧ (withInput [] true).stream.eos = true ∧
    tiny.stream.eos = false ∧ tiny.stream.input.length ≠ tiny.cfg.inCap ∧
    ({ tiny with cfg := { tiny.cfg with inCap := 0 } } : State).stream.input.length =
      ({ tiny with cfg := { tiny.cfg with inCap := 0 } } : State).cfg.inCap := by decide

/-- The last cell, the cell past it, a cell of a playing clip and the one just past its region. -/
theorem witness_ClipDataWrite :
    Memory.wf playing.clips.mem = true ∧ (16#32).toNat ≥ playing.cfg.clipMemSamples ∧ (15#32).toNat < playing.cfg.clipMemSamples ∧
    (∃ x ∈ playing.voices, x.onClip = true ∧ x.base ≤ 2 ∧ 2 < x.base + x.len * x.ch) ∧
    (∀ x ∈ playing.voices, x.onClip = true → ¬ (x.base ≤ 3 ∧ 3 < x.base + x.len * x.ch)) ∧
    (playing.withTurn (writeTurn 0x118#13 7)).env.nextTurn = .host (.write 0x118#13 .w32 7) := by decide

/-- The writes of each clause, the last mask register and the read-only ID among them. -/
theorem witness_HostWrites :
    [0x018#13, 0x01C#13, 0x020#13, 0x008#13, 0x00C#13, 0x100#13, 0x114#13, 0x128#13].all (fun a =>
      decide ((tiny.withTurn (writeTurn a 5)).env.nextTurn = .host (.write a .w32 5))) = true ∧
    32 * 7 < State.reset.nVoices ∧ BitVec.ofNat 13 (0x400 + 4 * 7) = 0x41C#13 ∧
    (State.reset.withTurn (writeTurn 0x41C#13 1)).env.nextTurn = .host (.write (BitVec.ofNat 13 (0x400 + 4 * 7)) .w32 1) ∧
    (tiny.withTurn (writeTurn 0x000#13 5)).env.nextTurn = .host (.write 0x000#13 .w32 5) ∧ (0x000#13).toNat % 4 = 0 ∧
    regAt tiny.nVoices (0x000#13).toNat = some .id ∧ ¬ (0x400#13 ≤ 0x000#13) ∧
    0x000#13 ∉ [0x004#13, 0x008#13, 0x00C#13, 0x018#13, 0x01C#13, 0x020#13, 0x100#13, 0x114#13, 0x118#13, 0x128#13, 0x140#13,
      0x144#13] := by decide +kernel

/-- R38 and R292: PCM_ADDR keeps 12 bits, and a write to ID is ignored. -/
theorem test_hostWrites :
    (stepped (tiny.withTurn (writeTurn 0x128#13 0xFFFFFFFF#32))).sink.addr = 0xFFF ∧
    (let s := stepped (tiny.withTurn (writeTurn 0x000#13 0xFFFFFFFF#32))
     s.err.code = .none ∧ s.regValue .id = 0x4D504131#32) := by decide

theorem witness_ScaleLaws : (32768 : Nat) ≤ 32768 := by decide

/-- A paused voice, an empty clip, a position at the end, with and without loop, and a stream voice with fewer frames than asked for and with as many. -/
theorem witness_VoiceReads :
    ({ clipVoice false false 0 32768 with state := .paused } : Voice).state ≠ .playing ∧
    (clipVoice false true 3 32768).state = .playing ∧ (clipVoice false true 3 32768).pos ≤ (clipVoice false true 3 32768).len ∧
    (clipVoice false true 3 32768).len ≠ 0 ∧
    ({ clipVoice false false 0 32768 with len := 0 } : Voice).pos ≤ ({ clipVoice false false 0 32768 with len := 0 } : Voice).len ∧
    streamVoice.state = .playing ∧ min 2 ([.mono 5] : List RingFrame).length = 1 ∧
    min 1 ([.mono 5] : List RingFrame).length = 1 := by
  decide

/-- W5 and S4: an underrun of an open ring goes on, and a looping voice wraps. -/
theorem test_reads_of_voices :
    readStream 2 streamVoice ⟨true, false, 1, 1, [.mono 5]⟩ =
      ({ streamVoice with pos := 1 }, ⟨true, false, 1, 1, []⟩, [⟨5, 5⟩]) ∧
    (readStream 2 streamVoice ⟨true, true, 1, 1, [.mono 5]⟩).1.state = .stopped ∧
    (readClip clipStore.mem 2 true (clipVoice false true 2 32768)).1 = clipVoice false true 1 32768 := by decide

/-- A queue that lists no slot, with no slot pending. -/
theorem queueOk_of {s : State} (hf : s.mixer.fifo = []) (hp : ∀ x ∈ s.voices, x.pending = false) : s.QueueOk := by
  refine ⟨by rw [hf]; exact List.nodup_nil, fun v => ?_⟩
  have : (s.voiceAt v).pending = false := forall_voiceAt s (p := fun x => x.pending = false) rfl hp v
  rw [hf, this]
  exact ⟨nofun, nofun⟩

/-- An unbound, empty ring, with no stream voice in use. -/
theorem ringOk_of {s : State} (hr : s.ring = ⟨false, false, 0, 0, []⟩) (hv : ∀ x ∈ s.voices, x.streaming = false) :
    s.RingOk := by
  unfold State.RingOk
  rw [hr]
  refine ⟨nofun, fun v h => ?_, fun _ => rfl, nofun, nofun⟩
  rw [forall_voiceAt s (p := fun x => x.streaming = false) rfl hv v] at h
  cases h

/-- `playing` with other voices. -/
def playingWith (vs : List Voice) : State := { playing with voices := vs }

theorem queueOk_playing (l : Bool) (p v : Nat) : (playing l p v).QueueOk :=
  queueOk_of rfl (by cases l <;> simp [playing, clipVoice, Voice.free])

theorem ringOk_playing : playing.RingOk := ringOk_of rfl (by decide)

/-- R257 at its boundaries: room for just one block, and one frame less; voices that are paused, free, or stopped; a stream voice on an empty ring, on one with a frame, and on a closed one; a queued slot alone; a mixer that is stopped, and a closed line. -/
theorem test_tickEnabled :
    let paused := { clipVoice false false 0 1 with state := .paused }
    let idle := playingWith [paused, .free]
    ([playing, { playing with line := ⟨true, List.replicate 2 ⟨0, 0⟩⟩ },
      playingWith [{ paused with state := .stopped }, .free], streaming.closeRing, streaming false [.stereo 0 0],
      { idle with mixer := ⟨true, [1], false⟩ },
      { streaming.closeRing with voices := [paused, streamVoice] }].all State.tickEnabled = true) ∧
    ([{ playing with line := ⟨true, List.replicate 3 ⟨0, 0⟩⟩ }, idle, { streaming with voices := [paused, streamVoice] },
      playingWith [clipVoice true false 0 1, .free], { playing with mixer := ⟨false, [], false⟩ },
      { playing with line := ⟨false, []⟩ }].any State.tickEnabled = false) := by decide

/-- A tick in which no voice supplies a frame, and ticks in which voice 0 is the lowest that does, with both draws; and no tick. -/
theorem witness_TickWritesOneBlock :
    (∃ s t : State, s.QueueOk ∧ s.RingOk ∧ s.env.nextTurn = .mixer .ok ∧ s.tickEnabled = true ∧ step s = .next t ∧
      (s.admitAll.voiceAt 0).active = true ∧ ∀ v, (s.admitAll.voiceAt v).active = true → s.admitAll.supplies v = []) ∧
    (∀ d : LineDraw, ∃ s t : State, s.QueueOk ∧ s.RingOk ∧ s.env.nextTurn = .mixer d ∧ s.tickEnabled = true ∧
      step s = .next t ∧ (s.admitAll.voiceAt 1).active = true ∧ s.admitAll.supplies 1 ≠ [] ∧
      ∀ u, u < 1 → (s.admitAll.voiceAt u).active = true → s.admitAll.supplies u = []) ∧
    (tiny.withTurn tickTurn).env.nextTurn = .mixer .ok ∧ tiny.tickEnabled = false := by
  refine ⟨⟨(playingWith [{ clipVoice false false 0 1 with state := .stopped }, .free]).withTurn tickTurn, _,
    queueOk_of rfl (by decide), ringOk_of rfl (by decide), rfl, by decide, step_eq _, rfl, ?_⟩, fun d =>
    ⟨(playingWith [{ clipVoice false false 0 1 with state := .paused }, clipVoice false false 0 1]).withTurn (.mixer d), _,
    queueOk_of rfl (show ∀ x ∈ [_, _], _ by decide), ringOk_of rfl (show ∀ x ∈ [_, _], _ by decide), rfl, rfl, step_eq _,
    rfl, by cases d <;> decide, ?_⟩, rfl, by decide⟩
  · intro v h
    match v with
    | 0 => decide
    | 1 => exact absurd h (by decide)
    | n + 2 => exact nomatch h
  · intro u hu _
    obtain rfl : u = 0 := by omega
    rfl

/-- P2, tick 1. -/
theorem witness_TickMixesVoices :
    ∃ (s t : State) (d : LineDraw) (w : LineWrite), s.QueueOk ∧ s.RingOk ∧ s.env.nextTurn = .mixer d ∧
      s.tickEnabled = true ∧ step s = .next t ∧ t.obs.lineWrites = s.obs.lineWrites ++ [w] ∧ 1 < s.cfg.mixBlock :=
  ⟨playing.withTurn tickTurn, _, .ok, ⟨[⟨500, 500⟩, ⟨0xFC18, 0xFC18⟩], .ok⟩, queueOk_playing false 0 16384,
    ringOk_playing, rfl, by decide, step_eq _, by decide, by decide⟩

/-- `streaming` with one frame in the ring, its two voices active. -/
def ringing : State := streaming false [.stereo 1 2]

theorem ringOk_ringing : ringing.RingOk := by
  refine ⟨fun _ => rfl, fun v h => ?_, nofun, fun _ => .inr rfl, by decide⟩
  match v with
  | 0 => exact absurd h (by decide)
  | 1 => exact ⟨rfl, rfl⟩
  | n + 2 => exact nomatch h

/-- `playing` with slot 0 free and a queued voice in slot 1 (V14). -/
def queued : State := { playingWith [.free, clipVoice true false 0 16384] with mixer := ⟨true, [1], false⟩ }

theorem queueOk_queued : queued.QueueOk := by
  refine ⟨by decide, fun v => ?_⟩
  match v with
  | 0 => decide
  | 1 => decide
  | n + 2 => exact ⟨fun h => by simp [queued] at h, nofun⟩

/-- A queued slot that plays; a stopped, a paused, an exhausted and a free one; and a stream voice that supplies a frame to a failing write. -/
theorem witness_TickVisitsVoices :
    (∃ s t : State, s.QueueOk ∧ s.RingOk ∧ s.env.nextTurn = .mixer .ok ∧ s.tickEnabled = true ∧ step s = .next t ∧
      (s.voiceAt 1).pending = true ∧ (s.voiceAt 1).state = .playing ∧ (s.voiceAt 0).inUse = false ∧
      ∀ u, (s.voiceAt u).streaming = false) ∧
    (∀ st : VoiceState, ∃ s t : State, s.QueueOk ∧ s.RingOk ∧ s.env.nextTurn = .mixer .ok ∧ s.tickEnabled = true ∧
      step s = .next t ∧ (s.voiceAt 0).active = true ∧ (s.voiceAt 0).state = st) ∧
    (readClip clipStore.mem 2 false (clipVoice false false 0 16384)).1.state ≠ .stopped ∧
    (readClip clipStore.mem 2 false (clipVoice false false 2 16384)).1.state = .stopped ∧
    (∃ s t : State, s.QueueOk ∧ s.RingOk ∧ s.env.nextTurn = .mixer .fail ∧ s.tickEnabled = true ∧ step s = .next t ∧
      (s.voiceAt 1).streaming = true ∧ (s.voiceAt 1).state = .playing ∧
      (readStream s.cfg.mixBlock (s.voiceAt 1) s.ring).1.state ≠ .stopped ∧
      (readStream s.cfg.mixBlock (s.voiceAt 1) s.ring).2.2 ≠ []) := by
  refine ⟨⟨queued.withTurn tickTurn, _, queueOk_queued, ringOk_of rfl (by decide), rfl, by decide, step_eq _, rfl, rfl, rfl, ?_⟩,
    fun st => ⟨(playingWith [{ clipVoice false false 0 1 with state := st }, clipVoice false false 0 1]).withTurn tickTurn, _,
      queueOk_of rfl ?_, ringOk_of rfl ?_, rfl, by cases st <;> decide, step_eq _, rfl, rfl⟩,
    by decide, by decide,
    ⟨ringing.withTurn tickFailTurn, _, queueOk_of rfl (by decide), ringOk_ringing, rfl, by decide, step_eq _, rfl, rfl,
      by decide, by decide⟩⟩
  · exact forall_voiceAt queued (p := fun x => x.streaming = false) rfl (by decide)
  all_goals cases st <;> exact show ∀ x ∈ [_, _], _ by decide

theorem witness_LineTakesHead :
    (tiny.withTurn .line).env.nextTurn = .line ∧ tiny.line.isOpen = false ∧ playing.line.isOpen = true ∧
    playing.line.buf = [] ∧ ({ playing with line := ⟨true, [⟨1, 2⟩]⟩ } : State).line.buf = ⟨1, 2⟩ :: [] := by decide

/-! ### Witnesses of the statements about every step -/

/-- A step, and a turn that is no host write. -/
theorem witness_OnlyTheHostWrites :
    ∃ s t : State, step s = .next t ∧ ∀ a w v, s.env.nextTurn ≠ .host (.write a w v) :=
  ⟨playing.withTurn tickTurn, _, step_eq _, nofun⟩

/-- An error recorded before a step that is no write to ERR; events before a tick; a bit that the tick sets. -/
theorem witness_ErrorsAndEventsKept :
    (∃ s t : State, step s = .next t ∧ s.err.code ≠ .none ∧ ∀ w v, s.env.nextTurn ≠ .host (.write 0x018#13 w v)) ∧
    (∃ s t : State, step s = .next t ∧ (∀ w v, s.env.nextTurn ≠ .host (.write 0x020#13 w v)) ∧
      (∀ a w v, 0x400#13 ≤ a → a ≤ 0x41C#13 → s.env.nextTurn ≠ .host (.write a w v)) ∧
      s.stopped.getLsbD 0 = false ∧ t.stopped.getLsbD 0 = true) :=
  ⟨⟨erring.withTurn tickTurn, _, step_eq _, by decide, nofun⟩,
    (playing false 2).withTurn tickTurn, _, step_eq _, nofun, nofun,
    by decide, by decide⟩

/-- A READ_FRAME in STRICT mode, and one in FAILED mode. -/
theorem witness_StreamMovesForward :
    (∃ s t : State, step s = .next t ∧ (∀ j, s.cur = some j → j.instr ≠ .resetStream) ∧ s.stream.mode = .strict) ∧
    (∃ s t : State, step s = .next t ∧ (∀ j, s.cur = some j → j.instr ≠ .resetStream) ∧ s.stream.mode = .failed) := by
  refine ⟨⟨(busy .readFrame (.reading 0) (strictOn (withInput frame24 false))).withTurn seqTurn, _, step_eq _, ?_, rfl⟩,
    (busy .readFrame (.reading 0) { tiny with stream := { tiny.stream with mode := .failed } }).withTurn seqTurn, _,
      step_eq _, ?_, rfl⟩ <;>
  · intro j h
    injection h with h
    subst h
    decide

theorem witness_SamplesOutCountsLineWrites :
    (∃ s t : State, step s = .next t) ∧ ∃ (σ : Nat → Turn) (r : Nat → State), Scheduled σ r :=
  ⟨⟨playing.withTurn tickFailTurn, _, step_eq _⟩, _, _, scheduled_runOf [tickFailTurn, tickTurn] playing⟩

theorem witness_StepKeepsMemOk : ∃ s t : State, s.MemOk ∧ step s = .next t :=
  ⟨playing.withTurn (writeTurn 0x118#13 7), _, rfl, step_eq _⟩

/-- A tick with a clip voice inside its clip, and with one at its end. -/
theorem witness_StepKeepsSlotsAndQueue :
    ∀ pos ∈ [1, 3], ∃ s t : State,
      s.SlotsOk ∧ s.QueueOk ∧ s.PositionsOk ∧ s.StoppedOk ∧ (s.voiceAt 0).pos = pos ∧ step s = .next t := by
  intro pos hp
  refine ⟨(playing false pos).withTurn tickTurn, _, ?_, queueOk_playing false pos 16384, ?_, ?_, rfl, step_eq _⟩
  · unfold State.SlotsOk
    revert pos
    decide
  · unfold State.PositionsOk
    revert pos
    decide
  · intro v _
    exact BitVec.getLsbD_zero

/-- A bound ring that holds a frame. -/
theorem witness_StepKeepsRingOk :
    ∃ s t : State, s.QueueOk ∧ s.SinkOk ∧ s.RingOk ∧ s.ring.bound = true ∧ s.ring.buf ≠ [] ∧ step s = .next t := by
  refine ⟨ringing.withTurn tickTurn, _, queueOk_of rfl (by decide), ?_, ringOk_ringing, rfl, by decide, step_eq _⟩
  unfold State.SinkOk
  decide

/-- An initialised decoder, after a first frame. -/
theorem witness_StepKeepsBuffersAndSinkOk :
    ∃ s t : State, s.SinkOk ∧ s.BuffersOk ∧ s.dec.init = true ∧ s.stream.nframes ≠ 0 ∧ step s = .next t := by
  refine ⟨(busy .decodeFrame .initial { monoFrame with stream := { monoFrame.stream with nframes := 1 } }).withTurn seqTurn, _,
    ?_, ?_, rfl, by decide, step_eq _⟩
  · unfold State.SinkOk
    decide
  · unfold State.BuffersOk
    decide

theorem witness_StepKeepsJobAndSyncOk :
    (∃ s t : State, s.JobOk ∧ s.cur ≠ none ∧ step s = .next t) ∧
    (∃ s t : State, s.SyncOk ∧ s.stream.mode = .strict ∧ step s = .next t) := by
  refine ⟨⟨(busy (.bypassWrite 255) .initial).withTurn seqTurn, _, ?_, nofun, step_eq _⟩,
    (busy .readFrame (.reading 0) (strictOn (withInput frame24 false))).withTurn seqTurn, _,
    ⟨nofun, fun _ => by decide⟩, rfl, step_eq _⟩
  intro j h
  injection h with h
  subst h
  exact ⟨rfl, .inl rfl⟩

theorem clipsOk_playing : playing.ClipsOk := by
  refine ⟨by decide, ?_, ?_, ?_, nofun⟩
  · unfold State.written; decide
  · unfold regionOk; decide
  · unfold regionOk; decide

theorem witness_StepKeepsClipsOk : ∃ s t : State, s.MemOk ∧ s.QueueOk ∧ s.ClipsOk ∧ step s = .next t :=
  ⟨playing.withTurn (writeTurn 0x118#13 7), _, rfl, queueOk_playing false 0 16384, clipsOk_playing, step_eq _⟩

/-- The first and the last cell of a playing clip. -/
theorem witness_PlayedClipImmutable :
    ∃ (s t : State) (x : Voice), s.MemOk ∧ s.ClipsOk ∧ step s = .next t ∧ x ∈ s.voices ∧ x.onClip = true ∧
      x.base ≤ 0 ∧ 0 < x.base + x.len * x.ch ∧ x.base ≤ 2 ∧ 2 < x.base + x.len * x.ch :=
  ⟨playing.withTurn (writeTurn 0x118#13 7), _, clipVoice false false 0 16384, rfl, clipsOk_playing, step_eq _,
    by decide, by decide, by decide, by decide, by decide, by decide⟩

end Sys2Proof.Tests
end

/-! PROOFS. The family 00_scope.md: what a step runs (R9, R10, R325), and what no step or only the host changes (R6, R21, R37, R50). -/

namespace Sys2Proof.Machine

/-! ### What a step runs -/

/-- A legal word issued to an idle sequencer starts its command. -/
theorem afterIssue_of_idle {s : State} {w : Word} {i : Instr} (hc : s.cur = none) (hd : decode w = .ok i) :
    s.afterIssue w = startOf i (s.latch i) := by
  simp [State.afterIssue, State.busy, hc, hd]

/-- The CMD write of a legal word to an idle block runs its command (R325). -/
theorem step_of_legalCmdWrite {s : State} {w : Word} {i : Instr} (hc : s.cur = none)
    (hn : s.env.nextTurn = cmdWriteTurn w) (hd : decode w = .ok i) : step s = exec i s.taking := by
  have hidle : s.taking.cur = none := hc
  rw [step_of_cmdWrite hn, afterIssue_of_idle hidle hd, exec_of_idle i hidle]

/-- A sequencer turn runs the command in progress (R325). -/
theorem step_of_sequencer {s : State} {j : Job} {d : LineDraw} {timeout : Bool} (hj : s.cur = some j)
    (hn : s.env.nextTurn = .sequencer d timeout) : step s = exec j.instr s.taking := by
  have hbusy : s.taking.cur = some j := hj
  have hturn : s.taking.afterSequencer = bodyOf j.instr j s.taking := by
    simp only [State.afterSequencer, hbusy]
  rw [exec_of_busy j.instr hbusy, ← hturn, step_eq, hn]
  rfl

/-- Settles O4: the CMD write and the sequencer turn by the two parts of exec, the totality by `step_eq`. -/
theorem stepRunsTheCommand : Obligations.StepRunsTheCommand :=
  ⟨fun _ _ _ hc hn hd => step_of_legalCmdWrite hc hn hd, fun _ _ _ _ hj hn => step_of_sequencer hj hn,
    fun _ => rfl, fun s => ⟨_, step_eq s⟩⟩

/-! ### The configuration: no step changes it -/

/-- `t` has the configuration and the numbers of voice slots and descriptors of `s` (R6). -/
structure State.SameConfig (s t : State) : Prop where
  cfg : t.cfg = s.cfg
  nVoices : t.nVoices = s.nVoices
  nClips : t.nClips = s.nClips

namespace State.SameConfig

variable {s t u : State}

theorem refl (s : State) : s.SameConfig s := ⟨rfl, rfl, rfl⟩

theorem trans (h1 : s.SameConfig t) (h2 : t.SameConfig u) : s.SameConfig u :=
  ⟨h2.cfg.trans h1.cfg, h2.nVoices.trans h1.nVoices, h2.nClips.trans h1.nClips⟩

/-- Where the voices and the descriptors are the same, so are their numbers. -/
theorem of_eq (hc : t.cfg = s.cfg) (hv : t.voices = s.voices) (hd : t.clips.descs = s.clips.descs) :
    s.SameConfig t :=
  ⟨hc, congrArg List.length hv, congrArg List.length hd⟩

theorem configLegal (h : s.SameConfig t) : t.configLegal = s.configLegal :=
  configLegal_congr h.cfg h.nVoices h.nClips

end State.SameConfig

/-- A read moves CLIP_ADDR at most: no read changes CLIP_SEL or a descriptor. -/
theorem clips_readEffect (r : Reg) (s : State) :
    (s.readEffect r).clips.sel = s.clips.sel ∧ (s.readEffect r).clips.descs = s.clips.descs := by
  unfold State.readEffect
  repeat' split
  all_goals exact ⟨rfl, rfl⟩

/-- CLIP_DATA writes a cell and moves CLIP_ADDR, or records an error. -/
theorem descs_clipDataWrite (x : Sample) (s : State) : (s.clipDataWrite x).clips.descs = s.clips.descs := by
  unfold State.clipDataWrite
  dsimp only
  repeat' split
  all_goals rfl

/-- No register write changes a descriptor: the host reaches CLIP_SEL, CLIP_ADDR and the cells only. -/
theorem descs_regWrite (r : Reg) (v : Word) (s : State) : (s.regWrite r v).clips.descs = s.clips.descs := by
  cases r with
  | inData => exact congrArg ClipStore.descs (pushByte_clips _ s)
  | inCtrl =>
    simp only [State.regWrite]
    split <;> rfl
  | clipData => exact descs_clipDataWrite _ s
  | _ => rfl

theorem sameConfig_tick (s : State) : s.SameConfig s.tick :=
  tick_keeps (I := fun t => s.SameConfig t)
    (enter := ⟨by simp, length_voices_admitAll s, by simp [State.nClips]⟩)
    (remove := fun t v h _ => h.trans ⟨rfl, length_voices_removeVoice t v, rfl⟩)
    (read := fun t v h _ => h.trans ⟨by simp, length_voices_readVoice v t, by simp [State.nClips]⟩)
    (lineWrite := fun fs t h _ _ _ => h.trans (.of_eq (by simp) (by simp) (by simp)))
    (record := fun _ _ _ _ h => h.trans (.of_eq rfl rfl rfl))
    (syncreq := fun _ h => h.trans (.of_eq rfl rfl rfl))

/-- A sequencer step changes descriptors and slots in place: their numbers stay. -/
theorem sameConfig_body (i : Instr) (j : Job) (s : State) : s.SameConfig (bodyOf i j s) := by
  obtain ⟨hcfg, -, -, -, -, -, -, hvoices, hdescs⟩ := sameSettings_body i j s
  exact ⟨hcfg, hvoices, hdescs⟩

/-- No step changes the configuration (R6). -/
theorem sameConfig_step {s t : State} (h : step s = .next t) : s.SameConfig t :=
  step_keeps (I := fun t => s.SameConfig t)
    (env := fun _ _ h => h.trans (.of_eq rfl rfl rfl))
    (answer := fun _ _ h => h.trans (.of_eq rfl rfl rfl))
    (record := fun _ _ _ _ h => h.trans (.of_eq rfl rfl rfl))
    (read := fun u r h => h.trans (.of_eq (by simp) (by simp) (clips_readEffect r u).2))
    (reg := fun u r v h => h.trans (.of_eq (by simp) (by simp) (descs_regWrite r v u)))
    (start := fun u _ i _ _ h => h.trans (.of_eq (by simp) (by simp) (by simp)))
    (body := fun u j _ h => h.trans (sameConfig_body j.instr j u))
    (mixer := fun u _ h => h.trans (sameConfig_tick u))
    (line := fun u h => h.trans (.of_eq (by simp) (by simp) (by simp)))
    (.refl s) h

/-! ### The registers that only the host writes -/

/-- `t` has ARG0, ARG1, IRQ_EN and CLIP_SEL of `s` (R21, R37, R50). -/
structure State.SameHostRegs (s t : State) : Prop where
  arg0 : t.arg0 = s.arg0
  arg1 : t.arg1 = s.arg1
  irqEn : t.irqEn = s.irqEn
  sel : t.clips.sel = s.clips.sel

theorem sameHostRegs_hostRead (offset : BitVec 13) (width : AccessWidth) (s : State) :
    s.SameHostRegs (s.hostRead offset width) := by
  rcases hostRead_cases offset width s with ⟨-, h⟩ | ⟨r, -, h⟩ <;> rw [h]
  · exact ⟨rfl, rfl, rfl, rfl⟩
  · exact ⟨by simp, by simp, by simp, (clips_readEffect r s).1⟩

theorem sameHostRegs_afterSequencer (s : State) : s.SameHostRegs s.afterSequencer := by
  unfold State.afterSequencer
  split
  · exact ⟨rfl, rfl, rfl, rfl⟩
  · next j _ =>
    obtain ⟨-, h0, h1, hen, -, hsel, -⟩ := sameSettings_body j.instr j s
    exact ⟨h0, h1, hen, hsel⟩

/-- Every turn but a host write keeps the four registers. -/
theorem sameHostRegs_afterTurn {turn : Turn} (hw : ∀ a w v, turn ≠ .host (.write a w v)) (s : State) :
    s.SameHostRegs (s.afterTurn turn) := by
  cases turn with
  | host access =>
    cases access with
    | read offset width => exact sameHostRegs_hostRead offset width s
    | write offset width v => exact absurd rfl (hw offset width v)
  | sequencer _ _ => exact sameHostRegs_afterSequencer s
  | mixer _ =>
    show s.SameHostRegs s.mixerTurn
    exact ⟨by simp, by simp, by simp, by simp⟩
  | line =>
    show s.SameHostRegs s.lineTurn
    exact ⟨by simp, by simp, by simp, by simp⟩

/-- Settles O48: the configuration by the rule for invariants of a step, the four registers turn by turn. -/
theorem onlyTheHostWrites : Obligations.OnlyTheHostWrites := by
  intro s t h
  have hc := sameConfig_step h
  refine ⟨hc.cfg, hc.nVoices, hc.nClips, hc.configLegal, fun hw => ?_⟩
  rw [step_next_iff] at h
  subst h
  obtain ⟨h0, h1, hen, hsel⟩ := sameHostRegs_afterTurn hw s.taking
  exact ⟨h0, h1, hen, hsel⟩

end Sys2Proof.Machine

/-! PROOFS. The family 10_state.md: what every step keeps of the state, and what its registers show. -/

namespace Sys2Proof.Machine

/-! ### What a step can do, as cases -/

/-- A property that every part of a step leads to, from a state with the premise `I`, holds after the step.
`step_keeps` is the case `K = I`; a conclusion that rests on further invariants needs no proof of those here. -/
theorem step_establishes {I K : State → Prop}
    (env : ∀ s e, I s → I { s with env := e })
    (same : ∀ s, I s → K s)
    (answer : ∀ s w, K s → K (State.answer w s))
    (record : ∀ s e o x, K s → K (State.record e o x s))
    (read : ∀ s r, I s → K (State.readEffect r s))
    (reg : ∀ s r v, I s → K (State.regWrite r v s))
    (start : ∀ s w i, s.cur = none → decode w = .ok i → I s → K (startOf i (s.latch i)))
    (body : ∀ s j, s.cur = some j → I s → K (bodyOf j.instr j s))
    (mixer : ∀ s, s.tickEnabled = true → I s → K s.tick)
    (line : ∀ s, I s → K s.lineTurn)
    {s t : State} (hs : I s) (h : step s = .next t) : K t := by
  rw [step_next_iff] at h
  subst h
  have h0 : I s.taking := env s _ hs
  generalize s.taking = u at h0 ⊢
  rcases s.env.nextTurn with (⟨a, w⟩ | ⟨a, w, v⟩) | _ | _ | _
  · show K (u.hostRead a w)
    rcases hostRead_cases a w u with ⟨-, h⟩ | ⟨r, -, h⟩ <;> rw [h]
    · exact answer _ _ (record _ _ _ _ (same _ h0))
    · exact answer _ _ (read _ _ h0)
  · show K (u.afterWrite a w v)
    unfold State.afterWrite State.afterIssue
    split
    · exact record _ _ _ _ (same _ h0)
    · split
      · split
        · exact record _ _ _ _ (same _ h0)
        · split
          · exact record _ _ _ _ (same _ h0)
          · next hb _ i hd => exact start _ _ _ (by simpa [State.busy] using hb) hd h0
      · exact reg _ _ _ h0
  · show K u.afterSequencer
    unfold State.afterSequencer
    split
    · exact same _ h0
    · next j hj => exact body _ _ hj h0
  · show K u.mixerTurn
    unfold State.mixerTurn
    split
    · next ht => exact mixer _ ht h0
    · exact same _ h0
  · exact line _ h0

/-- Only a sequencer step and a tick change the voice slots, the queue and the ring. -/
theorem step_voices_cases {s t : State} (h : step s = .next t) :
    (t.voices = s.voices ∧ t.mixer = s.mixer ∧ t.ring = s.ring) ∨
    (∃ j, s.cur = some j ∧ t = bodyOf j.instr j s.taking) ∨ (s.tickEnabled = true ∧ t = s.taking.tick) := by
  rw [step_next_iff] at h
  subst h
  rcases s.env.nextTurn with (⟨a, w⟩ | ⟨a, w, v⟩) | _ | _ | _
  · exact .inl ⟨by simp [State.afterTurn], by simp [State.afterTurn], by simp [State.afterTurn]⟩
  · left
    show (s.taking.afterWrite a w v).voices = _ ∧ (s.taking.afterWrite a w v).mixer = _ ∧
      (s.taking.afterWrite a w v).ring = _
    unfold State.afterWrite State.afterIssue
    repeat' split
    all_goals simp
  · show _ ∨ (∃ j, s.cur = some j ∧ s.taking.afterSequencer = _) ∨ _
    cases hc : s.cur with
    | none =>
      have e : s.taking.afterSequencer = s.taking := by simp [State.afterSequencer, hc]
      left
      show s.taking.afterSequencer.voices = _ ∧ s.taking.afterSequencer.mixer = _ ∧ s.taking.afterSequencer.ring = _
      rw [e]
      exact ⟨rfl, rfl, rfl⟩
    | some j => exact .inr (.inl ⟨j, rfl, by simp [State.afterSequencer, hc]⟩)
  · show (s.taking.mixerTurn.voices = _ ∧ s.taking.mixerTurn.mixer = _ ∧ s.taking.mixerTurn.ring = _) ∨
      _ ∨ (_ ∧ s.taking.mixerTurn = _)
    unfold State.mixerTurn
    split
    · next ht => exact .inr (.inr ⟨ht, rfl⟩)
    · exact .inl ⟨rfl, rfl, rfl⟩
  · exact .inl ⟨by simp [State.afterTurn], by simp [State.afterTurn], by simp [State.afterTurn]⟩

/-- The commands of 42_mixer.md R233 on a slot in use. -/
def isVoiceCommand : Instr → Bool
  | .pauseVoice _ | .resumeVoice _ | .stopVoice _ | .setVolume _ | .setLoop _ _ => true
  | _ => false

/-- A command on a slot changes the slots and how the command ends, and nothing else. -/
theorem voiceCommand_only {i : Instr} (hi : isVoiceCommand i = true) (j : Job) (s : State) :
    bodyOf i j s = { s with
      cur := (bodyOf i j s).cur, result := (bodyOf i j s).result, err := (bodyOf i j s).err
      irqPend := (bodyOf i j s).irqPend, voices := (bodyOf i j s).voices } := by
  have ends : ∀ op v (act : State → State),
      (act s = { s with cur := (act s).cur, result := (act s).result, err := (act s).err
                        irqPend := (act s).irqPend, voices := (act s).voices }) →
      onVoice op v act s = { s with
        cur := (onVoice op v act s).cur, result := (onVoice op v act s).result, err := (onVoice op v act s).err
        irqPend := (onVoice op v act s).irqPend, voices := (onVoice op v act s).voices } := by
    intro op v act h
    rcases onVoice_cases op v act s with ⟨-, e⟩ | ⟨-, -, e⟩ | ⟨-, -, e⟩ <;> rw [e]
    · rfl
    · rfl
    · exact h
  cases i with
  | pauseVoice v => exact ends _ v (fun s => (s.setVoice v (s.voiceAt v).pause).complete 0) rfl
  | resumeVoice v => exact ends _ v (fun s => (s.setVoice v (s.voiceAt v).resume).complete 0) rfl
  | stopVoice v => exact ends _ v (fun s => (s.setVoice v { s.voiceAt v with state := .stopped }).complete 0) rfl
  | setVolume v =>
    exact ends _ v (fun s => (s.setVoice v { s.voiceAt v with vol := volumeOperand j.arg0 }).complete 0) rfl
  | setLoop v loop =>
    refine ends _ v (setLoopEffect v loop) ?_
    unfold setLoopEffect
    split <;> rfl
  | _ => cases hi

/-! ### A property of each voice slot -/

/-- A tick keeps a property of every slot that admission, removal and a read keep of one slot. -/
theorem forall_voices_tick {P : Voice → Prop} {s : State} (h : ∀ x ∈ s.voices, P x)
    (enter : ∀ v ∈ s.mixer.fifo, P (s.voiceAt v) → P (s.voiceAt v).enter)
    (removed : ∀ x, P x → P x.removed)
    (read : ∀ t v, P (State.voiceAt t v) → P ((t.readVoice v).1.voiceAt v)) : ∀ x ∈ s.tick.voices, P x := by
  have hs : ∀ v, v < s.voices.length → P (s.voiceAt v) := fun v hv => h _ (voiceAt_mem s hv)
  suffices hk : s.tick.voices.length = s.voices.length ∧ ∀ v, v < s.voices.length → P (s.tick.voiceAt v) from
    forall_mem_voices _ fun v hv => hk.2 v (hk.1 ▸ hv)
  refine tick_keeps (I := fun t => t.voices.length = s.voices.length ∧ ∀ v, v < s.voices.length → P (t.voiceAt v))
    ⟨length_voices_admitAll s, fun v hv => ?_⟩ (fun t v ht _ => ⟨by simpa using ht.1, fun u hu => ?_⟩)
    (fun t v ht _ => ⟨by simpa using ht.1, fun u hu => ?_⟩)
    (fun fs t ht _ _ _ => ⟨by simpa using ht.1, fun u hu => ?_⟩) (fun _ _ _ _ ht => ht) (fun _ ht => ht)
  · rw [voiceAt_admitAll]
    split
    · next hf => exact enter v hf.1 (hs v hv)
    · exact hs v hv
  · rw [voiceAt_removeVoice]
    split
    · exact removed _ (ht.2 u hu)
    · exact ht.2 u hu
  · by_cases huv : u = v
    · exact huv ▸ read t u (ht.2 u hu)
    · rw [voiceAt_readVoice_ne huv]
      exact ht.2 u hu
  · simpa [State.voiceAt] using ht.2 u hu

/-- A sequencer step keeps a property of every slot that holds of new voices and that a removal and a voice command keep of one slot. -/
theorem forall_voices_of_effect {P : Voice → Prop} {s t : State} (he : VoiceEffect s t) (h : ∀ x ∈ s.voices, P x)
    (set : ∀ x st vol lp, vol = x.vol ∨ vol ≤ 32768 → P x → P { x with state := st, vol := vol, loop := lp })
    (clip : ∀ c lp vol, vol ≤ 32768 → s.clipError c = none → P (newClipVoice c (s.descAt c) lp vol))
    (stream : ∀ ch vol, vol ≤ 32768 → P (newStreamVoice ch vol))
    (removed : ∀ x, P x → P x.removed) : ∀ x ∈ t.voices, P x := by
  have replaced : ∀ v x, P x → ∀ y ∈ s.voices.set v x, P y := fun v x hx y hy =>
    (List.mem_or_eq_of_mem_set hy).elim (h y) (· ▸ hx)
  cases he with
  | none hv => rwa [hv]
  | set v st vol lp lt _ volOk hv =>
    rw [hv]
    exact replaced _ _ (set _ _ _ _ volOk (h _ (voiceAt_mem s lt)))
  | clip v c lp vol _ volOk desc hv =>
    rw [hv]
    exact replaced _ _ (clip _ _ _ volOk desc)
  | stream v ch vol _ volOk _ _ _ hv =>
    rw [hv]
    exact replaced _ _ (stream _ _ volOk)
  | poison hv =>
    rw [hv]
    refine forall_mem_voices _ fun v hlt => ?_
    have hp := h _ (voiceAt_mem s (by simpa using hlt))
    rw [voiceAt_poison]
    split
    · exact removed _ hp
    · exact hp

/-! ### Volumes and positions (R56, R103, R252) -/

/-- What SlotsOk says of one slot. -/
def Voice.slotOk (x : Voice) : Prop := ¬ (x.pending = true ∧ x.active = true) ∧ x.vol ≤ 32768

theorem slotsOk_step {s t : State} (hs : s.SlotsOk) (h : step s = .next t) : t.SlotsOk := by
  show ∀ x ∈ t.voices, x.slotOk
  rcases step_voices_cases h with ⟨hv, -, -⟩ | ⟨j, -, rfl⟩ | ⟨-, rfl⟩
  · rwa [hv]
  · exact forall_voices_of_effect (voiceEffect_body _ j s.taking) hs
      (set := fun x st vol lp hvol hx => ⟨hx.1, hvol.elim (fun e => e ▸ hx.2) id⟩)
      (clip := fun c lp vol hvol _ => ⟨by simp [newClipVoice], hvol⟩)
      (stream := fun ch vol hvol => ⟨by simp [newStreamVoice], hvol⟩)
      (removed := fun x hx => ⟨by simp, hx.2⟩)
  · exact forall_voices_tick (s := s.taking) hs
      (enter := fun v _ hx => ⟨by simp [Voice.enter], hx.2⟩)
      (removed := fun x hx => ⟨by simp, hx.2⟩)
      (read := fun t v hx => by
        obtain ⟨p, st, e⟩ := voiceAt_readVoice_self v t
        rw [e]
        exact hx)

/-- What PositionsOk says of one slot. -/
def Voice.positionOk (x : Voice) : Prop := x.stream = false → x.pos ≤ x.len

/-- A read of a clip voice leaves its position within the clip; a read of a stream voice leaves it a stream voice. -/
theorem positionOk_readVoice (s : State) (v : Nat) (h : (s.voiceAt v).positionOk) :
    ((s.readVoice v).1.voiceAt v).positionOk := by
  cases hx : (s.voiceAt v).stream with
  | true =>
    obtain ⟨p, st, e⟩ := voiceAt_readVoice_self v s
    rw [e]
    exact fun hc => absurd (hx.symm.trans hc) (by simp)
  | false =>
    intro _
    have hread : (s.readVoice v).1 =
        s.setVoice v (readClip s.clips.mem s.cfg.mixBlock (s.voiceAt v).loop (s.voiceAt v)).1 := by
      simp [State.readVoice, hx]
    rw [hread, voiceAt_setVoice]
    split
    · obtain ⟨p, st, e⟩ := readClip_cases s.clips.mem s.cfg.mixBlock (s.voiceAt v).loop (s.voiceAt v)
      have hlen : (readClip s.clips.mem s.cfg.mixBlock (s.voiceAt v).loop (s.voiceAt v)).1.len = (s.voiceAt v).len := by
        rw [e]
      rw [hlen]
      exact pos_readClip_le _ _ _ (h hx)
    · exact h hx

theorem positionsOk_step {s t : State} (hs : s.PositionsOk) (h : step s = .next t) : t.PositionsOk := by
  show ∀ x ∈ t.voices, x.positionOk
  rcases step_voices_cases h with ⟨hv, -, -⟩ | ⟨j, -, rfl⟩ | ⟨-, rfl⟩
  · rwa [hv]
  · exact forall_voices_of_effect (voiceEffect_body _ j s.taking) hs
      (set := fun _ _ _ _ _ hx => hx)
      (clip := fun _ _ _ _ _ _ => Nat.zero_le _)
      (stream := fun _ _ _ hc => by simp [newStreamVoice] at hc)
      (removed := fun _ hx => hx)
  · exact forall_voices_tick (s := s.taking) hs
      (enter := fun _ _ hx => hx) (removed := fun _ hx => hx) (read := positionOk_readVoice)

/-! ### The queue (R231) -/

theorem not_pending_of_not_inUse {x : Voice} (h : x.inUse = false) : x.pending = false := by
  simp only [Voice.inUse, Bool.or_eq_false_iff] at h
  exact h.1

/-- The queue is empty and no slot is pending. -/
def State.NonePending (s : State) : Prop := s.mixer.fifo = [] ∧ ∀ v, (s.voiceAt v).pending = false

theorem State.NonePending.queueOk {s : State} (h : s.NonePending) : s.QueueOk := by
  obtain ⟨hfifo, hpend⟩ := h
  exact ⟨by simp [hfifo], fun v => by simp [hfifo, hpend v]⟩

/-- A tick admits every queued request: after it none is left (R250). -/
theorem nonePending_tick {s : State} (hq : s.QueueOk) : s.tick.NonePending := by
  refine tick_keeps (I := State.NonePending) ⟨rfl, fun v => ?_⟩ (fun t v ht _ => ⟨ht.1, fun u => ?_⟩)
    (fun t v ht _ => ⟨by simpa using ht.1, fun u => ?_⟩)
    (fun fs t ht _ _ _ => ⟨by simpa using ht.1, fun u => ?_⟩) (fun _ _ _ _ ht => ht) (fun _ ht => ht)
  · rw [voiceAt_admitAll]
    split
    · rfl
    · next hf =>
      by_contra hp
      have hp : (s.voiceAt v).pending = true := by simpa using hp
      exact hf ⟨(hq.2 v).2 hp, lt_of_inUse s (by simp [Voice.inUse, hp])⟩
  · rw [voiceAt_removeVoice]
    split
    · rfl
    · exact ht.2 u
  · by_cases huv : u = v
    · subst huv
      obtain ⟨p, st, e⟩ := voiceAt_readVoice_self u t
      rw [e]
      exact ht.2 u
    · rw [voiceAt_readVoice_ne huv]
      exact ht.2 u
  · simpa [State.voiceAt] using ht.2 u

/-- Slot u of `t`, whose slots are those of `s` with slot v replaced. -/
theorem voiceAt_of_voices_set {s t : State} {v : Nat} {x : Voice} (hv : t.voices = s.voices.set v x)
    (hlt : v < s.voices.length) (u : Nat) : t.voiceAt u = if u = v then x else s.voiceAt u := by
  have e : t.voiceAt u = (s.setVoice v x).voiceAt u := by simp [State.voiceAt, hv]
  simp [e, voiceAt_setVoice, hlt]

/-- A new pending voice in a free slot joins the queue's end. -/
theorem queueOk_new {s t : State} {v : Nat} {x : Voice} (hq : s.QueueOk) (free : s.freeSlot = some v)
    (hx : x.pending = true) (voices : t.voices = s.voices.set v x) (fifo : t.mixer.fifo = s.mixer.fifo ++ [v]) :
    t.QueueOk := by
  obtain ⟨hlt, hfree, -⟩ := (freeSlot_eq_some_iff s v).1 free
  have hnot : v ∉ s.mixer.fifo := fun hm => by simp [Voice.inUse, (hq.2 v).1 hm] at hfree
  refine ⟨?_, fun u => ?_⟩
  · rw [fifo]
    exact hq.1.append (List.nodup_singleton v) (List.disjoint_singleton.2 hnot)
  · rw [fifo, voiceAt_of_voices_set voices hlt]
    by_cases huv : u = v
    · simp [huv, hx]
    · simpa [huv] using hq.2 u

theorem queueOk_of_effect {s t : State} (he : VoiceEffect s t) (hq : s.QueueOk) : t.QueueOk := by
  cases he with
  | none voices fifo =>
    have e : ∀ u, t.voiceAt u = s.voiceAt u := fun u => by simp [State.voiceAt, voices]
    exact ⟨by rw [fifo]; exact hq.1, fun u => by rw [fifo, e]; exact hq.2 u⟩
  | set v st vol lp lt _ _ voices fifo =>
    refine ⟨by rw [fifo]; exact hq.1, fun u => ?_⟩
    rw [fifo, voiceAt_of_voices_set voices lt, hq.2 u]
    split
    · next huv => rw [huv]
    · rfl
  | clip v c lp vol free _ _ voices fifo => exact queueOk_new hq free rfl voices fifo
  | stream v ch vol free _ _ _ _ voices fifo => exact queueOk_new hq free rfl voices fifo
  | poison voices fifo =>
    refine State.NonePending.queueOk ⟨fifo, fun u => ?_⟩
    have e : t.voiceAt u = s.poison.voiceAt u := by simp [State.voiceAt, voices]
    rw [e, voiceAt_poison]
    split
    · rfl
    · next hu => exact not_pending_of_not_inUse (by simpa using hu)

theorem queueOk_step {s t : State} (hq : s.QueueOk) (h : step s = .next t) : t.QueueOk := by
  rcases step_voices_cases h with ⟨hv, hm, hr⟩ | ⟨j, -, rfl⟩ | ⟨-, rfl⟩
  · exact queueOk_of_effect (voiceEffect_of_same hv hm hr) hq
  · exact queueOk_of_effect (voiceEffect_body _ j s.taking) hq
  · exact (nonePending_tick (s := s.taking) hq).queueOk

/-! ### STOPPED_MASK (R58) -/

/-- The removal of a slot that exists sets no bit of one that does not. -/
theorem stoppedOk_removeVoice {s : State} {v : Nat} (hs : s.StoppedOk) (hv : v < s.voices.length) :
    (s.removeVoice v).StoppedOk := by
  intro n hn
  have hn : s.voices.length ≤ n := by simpa using hn
  by_cases h256 : n < 256
  · rw [State.removeVoice_stopped, BitVec.getLsbD_or, hs n hn, getLsbD_stoppedBit v n h256]
    simp; omega
  · exact BitVec.getLsbD_of_ge _ _ (by omega)

theorem stoppedOk_of_eq {s t : State} (hs : s.StoppedOk) (hv : t.voices.length = s.voices.length)
    (ht : t.stopped = s.stopped) : t.StoppedOk := by
  intro n hn
  rw [ht]
  exact hs n (hv ▸ hn)

theorem stoppedOk_poison {s : State} (hs : s.StoppedOk) : s.poison.StoppedOk := by
  intro n hn
  have hn : s.voices.length ≤ n := by simpa using hn
  show (s.removeVoices (s.slotsWhere Voice.inUse)).stopped.getLsbD n = false
  by_cases h256 : n < 256
  · rw [getLsbD_stopped_removeVoices s _ n h256, hs n hn]
    simp [mem_slotsWhere]; omega
  · exact BitVec.getLsbD_of_ge _ _ (by omega)

theorem stoppedOk_tick {s : State} (hs : s.StoppedOk) : s.tick.StoppedOk :=
  tick_keeps (I := State.StoppedOk) (stoppedOk_of_eq hs (by simp) (by simp))
    (fun t v ht hu => stoppedOk_removeVoice ht (lt_of_inUse t hu))
    (fun t v ht _ => stoppedOk_of_eq ht (by simp) (by simp))
    (fun fs t ht _ _ _ => stoppedOk_of_eq ht (by simp) (by simp)) (fun _ _ _ _ ht => ht) (fun _ ht => ht)

/-- A register write sets no bit of STOPPED_MASK: an acknowledge clears some, the others leave it. -/
theorem stoppedOk_regWrite {s : State} (hs : s.StoppedOk) (r : Reg) (v : Word) : (s.regWrite r v).StoppedOk := by
  cases r with
  | stoppedMask k =>
    intro n hn
    show (s.stopped &&& ~~~ (v.setWidth 256 <<< (32 * k))).getLsbD n = false
    rw [BitVec.getLsbD_and, hs n hn, Bool.false_and]
  | inData => exact stoppedOk_of_eq hs (by simp [State.regWrite]) (by simp [State.regWrite])
  | clipData => exact stoppedOk_of_eq hs (by simp [State.regWrite]) (by simp [State.regWrite])
  | inCtrl =>
    simp only [State.regWrite]
    split <;> exact hs
  | _ => exact hs

theorem stoppedOk_body {s : State} (hs : s.StoppedOk) (i : Instr) (j : Job) : (bodyOf i j s).StoppedOk := by
  have hlen : (bodyOf i j s).voices.length = s.voices.length := length_voices_of_effect (voiceEffect_body i j s)
  rcases stopped_body i j s with e | e
  · exact stoppedOk_of_eq hs hlen e
  · exact stoppedOk_of_eq (stoppedOk_poison hs) (by simpa using hlen) e

theorem stoppedOk_step {s t : State} (hs : s.StoppedOk) (h : step s = .next t) : t.StoppedOk :=
  step_keeps (I := State.StoppedOk) (env := fun _ _ h => h) (answer := fun _ _ h => h)
    (record := fun _ _ _ _ h => h)
    (read := fun u r h => stoppedOk_of_eq h (by simp) (by simp))
    (reg := fun u r v h => stoppedOk_regWrite h r v)
    (start := fun u _ i _ _ h => stoppedOk_of_eq h (by simp) (by simp))
    (body := fun u j _ h => stoppedOk_body h j.instr j)
    (mixer := fun u _ h => stoppedOk_tick h)
    (line := fun u h => stoppedOk_of_eq h (by simp) (by simp)) hs h

/-- Settles O53: slot by slot for volumes and positions, the queue with its slots, the mask by who sets its bits. -/
theorem stepKeepsSlotsAndQueue : Obligations.StepKeepsSlotsAndQueue :=
  ⟨fun _ _ => slotsOk_step, fun _ _ => queueOk_step, fun _ _ => positionsOk_step, fun _ _ => stoppedOk_step⟩

end Sys2Proof.Machine

/-! PROOFS. The family 10_state.md: the stream ring (R27, R270 to R273). -/

namespace Sys2Proof.Machine

/-! ### What a change of slots and ring leaves of RingOk -/

namespace State.RingOk

variable {s : State} (hs : s.RingOk)
include hs

/-- A bound ring belongs to a stream voice in use. -/
theorem owner (hb : s.ring.bound = true) : (s.voiceAt s.ring.voice).streaming = true := hs.1 hb

/-- A stream voice in use owns the bound ring. -/
theorem owns {v : Nat} (hv : (s.voiceAt v).streaming = true) : s.ring.bound = true ∧ s.ring.voice = v := hs.2.1 v hv

theorem unbound (hb : s.ring.bound = false) : s.ring = ⟨false, false, 0, 0, []⟩ := hs.2.2.1 hb

end State.RingOk

/-- RingOk rests on which slots a stream voice uses, and on the ring. -/
theorem ringOk_of_streaming {s t : State} (hs : s.RingOk)
    (hv : ∀ v, (t.voiceAt v).streaming = (s.voiceAt v).streaming) (hr : t.ring = s.ring) : t.RingOk := by
  unfold State.RingOk at hs ⊢
  simpa only [hv, hr] using hs

/-- A bound ring may be closed and its frames change, as long as each has rch samples. -/
theorem ringOk_of_keptBy {s t : State} (hs : s.RingOk)
    (hv : ∀ v, (t.voiceAt v).streaming = (s.voiceAt v).streaming) (hr : s.ring.KeptBy t.ring) : t.RingOk := by
  rcases hr with hr | ⟨hb, c, b, hr, hk⟩
  · exact ringOk_of_streaming hs hv hr
  · obtain ⟨hown, huse, -, hch, hframes⟩ := hs
    have hfr := hk fun _ => hframes
    unfold State.RingOk
    simp only [hv]
    rw [hr] at hfr ⊢
    exact ⟨hown, huse, fun hc => absurd (hb.symm.trans hc) (by simp), hch, hfr (hch hb)⟩

/-- With the ring unbound and no slot in use by a stream voice, the ring is as after reset. -/
theorem ringOk_unbound {s : State} (hr : s.ring = ⟨false, false, 0, 0, []⟩)
    (hv : ∀ v, (s.voiceAt v).streaming = false) : s.RingOk := by
  unfold State.RingOk
  simp [hr, hv]

/-- While the ring is unbound no slot is in use by a stream voice. -/
theorem streaming_eq_false_of_unbound {s : State} (hs : s.RingOk) (hb : s.ring.bound = false) (v : Nat) :
    (s.voiceAt v).streaming = false := by
  by_contra hc
  obtain ⟨hbound, -⟩ := hs.owns (v := v) (by simpa using hc)
  exact absurd (hb.symm.trans hbound) (by simp)

/-- At most one slot is in use by a stream voice. -/
theorem eq_of_streaming {s : State} (hs : s.RingOk) {u v : Nat} (hu : (s.voiceAt u).streaming = true)
    (hv : (s.voiceAt v).streaming = true) : u = v :=
  (hs.owns hu).2.symm.trans (hs.owns hv).2

theorem streaming_eq_false_of_not_inUse {x : Voice} (h : x.inUse = false) : x.streaming = false := by
  simp [Voice.streaming, h]

@[simp] theorem removed_streaming (x : Voice) : x.removed.streaming = false := rfl

/-! ### The tick -/

/-- The removal of the stream voice in use unbinds the ring; that of another slot in use leaves ring and stream voice (R256, R273). -/
theorem ringOk_removeVoice {s : State} {v : Nat} (hs : s.RingOk) (hu : (s.voiceAt v).inUse = true) :
    (s.removeVoice v).RingOk := by
  cases hx : (s.voiceAt v).stream with
  | true =>
    have hsv : (s.voiceAt v).streaming = true := by simp [Voice.streaming, hu, hx]
    refine ringOk_unbound (by rw [State.removeVoice_ring, if_pos hx, unbind_eq]) fun u => ?_
    rw [voiceAt_removeVoice]
    split
    · rfl
    · next huv =>
      by_contra hc
      exact huv (eq_of_streaming hs (by simpa using hc) hsv)
  | false =>
    refine ringOk_of_streaming hs (fun u => ?_) (by simp [State.removeVoice_ring, hx])
    rw [voiceAt_removeVoice]
    split
    · next huv => simp [huv, Voice.streaming, hx]
    · rfl

/-- A read moves the slot's position and takes frames from the ring (R271). -/
theorem ringOk_readVoice {s : State} (v : Nat) (hs : s.RingOk) : (s.readVoice v).1.RingOk := by
  have hv : ∀ u, ((s.readVoice v).1.voiceAt u).streaming = (s.voiceAt u).streaming := by
    intro u
    by_cases huv : u = v
    · subst huv
      obtain ⟨p, st, e⟩ := voiceAt_readVoice_self u s
      rw [e]
      rfl
    · rw [voiceAt_readVoice_ne huv]
  obtain ⟨p, st, k, e, -⟩ := readVoice_cases v s
  have hr : (s.readVoice v).1.ring = { s.ring with buf := s.ring.buf.drop k } := by rw [e]
  refine ringOk_of_keptBy hs hv ?_
  rw [hr]
  cases hb : s.ring.bound with
  | true => exact .inr ⟨hb, _, _, rfl, fun hk hc f hf => hk hc f (List.mem_of_mem_drop hf)⟩
  | false => exact .inl (by rw [hs.unbound hb]; simp)

theorem ringOk_tick {s : State} (hq : s.QueueOk) (hs : s.RingOk) : s.tick.RingOk :=
  tick_keeps (I := State.RingOk) (ringOk_of_streaming hs (oneStream_admitAll hq hs).1 (by simp))
    (fun t v ht hu => ringOk_removeVoice ht hu) (fun t v ht _ => ringOk_readVoice v ht)
    (fun fs t ht _ _ _ => ringOk_of_streaming ht (fun v => by simp [State.voiceAt]) (by simp))
    (fun _ _ _ _ ht => ht) (fun _ ht => ht)

/-! ### The sequencer -/

/-- The channel count of a new stream voice is one or two: the initialised decoder's, or CHANNELS of an accepted header (R270). -/
theorem streamChannels_one_or_two {s : State} (hs : s.SinkOk) (hn : s.stream.nframes ≠ 0) :
    s.streamChannels = 1 ∨ s.streamChannels = 2 := by
  obtain ⟨-, -, -, -, -, hdec, hhdr⟩ := hs
  unfold State.streamChannels
  split
  · next hi => exact (hdec hi).1
  · exact hhdr hn

theorem ringOk_of_effect {s t : State} (he : VoiceEffect s t) (hk : s.SinkOk) (hs : s.RingOk) : t.RingOk := by
  cases he with
  | none voices _ ring => exact ringOk_of_keptBy hs (fun u => by simp [State.voiceAt, voices]) ring
  | set v st vol lp lt _ _ voices _ ring =>
    refine ringOk_of_streaming hs (fun u => ?_) ring
    rw [voiceAt_of_voices_set voices lt]
    split
    · next huv => rw [huv]; rfl
    · rfl
  | clip v c lp vol free _ _ voices _ ring =>
    obtain ⟨hlt, hfree, -⟩ := (freeSlot_eq_some_iff s v).1 free
    refine ringOk_of_streaming hs (fun u => ?_) ring
    rw [voiceAt_of_voices_set voices hlt]
    split
    · next huv => rw [huv, streaming_eq_false_of_not_inUse hfree]; rfl
    · rfl
  | stream v ch vol free _ unbound frames channels voices _ ring =>
    obtain ⟨hlt, -, -⟩ := (freeSlot_eq_some_iff s v).1 free
    have hslot := voiceAt_of_voices_set voices hlt
    have hch : ch = 1 ∨ ch = 2 := channels ▸ streamChannels_one_or_two hk frames
    unfold State.RingOk
    rw [ring]
    refine ⟨fun _ => by rw [hslot]; simp [newStreamVoice, Voice.streaming, Voice.inUse], fun u hu => ?_, by simp,
      fun _ => hch, by simp⟩
    rw [hslot] at hu
    split at hu
    · next huv => exact ⟨rfl, huv.symm⟩
    · simp [streaming_eq_false_of_unbound hs unbound u] at hu
  | poison voices _ ring =>
    have hslot : ∀ u, t.voiceAt u = s.poison.voiceAt u := fun u => by simp [State.voiceAt, voices]
    have hnone : ∀ u, (t.voiceAt u).streaming = false := by
      intro u
      rw [hslot, voiceAt_poison]
      split
      · rfl
      · next hu => exact streaming_eq_false_of_not_inUse (by simpa using hu)
    obtain ⟨hunbind, hleave⟩ := ring_poison s
    refine ringOk_unbound ?_ hnone
    by_cases hex : ∃ v, (s.voiceAt v).streaming = true
    · rw [ring, hunbind hex, unbind_eq]
    · have hno : ∀ v, (s.voiceAt v).streaming = false := by simpa using hex
      rw [ring, hleave hno]
      refine hs.unbound ?_
      by_contra hb
      exact hex ⟨_, hs.owner (by simpa using hb)⟩

/-- Settles O54: the ring with its one stream voice, over what a sequencer step does to the voices and over the parts of a tick. -/
theorem stepKeepsRingOk : Obligations.StepKeepsRingOk := by
  intro s t hq hk hs h
  rcases step_voices_cases h with ⟨hv, hm, hr⟩ | ⟨j, -, rfl⟩ | ⟨-, rfl⟩
  · exact ringOk_of_effect (voiceEffect_of_same hv hm hr) hk hs
  · exact ringOk_of_effect (voiceEffect_body _ j s.taking) hk hs
  · exact ringOk_tick (s := s.taking) hq hs

end Sys2Proof.Machine

/-! PROOFS. The family 10_state.md: the clip store and the voices over it (R57, R72, R215, R300, R363). -/

namespace Sys2Proof.Machine

/-! ### Regions and written cells -/

namespace State.ClipsOk

variable {s : State} (hs : s.ClipsOk)
include hs

theorem alloc_le : s.clips.alloc ≤ s.cfg.clipMemSamples := hs.1

theorem written_below {a : Nat} (ha : a < s.clips.alloc) : s.written a := hs.2.1 a ha

theorem desc {d : ClipDesc} (hd : d ∈ s.clips.descs) (hv : d.valid = true) :
    regionOk s.clips.alloc d.base d.len d.ch := hs.2.2.1 d hd hv

theorem voices : ∀ x ∈ s.voices, x.onClip = true → regionOk s.clips.alloc x.base x.len x.ch := hs.2.2.2.1

theorem cur : ∀ j, s.cur = some j → j.progress.clipsOk s := hs.2.2.2.2

end State.ClipsOk

theorem regionOk.mono {a a' base len ch : Nat} (h : regionOk a base len ch) (ha : a ≤ a') : regionOk a' base len ch :=
  ⟨h.1, h.2.trans ha⟩

/-- What a command holds of the clip store it still holds when more cells are written. -/
theorem Progress.clipsOk_mono {s t : State} {p : Progress} (h : p.clipsOk s) (hcfg : t.cfg = s.cfg)
    (halloc : t.clips.alloc = s.clips.alloc) (hw : ∀ a, s.written a → t.written a) : p.clipsOk t := by
  cases p with
  | loading l =>
    obtain ⟨hbase, hfits, hcells, hch⟩ := h
    exact ⟨hbase.trans halloc.symm, hcfg ▸ hfits, fun a h1 h2 => hw a (hcells a h1 h2), hch⟩
  | bypass d i =>
    show regionOk t.clips.alloc d.base d.len d.ch
    rw [halloc]
    exact h
  | _ => trivial

/-- With the same descriptors and allocator pointer, and no fewer cells written, ClipsOk is left to the voices and the command in progress. -/
theorem clipsOk_of_written {s t : State} (hs : s.ClipsOk) (hcfg : t.cfg = s.cfg)
    (halloc : t.clips.alloc = s.clips.alloc) (hdescs : t.clips.descs = s.clips.descs)
    (hw : ∀ a, s.written a → t.written a)
    (hvoices : ∀ x ∈ t.voices, x.onClip = true → regionOk s.clips.alloc x.base x.len x.ch)
    (hcur : ∀ j, t.cur = some j → j.progress.clipsOk t) : t.ClipsOk := by
  obtain ⟨hfits, hcells, hdesc, -, -⟩ := hs
  unfold State.ClipsOk
  rw [hcfg, halloc, hdescs]
  exact ⟨hfits, fun a ha => hw a (hcells a ha), hdesc, hvoices, hcur⟩

/-- A step that leaves the clip store alone keeps ClipsOk where its voices and its command keep to the store as it was. -/
theorem clipsOk_of_clips_eq {s t : State} (hs : s.ClipsOk) (hcfg : t.cfg = s.cfg) (hclips : t.clips = s.clips)
    (hvoices : ∀ x ∈ t.voices, x.onClip = true → regionOk s.clips.alloc x.base x.len x.ch)
    (hcur : ∀ j, t.cur = some j → j.progress.clipsOk s) : t.ClipsOk := by
  have hw : ∀ a, s.written a → t.written a := fun a => by unfold State.written; rw [hclips]; exact id
  exact clipsOk_of_written hs hcfg (by rw [hclips]) (by rw [hclips]) hw hvoices
    fun j hj => Progress.clipsOk_mono (hcur j hj) hcfg (by rw [hclips]) hw

theorem clipsOk_of_eq {s t : State} (hs : s.ClipsOk) (hcfg : t.cfg = s.cfg) (hclips : t.clips = s.clips)
    (hvoices : t.voices = s.voices) (hcur : t.cur = s.cur) : t.ClipsOk :=
  clipsOk_of_clips_eq hs hcfg hclips (hvoices ▸ hs.voices) (hcur ▸ hs.cur)

/-- A new clip whose region ends at the new allocator pointer, every cell up to it written (R215, R300). -/
theorem clipsOk_newClip {s t : State} {c : Nat} {d : ClipDesc} (hs : s.ClipsOk) (hcfg : t.cfg = s.cfg)
    (hdescs : t.clips.descs = s.clips.descs.set c d) (hle : s.clips.alloc ≤ t.clips.alloc)
    (hfits : t.clips.alloc ≤ s.cfg.clipMemSamples) (hcells : ∀ a, a < t.clips.alloc → t.written a)
    (hd : regionOk t.clips.alloc d.base d.len d.ch) (hvoices : t.voices = s.voices) (hcur : t.cur = none) :
    t.ClipsOk := by
  obtain ⟨-, -, hdesc, hvoice, -⟩ := hs
  refine ⟨hcfg ▸ hfits, hcells, fun e he hv => ?_, fun x hx ho => ?_, by simp [hcur]⟩
  · rw [hdescs] at he
    rcases List.mem_or_eq_of_mem_set he with he | rfl
    · exact (hdesc e he hv).mono hle
    · exact hd
  · exact (hvoice x (hvoices ▸ hx) ho).mono hle

/-- Every cell written stays written by a block write, and the block's own cells are. -/
theorem written_of_writeBlock {s t : State} {base : Nat} {xs : List Sample} (hm : s.MemOk)
    (hmem : t.clips.mem = Memory.writeBlock s.clips.mem base xs) {a : Nat}
    (h : s.written a ∨ (base ≤ a ∧ a < base + xs.length)) : t.written a := by
  unfold State.written
  rw [hmem]
  exact Memory.isSome_writeBlock hm base xs h

/-- The clip of a command that may sound is a valid descriptor's (R232, R266). -/
theorem regionOk_descAt {s : State} {c : Nat} (hs : s.ClipsOk) (hc : s.clipError c = none) :
    regionOk s.clips.alloc (s.descAt c).base (s.descAt c).len (s.descAt c).ch := by
  obtain ⟨-, hvalid, -⟩ := clipError_eq_none s hc
  exact hs.desc (descAt_mem s hvalid) hvalid

/-! ### The voices -/

/-- What ClipsOk says of one slot, for the allocator pointer `alloc`. -/
def Voice.regionOkBelow (alloc : Nat) (x : Voice) : Prop := x.onClip = true → regionOk alloc x.base x.len x.ch

theorem regionOkBelow_of_effect {s t : State} (he : VoiceEffect s t) (hs : s.ClipsOk) :
    ∀ x ∈ t.voices, x.regionOkBelow s.clips.alloc :=
  forall_voices_of_effect he hs.voices
    (set := fun _ _ _ _ _ hx => hx)
    (clip := fun _ _ _ _ hc _ => regionOk_descAt hs hc)
    (stream := fun _ _ _ ho => by simp [newStreamVoice, Voice.onClip] at ho)
    (removed := fun _ _ ho => by simp [Voice.onClip] at ho)

/-- A tick plays only voices that were in use: an admitted slot was pending (R231). -/
theorem regionOkBelow_tick {s : State} (hq : s.QueueOk) (hs : s.ClipsOk) :
    ∀ x ∈ s.tick.voices, x.regionOkBelow s.clips.alloc :=
  forall_voices_tick hs.voices
    (enter := fun v hv hx ho => hx (by
      have hp := (hq.2 v).1 hv
      simp only [Voice.onClip, Voice.enter, Bool.and_eq_true] at ho
      simp [Voice.onClip, Voice.inUse, hp, ho.2]))
    (removed := fun _ _ ho => by simp [Voice.onClip] at ho)
    (read := fun t v hx => by
      obtain ⟨p, st, e⟩ := voiceAt_readVoice_self v t
      rw [e]
      exact hx)

theorem clipsOk_tick {s : State} (hq : s.QueueOk) (hs : s.ClipsOk) : s.tick.ClipsOk :=
  clipsOk_of_clips_eq hs (by simp) (by simp) (regionOkBelow_tick hq hs) (by simpa using hs.cur)

/-! ### The commands that change the clip store -/

/-- LOAD_CLIP's region before its step: its own record's, or a fresh one at the allocator pointer (R215). -/
theorem clipsOk_load {s : State} {p : Progress} (hs : s.ClipsOk) (hp : p.clipsOk s) :
    (Progress.loading (p.load s.clips.alloc)).clipsOk s := by
  cases p with
  | loading l => exact hp
  | _ =>
    exact ⟨rfl, hs.alloc_le, fun a h1 h2 => absurd (show a < s.clips.alloc from h2) (Nat.not_lt.2 h1),
      by simp [Progress.load]⟩

theorem clipsOk_loadClipStep {s : State} {j : Job} (c : Nat) (hm : s.MemOk) (hs : s.ClipsOk) (hj : s.cur = some j) :
    (loadClipStep c j s).ClipsOk := by
  have hcfg : (loadClipStep c j s).cfg = s.cfg := by simp
  have hvoices : (loadClipStep c j s).voices = s.voices := by simp
  have he := loadEffect_step c j s
  have hl := clipsOk_load hs (hs.cur j hj)
  generalize loadClipStep c j s = t at hcfg hvoices he
  generalize j.progress.load s.clips.alloc = l at he hl
  obtain ⟨hbase, hfits, hcells, hch⟩ := id hl
  have holds : ∀ x ∈ t.voices, x.regionOkBelow s.clips.alloc := hvoices ▸ hs.voices
  cases he with
  | held h => exact h ▸ hs
  | failed clips cur => exact clipsOk_of_clips_eq hs hcfg clips holds (by simp [cur])
  | same k clips cur =>
    refine clipsOk_of_clips_eq hs hcfg clips holds fun j' hj' => ?_
    obtain rfl : _ = j' := by simpa [cur] using hj'
    exact hl
  | stored xs ch rate fits chOk clips cur =>
    have hmem : t.clips.mem = Memory.writeBlock s.clips.mem (l.base + l.w) xs := by rw [clips]
    have hw : ∀ a, s.written a → t.written a := fun a ha => written_of_writeBlock hm hmem (.inl ha)
    refine clipsOk_of_written hs hcfg (by rw [clips]) (by rw [clips]) hw holds fun j' hj' => ?_
    obtain rfl : _ = j' := by simpa [cur] using hj'
    refine ⟨by rw [clips]; exact hbase, by rw [hcfg, ← Nat.add_assoc]; exact fits, fun a h1 h2 => ?_, fun _ => ?_⟩
    · refine written_of_writeBlock hm hmem ?_
      by_cases ha : a < l.base + l.w
      · exact .inl (hcells a h1 ha)
      · exact .inr ⟨by omega, by simpa only [Nat.add_assoc] using h2⟩
    · rcases chOk with h | h | ⟨hn, h⟩
      · exact .inl h
      · exact .inr h
      · exact h ▸ hch hn
  | ended some clips cur =>
    have halloc : t.clips.alloc = l.base + l.w := by rw [clips]
    refine clipsOk_newClip (c := c) (d := ⟨true, l.base, l.w / l.ch, l.rate, l.ch⟩) hs hcfg (by rw [clips])
      (by omega) (halloc ▸ hfits) (fun a ha => ?_) ⟨hch (by omega), ?_⟩ hvoices cur
    · have hsame : s.written a → t.written a := by unfold State.written; rw [clips]; exact id
      by_cases hb : a < s.clips.alloc
      · exact hsame (hs.written_below hb)
      · exact hsame (hcells a (by omega) (by omega))
    · have := Nat.div_mul_le_self l.w l.ch
      dsimp only
      omega

/-- A format operand that CLIP_DEFINE accepts has one or two channels (R106). -/
theorem formatCh_of_ok {w : Word} (h : formatOk w = true) : formatCh w = 1 ∨ formatCh w = 2 := by
  simp only [formatOk, Bool.and_eq_true, Bool.or_eq_true, decide_eq_true_eq] at h
  exact h.1.2

theorem clipsOk_clipDefineStep {s : State} (c : Nat) (j : Job) (hm : s.MemOk) (hs : s.ClipsOk) :
    (clipDefineStep c j s).ClipsOk := by
  have failed : ∀ e op x, (s.raise e op x).ClipsOk := fun _ _ _ =>
    clipsOk_of_clips_eq hs rfl rfl hs.voices (by simp)
  unfold clipDefineStep
  dsimp only
  split
  · exact failed _ _ _
  · split
    · exact failed _ _ _
    · split
      · exact failed _ _ _
      · next hformat hfits =>
        have hch := formatCh_of_ok (by simpa using hformat)
        refine clipsOk_newClip (c := c) hs rfl rfl (Nat.le_add_right _ _) (Nat.le_of_not_lt hfits)
          (fun a ha => ?_) ⟨hch, Nat.le_refl _⟩ rfl rfl
        have ha : a < s.clips.alloc + lengthOperand j.arg0 * formatCh j.arg1 := ha
        refine written_of_writeBlock hm rfl ?_
        by_cases hb : a < s.clips.alloc
        · exact .inl (hs.written_below hb)
        · exact .inr ⟨by omega, by simpa using ha⟩

theorem clipsOk_clipFreeAllStep {s : State} (j : Job) (hs : s.ClipsOk) : (clipFreeAllStep j s).ClipsOk := by
  unfold clipFreeAllStep
  split
  · exact clipsOk_of_clips_eq hs rfl rfl hs.voices (by simp)
  · next hfree =>
    refine ⟨Nat.zero_le _, fun a ha => absurd ha (Nat.not_lt_zero a), fun d hd hv => ?_, fun x hx ho => ?_, nofun⟩
    · obtain ⟨_, -, rfl⟩ := List.mem_map.1 hd
      simp [ClipDesc.invalid] at hv
    · exact absurd (List.any_eq_true.2 ⟨x, hx, ho⟩) hfree

/-! ### The commands that leave it alone -/

/-- BYPASS_WRITE goes on with the region of a valid clip, or with the one it copied (R266). -/
theorem clipsOk_cur_bypassStep {s : State} {j j' : Job} (c : Nat) (hs : s.ClipsOk) (hj : s.cur = some j)
    (hj' : (bypassStep c j s).cur = some j') : j'.progress.clipsOk s := by
  have held : ∀ j', s.cur = some j' → j'.progress.clipsOk s := hs.cur
  have hfirst : (bypassFirst c j s).cur = some j' → j'.progress.clipsOk s := by
    unfold bypassFirst
    dsimp only
    split
    · simp
    · next hc =>
      split
      · simp
      · intro h
        obtain rfl : _ = j' := by simpa using h
        exact regionOk_descAt hs hc
  unfold bypassStep at hj'
  split at hj'
  · next d i hp =>
    have hd : (Progress.bypass d i).clipsOk s := hp ▸ held j hj
    unfold bypassLater at hj'
    dsimp only at hj'
    split at hj'
    · simp at hj'
    · split at hj'
      · exact held j' hj'
      · split at hj'
        · obtain rfl : _ = j' := by simpa using hj'
          exact hd
        · simp at hj'
  all_goals exact hfirst hj'

/-- What a command but LOAD_CLIP goes on with it holds of the store as it was. -/
theorem clipsOk_cur_body {s : State} {i : Instr} {j j' : Job} (hi : ∀ c, i ≠ .loadClip c) (hs : s.ClipsOk)
    (hj : s.cur = some j) (hj' : (bodyOf i j s).cur = some j') : j'.progress.clipsOk s := by
  rcases goesOn_body i hj with e | ⟨p, hp, e⟩ | ⟨e, -⟩ <;> rw [hj'] at e
  · obtain rfl : j' = j := by simpa using e
    exact hs.cur j' hj
  · obtain rfl : j' = { j with progress := p } := by simpa using e
    cases i with
    | bypassWrite c => exact clipsOk_cur_bypassStep c hs hj hj'
    | loadClip c => exact absurd rfl (hi c)
    | readFrame => obtain ⟨n, rfl⟩ := hp; trivial
    | mixerStop => obtain rfl : p = _ := hp; trivial
    | mixerSync => obtain rfl : p = _ := hp; trivial
    | _ => exact hp.elim
  · cases e

theorem clipsOk_body {s : State} {j : Job} (i : Instr) (hm : s.MemOk) (hs : s.ClipsOk) (hj : s.cur = some j) :
    (bodyOf i j s).ClipsOk := by
  have other : (∀ c, i ≠ .loadClip c) → (bodyOf i j s).clips = s.clips → (bodyOf i j s).ClipsOk :=
    fun hi hclips => clipsOk_of_clips_eq hs (sameSettings_body i j s).1 hclips
      (regionOkBelow_of_effect (voiceEffect_body i j s) hs) fun _ => clipsOk_cur_body hi hs hj
  cases i with
  | loadClip c => exact clipsOk_loadClipStep c hm hs hj
  | clipDefine c => exact clipsOk_clipDefineStep c j hm hs
  | clipFreeAll => exact clipsOk_clipFreeAllStep j hs
  | pauseVoice | resumeVoice | stopVoice | setVolume | setLoop =>
    exact other nofun (by rw [voiceCommand_only rfl j s])
  | _ => exact other nofun (by simp [bodyOf])

/-! ### The other turns -/

/-- The progress record with which the CMD write starts a command (R145, R215, R325). -/
def startProgress (alloc : Nat) : Instr → Progress
  | .readFrame => .reading 0
  | .loadClip _ => .loading ⟨alloc, 0, 0, 0, 0, 0⟩
  | _ => .initial

/-- A command that the CMD write leaves in progress has its operands latched and its first progress record. -/
theorem cur_start {s : State} {i : Instr} {j : Job} (h : (startOf i (s.latch i)).cur = some j) :
    j = ⟨i, s.arg0, s.arg1, startProgress s.clips.alloc i⟩ := by
  cases i with
  | readFrame => simpa [startOf, State.latch, startProgress] using h.symm
  | loadClip c =>
    simp only [startOf, loadClipStart] at h
    split at h
    · simp at h
    · split at h
      · simp at h
      · simpa [State.latch, startProgress] using h.symm
  | _ => simpa [startOf, noStart, State.latch, startProgress] using h.symm

/-- LOAD_CLIP starts with an empty region at the allocator pointer (R215). -/
theorem clipsOk_start {s : State} (i : Instr) (hs : s.ClipsOk) : (startOf i (s.latch i)).ClipsOk := by
  refine clipsOk_of_clips_eq hs (by simp) (by simp) (by simpa using hs.voices) fun j hj => ?_
  rw [cur_start hj]
  cases i with
  | loadClip c => exact clipsOk_load (p := .initial) hs trivial
  | _ => trivial

/-- The host writes cells of clip memory, and nothing else of the store but CLIP_SEL and CLIP_ADDR (R297). -/
theorem clipsOk_regWrite {s : State} (r : Reg) (v : Word) (hm : s.MemOk) (hs : s.ClipsOk) : (s.regWrite r v).ClipsOk := by
  have hw : ∀ a, s.written a → (s.regWrite r v).written a := by
    intro a ha
    cases r with
    | clipData =>
      show State.written (s.clipDataWrite _) a
      unfold State.clipDataWrite
      dsimp only
      repeat' split
      · exact ha
      · exact ha
      · exact written_of_writeBlock hm rfl (.inl ha)
    | inData => simpa [State.written, State.regWrite] using ha
    | inCtrl =>
      simp only [State.regWrite]
      split <;> exact ha
    | _ => exact ha
  have halloc : (s.regWrite r v).clips.alloc = s.clips.alloc := by
    cases r with
    | clipData =>
      show (s.clipDataWrite _).clips.alloc = _
      unfold State.clipDataWrite
      dsimp only
      repeat' split
      all_goals rfl
    | inData => simp [State.regWrite]
    | inCtrl =>
      simp only [State.regWrite]
      split <;> rfl
    | _ => rfl
  exact clipsOk_of_written hs (by simp) halloc (descs_regWrite r v s) hw (by simpa using hs.voices)
    fun j hj => Progress.clipsOk_mono (hs.cur j (by simpa using hj)) (by simp) halloc hw

theorem clipsOk_readEffect {s : State} (r : Reg) (hs : s.ClipsOk) : (s.readEffect r).ClipsOk := by
  unfold State.readEffect
  repeat' split
  all_goals exact hs

/-- Settles O57: turn by turn, with canonical memory for the cells written and the queue for the voices admitted. -/
theorem stepKeepsClipsOk : Obligations.StepKeepsClipsOk :=
  fun _ _ hm hq hs h => step_establishes
    (I := fun s => s.MemOk ∧ s.QueueOk ∧ s.ClipsOk) (K := State.ClipsOk)
    (env := fun _ _ h => h) (same := fun _ h => h.2.2)
    (answer := fun _ _ h => h) (record := fun _ _ _ _ h => h)
    (read := fun _ r h => clipsOk_readEffect r h.2.2)
    (reg := fun _ r v h => clipsOk_regWrite r v h.1 h.2.2)
    (start := fun _ _ i _ _ h => clipsOk_start i h.2.2)
    (body := fun _ j hj h => clipsOk_body j.instr h.1 h.2.2 hj)
    (mixer := fun _ _ h => clipsOk_tick h.2.1 h.2.2)
    (line := fun _ h => clipsOk_of_eq h.2.2 (by simp) (by simp) (by simp) (by simp)) ⟨hm, hq, hs⟩ h

end Sys2Proof.Machine

/-! PROOFS. The family 10_state.md: the command in progress, the synchroniser, and what stays through every step (R22, R23, R153, R154, R322, R330). -/

namespace Sys2Proof.Machine

/-! ### The command in progress (R23) -/

/-- A command of the opcode map with an IDX byte has an encoding. -/
theorem wf_of_instrOf {op : Byte} {idx : Nat} {loop : Bool} {i : Instr} (hidx : idx < 256)
    (h : instrOf op idx loop = some i) : i.wf = true := by
  unfold instrOf at h
  split at h <;> cases h <;> simp [Instr.wf, fitsIdx, hidx]

theorem wf_of_decode {w : Word} {i : Instr} (h : decode w = .ok i) : i.wf = true := by
  obtain ⟨-, -, -, -, hi⟩ := (decode_ok_iff w i).1 h
  exact wf_of_instrOf (idxField w).isLt hi

theorem jobOk_start {s : State} {w : Word} {i : Instr} (hd : decode w = .ok i) : (startOf i (s.latch i)).JobOk := by
  intro j hj
  rw [cur_start hj]
  refine ⟨wf_of_decode hd, ?_⟩
  cases i with
  | readFrame => exact ⟨0, rfl⟩
  | loadClip c => exact ⟨_, rfl⟩
  | mixerStop => exact .inl rfl
  | mixerSync => exact .inl rfl
  | bypassWrite c => exact .inl rfl
  | _ => rfl

/-- A command goes on with a progress record of its own. -/
theorem ok_of_goesOnWith {j : Job} {p : Progress} (h : goesOnWith p j.instr) : Job.ok { j with progress := p } := by
  obtain ⟨i, _, _, _⟩ := j
  cases i with
  | readFrame => exact h
  | loadClip c => exact h
  | mixerStop => exact .inr h
  | mixerSync => exact .inr h
  | bypassWrite c => exact .inr h
  | _ => exact h.elim

theorem jobOk_body {s : State} {j : Job} (hs : s.JobOk) (hj : s.cur = some j) : (bodyOf j.instr j s).JobOk := by
  intro j' hj'
  rcases goesOn_body j.instr hj with e | ⟨p, hp, e⟩ | ⟨e, -⟩ <;> rw [hj'] at e
  · obtain rfl : j' = j := by simpa using e
    exact hs j' hj
  · obtain rfl : j' = { j with progress := p } := by simpa using e
    exact ⟨(hs j hj).1, ok_of_goesOnWith hp⟩
  · cases e

theorem jobOk_of_eq {s t : State} (hs : s.JobOk) (h : t.cur = s.cur) : t.JobOk := fun j hj => hs j (h ▸ hj)

theorem jobOk_step {s t : State} (hs : s.JobOk) (h : step s = .next t) : t.JobOk :=
  step_keeps (I := State.JobOk) (env := fun _ _ h => h) (answer := fun _ _ h => h)
    (record := fun _ _ _ _ h => h)
    (read := fun _ r h => jobOk_of_eq h (by simp))
    (reg := fun _ r v h => jobOk_of_eq h (by simp))
    (start := fun _ _ i _ hd _ => jobOk_start hd)
    (body := fun _ j hj h => jobOk_body h hj)
    (mixer := fun _ _ h => jobOk_of_eq h (by simp))
    (line := fun _ h => jobOk_of_eq h (by simp)) hs h

/-! ### The synchroniser (R153, R154) -/

/-- What SyncOk says of the stream. -/
def Stream.syncOk (st : Stream) : Prop :=
  (st.mode = .initial → st.nframes = 0 ∧ st.word = 0#32) ∧
  (st.mode = .strict → 0 < st.nframes ∧ st.word &&& frozenMask = st.word ∧ hSync st.word = 0x7FF#11)

/-- The frozen word of an accepted header: its frozen fields, with all sync bits (R154). -/
theorem frozen_of_headerOk {h : Word} (hh : headerOk h = true) :
    (h &&& frozenMask) &&& frozenMask = h &&& frozenMask ∧ hSync (h &&& frozenMask) = 0x7FF#11 := by
  have hsync : hSync h = 0x7FF#11 := by
    simp only [headerOk, Bool.and_eq_true, decide_eq_true_eq] at hh
    tauto
  have hmask : hSync frozenMask = 0x7FF#11 := by decide
  refine ⟨by rw [BitVec.and_assoc, BitVec.and_self], ?_⟩
  unfold hSync at *
  rw [BitVec.extractLsb'_and, hsync, hmask]
  decide

theorem headerOk_of_syncMark {h word : Word} {mode : SyncMode} (hm : syncMark h mode word = true) :
    headerOk h = true := by
  cases mode with
  | initial => exact hm
  | strict => exact (Bool.and_eq_true_iff.1 hm).1
  | failed => cases hm

theorem syncOk_syncStep (op : Byte) (k : Nat) {s : State} (hs : s.stream.syncOk) (hh : (s.syncStep op k).1 ≠ .hold) :
    (s.syncStep op k).2.2.stream.syncOk := by
  have he := syncStep_effect op k s
  generalize s.syncStep op k = r at he hh
  cases he with
  | hold => exact absurd rfl hh
  | settle o kind _ => exact hs
  | giveUp _ => exact ⟨nofun, nofun⟩
  | skip _ => exact hs
  | frame h mode cand =>
    obtain ⟨-, hmark, -, -⟩ := of_candidate_accepted cand
    have hok := frozen_of_headerOk (headerOk_of_syncMark hmark)
    show ((s.setKind .mpeg).accept op h).stream.syncOk
    rw [(accept_stream op h _).1]
    show Stream.syncOk { s.stream with
      kind := .mpeg, input := _, pos := _
      mode := if s.stream.mode = .initial then .strict else s.stream.mode
      word := if s.stream.mode = .initial then h &&& frozenMask else s.stream.word
      nframes := s.stream.nframes + 1 }
    by_cases hi : s.stream.mode = .initial
    · simp only [hi, if_true]
      exact ⟨nofun, fun _ => ⟨Nat.succ_pos _, hok⟩⟩
    · simp only [hi, if_false]
      exact ⟨fun h => absurd h hi, fun h => ⟨Nat.succ_pos _, (hs.2 h).2⟩⟩

theorem syncOk_body {s : State} (hs : s.SyncOk) (i : Instr) (j : Job) : (bodyOf i j s).SyncOk := by
  show (bodyOf i j s).stream.syncOk
  by_cases hi : i = .resetStream
  · subst hi
    exact ⟨fun _ => ⟨rfl, rfl⟩, nofun⟩
  · rcases stream_body i j s hi with ⟨e, -, -⟩ | ⟨op, k, hh, e, -, -⟩ <;> rw [e]
    · exact hs
    · exact syncOk_syncStep op k hs hh

/-- A register write appends to the input or ends it, and leaves the rest of the stream alone (R293, R294). -/
theorem stream_regWrite (r : Reg) (v : Word) (s : State) :
    ∃ input eos, (s.regWrite r v).stream = { s.stream with input := input, eos := eos } := by
  cases r with
  | inData =>
    show ∃ _ _, (s.pushByte _).stream = _
    unfold State.pushByte
    repeat' split
    all_goals exact ⟨_, _, rfl⟩
  | inCtrl =>
    simp only [State.regWrite]
    split <;> exact ⟨_, _, rfl⟩
  | clipData => exact ⟨_, _, by simp [State.regWrite]; rfl⟩
  | _ => exact ⟨_, _, rfl⟩

theorem syncOk_of_eq {s t : State} (hs : s.SyncOk) (h : t.stream = s.stream) : t.SyncOk := by
  show t.stream.syncOk
  rw [h]
  exact hs

theorem syncOk_regWrite {s : State} (r : Reg) (v : Word) (hs : s.SyncOk) : (s.regWrite r v).SyncOk := by
  obtain ⟨input, eos, e⟩ := stream_regWrite r v s
  show (s.regWrite r v).stream.syncOk
  rw [e]
  exact hs

theorem syncOk_step {s t : State} (hs : s.SyncOk) (h : step s = .next t) : t.SyncOk :=
  step_keeps (I := State.SyncOk) (env := fun _ _ h => h) (answer := fun _ _ h => h)
    (record := fun _ _ _ _ h => h)
    (read := fun _ r h => syncOk_of_eq h (by simp))
    (reg := fun _ r v h => syncOk_regWrite r v h)
    (start := fun _ _ i _ _ h => syncOk_of_eq h (by simp))
    (body := fun _ j _ h => syncOk_body h j.instr j)
    (mixer := fun _ _ h => syncOk_of_eq h (by simp))
    (line := fun _ h => syncOk_of_eq h (by simp)) hs h

/-- Settles O56: the command by how it starts and goes on, the synchroniser by what one call of SyncStep does. -/
theorem stepKeepsJobAndSyncOk : Obligations.StepKeepsJobAndSyncOk := ⟨fun _ _ => jobOk_step, fun _ _ => syncOk_step⟩

/-! ### The stream moves forward (R22, R154, R157, R170) -/

/-- From `s` to `t` the stream moved forward: no cursor or count moved back, and what the mode froze is kept. -/
def State.Forward (s t : State) : Prop :=
  s.stream.pos ≤ t.stream.pos ∧ s.stream.nframes ≤ t.stream.nframes ∧
  (s.stream.mode = .strict → t.stream.mode ≠ .initial ∧ t.stream.word = s.stream.word) ∧
  (s.stream.mode = .failed → t.stream.mode = .failed) ∧
  (s.stream.mode ≠ .initial → t.vbr = s.vbr)

/-- The input and the stream's kind may change freely: the five claims are of the other fields. -/
theorem forward_of_eq {s t : State} {input : List Byte} {eos : Bool} {kind : StreamKind}
    (hst : t.stream = { s.stream with input := input, eos := eos, kind := kind }) (hv : t.vbr = s.vbr) : s.Forward t := by
  unfold State.Forward
  rw [hst]
  exact ⟨Nat.le_refl _, Nat.le_refl _, fun h => ⟨by simp [h], rfl⟩, id, fun _ => hv⟩

theorem forward_of_same {s t u : State} (h : s.Forward t) (hst : u.stream = t.stream) (hv : u.vbr = t.vbr) :
    s.Forward u := by
  unfold State.Forward
  rw [hst, hv]
  exact h

theorem forward_accept (op : Byte) (h : Word) {s : State} (hm : s.stream.mode ≠ .failed) : s.Forward (s.accept op h) := by
  unfold State.Forward
  rw [(accept_stream op h s).1]
  refine ⟨Nat.le_add_right _ _, Nat.le_succ _, fun hs => by simp [hs], fun hf => absurd hf hm, accept_vbr op h s⟩

theorem forward_syncStep (op : Byte) (k : Nat) {s : State} (hh : (s.syncStep op k).1 ≠ .hold) :
    s.Forward (s.syncStep op k).2.2 := by
  have he := syncStep_effect op k s
  generalize s.syncStep op k = r at he hh
  cases he with
  | hold => exact absurd rfl hh
  | settle o kind _ => exact forward_of_eq rfl rfl
  | giveUp mode =>
    exact ⟨Nat.le_refl _, Nat.le_refl _, fun _ => ⟨by simp, rfl⟩, fun _ => rfl, fun _ => rfl⟩
  | skip mode =>
    exact ⟨Nat.le_succ _, Nat.le_refl _, fun h => ⟨by simp [h], rfl⟩, id, fun _ => rfl⟩
  | frame h mode cand => exact forward_accept op h (s := s.setKind .mpeg) mode

theorem forward_body (i : Instr) (j : Job) (s : State) (hi : i ≠ .resetStream) : s.Forward (bodyOf i j s) := by
  rcases stream_body i j s hi with ⟨hst, hv, -⟩ | ⟨op, k, hh, hst, hv, -⟩
  · exact forward_of_eq (by rw [hst]) hv
  · exact forward_of_same (forward_syncStep op k hh) hst hv

/-- Settles O50: the turns that touch the stream are the host's input, which only grows it, and the sequencer's. -/
theorem streamMovesForward : Obligations.StreamMovesForward := fun s _ h hreset =>
  step_establishes (I := fun u => u.stream = s.stream ∧ u.vbr = s.vbr ∧ u.cur = s.cur) (K := fun u => s.Forward u)
    (env := fun _ _ h => h)
    (same := fun _ h => forward_of_eq h.1 h.2.1)
    (answer := fun _ _ h => h) (record := fun _ _ _ _ h => h)
    (read := fun _ r h => forward_of_eq (by simpa using h.1) (by simpa using h.2.1))
    (reg := fun u r v h => by
      obtain ⟨input, eos, e⟩ := stream_regWrite r v u
      exact forward_of_eq (e.trans (by rw [h.1])) (by simpa using h.2.1))
    (start := fun _ _ i _ _ h => forward_of_eq (by simpa using h.1) (by simpa using h.2.1))
    (body := fun u j hj h => by
      have hf := forward_body j.instr j u (hreset j (h.2.2 ▸ hj))
      unfold State.Forward at hf
      rwa [h.1, h.2.1] at hf)
    (mixer := fun _ _ h => forward_of_eq (by simpa using h.1) (by simpa using h.2.1))
    (line := fun _ h => forward_of_eq (by simpa using h.1) (by simpa using h.2.1)) ⟨rfl, rfl, rfl⟩ h

/-! ### Errors and events (R322, R330, R332) -/

/-- The CMD write, accepted or refused, keeps what is sticky. -/
theorem sticky_afterIssue (w : Word) (s : State) : s.Sticky (s.afterIssue w) := by
  unfold State.afterIssue
  split
  · exact sticky_record _ _ _ _
  · split
    · exact sticky_record _ _ _ _
    · exact sticky_start _ _

/-- The three host writes that acknowledge, with the offsets that reach them (R332). -/
inductive Acknowledges (a : BitVec 13) : Reg → Prop where
  | err (h : a = 0x018#13) : Acknowledges a .err
  | irqPend (h : a = 0x020#13) : Acknowledges a .irqPend
  | stoppedMask (k : Nat) (h1 : 0x400#13 ≤ a) (h2 : a ≤ 0x41C#13) : Acknowledges a (.stoppedMask k)

theorem acknowledges_or {s : State} {a : BitVec 13} {width : AccessWidth} {r : Reg} (h : s.accessed a width = some r) :
    Acknowledges a r ∨ (r ≠ .err ∧ r ≠ .irqPend ∧ ∀ k, r ≠ .stoppedMask k) := by
  obtain ⟨-, haligned, hreg⟩ := accessed_cases h
  cases r with
  | err => exact .inl (.err (BitVec.eq_of_toNat_eq (by simpa using regAt_err hreg)))
  | irqPend => exact .inl (.irqPend (BitVec.eq_of_toNat_eq (by simpa using regAt_irqPend hreg)))
  | stoppedMask k =>
    obtain ⟨h1, h2⟩ := regAt_stoppedMask hreg
    refine .inl (.stoppedMask k ?_ ?_) <;> simp only [BitVec.le_def, BitVec.toNat_ofNat] <;> omega
  | _ => exact .inr ⟨by simp, by simp, by simp⟩

/-- A step keeps what is sticky, or it is one of the three acknowledging writes. -/
theorem sticky_or_acknowledges {s t : State} (h : step s = .next t) :
    s.Sticky t ∨ ∃ a w v r, s.env.nextTurn = .host (.write a w v) ∧ Acknowledges a r ∧ t = s.taking.regWrite r v := by
  rw [step_next_iff] at h
  subst h
  rcases s.env.nextTurn with (⟨a, w⟩ | ⟨a, w, v⟩) | _ | _ | _
  · left
    show s.taking.Sticky (s.taking.hostRead a w)
    rcases hostRead_cases a w s.taking with ⟨-, e⟩ | ⟨r, -, e⟩ <;> rw [e]
    · exact (sticky_record _ _ _ _).trans (.of_eq rfl rfl rfl)
    · exact (sticky_readEffect r _).trans (.of_eq rfl rfl rfl)
  · show s.taking.Sticky (s.taking.afterWrite a w v) ∨ ∃ a' w' v' r, _ ∧ _ ∧ s.taking.afterWrite a w v = _
    unfold State.afterWrite
    split
    · exact .inl (sticky_record _ _ _ _)
    · next r hr =>
      split
      · exact .inl (sticky_afterIssue v _)
      · rcases acknowledges_or hr with ha | hne
        · exact .inr ⟨a, w, v, r, rfl, ha, rfl⟩
        · exact .inl (sticky_regWrite r v _ hne)
  · left
    show s.taking.Sticky s.taking.afterSequencer
    unfold State.afterSequencer
    split
    · exact .refl _
    · next j _ => exact sticky_body j.instr j _
  · left
    show s.taking.Sticky s.taking.mixerTurn
    unfold State.mixerTurn
    split
    · exact sticky_tick _
    · exact .refl _
  · left
    show s.taking.Sticky s.taking.lineTurn
    exact .of_eq (by simp) (by simp) (by simp)

/-- Settles O49: every step keeps what is sticky but the host's three acknowledging writes, each of which touches its own register. -/
theorem errorsAndEventsKept : Obligations.ErrorsAndEventsKept := by
  refine ⟨fun s t h hc hturn => ?_, fun s t h => ?_⟩
  · rcases sticky_or_acknowledges h with ⟨herr, -, -, -⟩ | ⟨a, w, v, r, hn, ha, rfl⟩
    · exact herr hc
    · cases ha with
      | err e => exact absurd hn (e ▸ hturn w v)
      | irqPend e => exact .inl rfl
      | stoppedMask k h1 h2 => exact .inl rfl
  · rcases sticky_or_acknowledges h with ⟨-, hirq, hmask, hnew⟩ | ⟨a, w, v, r, hn, ha, rfl⟩
    · exact ⟨fun _ => hirq, fun _ => hmask, hnew⟩
    · cases ha with
      | err e =>
        exact ⟨fun _ => BitVec.and_self, fun _ => BitVec.and_self, fun v h1 h2 => absurd (h1.symm.trans h2) (by simp)⟩
      | irqPend e =>
        exact ⟨fun hturn => absurd hn (e ▸ hturn w v), fun _ => BitVec.and_self,
          fun v h1 h2 => absurd (h1.symm.trans h2) (by simp)⟩
      | stoppedMask k h1 h2 =>
        refine ⟨fun _ => BitVec.and_self, fun hturn => absurd hn (hturn a w v h1 h2), fun n hn1 hn2 => ?_⟩
        have hcleared : (s.stopped &&& ~~~ (v.setWidth 256 <<< (32 * k))).getLsbD n = true := hn2
        rw [BitVec.getLsbD_and, hn1] at hcleared
        cases hcleared

/-! ### RESET_STREAM (R140) -/

/-- Settles O12: one sequencer step of RESET_STREAM, every element of R140 written out by `State.resetStream`. -/
theorem resetStreamResult : Obligations.ResetStreamResult := by
  intro s j hj
  rw [exec_of_busy .resetStream hj]
  rfl

end Sys2Proof.Machine

/-! PROOFS. The family 10_state.md: packed registers field by field, and the header registers (R40, R41, R44, R152 to R169). -/

namespace Sys2Proof.Machine

/-! ### Packed registers -/

/-- A field of a packed register, as a number. -/
theorem toNat_extract_ofNat {i n : Nat} (x : Nat) (h : i + n ≤ 32) :
    ((BitVec.ofNat 32 x).extractLsb' i n).toNat = x / 2 ^ i % 2 ^ n := by
  rw [BitVec.extractLsb'_toNat, BitVec.toNat_ofNat, Nat.shiftRight_eq_div_pow,
    show 2 ^ 32 = 2 ^ i * 2 ^ (32 - i) by rw [← Nat.pow_add]; congr 1; omega, Nat.mod_mul_right_div_self,
    Nat.mod_mod_of_dvd _ (Nat.pow_dvd_pow 2 (by omega))]

/-- A field of a packed register, by its value. -/
theorem extract_ofNat_eq {i n x : Nat} {y : BitVec n} (hi : i + n ≤ 32) (h : x / 2 ^ i % 2 ^ n = y.toNat) :
    (BitVec.ofNat 32 x).extractLsb' i n = y :=
  BitVec.eq_of_toNat_eq ((toNat_extract_ofNat x hi).trans h)

/-- A flag of a packed register. -/
theorem getLsbD_ofNat_eq {i x : Nat} {b : Bool} (hi : i < 32) (h : x / 2 ^ i % 2 = bit b) :
    (BitVec.ofNat 32 x).getLsbD i = b := by
  rw [BitVec.getLsbD_ofNat, Nat.testBit_eq_decide_div_mod_eq, h]
  cases b <;> simp [hi, bit]

theorem bit_le_one (b : Bool) : bit b ≤ 1 := by cases b <;> decide

theorem bit_getLsbD (h : Word) (i : Nat) : bit (h.getLsbD i) = (h.extractLsb' i 1).toNat := by
  rw [BitVec.extractLsb'_toNat, ← BitVec.testBit_toNat, Nat.testBit_eq_decide_div_mod_eq, Nat.shiftRight_eq_div_pow]
  unfold bit
  rcases Nat.mod_two_eq_zero_or_one (h.toNat / 2 ^ i) with e | e <;> simp [e]

/-! ### The fields of a header as numbers -/

/-- The codes of the fields of any header fit their places in HDR_FIELDS (R41). -/
structure FieldsFit (f : HeaderFields) : Prop where
  bitrateIndex : f.bitrateIndex < 16
  srateIndex : f.srateIndex < 4
  modeExt : f.modeExt < 4
  emphasis : f.emphasis < 4

theorem fits_fieldsOf (h : Word) : FieldsFit (fieldsOf h) :=
  ⟨(hBitrate h).isLt, (hSrate h).isLt, (h.extractLsb' 4 2).isLt, (h.extractLsb' 0 2).isLt⟩

theorem versionCode_le (v : MpegVersion) : versionCode v ≤ 2 := by cases v <;> decide

theorem layerNumber_le (l : Layer) : layerNumber l ≤ 3 := by cases l <;> decide

theorem modeCode_le (m : ChannelMode) : modeCode m ≤ 3 := by cases m <;> decide

theorem channelsOf_le (f : HeaderFields) : channelsOf f ≤ 2 := by
  rcases channelsOf_one_or_two f with h | h <;> omega

/-- HDR_FIELDS, field by field (R41). -/
structure PackedFields (f : HeaderFields) (w : Word) : Prop where
  version : (w.extractLsb' 0 2).toNat = versionCode f.version
  layer : (w.extractLsb' 2 2).toNat = layerNumber f.layer
  hasCrc : w.getLsbD 4 = f.hasCrc
  padded : w.getLsbD 5 = f.padded
  bitrateIndex : (w.extractLsb' 6 4).toNat = f.bitrateIndex
  srateIndex : (w.extractLsb' 10 2).toNat = f.srateIndex
  mode : (w.extractLsb' 12 2).toNat = modeCode f.mode
  modeExt : (w.extractLsb' 14 2).toNat = f.modeExt
  copyright : w.getLsbD 16 = f.copyright
  original : w.getLsbD 17 = f.original
  emphasis : (w.extractLsb' 18 2).toNat = f.emphasis
  priv : w.getLsbD 20 = f.priv
  channels : (w.extractLsb' 21 2).toNat = channelsOf f
  reserved : w.extractLsb' 23 9 = 0#9

theorem packedFields_packFields {f : HeaderFields} (hf : FieldsFit f) : PackedFields f (packFields f) := by
  obtain ⟨h1, h2, h3, h4⟩ := hf
  have := versionCode_le f.version
  have := layerNumber_le f.layer
  have := modeCode_le f.mode
  have := channelsOf_le f
  have := bit_le_one f.hasCrc
  have := bit_le_one f.padded
  have := bit_le_one f.copyright
  have := bit_le_one f.original
  have := bit_le_one f.priv
  unfold packFields
  constructor
  case hasCrc | padded | copyright | original | priv => exact getLsbD_ofNat_eq (by decide) (by omega)
  case reserved => exact extract_ofNat_eq (by decide) (by simp only [BitVec.toNat_ofNat]; omega)
  all_goals exact (toNat_extract_ofNat _ (by decide)).trans (by omega)

theorem samplesPerFrameOf_cases (f : HeaderFields) :
    samplesPerFrameOf f = 384 ∨ samplesPerFrameOf f = 576 ∨ samplesPerFrameOf f = 1152 := by
  unfold samplesPerFrameOf
  repeat' split
  all_goals simp

/-- HDR_SAMPLES_PER_FRAME holds its number (R44, R167). -/
theorem samplesPerFrame_toNat (h : Word) (p : Nat) (payload : List Byte) :
    (headerRegisters h p payload).samplesPerFrame.toNat = samplesPerFrameOf (fieldsOf h) := by
  show (BitVec.ofNat 32 (samplesPerFrameOf (fieldsOf h))).toNat = _
  rcases samplesPerFrameOf_cases (fieldsOf h) with e | e | e <;> rw [e] <;> rfl

/-- CHANNELS of the header registers (R41, R159). -/
theorem channels_headerRegisters (h : Word) (p : Nat) (payload : List Byte) :
    ((headerRegisters h p payload).fields.extractLsb' 21 2).toNat = channelsOf (fieldsOf h) :=
  (packedFields_packFields (fits_fieldsOf h)).channels

/-! ### The tables and sizes, with the fields as numbers -/

theorem getD_le {l : List Nat} {b : Nat} (h : ∀ x ∈ l, x ≤ b) (n : Nat) : l.getD n 0 ≤ b := by
  rw [List.getD_eq_getElem?_getD]
  cases e : l[n]? with
  | none => exact Nat.zero_le b
  | some x => exact h x (List.mem_of_getElem? e)

theorem bitrateOf_le (f : HeaderFields) : bitrateOf f ≤ 448000 := by
  have h : ∀ v l, ∀ x ∈ kbpsTable v l, x ≤ 448 := by
    intro v l
    cases v <;> cases l <;> decide
  exact Nat.mul_le_mul_left 1000 (getD_le (h f.version f.layer) _)

theorem sampleRateOf_le (f : HeaderFields) : sampleRateOf f ≤ 48000 := by
  have h : ∀ v, ∀ x ∈ srateTable v, x ≤ 48000 := by
    intro v
    cases v <;> decide
  exact getD_le (h f.version) _

/-- HDR_BITRATE's table by the version and layer numbers (R163). -/
theorem bitrateOf_eq (f : HeaderFields) :
    bitrateOf f = 1000 * ((if versionCode f.version = 0 then
        (if layerNumber f.layer = 1 then [32, 64, 96, 128, 160, 192, 224, 256, 288, 320, 352, 384, 416, 448]
         else if layerNumber f.layer = 2 then [32, 48, 56, 64, 80, 96, 112, 128, 160, 192, 224, 256, 320, 384]
         else [32, 40, 48, 56, 64, 80, 96, 112, 128, 160, 192, 224, 256, 320])
      else
        (if layerNumber f.layer = 1 then [32, 48, 56, 64, 80, 96, 112, 128, 144, 160, 176, 192, 224, 256]
         else [8, 16, 24, 32, 40, 48, 56, 64, 80, 96, 112, 128, 144, 160]) : List Nat).getD (f.bitrateIndex - 1) 0) := by
  unfold bitrateOf
  cases f.version <;> cases f.layer <;> rfl

/-- HDR_SAMPLE_RATE's table by the version number (R164). -/
theorem sampleRateOf_eq (f : HeaderFields) :
    sampleRateOf f = ((if versionCode f.version = 0 then [44100, 48000, 32000]
      else if versionCode f.version = 1 then [22050, 24000, 16000] else [11025, 12000, 8000] : List Nat).getD
        f.srateIndex 0) := by
  unfold sampleRateOf
  cases f.version <;> rfl

/-- FrameLen by the version and layer numbers (R160). -/
theorem frameLenOf_eq (f : HeaderFields) :
    frameLenOf f = (if layerNumber f.layer = 1 then (12 * bitrateOf f / sampleRateOf f + bit f.padded) * 4
      else if versionCode f.version = 0 then 144 * bitrateOf f / sampleRateOf f + bit f.padded
      else 144 * bitrateOf f / sampleRateOf f / 2 + bit f.padded) := by
  unfold frameLenOf bit
  cases f.layer <;> cases f.version <;> rfl

theorem frameLenOf_lt (f : HeaderFields) : frameLenOf f < 2 ^ 32 := by
  have hbr := bitrateOf_le f
  have hpad := bit_le_one f.padded
  have h12 := Nat.div_le_self (12 * bitrateOf f) (sampleRateOf f)
  have h144 := Nat.div_le_self (144 * bitrateOf f) (sampleRateOf f)
  rw [frameLenOf_eq]
  split
  · omega
  · split <;> omega

/-- SUBBANDS by the layer number, the mode code and the two indexes (R165). -/
theorem subbandsOf_eq (f : HeaderFields) :
    subbandsOf f = (if layerNumber f.layer = 1 then 32
      else if modeCode f.mode ≠ 3 ∧ f.bitrateIndex ∈ [4, 5, 6] ∨ modeCode f.mode = 3 ∧ f.bitrateIndex ∈ [1, 2] then
        (if f.srateIndex = 2 then 12 else 8)
      else if f.srateIndex = 1 ∨ modeCode f.mode ≠ 3 ∧ f.bitrateIndex ∈ [7, 8, 9] ∨
        modeCode f.mode = 3 ∧ f.bitrateIndex ∈ [3, 4, 5] then 27 else 30) := by
  have hlayer : f.layer = .I ↔ layerNumber f.layer = 1 := by cases f.layer <;> decide
  have hmono : f.mode = .mono ↔ modeCode f.mode = 3 := by cases f.mode <;> decide
  have low : (bitrateClass f = 1 ∨ bitrateClass f = 2) ↔
      (modeCode f.mode ≠ 3 ∧ f.bitrateIndex ∈ [4, 5, 6] ∨ modeCode f.mode = 3 ∧ f.bitrateIndex ∈ [1, 2]) := by
    unfold bitrateClass
    simp only [ne_eq, hmono, List.mem_cons, List.not_mem_nil, or_false]
    split_ifs <;> omega
  have middle : (3 ≤ bitrateClass f ∧ bitrateClass f ≤ 5) ↔
      (modeCode f.mode ≠ 3 ∧ f.bitrateIndex ∈ [7, 8, 9] ∨ modeCode f.mode = 3 ∧ f.bitrateIndex ∈ [3, 4, 5]) := by
    unfold bitrateClass
    simp only [ne_eq, hmono, List.mem_cons, List.not_mem_nil, or_false]
    split_ifs <;> omega
  unfold subbandsOf
  simp only [hlayer, low, middle]

theorem subbandsOf_le (f : HeaderFields) : subbandsOf f ≤ 32 := by
  rw [subbandsOf_eq]
  split_ifs <;> decide

/-- IS_BOUND by the mode code (R166). -/
theorem isBoundOf_eq (f : HeaderFields) :
    isBoundOf f = (if modeCode f.mode = 1 then min (subbandsOf f) (4 * f.modeExt + 4) else 0) := by
  unfold isBoundOf
  cases f.mode <;> rfl

theorem isBoundOf_le (f : HeaderFields) : isBoundOf f ≤ 32 := by
  have := subbandsOf_le f
  rw [isBoundOf_eq]
  split <;> omega

/-- slotCount by the version and layer numbers (R162). -/
theorem slotCountOf_eq (f : HeaderFields) :
    slotCountOf f = (if layerNumber f.layer = 3 then
      frameLenOf f - (if versionCode f.version = 0 then (if channelsOf f = 1 then 17 else 32)
        else (if channelsOf f = 1 then 9 else 17)) - (if f.hasCrc = true then 2 else 0) - 4
      else 0) := by
  have hside : sideInfoSize f = (if versionCode f.version = 0 then (if channelsOf f = 1 then 17 else 32)
      else (if channelsOf f = 1 then 9 else 17)) := by
    unfold sideInfoSize
    rcases channelsOf_one_or_two f with hc | hc <;> rw [hc] <;> cases f.version <;> rfl
  unfold slotCountOf crcSize
  rw [hside]
  cases f.layer <;> rfl

/-- HDR_SAMPLES_PER_FRAME by the version and layer numbers (R167). -/
theorem samplesPerFrameOf_eq (f : HeaderFields) :
    samplesPerFrameOf f = (if layerNumber f.layer = 1 then 384
      else if layerNumber f.layer = 2 ∨ versionCode f.version = 0 then 1152 else 576) := by
  unfold samplesPerFrameOf
  cases f.layer <;> cases f.version <;> rfl

/-! ### The codes of a legal header -/

theorem headerOk_iff (h : Word) :
    headerOk h = true ↔
      h.extractLsb' 21 11 = 0x7FF#11 ∧ h.extractLsb' 19 2 ≠ 1#2 ∧ h.extractLsb' 17 2 ≠ 0#2 ∧
      h.extractLsb' 12 4 ≠ 0#4 ∧ h.extractLsb' 12 4 ≠ 15#4 ∧ h.extractLsb' 10 2 ≠ 3#2 := by
  simp only [headerOk, Bool.and_eq_true, decide_eq_true_eq, and_assoc]
  rfl

theorem versionCode_versionOf (c : BitVec 2) :
    versionCode (versionOf c) = (if c = 3#2 then 0 else if c = 2#2 then 1 else 2) := by
  decide +revert

/-- The layer code counts down from Layer I; the reserved code is no layer (R112). -/
theorem layerNumber_layerOf {c : BitVec 2} (hc : c ≠ 0#2) : layerNumber (layerOf c) = 4 - c.toNat := by
  decide +revert

theorem modeCode_modeOf (c : BitVec 2) : modeCode (modeOf c) = c.toNat := by
  decide +revert

theorem channelsOf_eq (f : HeaderFields) : channelsOf f = (if modeCode f.mode = 3 then 1 else 2) := by
  unfold channelsOf
  cases f.mode <;> rfl

/-- HDR_SUBBANDS packs SUBBANDS and IS_BOUND (R44). -/
theorem subbands_headerRegisters (h : Word) (p : Nat) (payload : List Byte) :
    let w := (headerRegisters h p payload).subbands
    (w.extractLsb' 0 6).toNat = subbandsOf (fieldsOf h) ∧ (w.extractLsb' 8 6).toNat = isBoundOf (fieldsOf h) ∧
      w.extractLsb' 6 2 = 0#2 ∧ w.extractLsb' 14 18 = 0#18 := by
  have := subbandsOf_le (fieldsOf h)
  have := isBoundOf_le (fieldsOf h)
  intro w
  exact ⟨(toNat_extract_ofNat _ (by decide)).trans (by omega), (toNat_extract_ofNat _ (by decide)).trans (by omega),
    extract_ofNat_eq (by decide) (by simp only [BitVec.toNat_ofNat]; omega),
    extract_ofNat_eq (by decide) (by simp only [BitVec.toNat_ofNat]; omega)⟩

/-- A number below 2^32 is what its register shows. -/
theorem toNat_ofNat_of_lt {x : Nat} (h : x < 2 ^ 32) : (BitVec.ofNat 32 x).toNat = x := Nat.mod_eq_of_lt h

/-- The stored checksum: the first two payload bytes where the protection bit announces one (R168). -/
theorem storedCrc_eq (f : HeaderFields) (payload : List Byte) :
    storedCrc f payload = (if f.hasCrc = true then payload.getD 0 0 ++ payload.getD 1 0 else 0#16) := rfl

/-- Settles O18: the fields of the header as numbers, then each register by its table and its place.
(`headerRegisters` itself is the model's function.) -/
theorem headerRegisters_shown : Obligations.HeaderRegisters := by
  refine ⟨headerOk_iff, fun h word => ⟨rfl, rfl, ?_⟩, ?_⟩
  · simp only [syncMark, Bool.and_eq_true, decide_eq_true_eq]
    rfl
  intro h p payload version layer index srate mode ext ch br sr len sub bound hok hversion hlayer hindex hsrate hmode
    hext hch hbr hsr hlen hsub hbound
  obtain ⟨-, -, hlayer0, -⟩ := (headerOk_iff h).1 hok
  have eversion : versionCode (fieldsOf h).version = version := (versionCode_versionOf _).trans hversion.symm
  have elayer : layerNumber (fieldsOf h).layer = layer := (layerNumber_layerOf hlayer0).trans hlayer.symm
  have emode : modeCode (fieldsOf h).mode = mode := (modeCode_modeOf _).trans hmode.symm
  have eindex : (fieldsOf h).bitrateIndex = index := hindex.symm
  have esrate : (fieldsOf h).srateIndex = srate := hsrate.symm
  have eext : (fieldsOf h).modeExt = ext := hext.symm
  have epad : bit (fieldsOf h).padded = (h.extractLsb' 9 1).toNat := bit_getLsbD h 9
  have ecrc : (fieldsOf h).hasCrc = !h.getLsbD 16 := rfl
  have ech : channelsOf (fieldsOf h) = ch := by rw [channelsOf_eq, emode, hch]
  have ebr : bitrateOf (fieldsOf h) = br := by rw [bitrateOf_eq, eversion, elayer, eindex, hbr]
  have esr : sampleRateOf (fieldsOf h) = sr := by rw [sampleRateOf_eq, eversion, esrate, hsr]
  have elen : frameLenOf (fieldsOf h) = len := by rw [frameLenOf_eq, elayer, eversion, ebr, esr, epad, hlen]
  have esub : subbandsOf (fieldsOf h) = sub := by rw [subbandsOf_eq, elayer, emode, eindex, esrate, hsub]
  have ebound : isBoundOf (fieldsOf h) = bound := by rw [isBoundOf_eq, emode, esub, eext, hbound]
  have hlt : len < 2 ^ 32 := elen ▸ frameLenOf_lt (fieldsOf h)
  have hpack := packedFields_packFields (fits_fieldsOf h)
  obtain ⟨hsubbands, hbounds, hgap, htop⟩ := subbands_headerRegisters h p payload
  intro r
  refine ⟨elen, rfl, hpack.version.trans eversion, hpack.layer.trans elayer, hpack.hasCrc, hpack.padded,
    hpack.bitrateIndex.trans eindex, hpack.srateIndex.trans esrate, hpack.mode.trans emode, hpack.modeExt.trans eext,
    hpack.copyright, hpack.original, BitVec.eq_of_toNat_eq hpack.emphasis, hpack.priv, hpack.channels.trans ech,
    hpack.reserved, ?bitrate, ?sampleRate, ?frameLen, ?frameSize, ?slotCount, hsubbands.trans esub,
    hbounds.trans ebound, hgap, htop, rfl, ?samples, ?crc, rfl⟩
  case bitrate =>
    have := bitrateOf_le (fieldsOf h)
    exact (toNat_ofNat_of_lt (by omega)).trans ebr
  case sampleRate =>
    have := sampleRateOf_le (fieldsOf h)
    exact (toNat_ofNat_of_lt (by omega)).trans esr
  case frameLen => exact (toNat_ofNat_of_lt (elen ▸ hlt)).trans elen
  case frameSize => exact (toNat_ofNat_of_lt (by rw [elen]; omega)).trans (by rw [elen])
  case slotCount =>
    have hslots := slotCountOf_eq (fieldsOf h)
    rw [elayer, eversion, elen, ech, ecrc] at hslots
    refine (toNat_ofNat_of_lt ?_).trans (hslots.trans ?_)
    · rw [hslots]
      split_ifs <;> omega
    · cases h.getLsbD 16 <;> rfl
  case samples =>
    rw [← elayer, ← eversion, ← samplesPerFrameOf_eq]
    exact samplesPerFrame_toNat h p payload
  case crc =>
    refine (storedCrc_eq (fieldsOf h) payload).trans ?_
    rw [ecrc]
    cases h.getLsbD 16 <;> rfl

end Sys2Proof.Machine

/-! PROOFS. The family 10_state.md: the bounds of the sink, the decoder and the buffers (R26, R27, R29, R71, R73). -/

namespace Sys2Proof.Machine

/-! ### SinkOk -/

/-- SinkOk rests on the sink's samples and channels, the decoder, two header registers and whether a frame was accepted. -/
theorem sinkOk_of_eq {s t : State} (hs : s.SinkOk) (hsamples : t.sink.samples = s.sink.samples)
    (hch : t.sink.ch = s.sink.ch) (hdec : t.dec = s.dec) (hhdr : t.hdr = s.hdr)
    (hn : t.stream.nframes = s.stream.nframes) : t.SinkOk := by
  unfold State.SinkOk State.hdrChannels at *
  rwa [hsamples, hch, hdec, hhdr, hn]

/-- The header registers of an accepted frame keep SinkOk (R156, R167). -/
theorem sinkOk_accept {s : State} (op : Byte) (h : Word) (hs : s.SinkOk) : (s.accept op h).SinkOk := by
  obtain ⟨hsamples, hch, hres, -, -, hdec, -⟩ := hs
  have hhdr := (accept_stream op h s).2.2
  have hspf : (s.accept op h).hdr.samplesPerFrame.toNat = samplesPerFrameOf (fieldsOf h) := by
    rw [hhdr, samplesPerFrame_toNat]
  have hchannels : (s.accept op h).hdrChannels = channelsOf (fieldsOf h) := by
    unfold State.hdrChannels
    rw [hhdr, channels_headerRegisters]
  unfold State.SinkOk
  rw [hspf, hchannels]
  simp only [accept_sink, accept_dec]
  refine ⟨hsamples, hch, hres, ?_, ?_, hdec, fun _ => channelsOf_one_or_two _⟩ <;>
    rcases samplesPerFrameOf_cases (fieldsOf h) with e | e | e <;> rw [e] <;> decide

theorem sinkOk_syncStep {s : State} (op : Byte) (k : Nat) (hs : s.SinkOk) (hh : (s.syncStep op k).1 ≠ .hold) :
    (s.syncStep op k).2.2.SinkOk := by
  have he := syncStep_effect op k s
  generalize s.syncStep op k = r at he hh
  cases he with
  | hold => exact absurd rfl hh
  | frame h mode cand => exact sinkOk_accept op h (s := s.setKind .mpeg) hs
  | _ => exact hs

/-- A decoded or skipped frame leaves at most HDR_SAMPLES_PER_FRAME samples for each channel (R207). -/
theorem sinkOk_decodeCurrent {s : State} (op : Byte) (f : Frame) (hs : s.SinkOk) : (s.decodeCurrent op f).1.SinkOk := by
  obtain ⟨-, -, hres, hspf, hmod, hdec, hchannels⟩ := hs
  obtain ⟨hinit, hok, hsinkch, -, hres', hlen⟩ := decodeCurrent_dec op f hdec
  obtain ⟨c, hhdr⟩ := hdr_decodeCurrent op f s
  have hdch := (hok hinit).1
  unfold State.SinkOk State.hdrChannels
  rw [hsinkch, hhdr, (sameStream_decodeCurrent op f s).1]
  refine ⟨hlen.trans ?_, by omega, hres' hres, hspf, hmod, hok, hchannels⟩
  calc s.hdr.samplesPerFrame.toNat * (s.decodeCurrent op f).1.dec.dch
      ≤ 1152 * 2 := Nat.mul_le_mul hspf (by omega)
    _ = 2304 := rfl

theorem sinkOk_readFrameStep {s : State} (j : Job) (hs : s.SinkOk) : (readFrameStep j s).SinkOk := by
  have h := sinkOk_syncStep Instr.readFrame.opcode j.progress.skipped hs
  unfold readFrameStep
  dsimp only
  split <;> rename_i hq <;> rw [hq] at h
  · exact hs
  all_goals exact h (by simp)

theorem sinkOk_ringAppend {s : State} (hs : s.SinkOk) : s.ringAppend.SinkOk := by
  unfold State.ringAppend
  split <;> exact hs

theorem sinkOk_decodeFrameStep {s : State} (j : Job) (hs : s.SinkOk) : (decodeFrameStep j s).SinkOk := by
  unfold decodeFrameStep
  dsimp only
  split
  · exact hs
  · next f _ =>
    have h := sinkOk_decodeCurrent Instr.decodeFrame.opcode f hs
    split
    · exact hs
    · split
      · exact hs
      · split
        · exact sinkOk_ringAppend h
        · exact h

theorem sinkOk_loadClipStep {s : State} (c : Nat) (j : Job) (hs : s.SinkOk) : (loadClipStep c j s).SinkOk := by
  have h := sinkOk_syncStep (Instr.loadClip c).opcode (j.progress.load s.clips.alloc).skipped hs
  unfold loadClipStep
  dsimp only
  split <;> rename_i hq <;> rw [hq] at h
  · exact hs
  all_goals have h := h (by simp)
  · exact h
  · exact h
  · exact h
  · unfold loadClipEnd
    dsimp only
    split <;> exact h
  · unfold loadClipFrame
    split
    · exact h
    · next f _ =>
      have hd := sinkOk_decodeCurrent (Instr.loadClip c).opcode f h
      dsimp only
      repeat' split
      all_goals exact hd

/-- RESET_STREAM leaves an empty sink, an uninitialised decoder and no accepted frame (R140). -/
theorem sinkOk_resetStream (s : State) : s.resetStream.SinkOk :=
  ⟨Nat.zero_le _, Nat.zero_le _, Nat.zero_le _, Nat.zero_le _, rfl, nofun, fun h => absurd rfl h⟩

theorem sinkOk_body {s : State} (i : Instr) (j : Job) (hs : s.SinkOk) : (bodyOf i j s).SinkOk := by
  cases i with
  | resetStream => exact sinkOk_resetStream s
  | readFrame => exact sinkOk_readFrameStep j hs
  | decodeFrame => exact sinkOk_decodeFrameStep j hs
  | loadClip c => exact sinkOk_loadClipStep c j hs
  | pauseVoice | resumeVoice | stopVoice | setVolume | setLoop =>
    rw [voiceCommand_only rfl j s]
    exact hs
  | _ =>
    exact sinkOk_of_eq hs (by simp [bodyOf]) (by simp [bodyOf]) (by simp [bodyOf]) (by simp [bodyOf]) (by simp [bodyOf])

/-- The host moves PCM_ADDR, and appends to the input: the sink's samples and the accepted frames stay. -/
theorem sinkOk_regWrite {s : State} (r : Reg) (v : Word) (hs : s.SinkOk) : (s.regWrite r v).SinkOk := by
  obtain ⟨input, eos, e⟩ := stream_regWrite r v s
  cases r with
  | pcmAddr => exact hs
  | inCtrl =>
    simp only [State.regWrite]
    split <;> exact hs
  | _ => exact sinkOk_of_eq hs (by simp [State.regWrite]) (by simp [State.regWrite]) (by simp) (by simp) (by rw [e])

theorem sinkOk_readEffect {s : State} (r : Reg) (hs : s.SinkOk) : (s.readEffect r).SinkOk := by
  unfold State.readEffect
  repeat' split
  all_goals exact hs

theorem sinkOk_step {s t : State} (hs : s.SinkOk) (h : step s = .next t) : t.SinkOk :=
  step_keeps (I := State.SinkOk) (env := fun _ _ h => h) (answer := fun _ _ h => h)
    (record := fun _ _ _ _ h => h)
    (read := fun _ r h => sinkOk_readEffect r h)
    (reg := fun _ r v h => sinkOk_regWrite r v h)
    (start := fun _ _ i _ _ h => sinkOk_of_eq h (by simp) (by simp) (by simp) (by simp) (by simp))
    (body := fun _ j _ h => sinkOk_body j.instr j h)
    (mixer := fun _ _ h => sinkOk_of_eq h (by simp) (by simp) (by simp) (by simp) (by simp))
    (line := fun _ h => sinkOk_of_eq h (by simp) (by simp) (by simp) (by simp) (by simp)) hs h

/-! ### The input (R71) -/

/-- A sequencer step takes bytes from the input and adds none. -/
theorem length_input_syncStep (op : Byte) (k : Nat) {s : State} (hh : (s.syncStep op k).1 ≠ .hold) :
    (s.syncStep op k).2.2.stream.input.length ≤ s.stream.input.length := by
  have he := syncStep_effect op k s
  generalize s.syncStep op k = r at he hh
  cases he with
  | hold => exact absurd rfl hh
  | settle => exact Nat.le_refl _
  | giveUp => exact Nat.le_refl _
  | skip => simp
  | frame h =>
    show ((s.setKind .mpeg).accept op h).stream.input.length ≤ _
    rw [(accept_stream op h _).1]
    simp [State.setKind]

theorem length_input_body (i : Instr) (j : Job) (s : State) :
    (bodyOf i j s).stream.input.length ≤ s.stream.input.length := by
  by_cases hi : i = .resetStream
  · subst hi
    exact Nat.zero_le _
  · rcases stream_body i j s hi with ⟨e, -, -⟩ | ⟨op, k, hh, e, -, -⟩ <;> rw [e]
    exact length_input_syncStep op k hh

/-- The host pushes a byte only into an input that is not full (R293). -/
theorem length_input_regWrite {s : State} (r : Reg) (v : Word) (hs : s.stream.input.length ≤ s.cfg.inCap) :
    (s.regWrite r v).stream.input.length ≤ s.cfg.inCap := by
  cases r with
  | inData =>
    show (s.pushByte _).stream.input.length ≤ _
    unfold State.pushByte
    split
    · exact hs
    · split
      · exact hs
      · simp only [List.length_append, List.length_singleton]
        omega
  | inCtrl =>
    simp only [State.regWrite]
    split <;> exact hs
  | clipData => simpa [State.regWrite] using hs
  | _ => exact hs

/-! ### The ring (R27, R210) -/

/-- READ_FRAME closes a bound ring at the end of the stream and keeps its frames (R272). -/
theorem buf_readFrameStep (j : Job) (s : State) : (readFrameStep j s).ring.buf = s.ring.buf := by
  unfold readFrameStep
  dsimp only
  split <;> rename_i hq
  · rfl
  all_goals
    have e := congrArg (fun x => x.2.2) hq
    dsimp only at e
    subst e
    simp [apply_ite Ring.buf]

/-- A decoded frame leaves HDR_SAMPLES_PER_FRAME samples for each of one or two channels (R193, R207). -/
theorem sink_decoded {op : Byte} {f : Frame} {s : State} (hs : s.SinkOk) (hd : (s.decodeCurrent op f).2 = true) :
    ((s.decodeCurrent op f).1.sink.ch = 1 ∨ (s.decodeCurrent op f).1.sink.ch = 2) ∧
      (s.decodeCurrent op f).1.sink.samples.length =
        s.hdr.samplesPerFrame.toNat * (s.decodeCurrent op f).1.sink.ch := by
  obtain ⟨-, -, -, -, hmod, hdec, -⟩ := hs
  have hok := initDecoder_ok f s.hdr.sampleRate.toNat hdec
  obtain ⟨hdch, hdelay⟩ := hok (initDecoder_init f s.hdr.sampleRate.toNat s.dec)
  rcases decodeCurrent_cases op f s with ⟨-, ys, l3, delay, e, -, hlen⟩ | e
  · rw [e]
    exact ⟨hdch, by rw [hlen, hdelay, Nat.div_mul_cancel (Nat.dvd_of_mod_eq_zero hmod)]⟩
  · rw [e] at hd
    cases hd

/-- DECODE_FRAME appends to the ring only where a whole frame has room (R190, R210). -/
theorem length_buf_decodeFrameStep {s : State} (j : Job) (hk : s.SinkOk) (hs : s.ring.buf.length ≤ s.cfg.ringCap) :
    (decodeFrameStep j s).ring.buf.length ≤ s.cfg.ringCap := by
  unfold decodeFrameStep
  dsimp only
  split
  · exact hs
  · next f _ =>
    split
    · exact hs
    · split
      · exact hs
      · next hroom =>
        split
        · next hd =>
          obtain ⟨hch, hsamples⟩ := sink_decoded hk hd
          have hlen := length_sinkFrames hch hsamples
          show (State.ringAppend _).ring.buf.length ≤ _
          unfold State.ringAppend
          split
          · next hopen =>
            have hspf : s.hdr.samplesPerFrame.toNat ≤ s.cfg.ringCap - s.ring.buf.length := by
              rw [decodeCurrent_ring] at hopen
              simpa [State.ringFull, hopen] using hroom
            simp only [List.length_append, length_ringFrames, decodeCurrent_ring]
            omega
          · rw [decodeCurrent_ring]
            exact hs
        · show (s.decodeCurrent Instr.decodeFrame.opcode f).1.ring.buf.length ≤ _
          rw [decodeCurrent_ring]
          exact hs

theorem length_buf_poison (s : State) : s.poison.ring.buf.length ≤ s.ring.buf.length := by
  show (s.removeVoices _).ring.buf.length ≤ _
  rw [ring_removeVoices]
  split
  · exact Nat.zero_le _
  · exact Nat.le_refl _

theorem length_buf_body {s : State} (i : Instr) (j : Job) (hk : s.SinkOk) (hs : s.ring.buf.length ≤ s.cfg.ringCap) :
    (bodyOf i j s).ring.buf.length ≤ s.cfg.ringCap := by
  have same : (bodyOf i j s).ring = s.ring → (bodyOf i j s).ring.buf.length ≤ s.cfg.ringCap := fun e => e ▸ hs
  cases i with
  | resetStream =>
    show (if s.ring.bound then { s.ring with closed := true, buf := [] } else s.ring).buf.length ≤ _
    split
    · exact Nat.zero_le _
    · exact hs
  | readFrame =>
    show (readFrameStep j s).ring.buf.length ≤ _
    rw [buf_readFrameStep]
    exact hs
  | decodeFrame => exact length_buf_decodeFrameStep j hk hs
  | playStream =>
    show (playStreamStep j s).ring.buf.length ≤ _
    unfold playStreamStep
    dsimp only
    repeat' split
    · exact hs
    · exact hs
    · exact hs
    · exact hs
    · exact Nat.zero_le _
  | mixerStop =>
    show (mixerStopStep j s).ring.buf.length ≤ _
    have hp := (length_buf_poison s).trans hs
    unfold mixerStopStep
    split
    · split <;> exact hs
    · split <;> exact hp
  | pauseVoice | resumeVoice | stopVoice | setVolume | setLoop =>
    exact same (by rw [voiceCommand_only rfl j s])
  | _ => exact same (by simp [bodyOf])

/-- A tick takes frames from the ring and adds none (R271). -/
theorem length_buf_tick (s : State) : s.tick.ring.buf.length ≤ s.ring.buf.length := by
  refine tick_keeps (I := fun t => t.ring.buf.length ≤ s.ring.buf.length) (by simp) (fun t v ht _ => ?_)
    (fun t v ht _ => ?_) (fun _ _ ht _ _ _ => by simpa using ht) (fun _ _ _ _ ht => ht) (fun _ ht => ht)
  · rw [State.removeVoice_ring]
    split
    · exact Nat.zero_le _
    · exact ht
  · obtain ⟨p, st, k, e, -⟩ := readVoice_cases v t
    rw [e]
    simp only [List.length_drop]
    omega

/-! ### The line (R29, R262) -/

/-- A line write appends its frames or, failing, nothing. -/
theorem length_line_lineWrite (fs : List StereoFrame) (s : State) :
    (s.lineWrite fs).line.buf.length ≤ s.line.buf.length + fs.length := by
  unfold State.lineWrite
  dsimp only
  split <;> simp

/-- BYPASS_WRITE writes a chunk only where it has room (R266). -/
theorem length_line_bypassStep {s : State} (c : Nat) (j : Job) (hs : s.line.buf.length ≤ s.cfg.lineCap) :
    (bypassStep c j s).line.buf.length ≤ s.cfg.lineCap := by
  have hfirst : (bypassFirst c j s).line.buf.length ≤ s.cfg.lineCap := by simpa using hs
  unfold bypassStep
  split
  · next d i _ =>
    have hwrite := length_line_lineWrite (bypassChunk s.clips.mem d i (min s.cfg.mixBlock (d.len - i))) s
    have hchunk : (bypassChunk s.clips.mem d i (min s.cfg.mixBlock (d.len - i))).length =
        min s.cfg.mixBlock (d.len - i) := by simp [bypassChunk]
    unfold bypassLater
    dsimp only
    split
    · exact hs
    · split
      · exact hs
      · next hroom =>
        unfold State.lineRoom at hroom
        rw [hchunk] at hwrite
        split <;> exact hwrite.trans (by omega)
  all_goals exact hfirst

theorem length_line_body {s : State} (i : Instr) (j : Job) (hs : s.line.buf.length ≤ s.cfg.lineCap) :
    (bodyOf i j s).line.buf.length ≤ s.cfg.lineCap := by
  have same : (bodyOf i j s).line = s.line → (bodyOf i j s).line.buf.length ≤ s.cfg.lineCap := fun e => e ▸ hs
  cases i with
  | mixerStart =>
    show (mixerStartStep j s).line.buf.length ≤ _
    unfold mixerStartStep
    repeat' split
    · exact hs
    · exact hs
    · exact Nat.zero_le _
  | mixerStop =>
    show (mixerStopStep j s).line.buf.length ≤ _
    have hp : s.poison.line.buf.length ≤ s.cfg.lineCap := by simpa using hs
    unfold mixerStopStep
    split
    · split
      · exact Nat.zero_le _
      · exact hs
    · split <;> exact hp
  | bypassWrite c => exact length_line_bypassStep c j hs
  | pauseVoice | resumeVoice | stopVoice | setVolume | setLoop =>
    exact same (by rw [voiceCommand_only rfl j s])
  | _ => exact same (by simp [bodyOf])

/-- An enabled tick finds room for its block (R257, R262). -/
theorem length_line_tick {s : State} (hs : s.line.buf.length ≤ s.cfg.lineCap) (ht : s.tickEnabled = true) :
    s.tick.line.buf.length ≤ s.cfg.lineCap := by
  have hroom : s.line.buf.length + s.cfg.mixBlock ≤ s.cfg.lineCap := by
    simp only [State.tickEnabled, Bool.and_eq_true, decide_eq_true_eq] at ht
    obtain ⟨⟨-, hblock⟩, -⟩ := ht
    unfold State.lineRoom at hblock
    omega
  refine tick_keeps (I := fun t => t.line.buf.length ≤ s.cfg.lineCap) (by simpa using hs) (fun _ _ ht _ => ht)
    (fun _ _ ht _ => by simpa using ht) (fun fs t _ _ hline hlen => ?_) (fun _ _ _ _ ht => ht) (fun _ ht => ht)
  have hwrite := length_line_lineWrite fs t
  rw [hline, hlen] at hwrite
  exact hwrite.trans hroom

theorem length_line_lineTurn (s : State) : s.lineTurn.line.buf.length ≤ s.line.buf.length := by
  unfold State.lineTurn
  split
  · split
    · exact Nat.le_refl _
    · next e => simp [e]
  · exact Nat.le_refl _

/-! ### The three buffers -/

theorem buffersOk_of_eq {s t : State} (hs : s.BuffersOk) (hcfg : t.cfg = s.cfg) (hstream : t.stream = s.stream)
    (hring : t.ring = s.ring) (hline : t.line = s.line) : t.BuffersOk := by
  unfold State.BuffersOk at *
  rwa [hcfg, hstream, hring, hline]

theorem buffersOk_regWrite {s : State} (r : Reg) (v : Word) (hs : s.BuffersOk) : (s.regWrite r v).BuffersOk := by
  obtain ⟨hinput, hring, hline⟩ := hs
  unfold State.BuffersOk
  rw [regWrite_cfg, regWrite_ring, regWrite_line]
  exact ⟨length_input_regWrite r v hinput, hring, hline⟩

theorem buffersOk_body {s : State} (i : Instr) (j : Job) (hk : s.SinkOk) (hs : s.BuffersOk) :
    (bodyOf i j s).BuffersOk := by
  obtain ⟨hinput, hring, hline⟩ := hs
  unfold State.BuffersOk
  rw [(sameSettings_body i j s).1]
  exact ⟨(length_input_body i j s).trans hinput, length_buf_body i j hk hring, length_line_body i j hline⟩

theorem buffersOk_tick {s : State} (ht : s.tickEnabled = true) (hs : s.BuffersOk) : s.tick.BuffersOk := by
  obtain ⟨hinput, hring, hline⟩ := hs
  unfold State.BuffersOk
  rw [tick_cfg, tick_stream]
  exact ⟨hinput, (length_buf_tick s).trans hring, length_line_tick hline ht⟩

theorem buffersOk_lineTurn {s : State} (hs : s.BuffersOk) : s.lineTurn.BuffersOk := by
  obtain ⟨hinput, hring, hline⟩ := hs
  unfold State.BuffersOk
  rw [lineTurn_cfg, lineTurn_stream, lineTurn_ring]
  exact ⟨hinput, hring, (length_line_lineTurn s).trans hline⟩

/-- Settles O55: the sink and the decoder by what decoding leaves, each buffer by the room its writer checks. -/
theorem stepKeepsBuffersAndSinkOk : Obligations.StepKeepsBuffersAndSinkOk :=
  ⟨fun _ _ => sinkOk_step, fun _ _ hk hs h => step_establishes
    (I := fun s => s.SinkOk ∧ s.BuffersOk) (K := State.BuffersOk)
    (env := fun _ _ h => h) (same := fun _ h => h.2)
    (answer := fun _ _ h => h) (record := fun _ _ _ _ h => h)
    (read := fun _ r h => buffersOk_of_eq h.2 (by simp) (by simp) (by simp) (by simp))
    (reg := fun _ r v h => buffersOk_regWrite r v h.2)
    (start := fun _ _ i _ _ h => buffersOk_of_eq h.2 (by simp) (by simp) (by simp) (by simp))
    (body := fun _ j _ h => buffersOk_body j.instr j h.1 h.2)
    (mixer := fun _ ht h => buffersOk_tick ht h.2)
    (line := fun _ h => buffersOk_lineTurn h.2) ⟨hk, hs⟩ h⟩

end Sys2Proof.Machine

/-! PROOFS. The family 10_state.md: the VBR registers (R47, R48, R170 to R174). -/

namespace Sys2Proof.Machine

/-! ### Big-endian fields -/

/-- BitVec's append as arithmetic. -/
theorem toNat_append_eq {m n : Nat} (x : BitVec m) (y : BitVec n) : (x ++ y).toNat = x.toNat * 2 ^ n + y.toNat := by
  rw [BitVec.toNat_append, ← Nat.shiftLeft_add_eq_or_of_lt y.isLt, Nat.shiftLeft_eq]

theorem be32_toNat (p : List Byte) (i : Nat) :
    (be32 p i).toNat = (p.getD i 0).toNat * 2 ^ 24 + (p.getD (i + 1) 0).toNat * 2 ^ 16 +
      (p.getD (i + 2) 0).toNat * 2 ^ 8 + (p.getD (i + 3) 0).toNat := by
  unfold be32 beWord
  rw [toNat_append_eq, toNat_append_eq, toNat_append_eq]
  ring

/-! ### The tags -/

/-- A tag that is found lies within the payload. -/
theorem length_of_slice {p : List Byte} {i : Nat} {tag : List Byte} (h : slice p i tag.length = tag) :
    tag = [] ∨ i + tag.length ≤ p.length := by
  have hl := congrArg List.length h
  simp only [slice, List.length_take, List.length_drop] at hl
  rcases tag with _ | ⟨b, tag⟩
  · exact .inl rfl
  · simp only [List.length_cons] at hl ⊢
    omega

theorem parseVbr_xing {p : List Byte} {f : HeaderFields} (h : slice p (sideInfoSize f) 4 = xingTag) :
    parseVbr p f = parseXing p (sideInfoSize f) := by
  have hl := (length_of_slice (tag := xingTag) h).resolve_left (by decide)
  unfold parseVbr
  dsimp only
  rw [if_pos ⟨hl, h⟩]

theorem parseVbr_vbri {p : List Byte} {f : HeaderFields} (hx : slice p (sideInfoSize f) 4 ≠ xingTag)
    (h : slice p 32 4 = vbriTag) : parseVbr p f = parseVbri p 32 := by
  have hl := (length_of_slice (tag := vbriTag) h).resolve_left (by decide)
  unfold parseVbr
  dsimp only
  rw [if_neg (fun hc => hx hc.2), if_pos ⟨hl, h⟩]

theorem parseVbr_absent {p : List Byte} {f : HeaderFields} (hx : slice p (sideInfoSize f) 4 ≠ xingTag)
    (hv : slice p 32 4 ≠ vbriTag) : parseVbr p f = .absent := by
  unfold parseVbr
  dsimp only
  rw [if_neg (fun hc => hx hc.2), if_neg (fun hc => hv hc.2)]

/-! ### The Xing header (R172, R174) -/

/-- A field at an offset within the payload: cut off by its end, or read, with the offset after it. -/
theorem vbrField_eq {α : Type} {p : List Byte} {present : Bool} {n o o' : Nat} (val : Nat → α) (dflt : α)
    (ho : o ≤ p.length) (ho' : o' = o + (if present = true then n else 0)) :
    vbrField p present n val dflt o =
      if p.length < o' then none else some (if present = true then val o else dflt, o') := by
  subst ho'
  unfold vbrField
  cases present with
  | true => rfl
  | false => simp [Nat.not_lt.2 ho]

section
variable {p : List Byte} {x o1 o2 o3 o4 : Nat} {fl : Word} (hfl : fl = be32 p (x + 4))
  (h1 : o1 = x + 8 + (if fl.getLsbD 0 = true then 4 else 0)) (h2 : o2 = o1 + (if fl.getLsbD 1 = true then 4 else 0))
  (h3 : o3 = o2 + (if fl.getLsbD 2 = true then 100 else 0)) (h4 : o4 = o3 + (if fl.getLsbD 3 = true then 4 else 0))
include hfl h1 h2 h3 h4

/-- The payload ends before the flags or within an announced field. -/
theorem parseXing_corrupt (h : p.length < x + 8 ∨ p.length < o4) : parseXing p x = .corrupt := by
  unfold parseXing
  by_cases h8 : p.length < x + 8
  · rw [if_pos h8]
  have hend := h.resolve_left h8
  rw [if_neg h8]
  dsimp only
  rw [← hfl, vbrField_eq _ _ (by omega) h1]
  by_cases hc1 : p.length < o1
  · rw [if_pos hc1]
  rw [if_neg hc1]
  dsimp only
  rw [vbrField_eq _ _ (by omega) h2]
  by_cases hc2 : p.length < o2
  · rw [if_pos hc2]
  rw [if_neg hc2]
  dsimp only
  rw [vbrField_eq _ _ (by omega) h3]
  by_cases hc3 : p.length < o3
  · rw [if_pos hc3]
  rw [if_neg hc3]
  dsimp only
  rw [vbrField_eq _ _ (by omega) h4, if_pos hend]

/-- Every announced field lies within the payload. -/
theorem parseXing_found (h8 : x + 8 ≤ p.length) (hend : o4 ≤ p.length) :
    parseXing p x = .found
      { info := BitVec.ofNat 32 (1 + 2 ^ 4 * bit (fl.getLsbD 0) + 2 ^ 5 * bit (fl.getLsbD 1) +
          2 ^ 6 * bit (fl.getLsbD 2) + 2 ^ 7 * bit (fl.getLsbD 3))
        frames := if fl.getLsbD 0 = true then be32 p (x + 8) else 0xFFFFFFFF#32
        bytes := if fl.getLsbD 1 = true then be32 p o1 else 0xFFFFFFFF#32
        toc := if fl.getLsbD 2 = true then slice p o2 100 else List.replicate 100 0
        scale := if fl.getLsbD 3 = true then be32 p o3 else 0xFFFFFFFF#32 } := by
  have l1 : x + 8 ≤ o1 := h1 ▸ Nat.le_add_right _ _
  have l2 : o1 ≤ o2 := h2 ▸ Nat.le_add_right _ _
  have l3 : o2 ≤ o3 := h3 ▸ Nat.le_add_right _ _
  have l4 : o3 ≤ o4 := h4 ▸ Nat.le_add_right _ _
  unfold parseXing
  rw [if_neg (by omega)]
  dsimp only
  rw [← hfl, vbrField_eq _ _ (by omega) h1, if_neg (by omega)]
  dsimp only
  rw [vbrField_eq _ _ (by omega) h2, if_neg (by omega)]
  dsimp only
  rw [vbrField_eq _ _ (by omega) h3, if_neg (by omega)]
  dsimp only
  rw [vbrField_eq _ _ (by omega) h4, if_neg (by omega)]

end

/-- VBR_INFO of a Xing header: the kind 1 and its four flags (R47). -/
theorem xingInfo_fields (fl : Word) :
    let info := BitVec.ofNat 32 (1 + 2 ^ 4 * bit (fl.getLsbD 0) + 2 ^ 5 * bit (fl.getLsbD 1) +
      2 ^ 6 * bit (fl.getLsbD 2) + 2 ^ 7 * bit (fl.getLsbD 3))
    info.extractLsb' 0 2 = 1#2 ∧ info.extractLsb' 2 2 = 0#2 ∧ info.extractLsb' 4 4 = fl.extractLsb' 0 4 ∧
      info.extractLsb' 8 24 = 0#24 := by
  have b0 := bit_getLsbD fl 0
  have b1 := bit_getLsbD fl 1
  have b2 := bit_getLsbD fl 2
  have b3 := bit_getLsbD fl 3
  simp only [BitVec.extractLsb'_toNat, Nat.shiftRight_eq_div_pow] at b0 b1 b2 b3
  refine ⟨extract_ofNat_eq (by decide) ?_, extract_ofNat_eq (by decide) ?_, extract_ofNat_eq (by decide) ?_,
    extract_ofNat_eq (by decide) ?_⟩
  · simp only [BitVec.toNat_ofNat]; omega
  · simp only [BitVec.toNat_ofNat]; omega
  · simp only [BitVec.extractLsb'_toNat, Nat.shiftRight_eq_div_pow]; omega
  · simp only [BitVec.toNat_ofNat]; omega

/-- Settles O19: which tag the payload has, then the Xing header's fields one after the other, or VBRI's at their places. -/
theorem vbrRegisters : Obligations.VbrRegisters := by
  refine ⟨be32_toNat, fun p f x o1 o2 o3 o4 fl hx hfl h1 h2 h3 h4 => ?_⟩
  have hside : sideInfoSize f = x := (sideInfoSize_eq f).trans hx.symm
  refine ⟨fun htag => ?_, fun hxing hvbri => ?_, fun hxing hvbri => ?_⟩
  · have hparse : parseVbr p f = parseXing p x := hside ▸ parseVbr_xing (f := f) (by rw [hside]; exact htag)
    rw [hparse]
    exact ⟨parseXing_corrupt hfl h1 h2 h3 h4,
      fun h8 hend => ⟨_, parseXing_found hfl h1 h2 h3 h4 h8 hend, xingInfo_fields fl⟩⟩
  · have hparse : parseVbr p f = parseVbri p 32 := parseVbr_vbri (by rw [hside]; exact hxing) hvbri
    rw [hparse]
    exact ⟨fun hl => if_pos hl, fun hl => if_neg (Nat.not_lt.2 hl)⟩
  · exact parseVbr_absent (by rw [hside]; exact hxing) hvbri

end Sys2Proof.Machine

/-! PROOFS. The family 10_state.md: what a read of each register shows, and what a host write does (R30 to R58, R292, R321, R330, R332). -/

namespace Sys2Proof.Machine

/-! ### The packed views -/

theorem syncModeCode_le (m : SyncMode) : syncModeCode m ≤ 2 := by cases m <;> decide

theorem voiceStateCode_le (x : VoiceState) : voiceStateCode x ≤ 2 := by cases x <;> decide

theorem errCodeNumber_lt (e : ErrCode) : errCodeNumber e < 256 := by cases e <;> decide

/-- Byte r of a big-endian word, counted from its low end. -/
theorem extract_beWord (b : Nat → Byte) {r : Nat} (hr : r < 4) :
    (beWord (b 3) (b 2) (b 1) (b 0)).extractLsb' (8 * r) 8 = b r := by
  have h0 := (b 0).isLt
  have h1 := (b 1).isLt
  have h2 := (b 2).isLt
  have h3 := (b 3).isLt
  refine BitVec.eq_of_toNat_eq ?_
  unfold beWord
  rw [BitVec.extractLsb'_toNat, Nat.shiftRight_eq_div_pow, toNat_append_eq, toNat_append_eq, toNat_append_eq]
  obtain rfl | rfl | rfl | rfl : r = 0 ∨ r = 1 ∨ r = 2 ∨ r = 3 := by omega
  all_goals omega

/-- Byte i of the table is in VBR_TOC's register i / 4 (R48). -/
theorem tocWord_byte (v : VbrRegs) (i : Nat) : (v.tocWord (i / 4)).extractLsb' (8 * (i % 4)) 8 = v.toc.getD i 0 := by
  have h := extract_beWord (fun r => v.toc.getD (4 * (i / 4) + r) 0) (Nat.mod_lt i (by decide : 0 < 4))
  simp only [Nat.div_add_mod, Nat.add_zero] at h
  exact h

/-- STATUS bit by bit (R34). -/
theorem statusWord_fields (s : State) :
    let w := s.statusWord
    w.getLsbD 0 = s.busy ∧ w.getLsbD 1 = decide (s.err.code ≠ .none) ∧ w.getLsbD 2 = s.flags.frameValid ∧
    w.getLsbD 3 = s.framePending ∧ w.getLsbD 4 = s.flags.eosSeen ∧
    (w.extractLsb' 5 2).toNat = syncModeCode s.stream.mode ∧ w.getLsbD 7 = decide (s.stream.kind = .wav) ∧
    w.getLsbD 8 = s.flags.crcErr ∧ w.getLsbD 9 = s.flags.vbrCorrupt ∧ w.getLsbD 10 = s.dec.init ∧
    w.getLsbD 11 = s.mixer.running ∧ w.getLsbD 12 = s.line.isOpen ∧ w.getLsbD 13 = s.ring.bound ∧
    w.getLsbD 14 = s.ring.closed ∧ w.extractLsb' 15 17 = 0#17 := by
  unfold State.statusWord
  have := bit_le_one s.busy
  have := bit_le_one (decide (s.err.code ≠ .none))
  have := bit_le_one s.flags.frameValid
  have := bit_le_one s.framePending
  have := bit_le_one s.flags.eosSeen
  have := syncModeCode_le s.stream.mode
  have := bit_le_one (decide (s.stream.kind = .wav))
  have := bit_le_one s.flags.crcErr
  have := bit_le_one s.flags.vbrCorrupt
  have := bit_le_one s.dec.init
  have := bit_le_one s.mixer.running
  have := bit_le_one s.line.isOpen
  have := bit_le_one s.ring.bound
  have := bit_le_one s.ring.closed
  intro w
  refine ⟨?_, ?_, ?_, ?_, ?_, (toNat_extract_ofNat _ (by decide)).trans (by omega), ?_, ?_, ?_, ?_, ?_, ?_, ?_, ?_,
    extract_ofNat_eq (by decide) (by simp only [BitVec.toNat_ofNat]; omega)⟩
  all_goals exact getLsbD_ofNat_eq (by decide) (by omega)

/-- ERR field by field (R36). -/
theorem errWord_fields (r : ErrReg) :
    let w := r.toWord
    (w.extractLsb' 0 8).toNat = errCodeNumber r.code ∧ w.extractLsb' 8 8 = r.op ∧ w.extractLsb' 16 8 = r.idx ∧
    w.getLsbD 24 = r.ovf ∧ w.extractLsb' 25 7 = 0#7 := by
  have := errCodeNumber_lt r.code
  have := r.op.isLt
  have := r.idx.isLt
  have := bit_le_one r.ovf
  exact ⟨(toNat_extract_ofNat _ (by decide)).trans (by omega), extract_ofNat_eq (by decide) (by omega),
    extract_ofNat_eq (by decide) (by omega), getLsbD_ofNat_eq (by decide) (by omega),
    extract_ofNat_eq (by decide) (by simp only [BitVec.toNat_ofNat]; omega)⟩

/-- A register of a flag and a channel count, as DEC_INFO and CLIP_INFO are (R49, R50). -/
theorem flagAndChannels_fields (b : Bool) {ch : Nat} (hch : ch < 4) :
    let w := BitVec.ofNat 32 (bit b + 2 * ch)
    w.getLsbD 0 = b ∧ (w.extractLsb' 1 2).toNat = ch ∧ w.extractLsb' 3 29 = 0#29 := by
  have := bit_le_one b
  exact ⟨getLsbD_ofNat_eq (by decide) (by omega), (toNat_extract_ofNat _ (by decide)).trans (by omega),
    extract_ofNat_eq (by decide) (by simp only [BitVec.toNat_ofNat]; omega)⟩

/-- RING_INFO field by field (R54). -/
theorem ringInfo_fields (r : Ring) (hch : r.ch < 4) (hvoice : r.voice < 256) :
    let w := r.infoWord
    w.getLsbD 0 = r.bound ∧ w.getLsbD 1 = r.closed ∧
    (w.extractLsb' 2 2).toNat = (if r.bound = true then r.ch else 0) ∧ w.extractLsb' 4 4 = 0#4 ∧
    (w.extractLsb' 8 8).toNat = (if r.bound = true then r.voice else 0) ∧ w.extractLsb' 16 16 = 0#16 := by
  have hword : r.infoWord = BitVec.ofNat 32 (bit r.bound + 2 * bit r.closed +
      2 ^ 2 * (if r.bound = true then r.ch else 0) + 2 ^ 8 * (if r.bound = true then r.voice else 0)) := by
    unfold Ring.infoWord
    cases r.bound <;> simp [Nat.add_assoc]
  have hch' : (if r.bound = true then r.ch else 0) < 4 := by split <;> omega
  have hvoice' : (if r.bound = true then r.voice else 0) < 256 := by split <;> omega
  rw [hword]
  generalize (if r.bound = true then r.ch else 0) = ch at hch' ⊢
  generalize (if r.bound = true then r.voice else 0) = voice at hvoice' ⊢
  have := bit_le_one r.bound
  have := bit_le_one r.closed
  exact ⟨getLsbD_ofNat_eq (by decide) (by omega), getLsbD_ofNat_eq (by decide) (by omega),
    (toNat_extract_ofNat _ (by decide)).trans (by omega),
    extract_ofNat_eq (by decide) (by simp only [BitVec.toNat_ofNat]; omega),
    (toNat_extract_ofNat _ (by decide)).trans (by omega),
    extract_ofNat_eq (by decide) (by simp only [BitVec.toNat_ofNat]; omega)⟩

/-- V_STATE field by field (R55). -/
theorem stateWord_fields (x : Voice) (hclip : x.clip < 256) :
    let w := x.stateWord
    (w.extractLsb' 0 2).toNat = voiceStateCode x.state ∧ w.getLsbD 2 = x.loop ∧ w.getLsbD 3 = x.stream ∧
    w.getLsbD 4 = x.pending ∧ w.getLsbD 5 = x.active ∧ w.extractLsb' 6 2 = 0#2 ∧
    (w.extractLsb' 8 8).toNat = x.clip ∧ w.extractLsb' 16 16 = 0#16 := by
  have := voiceStateCode_le x.state
  have := bit_le_one x.loop
  have := bit_le_one x.stream
  have := bit_le_one x.pending
  have := bit_le_one x.active
  unfold Voice.stateWord
  intro w
  refine ⟨(toNat_extract_ofNat _ (by decide)).trans (by omega), ?_, ?_, ?_, ?_,
    extract_ofNat_eq (by decide) (by simp only [BitVec.toNat_ofNat]; omega),
    (toNat_extract_ofNat _ (by decide)).trans (by omega),
    extract_ofNat_eq (by decide) (by simp only [BitVec.toNat_ofNat]; omega)⟩
  all_goals exact getLsbD_ofNat_eq (by decide) (by omega)

/-- Bit j of STOPPED_MASKk is voice 32k + j (R58). -/
theorem getLsbD_stoppedWord (s : State) (k : Nat) {j : Nat} (hj : j < 32) :
    (s.stoppedWord k).getLsbD j = s.stopped.getLsbD (32 * k + j) := by
  simp [State.stoppedWord, hj]

/-! ### The clip and sink views -/

/-- CLIP_SEL past the last slot selects nothing (R50). -/
theorem selected_of_ge {s : State} (h : s.nClips ≤ s.clips.sel.toNat) : s.selected = .invalid := by
  have h : s.clips.descs.length ≤ s.clips.sel.toNat := h
  simp [State.selected, State.descAt, h]

/-- PCM_DATA shows the sample at PCM_ADDR, 0 past the last (R298, R305). -/
theorem pcmDataWord_eq (s : State) :
    s.pcmDataWord = (s.sink.samples[s.sink.addr.toNat]?.map (·.signExtend 32)).getD 0 := by
  unfold State.pcmDataWord sampleWord
  by_cases h : s.sink.addr.toNat < s.sink.samples.length
  · simp [h]
  · simp [h]

/-- Settles O38: the stored registers by definition, each packed one by its fields. -/
theorem registerViews : Obligations.RegisterViews := by
  refine ⟨?stored, ?status, ?err, ?decoder, ?clip, ?counts, ?ring, ?voice, ?mask⟩
  case stored =>
    intro s
    refine ⟨rfl, rfl, rfl, rfl, rfl, rfl, rfl, rfl, rfl, rfl, rfl, rfl, rfl, rfl, rfl, rfl, rfl, rfl, rfl, rfl, rfl,
      rfl, rfl, rfl, rfl, rfl, rfl, rfl, rfl, rfl, fun i _ => tocWord_byte s.vbr i⟩
  case status =>
    intro s w
    obtain ⟨h0, h1, h2, h3, h4, hmode, hrest⟩ := statusWord_fields s
    refine ⟨h0, h1, h2, h3.trans ?_, h4, BitVec.eq_of_toNat_eq (hmode.trans ?_), hrest⟩
    · unfold State.framePending
      cases s.frame <;> rfl
    · cases s.stream.mode <;> rfl
  case err =>
    intro s w
    obtain ⟨hcode, hrest⟩ := errWord_fields s.err
    refine ⟨BitVec.eq_of_toNat_eq (hcode.trans ?_), hrest⟩
    cases s.err.code <;> rfl
  case decoder =>
    intro s
    refine ⟨fun hi => ⟨if_neg (by simp [hi]), if_neg (by simp [hi])⟩, fun hi hch => ?_, rfl⟩
    have hinfo : s.regValue .decInfo = BitVec.ofNat 32 (bit true + 2 * s.dec.dch) := if_pos hi
    obtain ⟨hinit, hchannels, hzero⟩ := flagAndChannels_fields true hch
    rw [hinfo]
    exact ⟨hinit, hchannels, hzero, if_pos hi⟩
  case clip =>
    intro s
    refine ⟨rfl, rfl, rfl, fun h => if_pos h, fun hge => ?_, fun d hd => ?_, rfl, rfl, rfl, pcmDataWord_eq s⟩
    · simp only [State.regValue, selected_of_ge hge]
      exact ⟨rfl, rfl, rfl, rfl⟩
    · have hsel : s.selected = d := descAt_of_getElem? s hd
      simp only [State.regValue, hsel]
      exact ⟨rfl, rfl, rfl, fun hch => flagAndChannels_fields d.valid hch⟩
  case counts =>
    intro s
    refine ⟨?_, rfl, rfl, rfl, rfl, rfl, rfl, rfl, rfl, rfl, rfl, rfl, rfl⟩
    simp only [State.regValue]
    cases s.stream.eos <;> rfl
  case ring => exact fun s hch hvoice => ringInfo_fields s.ring hch hvoice
  case voice =>
    intro s v
    refine ⟨rfl, rfl, rfl, fun hclip => ?_⟩
    obtain ⟨hstate, hrest⟩ := stateWord_fields (s.voiceAt v) hclip
    refine ⟨BitVec.eq_of_toNat_eq (hstate.trans ?_), hrest⟩
    cases (s.voiceAt v).state <;> rfl
  case mask => exact fun s k j _ hj => getLsbD_stoppedWord s k hj

/-! ### Host writes (R292, R332) -/

/-- A write of 32 bits at a mapped aligned offset, CMD apart, is the register's write. -/
theorem step_of_writeAt {s : State} {a : BitVec 13} {v : Word} {r : Reg} (hr : regAt s.nVoices a.toNat = some r)
    (ha : a.toNat % 4 = 0) (hc : r ≠ .cmd) (hn : s.env.nextTurn = .host (.write a .w32 v)) :
    step s = .next (s.taking.regWrite r v) :=
  step_of_regWrite r hn ((if_pos ⟨rfl, ha⟩).trans hr) hc

/-- STOPPED_MASKk is mapped where the block has a voice of it (R58, R76). -/
theorem regAt_stoppedMask_of_lt {n k : Nat} (hk : k < 8) (hn : 32 * k < n) :
    regAt n (BitVec.ofNat 13 (0x400 + 4 * k)).toNat = some (.stoppedMask k) ∧
      (BitVec.ofNat 13 (0x400 + 4 * k)).toNat % 4 = 0 := by
  have ha : (BitVec.ofNat 13 (0x400 + 4 * k)).toNat = 0x400 + 4 * k := by
    rw [BitVec.toNat_ofNat]
    omega
  have hdiv : (0x400 + 4 * k - 0x400) / 4 = k := by omega
  rw [ha]
  refine ⟨?_, by omega⟩
  unfold regAt
  rw [if_neg (by omega), if_neg (by omega), if_neg (by omega), if_pos (by omega), hdiv, if_pos hn]

/-- The bits of STOPPED_MASK after an acknowledge in register k: those of the register written 1 are cleared. -/
theorem getLsbD_ackStopped (s : State) (k : Nat) (v : Word) {n : Nat} (hn : n < 256) :
    (s.ackStopped k v).stopped.getLsbD n =
      (s.stopped.getLsbD n && !(decide (32 * k ≤ n) && decide (n < 32 * k + 32) && v.getLsbD (n - 32 * k))) := by
  show (s.stopped &&& ~~~ (v.setWidth 256 <<< (32 * k))).getLsbD n = _
  rw [BitVec.getLsbD_and, BitVec.getLsbD_not, BitVec.getLsbD_shiftLeft, BitVec.getLsbD_setWidth]
  by_cases h1 : 32 * k ≤ n
  · by_cases h2 : n < 32 * k + 32
    · have h3 : n - 32 * k < 256 := by omega
      simp [hn, h1, h2, h3, Nat.not_lt.2 h1]
    · have h3 : v.getLsbD (n - 32 * k) = false := BitVec.getLsbD_of_ge _ _ (by omega)
      simp [hn, h1, h2, h3]
  · simp [hn, h1, Nat.lt_of_not_le h1]

/-- The registers whose write has an effect, the mask registers apart. -/
def writableRegs : List Reg :=
  [.cmd, .arg0, .arg1, .err, .irqEn, .irqPend, .inData, .inCtrl, .clipSel, .clipAddr, .clipData, .pcmAddr]

/-- Their offsets (R76). -/
def writableOffsets : List Nat := [0x004, 0x008, 0x00C, 0x018, 0x01C, 0x020, 0x100, 0x114, 0x118, 0x128, 0x140, 0x144]

/-- Every other register ignores a write (R292). -/
theorem regWrite_of_not_writable {r : Reg} (hw : r ∉ writableRegs) (hk : ∀ k, r ≠ .stoppedMask k) (v : Word)
    (s : State) : s.regWrite r v = s := by
  cases r with
  | stoppedMask k => exact absurd rfl (hk k)
  | arg0 | arg1 | err | irqEn | irqPend | inData | inCtrl | clipSel | clipAddr | clipData | pcmAddr =>
    exact absurd (by decide) hw
  | _ => rfl

/-- At any other offset than those and the mask registers' there is no such register. -/
theorem not_writable_of_regAt {n a : Nat} {r : Reg} (hr : regAt n a = some r) (ha : a ∉ writableOffsets)
    (hmask : ¬ (0x400 ≤ a ∧ a < 0x420)) : r ∉ writableRegs ∧ ∀ k, r ≠ .stoppedMask k := by
  have single : ∀ p ∈ controlMap ++ deviceMap, p.1 ∉ writableOffsets → p.2 ∉ writableRegs := by decide
  refine ⟨?_, fun k hk => hmask (regAt_stoppedMask (hk ▸ hr))⟩
  rcases regAt_cases hr with h | h | ⟨rfl, -⟩ | ⟨-, h⟩ | ⟨h, -⟩
  · exact single _ (List.mem_append_left _ h) ha
  · exact single _ (List.mem_append_right _ h) ha
  · simp [writableRegs]
  · exact absurd h hmask
  · rcases windowReg_cases ((a - 0x1000) / 16) ((a - 0x1000) % 16) with e | e | e | e <;> rw [h, e] <;>
      simp [writableRegs]

/-- Settles O41: each writable register at its offset, the mask registers bit by bit, and no effect at every other offset. -/
theorem hostWrites : Obligations.HostWrites := by
  intro s v
  refine ⟨step_of_writeAt (r := .err) rfl rfl (by decide), step_of_writeAt (r := .irqEn) rfl rfl (by decide),
    step_of_writeAt (r := .irqPend) rfl rfl (by decide), fun k hn hk hturn => ?_,
    step_of_writeAt (r := .arg0) rfl rfl (by decide), step_of_writeAt (r := .arg1) rfl rfl (by decide),
    step_of_writeAt (r := .clipSel) rfl rfl (by decide), step_of_writeAt (r := .clipAddr) rfl rfl (by decide),
    step_of_writeAt (r := .pcmAddr) rfl rfl (by decide),
    fun a hturn haligned hmapped hoff hmask => ?_⟩
  · obtain ⟨hreg, haligned⟩ := regAt_stoppedMask_of_lt hk hn
    exact ⟨_, step_of_writeAt hreg haligned (by simp) hturn, fun n hn => getLsbD_ackStopped s.taking k v hn⟩
  · obtain ⟨r, hr⟩ := Option.ne_none_iff_exists'.1 hmapped
    have hoffsets : a.toNat ∉ writableOffsets := by
      intro hmem
      refine hoff ?_
      have : a = BitVec.ofNat 13 a.toNat := by simp
      rw [this]
      exact List.mem_map_of_mem (f := BitVec.ofNat 13) hmem
    have hmask' : ¬ (0x400 ≤ a.toNat ∧ a.toNat < 0x420) := by
      rintro ⟨h1, h2⟩
      refine hmask ⟨?_, ?_⟩ <;> simp only [BitVec.le_def, BitVec.toNat_ofNat] <;> omega
    obtain ⟨hw, hk⟩ := not_writable_of_regAt hr hoffsets hmask'
    have hcmd : r ≠ .cmd := by
      rintro rfl
      exact hw (by decide)
    rw [step_of_writeAt hr haligned hcmd hturn, regWrite_of_not_writable hw hk]

end Sys2Proof.Machine

/-! PROOFS. The family 10_state.md: DECODE_FRAME on an undecoded frame (R190 to R210). -/

namespace Sys2Proof.Machine

/-! ### Main data (R202) -/

/-- The main data of a frame in numbers. -/
theorem mainData_eq {f : Frame} {side start : Nat} {body : List Byte} (res : List Byte)
    (hside : side = (if f.fields.version = .v1 then (if f.fields.mode = .mono then 17 else 32)
      else (if f.fields.mode = .mono then 9 else 17)))
    (hbody : body = f.payload.drop (if f.fields.hasCrc = true then 2 else 0))
    (hstart : start = (if f.fields.version = .v1 then 2 * (body.getD 0 0).toNat + (body.getD 1 0).toNat / 128
      else (body.getD 0 0).toNat)) :
    mainData f res =
      if res.length < start then none else some (res.drop (res.length - start) ++ body.drop side) := by
  have hstart' : mainDataBegin f = start := by
    rw [hstart, hbody]
    exact mainDataBegin_eq f
  have hslots : slotBytes f = body.drop side := by
    rw [hside, hbody, ← sideInfoSize_eq]
    rfl
  unfold mainData
  rw [hstart', hslots]

/-- A layer decoder sees the reservoir only through the main data of a Layer III frame. -/
theorem decodeLayer_congr {f : Frame} {dec : Decoder} {res : List Byte}
    (h : f.fields.layer = .III → mainData f res = mainData f dec.res) :
    decodeLayer f { dec with res := res } = decodeLayer f dec := by
  unfold decodeLayer
  cases hl : f.fields.layer with
  | I => rfl
  | II => rfl
  | III =>
    dsimp only
    rw [h hl]

/-- A Layer III frame whose main data begins before the reservoir's oldest byte does not decode (R202). -/
theorem decodeLayer_of_mainData_none {f : Frame} {d : Decoder} (hl : f.fields.layer = .III)
    (h : mainData f d.res = none) : decodeLayer f d = none := by
  unfold decodeLayer
  rw [hl]
  dsimp only
  rw [h]

/-! ### The two outcomes of DecodeCurrent (R191, R192, R200) -/

/-- The reservoir after a frame, whatever its result (R191, R202). -/
def reservoirAfter (f : Frame) (res : List Byte) : List Byte :=
  if f.fields.layer = .III then appendReservoir f res else res

section
variable {op : Byte} {f : Frame} {s : State} {d : Decoder} (hd : initDecoder f s.hdr.sampleRate.toNat s.dec = d)
include hd

theorem decodeCurrent_of_some {out : DecodeOut} (hc : channelsOf f.fields = d.dch) (ho : decodeLayer f d = some out) :
    let y := synthesise (maskSubbands f.fields out.x) (s.hdr.samplesPerFrame.toNat / 32) 0 d.delay
    s.decodeCurrent op f =
      ({ s.checkCrc f with
          frame := some { f with pending := false }, sink := ⟨y.2, d.dch, 0⟩
          dec := { d with delay := y.1, l3 := if f.fields.layer = .III then out.l3 else d.l3
                          res := reservoirAfter f s.dec.res } }, true) := by
  subst hd
  simp only [State.decodeCurrent, decodeWith, if_pos hc, ho, initDecoder_res, reservoirAfter]

theorem decodeCurrent_of_none (h : channelsOf f.fields ≠ d.dch ∨ decodeLayer f d = none) :
    let c := s.checkCrc f
    s.decodeCurrent op f =
      (({ c with
          frame := some { f with pending := false }, sink := ⟨[], d.dch, 0⟩
          dec := { d with res := reservoirAfter f s.dec.res }
          counters := { c.counters with skipCount := c.counters.skipCount + 1 } }).record .decodeError op 0, false) := by
  subst hd
  have hnone : (if channelsOf f.fields = (initDecoder f s.hdr.sampleRate.toNat s.dec).dch then
      decodeLayer f (initDecoder f s.hdr.sampleRate.toNat s.dec) else none) = none := by
    split
    · next hc => exact h.resolve_left (fun hne => hne hc)
    · rfl
  simp only [State.decodeCurrent, decodeWith, hnone, initDecoder_res, reservoirAfter]

end

/-- CheckCrc writes HDR_CRC.COMPUTED, STATUS.CRC_ERR, its counter and the CRC interrupt, and nothing else (R198). -/
theorem checkCrc_eq (f : Frame) (s : State) :
    ∃ crc err n irq, irq &&& 0b10111#5 = 0#5 ∧
      s.checkCrc f =
        { s with
          hdr := { s.hdr with crcComputed := crc }, flags := { s.flags with crcErr := err }
          counters := { s.counters with crcErrCount := n }, irqPend := s.irqPend ||| irq } := by
  rcases checkCrc_cases f s with ⟨-, h⟩ | ⟨-, -, h⟩ | ⟨-, -, h⟩ <;> rw [h]
  · exact ⟨_, _, _, 0#5, rfl, by rw [BitVec.or_zero]⟩
  · exact ⟨_, _, _, 0#5, rfl, by rw [BitVec.or_zero]⟩
  · exact ⟨_, _, _, irqCrc, rfl, rfl⟩

/-! ### The sequencer step -/

/-- The ring append as one update: its frames where the ring is bound and open (R210). -/
theorem ringAppend_eq (s : State) :
    s.ringAppend = { s with
      ring := if s.ring.bound = true ∧ s.ring.closed = false then { s.ring with buf := s.ring.buf ++ s.ringFrames }
              else s.ring
      env := { s.env with ringTaken := if s.ring.bound = true ∧ s.ring.closed = false then
        s.env.ringTaken + s.ringFrames.length else s.env.ringTaken } } := by
  unfold State.ringAppend
  cases s.ring.bound <;> cases s.ring.closed <;> rfl

/-- The sequencer step on an undecoded frame, where a bound open ring has room for it (R190). -/
theorem decodeFrameStep_eq (j : Job) {s : State} {f : Frame} (hf : s.frame = some f) (hp : f.pending = true)
    (hroom : s.ring.bound = true → s.ring.closed = false →
      s.hdr.samplesPerFrame.toNat ≤ s.cfg.ringCap - s.ring.buf.length) :
    decodeFrameStep j s =
      if (s.decodeCurrent 0x03 f).2 = true then ((s.decodeCurrent 0x03 f).1.ringAppend).complete 0
      else (s.decodeCurrent 0x03 f).1.complete 1 := by
  have hfull : s.ringFull = false := by
    unfold State.ringFull
    cases hb : s.ring.bound with
    | false => rfl
    | true =>
      cases hc : s.ring.closed with
      | true => rfl
      | false => simpa using hroom hb hc
  unfold decodeFrameStep
  simp only [hf, hp, hfull]
  rfl

/-- What DECODE_FRAME leaves whatever the result: the frame of the statement, and the decoder apart from its samples. -/
structure DecodeLeaves (s : State) (f : Frame) (d : Decoder) (t : State) : Prop where
  only : t = { s with
    cur := none, frame := some { f with pending := false }
    result := t.result, err := t.err, irqPend := t.irqPend, dec := t.dec, sink := t.sink, ring := t.ring
    env := { s.env with ringTaken := t.env.ringTaken }
    flags := { s.flags with crcErr := t.flags.crcErr }
    counters := { s.counters with crcErrCount := t.counters.crcErrCount, skipCount := t.counters.skipCount }
    hdr := { s.hdr with crcComputed := t.hdr.crcComputed } }
  done : t.irqPend &&& 0b00001#5 = 0b00001#5
  irqs : t.irqPend &&& 0b10100#5 = s.irqPend &&& 0b10100#5
  dec : t.dec = { d with delay := t.dec.delay, l3 := t.dec.l3, res := reservoirAfter f s.dec.res }
  sink : t.sink = ⟨t.sink.samples, d.dch, 0⟩

/-- What it leaves of a frame that decodes to `out`, where `fs` is what a bound open ring takes of it. -/
structure DecodeDecoded (s : State) (f : Frame) (d : Decoder) (out : DecodeOut) (fs : List RingFrame) (t : State) :
    Prop where
  result : t.result = 0
  l3 : t.dec.l3 = (if f.fields.layer = .III then out.l3 else d.l3)
  samples : (t.dec.delay, t.sink.samples) =
    synthesise (maskSubbands f.fields out.x) (s.hdr.samplesPerFrame.toNat / 32) 0 d.delay
  err : t.err = s.err
  irq : t.irqPend &&& 0b00010#5 = s.irqPend &&& 0b00010#5
  skips : t.counters.skipCount = s.counters.skipCount
  ring : t.ring = (if s.ring.bound = true ∧ s.ring.closed = false then
    { s.ring with buf := s.ring.buf ++ fs } else s.ring)

/-- What it leaves of a frame that is skipped. -/
structure DecodeSkipped (s : State) (d : Decoder) (t : State) : Prop where
  result : t.result = 1
  l3 : t.dec.l3 = d.l3
  delay : t.dec.delay = d.delay
  samples : t.sink.samples = []
  err : t.err = s.err.record .decodeError 0x03 0
  irq : t.irqPend &&& 0b00010#5 = 0b00010#5
  skips : t.counters.skipCount = s.counters.skipCount + 1
  ring : t.ring = s.ring

section
variable {s : State} {f : Frame} {d : Decoder} (j : Job) (hd : initDecoder f s.hdr.sampleRate.toNat s.dec = d)
  (hf : s.frame = some f) (hp : f.pending = true)
  (hroom : s.ring.bound = true → s.ring.closed = false →
    s.hdr.samplesPerFrame.toNat ≤ s.cfg.ringCap - s.ring.buf.length)
include hd hf hp hroom

theorem decodeFrameStep_decoded {out : DecodeOut} (hc : channelsOf f.fields = d.dch)
    (ho : decodeLayer f d = some out) :
    DecodeLeaves s f d (decodeFrameStep j s) ∧
      DecodeDecoded s f d out (s.decodeCurrent 0x03 f).1.ringFrames (decodeFrameStep j s) := by
  obtain ⟨crc, crcErr, n, irq, hirq, hcrc⟩ := checkCrc_eq f s
  have hdec := decodeCurrent_of_some (op := 0x03) hd hc ho
  have hbits : ∀ x y : BitVec 5, y &&& 0b10111#5 = 0#5 →
      (x ||| y ||| irqCmdDone) &&& 0b00001#5 = 0b00001#5 ∧ (x ||| y ||| irqCmdDone) &&& 0b10100#5 = x &&& 0b10100#5 ∧
      (x ||| y ||| irqCmdDone) &&& 0b00010#5 = x &&& 0b00010#5 := by decide
  obtain ⟨hdone, hirqs, herror⟩ := hbits s.irqPend irq hirq
  have hstep : decodeFrameStep j s = (s.decodeCurrent 0x03 f).1.ringAppend.complete 0 := by
    rw [decodeFrameStep_eq j hf hp hroom, if_pos (by rw [hdec])]
  suffices h : ∀ fs, fs = (s.decodeCurrent 0x03 f).1.ringFrames →
      DecodeLeaves s f d (decodeFrameStep j s) ∧ DecodeDecoded s f d out fs (decodeFrameStep j s) from h _ rfl
  intro fs hfs
  rw [hstep, ringAppend_eq, ← hfs, hdec, hcrc]
  exact ⟨⟨rfl, hdone, hirqs, rfl, rfl⟩, ⟨rfl, rfl, rfl, rfl, herror, rfl, rfl⟩⟩

/-- The ring append leaves the sink as DecodeCurrent wrote it. -/
theorem sink_decodeFrameStep {out : DecodeOut} (hc : channelsOf f.fields = d.dch) (ho : decodeLayer f d = some out) :
    (decodeFrameStep j s).sink = (s.decodeCurrent 0x03 f).1.sink ∧ (s.decodeCurrent 0x03 f).2 = true := by
  have htrue : (s.decodeCurrent 0x03 f).2 = true := by rw [decodeCurrent_of_some (op := 0x03) hd hc ho]
  rw [decodeFrameStep_eq j hf hp hroom, if_pos htrue]
  exact ⟨by simp, htrue⟩

theorem decodeFrameStep_skipped (h : channelsOf f.fields ≠ d.dch ∨ decodeLayer f d = none) :
    DecodeLeaves s f d (decodeFrameStep j s) ∧ DecodeSkipped s d (decodeFrameStep j s) := by
  obtain ⟨crc, crcErr, n, irq, hirq, hcrc⟩ := checkCrc_eq f s
  have hdec := decodeCurrent_of_none (op := 0x03) hd h
  have hbits : ∀ x y : BitVec 5, y &&& 0b10111#5 = 0#5 →
      (x ||| y ||| irqError ||| irqCmdDone) &&& 0b00001#5 = 0b00001#5 ∧
      (x ||| y ||| irqError ||| irqCmdDone) &&& 0b10100#5 = x &&& 0b10100#5 ∧
      (x ||| y ||| irqError ||| irqCmdDone) &&& 0b00010#5 = 0b00010#5 := by decide
  obtain ⟨hdone, hirqs, herror⟩ := hbits s.irqPend irq hirq
  rw [decodeFrameStep_eq j hf hp hroom, hdec, hcrc]
  exact ⟨⟨rfl, hdone, hirqs, rfl, rfl⟩, ⟨rfl, rfl, rfl, rfl, rfl, herror, rfl, rfl⟩⟩

end

/-! ### What the ring takes of a decoded frame (R27, R210) -/

/-- The frames that a bound open ring takes: as many as the frame has samples a channel, each of rch samples, and the sink's own where the channel counts agree. -/
theorem ringFrames_decoded {op : Byte} {f : Frame} {s : State} (hk : s.SinkOk) (hd : (s.decodeCurrent op f).2 = true) :
    let u := (s.decodeCurrent op f).1
    u.ringFrames.length = s.hdr.samplesPerFrame.toNat ∧
    (s.ring.ch = 1 ∨ s.ring.ch = 2 → ∀ r ∈ u.ringFrames, r.samples.length = s.ring.ch) ∧
    (u.sink.ch = s.ring.ch → u.ringFrames.flatMap RingFrame.samples = u.sink.samples) := by
  intro u
  have hring : u.ring = s.ring := decodeCurrent_ring op f s
  obtain ⟨hch, hlen⟩ := sink_decoded hk hd
  refine ⟨?_, fun hc => ?_, fun he => ?_⟩
  · rw [length_ringFrames]
    exact length_sinkFrames hch hlen
  · rw [← hring] at hc ⊢
    exact length_samples_ringFrames hc
  · have hown : u.ringFrames = sinkFrames u.sink.ch u.sink.samples := by
      unfold State.ringFrames
      rw [hring]
      exact if_pos he
    rw [hown]
    exact flatMap_samples_sinkFrames hch hlen

/-- The reservoir after a frame in numbers: the last bytes of the old one and the frame's slots (R202). -/
theorem reservoirAfter_eq {f : Frame} {side cap : Nat} {body : List Byte} (old : List Byte)
    (hside : side = (if f.fields.version = .v1 then (if f.fields.mode = .mono then 17 else 32)
      else (if f.fields.mode = .mono then 9 else 17)))
    (hbody : body = f.payload.drop (if f.fields.hasCrc = true then 2 else 0))
    (hcap : cap = (if f.fields.version = .v1 then 511 else 255)) :
    reservoirAfter f old =
      if f.fields.layer = .III then (old ++ body.drop side).drop ((old ++ body.drop side).length - cap) else old := by
  rw [hside, hbody, hcap, ← sideInfoSize_eq]
  rfl

theorem length_reservoirAfter (f : Frame) {old : List Byte} (h : old.length ≤ 511) :
    (reservoirAfter f old).length ≤ 511 := by
  unfold reservoirAfter
  split
  · exact length_appendReservoir f old
  · exact h

/-- A frame decodes where its channel count is the decoder's and its layer decoder answers, and else is skipped. -/
theorem decodes_or_skipped (f : Frame) (d : Decoder) :
    (∃ out, channelsOf f.fields = d.dch ∧ decodeLayer f d = some out) ∨
      (channelsOf f.fields ≠ d.dch ∨ decodeLayer f d = none) := by
  by_cases hc : channelsOf f.fields = d.dch
  · cases ho : decodeLayer f d with
    | some out => exact .inl ⟨out, hc, rfl⟩
    | none => exact .inr (.inr rfl)
  · exact .inr (.inl hc)

/-- Settles O21: by the one condition that decides between a decoded and a skipped frame; main data and its reader beside it. -/
theorem decodeFrameCompletes : Obligations.DecodeFrameCompletes := by
  refine ⟨?_, fun f side start body res hside hbody hstart => mainData_eq res hside hbody hstart,
    fun f dec res h => decodeLayer_congr h⟩
  intro s j f side start cap body res d hk hcur hf hp hside hbody hstart hcap hres hd hroom
  have hinit : initDecoder f s.hdr.sampleRate.toNat s.dec = d := by
    rw [hd]
    rfl
  have hdinit : d.init = true := hinit ▸ initDecoder_init f _ s.dec
  have hdres : d.res = s.dec.res := hinit ▸ initDecoder_res f _ s.dec
  have decoded := fun out hc ho => decodeFrameStep_decoded (out := out) j hinit hf hp hroom hc ho
  have skipped := decodeFrameStep_skipped j hinit hf hp hroom
  have hleaves : DecodeLeaves s f d (decodeFrameStep j s) := by
    rcases decodes_or_skipped f d with ⟨out, hc, ho⟩ | h
    · exact (decoded out hc ho).1
    · exact (skipped h).1
  have hdch : (decodeFrameStep j s).dec.dch = d.dch := (congrArg Decoder.dch hleaves.dec).trans rfl
  have hdrate : (decodeFrameStep j s).dec.drate = d.drate := (congrArg Decoder.drate hleaves.dec).trans rfl
  have hsinkch : (decodeFrameStep j s).sink.ch = d.dch := congrArg Sink.ch hleaves.sink
  have hreservoir : (decodeFrameStep j s).dec.res = reservoirAfter f s.dec.res := congrArg Decoder.res hleaves.dec
  obtain ⟨-, -, hlen, -, -, -, -⟩ := id hk
  refine ⟨decodeFrameStep j s, exec_of_busy .decodeFrame hcur, hleaves.only, hleaves.done, hleaves.irqs,
    (congrArg Decoder.init hleaves.dec).trans hdinit, hsinkch.trans hdch.symm, congrArg Sink.addr hleaves.sink,
    ?reservoir, hreservoir ▸ length_reservoirAfter f hlen, ?short, ?kept, ?fresh, hdch, hdrate, ?decoded, ?skipped,
    ?outcome⟩
  case reservoir =>
    rw [hreservoir, hres]
    exact reservoirAfter_eq s.dec.res hside hbody hcap
  case short =>
    intro hl hshort
    have hnone : mainData f d.res = none := by
      rw [hdres, mainData_eq _ hside hbody hstart, if_pos hshort]
    exact (skipped (.inr (decodeLayer_of_mainData_none hl hnone))).2.result
  case kept =>
    intro hi
    rw [hdch, hdrate, ← hinit, initDecoder_of_init f _ hi]
    exact ⟨rfl, rfl⟩
  case fresh =>
    intro hi
    rw [hdch, hdrate, ← hinit]
    exact initDecoder_fresh f _ hi
  case decoded =>
    intro out X hc ho hX
    obtain rfl : X = maskSubbands f.fields out.x := by
      funext c i k
      exact hX c i k
    obtain ⟨-, ht⟩ := decoded out hc ho
    exact ⟨ht.result, ht.l3, ht.samples⟩
  case skipped =>
    intro h
    obtain ⟨-, ht⟩ := skipped h
    exact ⟨ht.result, ht.l3, ht.delay⟩
  case outcome =>
    rcases decodes_or_skipped f d with ⟨out, hc, ho⟩ | h
    · left
      obtain ⟨-, ht⟩ := decoded out hc ho
      obtain ⟨hsink, htrue⟩ := sink_decodeFrameStep j hinit hf hp hroom hc ho
      obtain ⟨-, hsamples⟩ := sink_decoded hk htrue
      obtain ⟨hcount, hframes, hown⟩ := ringFrames_decoded hk htrue
      rw [← hsink] at hsamples hown
      refine ⟨ht.result, hdch.trans hc.symm, ht.err, ht.irq, by rw [hsamples, hsinkch, hdch], ht.skips, fun hopen => ?_,
        fun hopen => ht.ring.trans (if_neg hopen)⟩
      exact ⟨_, hcount, ht.ring.trans (if_pos hopen), hframes, hown⟩
    · right
      obtain ⟨-, ht⟩ := skipped h
      refine ⟨ht.result, ht.samples, ht.err, ht.irq, ht.skips, ht.ring, fun hi => ?_⟩
      rw [ht.delay, ht.l3, ← hinit, initDecoder_of_init f _ hi]
      exact ⟨rfl, rfl⟩

end Sys2Proof.Machine

/-! PROOFS. The family 20_memory.md: accesses that are not performed, the line's bytes, clip memory and the command in progress (R72, R80, R81, R84, R325). -/

namespace Sys2Proof.Machine

/-! ### Accesses that reach no register (R81, R291, R292) -/

/-- An access of another width, misaligned or unmapped reaches no register. -/
theorem accessed_eq_none {s : State} {a : BitVec 13} {width : AccessWidth}
    (h : width ≠ .w32 ∨ a.toNat % 4 ≠ 0 ∨ regAt s.nVoices a.toNat = none) : s.accessed a width = none := by
  unfold State.accessed
  split
  · next hw =>
    obtain ⟨hwidth, haligned⟩ := hw
    rcases h with h | h | h
    · exact absurd hwidth h
    · exact absurd haligned h
    · exact h
  · rfl

/-- Settles O35: such an access reaches no register, and both host accesses then only record BAD_ACCESS. -/
theorem badAccess : Obligations.BadAccess := by
  intro s a width v h
  have hnone : s.taking.accessed a width = none := accessed_eq_none h
  constructor
  · intro hturn
    rw [step_of_read hturn, State.hostRead, hnone]
    rfl
  · intro hturn
    rw [step_of_write hturn, State.afterWrite, hnone]
    rfl

/-! ### The line (R80, R260) -/

/-- The low and the high byte of a sample, as numbers. -/
theorem toNat_sampleBytes (x : Sample) :
    (x.extractLsb' 0 8).toNat = x.toNat % 256 ∧ (x.extractLsb' 8 8).toNat = x.toNat / 256 := by
  have hx : x.toNat < 2 ^ 16 := x.isLt
  simp only [BitVec.extractLsb'_toNat, Nat.shiftRight_eq_div_pow]
  omega

theorem toNat_frameBytes (f : StereoFrame) :
    f.bytes.map BitVec.toNat = [f.l.toNat % 256, f.l.toNat / 256, f.r.toNat % 256, f.r.toNat / 256] := by
  obtain ⟨hll, hlh⟩ := toNat_sampleBytes f.l
  obtain ⟨hrl, hrh⟩ := toNat_sampleBytes f.r
  simp only [StereoFrame.bytes, List.map_cons, List.map_nil, hll, hlh, hrl, hrh]

/-- A closed line, or an empty buffer, gives the line nothing to take. -/
theorem lineTurn_of_idle {s : State} (h : s.line.isOpen = false ∨ s.line.buf = []) : s.lineTurn = s := by
  unfold State.lineTurn
  rcases h with h | h <;> simp [h]

theorem lineTurn_of_open {s : State} {f : StereoFrame} {rest : List StereoFrame} (ho : s.line.isOpen = true)
    (hb : s.line.buf = f :: rest) :
    s.lineTurn = { s with line := { s.line with buf := rest }
                          obs := { s.obs with lineBytes := s.obs.lineBytes ++ f.bytes } } := by
  unfold State.lineTurn
  simp [ho, hb]

/-- Settles O47: the line's turn case by case, and the head frame's four bytes as numbers. -/
theorem lineTakesHead : Obligations.LineTakesHead := by
  intro s hturn
  have hstep : step s = .next s.taking.lineTurn := by rw [step_eq, hturn]; rfl
  refine ⟨fun h => ?_, fun f rest ho hb => ⟨f.bytes, ?_, toNat_frameBytes f⟩⟩
  · rw [hstep, lineTurn_of_idle (s := s.taking) h]
  · rw [hstep, lineTurn_of_open (s := s.taking) ho hb]
    rfl

/-! ### Clip memory (R72) -/

/-- Clip memory left as it was, or with one block of it written. -/
def Memory.OneWrite (m m' : Memory) : Prop := m' = m ∨ ∃ base xs, m' = Memory.writeBlock m base xs

theorem Memory.OneWrite.wf {m m' : Memory} (h : m.OneWrite m') (hm : Memory.wf m = true) : Memory.wf m' = true := by
  rcases h with rfl | ⟨base, xs, rfl⟩
  · exact hm
  · exact Memory.wf_writeBlock hm base xs

theorem oneWrite_of_clips_eq {s t : State} (h : t.clips = s.clips) : s.clips.mem.OneWrite t.clips.mem :=
  .inl (congrArg ClipStore.mem h)

/-- A register write stores at most the one cell that CLIP_DATA addresses (R297). -/
theorem oneWrite_regWrite (r : Reg) (v : Word) (s : State) : s.clips.mem.OneWrite (s.regWrite r v).clips.mem := by
  cases r with
  | clipData =>
    show s.clips.mem.OneWrite (s.clipDataWrite _).clips.mem
    unfold State.clipDataWrite
    dsimp only
    repeat' split
    · exact .inl rfl
    · exact .inl rfl
    · exact .inr ⟨_, _, rfl⟩
  | inData => exact oneWrite_of_clips_eq (by simp [State.regWrite])
  | inCtrl =>
    simp only [State.regWrite]
    split <;> exact .inl rfl
  | _ => exact .inl rfl

/-- CLIP_DEFINE clears the cells of its new clip, or fails (R300). -/
theorem oneWrite_clipDefineStep (c : Nat) (j : Job) (s : State) :
    s.clips.mem.OneWrite (clipDefineStep c j s).clips.mem := by
  unfold clipDefineStep
  dsimp only
  repeat' split
  · exact .inl rfl
  · exact .inl rfl
  · exact .inl rfl
  · exact .inr ⟨_, _, rfl⟩

/-- LOAD_CLIP stores a decoded frame, CLIP_DEFINE clears a clip, and no other command writes clip memory. -/
theorem oneWrite_body (i : Instr) (j : Job) (s : State) : s.clips.mem.OneWrite (bodyOf i j s).clips.mem := by
  cases i with
  | loadClip c =>
    cases loadEffect_step c j s with
    | held h => exact oneWrite_of_clips_eq (congrArg State.clips h)
    | failed clips _ => exact oneWrite_of_clips_eq clips
    | same _ clips _ => exact oneWrite_of_clips_eq clips
    | stored xs _ _ _ _ clips _ => exact .inr ⟨_, xs, congrArg ClipStore.mem clips⟩
    | ended _ clips _ =>
      left
      show (loadClipStep c j s).clips.mem = s.clips.mem
      rw [clips]
  | clipDefine c => exact oneWrite_clipDefineStep c j s
  | clipFreeAll =>
    show s.clips.mem.OneWrite (clipFreeAllStep j s).clips.mem
    unfold clipFreeAllStep
    split <;> exact .inl rfl
  | pauseVoice | resumeVoice | stopVoice | setVolume | setLoop =>
    exact oneWrite_of_clips_eq (by rw [voiceCommand_only rfl j s])
  | _ => exact oneWrite_of_clips_eq (by simp [bodyOf])

theorem mem_readEffect (r : Reg) (s : State) : (s.readEffect r).clips.mem = s.clips.mem := by
  unfold State.readEffect
  repeat' split
  all_goals rfl

theorem memOk_of_clips_eq {s t : State} (hs : s.MemOk) (h : t.clips = s.clips) : t.MemOk :=
  (oneWrite_of_clips_eq h).wf hs

/-- Settles O52: every part of a step leaves clip memory or writes one block of it, which keeps the form. -/
theorem stepKeepsMemOk : Obligations.StepKeepsMemOk := fun _ _ hs h =>
  step_keeps (I := State.MemOk) (env := fun _ _ h => h) (answer := fun _ _ h => h)
    (record := fun _ _ _ _ h => h)
    (read := fun u r h => Memory.OneWrite.wf (.inl (mem_readEffect r u)) h)
    (reg := fun u r v h => (oneWrite_regWrite r v u).wf h)
    (start := fun _ _ _ _ _ h => memOk_of_clips_eq h (by simp))
    (body := fun u j _ h => (oneWrite_body j.instr j u).wf h)
    (mixer := fun _ _ h => memOk_of_clips_eq h (by simp))
    (line := fun _ h => memOk_of_clips_eq h (by simp)) hs h

/-! ### The command in progress (R84, R325) -/

/-- The command `j` is still in progress, its operands as latched, or it has ended with CMD_DONE pending. -/
def State.KeepsOrEnds (j : Job) (t : State) : Prop :=
  (∃ p, t.cur = some { j with progress := p }) ∨ (t.cur = none ∧ t.irqPend &&& irqCmdDone = irqCmdDone)

theorem keepsOrEnds_of_cur {j : Job} {t : State} (h : t.cur = some j) : t.KeepsOrEnds j := .inl ⟨j.progress, h⟩

theorem keepsOrEnds_body {s : State} {j : Job} (h : s.cur = some j) : (bodyOf j.instr j s).KeepsOrEnds j := by
  rcases goesOn_body j.instr h with e | ⟨p, -, e⟩ | e
  · exact keepsOrEnds_of_cur e
  · exact .inl ⟨p, e⟩
  · exact .inr e

/-- Recording an error ends no command and withdraws no CMD_DONE. -/
theorem keepsOrEnds_record {j : Job} {t : State} (e : ErrCode) (op idx : Byte) (h : t.KeepsOrEnds j) :
    (t.record e op idx).KeepsOrEnds j := by
  refine h.imp id fun ⟨hcur, hdone⟩ => ⟨hcur, ?_⟩
  show (t.irqPend ||| irqError) &&& irqCmdDone = irqCmdDone
  rw [BitVec.and_comm] at hdone ⊢
  exact and_of_and_eq hdone (and_or_self _ _)

/-- Settles O9: only a sequencer step moves the command in progress, by `goesOn_body`; no CMD write starts another. -/
theorem runningCommandKept : Obligations.RunningCommandKept := fun _ _ j hj h =>
  step_establishes (I := fun s => s.cur = some j) (K := State.KeepsOrEnds j) (env := fun _ _ h => h)
    (same := fun _ h => keepsOrEnds_of_cur h) (answer := fun _ _ h => h)
    (record := fun _ e op idx h => keepsOrEnds_record e op idx h)
    (read := fun _ r h => keepsOrEnds_of_cur (by simpa using h))
    (reg := fun _ r v h => keepsOrEnds_of_cur (by simpa using h))
    (start := fun _ _ _ hidle _ h => by cases hidle.symm.trans h)
    (body := fun _ j' hj' h => by
      obtain rfl : j' = j := Option.some.inj (hj'.symm.trans h)
      exact keepsOrEnds_body hj')
    (mixer := fun _ _ h => keepsOrEnds_of_cur (by simpa using h))
    (line := fun _ h => keepsOrEnds_of_cur (by simpa using h)) hj h

end Sys2Proof.Machine

/-! PROOFS. The family 20_memory.md: the register map (R76). -/

namespace Sys2Proof.Machine

/-- Each single register is found at its own offset in its map, the two maps on either side of the TOC registers. -/
theorem lookup_controlMap : ∀ p ∈ controlMap, p.1 < 0x080 ∧ controlMap.lookup p.1 = some p.2 := by decide

theorem lookup_deviceMap : ∀ p ∈ deviceMap, 0x0E4 ≤ p.1 ∧ p.1 < 0x400 ∧ deviceMap.lookup p.1 = some p.2 := by
  decide

theorem regAt_of_mem_controlMap (n : Nat) {a : Nat} {r : Reg} (h : (a, r) ∈ controlMap) : regAt n a = some r := by
  obtain ⟨hlt, hr⟩ := lookup_controlMap _ h
  exact (if_pos hlt).trans hr

theorem regAt_of_mem_deviceMap (n : Nat) {a : Nat} {r : Reg} (h : (a, r) ∈ deviceMap) : regAt n a = some r := by
  obtain ⟨hge, hlt, hr⟩ := lookup_deviceMap _ h
  unfold regAt
  rw [if_neg (by omega), if_neg (by omega), if_pos hlt, hr]

theorem regAt_toc (n : Nat) {k : Nat} (hk : k < 25) : regAt n (0x080 + 4 * k) = some (.vbrToc k) := by
  have hdiv : (0x080 + 4 * k - 0x080) / 4 = k := by omega
  unfold regAt
  rw [if_neg (by omega), if_pos (by omega), hdiv]

theorem regAt_mask (n : Nat) {k : Nat} (hk : k < 8) :
    regAt n (0x400 + 4 * k) = if 32 * k < n then some (.stoppedMask k) else none := by
  have hdiv : (0x400 + 4 * k - 0x400) / 4 = k := by omega
  unfold regAt
  rw [if_neg (by omega), if_neg (by omega), if_neg (by omega), if_pos (by omega), hdiv]

/-- The window of voice slot v (R55). -/
theorem regAt_window {n v off : Nat} (hv : v < n) (ho : off < 16) :
    regAt n (0x1000 + off + 16 * v) = some (windowReg v off) := by
  have hdiv : (0x1000 + off + 16 * v - 0x1000) / 16 = v := by omega
  have hmod : (0x1000 + off + 16 * v - 0x1000) % 16 = off := by omega
  unfold regAt
  rw [if_neg (by omega), if_neg (by omega), if_neg (by omega), if_neg (by omega), if_neg (by omega), hdiv, hmod,
    if_pos hv]

/-- The offsets between the groups of registers (R76). -/
def Hole (a : Nat) : Prop :=
  a ∈ [0x024, 0x03C, 0x0FC, 0x15C] ∨ 0x0E4 ≤ a ∧ a ≤ 0x0EC ∨ 0x130 ≤ a ∧ a ≤ 0x13C ∨
    0x180 ≤ a ∧ a < 0x400 ∨ 0x420 ≤ a ∧ a < 0x1000

theorem not_hole_of_single : ∀ p ∈ controlMap ++ deviceMap, ¬ Hole p.1 := by
  unfold Hole
  decide

theorem regAt_of_hole (n : Nat) {a : Nat} (h : Hole a) : regAt n a = none := by
  by_contra hc
  obtain ⟨r, hr⟩ := Option.ne_none_iff_exists'.1 hc
  have hsingle : (a, r) ∉ controlMap ++ deviceMap := fun hm => not_hole_of_single _ hm h
  simp only [Hole, List.mem_cons, List.not_mem_nil, or_false] at h
  rcases regAt_cases hr with hm | hm | ⟨-, h1, h2⟩ | ⟨-, h1, h2⟩ | ⟨-, h1⟩
  · exact hsingle (List.mem_append_left _ hm)
  · exact hsingle (List.mem_append_right _ hm)
  · omega
  · omega
  · omega

theorem regAt_pastWindows {n a : Nat} (h : 0x1000 + 16 * n ≤ a) : regAt n a = none := by
  unfold regAt
  rw [if_neg (by omega), if_neg (by omega), if_neg (by omega), if_neg (by omega), if_neg (by omega),
    if_neg (by omega)]

/-- Settles O37: the single registers by their two maps, the arrays by their strides, the rest by `regAt_cases`. -/
theorem registerMap : Obligations.RegisterMap := by
  intro n
  refine ⟨fun a r h => regAt_of_mem_controlMap n (List.mem_of_mem_take (i := 14) h),
    fun a r h => regAt_of_mem_controlMap n (List.mem_of_mem_drop (i := 14) h), fun k => regAt_toc n,
    fun a r h => regAt_of_mem_deviceMap n (List.mem_of_mem_take (i := 15) h),
    fun a r h => regAt_of_mem_deviceMap n (List.mem_of_mem_drop (i := 15) h), fun k => regAt_mask n,
    fun v hv => ⟨regAt_window (off := 0) hv (by omega), regAt_window (off := 4) hv (by omega),
      regAt_window (off := 8) hv (by omega), regAt_window (off := 12) hv (by omega)⟩,
    fun a _ h => ?_⟩
  have hsplit : Hole a ∨ 0x1000 + 16 * n ≤ a := by simpa only [Hole, or_assoc] using h
  exact hsplit.elim (regAt_of_hole n) regAt_pastWindows

end Sys2Proof.Machine

/-! PROOFS. The family 20_memory.md: what a tick does to every slot (R231, R250 to R256, R271, R273). -/

namespace Sys2Proof.Machine

/-! ### The two fates of a slot -/

/-- Slot v was removed as the voice `x`: free, its bit and VOICE_STOPPED set, and the ring of a stream voice unbound (R256, R273). -/
structure State.Freed (v : Nat) (x : Voice) (t : State) : Prop where
  slot : t.voiceAt v = x.removed
  bit : t.stopped.getLsbD v = true
  irq : t.irqPend &&& irqVoiceStopped = irqVoiceStopped
  ring : x.stream = true → t.ring = ⟨false, false, 0, 0, []⟩

/-- Slot v holds `x`, was not removed since `s`, and the ring of a stream voice in use is `r`. -/
structure State.Holds (s : State) (v : Nat) (x : Voice) (r : Ring) (t : State) : Prop where
  slot : t.voiceAt v = x
  bit : t.stopped.getLsbD v = s.stopped.getLsbD v
  ring : x.streaming = true → t.ring = r

/-- For an active slot the ring's condition is that the voice is a stream voice. -/
theorem State.Holds.of_active {s t : State} {v : Nat} {x : Voice} {r : Ring} (h : s.Holds v x r t)
    (ha : x.active = true) :
    t.voiceAt v = x ∧ t.stopped.getLsbD v = s.stopped.getLsbD v ∧ (x.stream = true → t.ring = r) :=
  ⟨h.slot, h.bit, fun hx => h.ring (by simp [Voice.streaming, Voice.inUse, ha, hx])⟩

theorem freed_removeVoice {s : State} {v : Nat} (hv : v < 256) : (s.removeVoice v).Freed v (s.voiceAt v) where
  slot := by rw [voiceAt_removeVoice, if_pos rfl]
  bit := by
    rw [State.removeVoice_stopped, BitVec.getLsbD_or, getLsbD_stoppedBit v v hv]
    simp
  irq := irqPend_removeVoice s v
  ring := fun hx => by rw [State.removeVoice_ring, if_pos hx, unbind_eq]

/-- A free slot stays as it is while slots in use are removed. -/
theorem freed_removeInUse {t : State} {v : Nat} {x : Voice} (vs : List Nat) (h : t.Freed v x) :
    (t.removeInUse vs).Freed v x := by
  refine removeInUse_keeps (I := State.Freed v x) (fun u w hu hw => ?_) vs h
  have hne : v ≠ w := by
    rintro rfl
    rw [hu.slot] at hw
    cases hw
  refine ⟨?_, ?_, irqPend_removeVoice u w, fun hx => ?_⟩
  · rw [voiceAt_removeVoice, if_neg hne, hu.slot]
  · rw [State.removeVoice_stopped, BitVec.getLsbD_or, hu.bit, Bool.true_or]
  · rw [State.removeVoice_ring, hu.ring hx]
    split <;> rfl

/-- A slot in use that is in the list is removed. -/
theorem freed_of_mem {s t : State} {v : Nat} {x : Voice} {r : Ring} {vs : List Nat} (h : s.Holds v x r t)
    (hv : v < 256) (hx : x.inUse = true) (hm : v ∈ vs) : (t.removeInUse vs).Freed v x := by
  obtain ⟨rfl, -, -⟩ := h
  obtain ⟨hslot, hbit, hirq, hring⟩ := removeInUse_of_mem hm hx hv
  exact ⟨hslot, hbit, hirq, fun hs => by rw [hring hs, unbind_eq]⟩

/-- A slot that is not in the list is left alone, and with it the ring of its stream voice, the only one (R270). -/
theorem holds_of_not_mem {s t : State} {v : Nat} {x : Voice} {r : Ring} {vs : List Nat} (h : s.Holds v x r t)
    (hr : t.RingOk) (hv : v < 256) (hm : v ∉ vs) : s.Holds v x r (t.removeInUse vs) where
  slot := by rw [voiceAt_removeInUse_of_not (.inl hm), h.slot]
  bit := by rw [stopped_removeInUse_of_not (.inl hm) hv, h.bit]
  ring := fun hx => by
    rw [ring_removeInUse_of_clips, h.ring hx]
    intro u hu huse
    by_contra hc
    have hsu : (t.voiceAt u).streaming = true := by simpa [Voice.streaming, huse] using hc
    obtain rfl : u = v := eq_of_streaming hr hsu (by rw [h.slot, hx])
    exact hm hu

/-! ### Admission and the visits -/

/-- A slot in use is active after admission: it was, or it was queued (R231). -/
theorem voiceAt_admitAll_of_inUse {s : State} {v : Nat} (hq : s.QueueOk) (hu : (s.voiceAt v).inUse = true) :
    s.admitAll.voiceAt v = (s.voiceAt v).enter := by
  have hlt := lt_of_inUse s hu
  rw [voiceAt_admitAll]
  split
  · rfl
  · next hf =>
    have hp : (s.voiceAt v).pending = false := by
      by_contra hc
      exact hf ⟨(hq.2 v).2 (by simpa using hc), hlt⟩
    have ha : (s.voiceAt v).active = true := by simpa [Voice.inUse, hp] using hu
    unfold Voice.enter
    rw [← hp, ← ha]

/-- Admission leaves a slot that is not in use as it is. -/
theorem voiceAt_admitAll_of_not_inUse {s : State} {v : Nat} (hq : s.QueueOk) (hu : (s.voiceAt v).inUse = false) :
    s.admitAll.voiceAt v = s.voiceAt v := by
  rw [voiceAt_admitAll, if_neg]
  rintro ⟨hf, -⟩
  simp [Voice.inUse, (hq.2 v).1 hf] at hu

/-- The visits of a tick keep the ring with its one stream voice. -/
theorem ringOk_visits {s : State} (hq : s.QueueOk) (hr : s.RingOk) : s.admitAll.visits.s.RingOk :=
  foldl_visit_keeps (I := State.RingOk)
    (fun t v ht ha => ringOk_removeVoice ht (by simp [Voice.inUse, ha])) (fun t v ht _ => ringOk_readVoice v ht)
    (nodup_slotsWhere _ _) (fun v hv => ((mem_slotsWhere _).1 hv).2)
    (ringOk_of_streaming hr (oneStream_admitAll hq hr).1 (by simp))

/-- What one read of the voice `x` of the state `s` answers: the slot and, for a stream voice, the ring after it, and the frames (R252, R271). -/
structure State.Reads (s : State) (x : Voice) (y : Voice) (r : Ring) (fs : List StereoFrame) : Prop where
  stream : x.stream = true → readStream s.cfg.mixBlock x s.ring = (y, r, fs)
  clip : x.stream = false → readClip s.clips.mem s.cfg.mixBlock x.loop x = (y, fs)

theorem readVoice_eq {s : State} {v : Nat} {y : Voice} {r : Ring} {fs : List StereoFrame}
    (h : s.Reads (s.voiceAt v) y r fs) :
    s.readVoice v = ({ s.setVoice v y with ring := if (s.voiceAt v).stream then r else s.ring }, fs) := by
  unfold State.readVoice
  dsimp only
  split
  · next hx => rw [h.stream hx]
  · next hx => rw [h.clip (by simpa using hx)]; rfl

theorem readStream_cases (n : Nat) (x : Voice) (r : Ring) :
    ∃ p st, (readStream n x r).1 = { x with pos := p, state := st } := by
  unfold readStream
  split
  · exact ⟨x.pos, x.state, rfl⟩
  · exact ⟨_, _, rfl⟩

/-- A read changes only position and state of its slot. -/
theorem slot_of_reads {s : State} {x y : Voice} {r : Ring} {fs : List StereoFrame} (h : s.Reads x y r fs) :
    ∃ p st, y = { x with pos := p, state := st } := by
  rcases Bool.eq_false_or_eq_true x.stream with hx | hx
  · have hy := readStream_cases s.cfg.mixBlock x s.ring
    rwa [h.stream hx] at hy
  · have hy := readClip_cases s.clips.mem s.cfg.mixBlock x.loop x
    rwa [h.clip hx] at hy

theorem reads_congr {s t : State} {x y : Voice} {r : Ring} {fs : List StereoFrame} (h : s.Reads x y r fs)
    (hc : t.cfg = s.cfg) (hm : t.clips = s.clips) (hr : x.stream = true → t.ring = s.ring) : t.Reads x y r fs :=
  ⟨fun hx => by rw [hc, hr hx]; exact h.stream hx, fun hx => by rw [hc, hm]; exact h.clip hx⟩

/-- The visit of a STOPPED voice removes it unread (R236). -/
theorem visit_stopped {m : Mix} {v : Nat} (h : (m.s.voiceAt v).state = .stopped) :
    (visit m v).s = m.s.removeVoice v := by
  unfold visit
  simp [h]

/-- The visit of a PAUSED voice does nothing. -/
theorem visit_paused {m : Mix} {v : Nat} (h : (m.s.voiceAt v).state = .paused) : visit m v = m := by
  unfold visit
  simp [h]

/-- The visit of a PLAYING voice reads it once and removes it where the read stopped it. -/
theorem visit_playing {m : Mix} {v : Nat} (h : (m.s.voiceAt v).state = .playing) :
    (visit m v).s = (m.s.readVoice v).1.reap v := by
  unfold visit
  simp [h]

theorem reap_of_stopped {s : State} {v : Nat} (h : (s.voiceAt v).state = .stopped) : s.reap v = s.removeVoice v :=
  if_pos h

theorem reap_of_not_stopped {s : State} {v : Nat} (h : (s.voiceAt v).state ≠ .stopped) : s.reap v = s := if_neg h

/-- What is pending stays pending as long as IRQ_PEND only grows. -/
theorem pending_of_and_eq {x y b : BitVec 5} (h : x &&& y = x) (hb : x &&& b = b) : y &&& b = b := by
  rw [BitVec.and_comm] at hb ⊢
  exact and_of_and_eq hb h

/-- The mix `m` still shows the slot v of `s`, in use, as admission left it, and what its read depends on. -/
structure Mix.Shows (m : Mix) (s : State) (v : Nat) : Prop where
  slot : m.s.voiceAt v = (s.voiceAt v).enter
  cfg : m.s.cfg = s.cfg
  clips : m.s.clips = s.clips
  ring : (s.voiceAt v).stream = true → m.s.ring = s.ring

theorem Mix.Agrees.shows {m : Mix} {s : State} {v : Nat} (h : m.Agrees s.admitAll [v]) (hq : s.QueueOk)
    (hu : (s.voiceAt v).inUse = true) : m.Shows s v := by
  have he := voiceAt_admitAll_of_inUse hq hu
  refine ⟨(h.voices v (by simp)).trans he, by simpa using h.cfg, by simpa using h.clips, fun hst => ?_⟩
  simpa using h.ring v (by simp) (by rw [he]; exact hst)

section

variable {s : State} {v : Nat} (hq : s.QueueOk) (hr : s.RingOk) (hv : v < 256) (hu : (s.voiceAt v).inUse = true)
include hq hr hv hu

/-- A slot that its own visit frees is free after all visits. -/
theorem freed_visits {x : Voice} (hx : x.stream = (s.voiceAt v).stream)
    (h : ∀ m : Mix, m.Shows s v → (visit m v).s.Freed v x) : s.admitAll.visits.s.Freed v x := by
  have he := voiceAt_admitAll_of_inUse hq hu
  obtain ⟨m, hm, -, hslot, hbit, hring, hsticky⟩ := visits_at hv (by rw [he]; rfl) (oneStream_admitAll hq hr).2
  have hf := h m (hm.shows hq hu)
  exact ⟨hslot.trans hf.slot, hbit.trans hf.bit, pending_of_and_eq hsticky.2.1 hf.irq,
    fun hst => (hring (by rw [he]; exact hx.symm.trans hst)).trans (hf.ring hst)⟩

/-- A slot that its own visit leaves in use is so after all visits. -/
theorem holds_visits {x : Voice} {r : Ring} (hx : x.stream = (s.voiceAt v).stream)
    (h : ∀ m : Mix, m.Shows s v → m.s.Holds v x r (visit m v).s) : s.Holds v x r s.admitAll.visits.s := by
  have he := voiceAt_admitAll_of_inUse hq hu
  obtain ⟨m, hm, hbefore, hslot, hbit, hring, -⟩ := visits_at hv (by rw [he]; rfl) (oneStream_admitAll hq hr).2
  have hh := h m (hm.shows hq hu)
  refine ⟨hslot.trans hh.slot, ?_, fun hst => ?_⟩
  · rw [hbit, hh.bit, hbefore, admitAll_stopped]
  · have hxs : x.stream = true := (Bool.and_eq_true_iff.1 hst).2
    exact (hring (by rw [he]; exact hx.symm.trans hxs)).trans (hh.ring hst)

theorem visits_stopped (hst : (s.voiceAt v).state = .stopped) :
    s.admitAll.visits.s.Freed v (s.voiceAt v).enter := by
  refine freed_visits hq hr hv hu rfl fun m hm => ?_
  rw [visit_stopped (by rw [hm.slot]; exact hst), ← hm.slot]
  exact freed_removeVoice hv

theorem visits_paused (hst : (s.voiceAt v).state = .paused) :
    s.Holds v (s.voiceAt v).enter s.ring s.admitAll.visits.s := by
  refine holds_visits hq hr hv hu rfl fun m hm => ?_
  rw [visit_paused (by rw [hm.slot]; exact hst)]
  exact ⟨hm.slot, rfl, fun h => hm.ring (Bool.and_eq_true_iff.1 h).2⟩

/-- After its visit a PLAYING slot is as its one read leaves it, and free where the read stopped it. -/
theorem visits_playing {y : Voice} {r : Ring} {fs : List StereoFrame} (hst : (s.voiceAt v).state = .playing)
    (hread : s.Reads (s.voiceAt v).enter y r fs) :
    (y.state = .stopped → s.admitAll.visits.s.Freed v y) ∧
      (y.state ≠ .stopped → s.Holds v y r s.admitAll.visits.s) := by
  obtain ⟨p, st, hy⟩ := slot_of_reads hread
  have hstream : y.stream = (s.voiceAt v).stream := by rw [hy]; rfl
  have own : ∀ m : Mix, m.Shows s v → ∃ u : State, (visit m v).s = u.reap v ∧ m.s.Holds v y r u := by
    intro m hm
    have hrd : m.s.Reads (m.s.voiceAt v) y r fs := by
      rw [hm.slot]
      exact reads_congr hread hm.cfg hm.clips hm.ring
    have hlt : v < m.s.voices.length := lt_of_inUse _ (by rw [hm.slot]; simp [Voice.enter, Voice.inUse])
    have hms : (m.s.voiceAt v).stream = (s.voiceAt v).stream := by rw [hm.slot]; rfl
    refine ⟨_, visit_playing (by rw [hm.slot]; exact hst), ?_⟩
    rw [readVoice_eq hrd]
    refine ⟨(voiceAt_setVoice m.s v v y).trans (if_pos ⟨rfl, hlt⟩), rfl, fun hys => if_pos ?_⟩
    rw [hms, ← hstream]
    exact (Bool.and_eq_true_iff.1 hys).2
  refine ⟨fun hstop => freed_visits hq hr hv hu hstream fun m hm => ?_,
    fun hgo => holds_visits hq hr hv hu hstream fun m hm => ?_⟩ <;> obtain ⟨u, he, hh⟩ := own m hm <;> rw [he]
  · rw [reap_of_stopped (by rw [hh.slot]; exact hstop), ← hh.slot]
    exact freed_removeVoice hv
  · rw [reap_of_not_stopped (by rw [hh.slot]; exact hgo)]
    exact hh

end

/-- A slot that is not in use is not visited. -/
theorem visits_of_not_inUse {s : State} {v : Nat} (hq : s.QueueOk) (hv : v < 256) (hu : (s.voiceAt v).inUse = false) :
    s.Holds v (s.voiceAt v) s.ring s.admitAll.visits.s := by
  have he := voiceAt_admitAll_of_not_inUse hq hu
  have hnot : v ∉ s.admitAll.slotsWhere Voice.active := by
    intro hm
    have ha := ((mem_slotsWhere _).1 hm).2
    rw [he] at ha
    simp [Voice.inUse, ha] at hu
  refine ⟨?_, ?_, fun h => ?_⟩
  · exact (voiceAt_foldl_visit_of_not_mem hnot _).trans he
  · exact (stopped_foldl_visit_of_not_mem hv hnot _).trans (by rw [admitAll_stopped])
  · rw [streaming_eq_false_of_not_inUse hu] at h
    cases h

/-! ### The emission -/

/-- The slots, their stopped bits and the ring are the same, and what is pending stays so. -/
structure State.SameSlots (s t : State) : Prop where
  voices : t.voices = s.voices
  stopped : t.stopped = s.stopped
  ring : t.ring = s.ring
  irq : s.irqPend &&& t.irqPend = s.irqPend

section

variable {s t u : State}

theorem State.SameSlots.voiceAt (h : t.SameSlots u) (v : Nat) : u.voiceAt v = t.voiceAt v := by
  simp [State.voiceAt, h.voices]

theorem State.SameSlots.freed {v : Nat} {x : Voice} (h : t.SameSlots u) (hf : t.Freed v x) : u.Freed v x :=
  ⟨(h.voiceAt v).trans hf.slot, by rw [h.stopped, hf.bit], pending_of_and_eq h.irq hf.irq,
    fun hx => h.ring.trans (hf.ring hx)⟩

theorem State.SameSlots.holds {v : Nat} {x : Voice} {r : Ring} (h : t.SameSlots u) (hh : s.Holds v x r t) :
    s.Holds v x r u :=
  ⟨(h.voiceAt v).trans hh.slot, by rw [h.stopped, hh.bit], fun hx => h.ring.trans (hh.ring hx)⟩

theorem State.SameSlots.ringOk (h : t.SameSlots u) (hr : t.RingOk) : u.RingOk :=
  ringOk_of_streaming hr (fun v => by rw [h.voiceAt]) h.ring

end

/-- After the visits only a failing line write changes a slot: it removes the contributing voices in use (R255). -/
theorem tick_slots (s : State) :
    ∃ u : State, s.admitAll.visits.s.SameSlots u ∧
      (s.env.lineDraw = .ok ∧ u.SameSlots s.tick ∨
       s.env.lineDraw = .fail ∧ (u.removeInUse s.admitAll.visits.contrib).SameSlots s.tick) := by
  rcases tick_cases s with ⟨hnone, h⟩ | ⟨u, hu, h⟩
  · refine ⟨_, ⟨rfl, rfl, rfl, BitVec.and_self⟩, ?_⟩
    rw [hnone, h]
    cases s.env.lineDraw with
    | ok => exact .inl ⟨rfl, rfl, rfl, rfl, BitVec.and_self⟩
    | fail => exact .inr ⟨rfl, rfl, rfl, rfl, BitVec.and_self⟩
  · refine ⟨u, hu ▸ ⟨by simp, by simp, by simp, by simp⟩, ?_⟩
    rcases h with ⟨hd, h⟩ | ⟨hd, r, hr, h⟩
    · exact .inl ⟨hd, by rw [h]; exact ⟨rfl, rfl, rfl, BitVec.and_self⟩⟩
    · exact .inr ⟨hd, by rw [h, hr]; exact ⟨rfl, rfl, rfl, and_or_self _ _⟩⟩

/-- A slot that the visits free is free after the tick. -/
theorem freed_tick {s : State} {v : Nat} {x : Voice} (h : s.admitAll.visits.s.Freed v x) : s.tick.Freed v x := by
  obtain ⟨u, hsame, ⟨-, ht⟩ | ⟨-, ht⟩⟩ := tick_slots s
  · exact ht.freed (hsame.freed h)
  · exact ht.freed (freed_removeInUse _ (hsame.freed h))

/-- A contributing slot is free after a tick whose line write fails (R255). -/
theorem freed_tick_of_fail {s : State} {v : Nat} {x : Voice} {r : Ring} (h : s.Holds v x r s.admitAll.visits.s)
    (hv : v < 256) (hx : x.inUse = true) (hd : s.env.lineDraw = .fail) (hm : v ∈ s.admitAll.visits.contrib) :
    s.tick.Freed v x := by
  obtain ⟨u, hsame, ⟨hok, -⟩ | ⟨-, ht⟩⟩ := tick_slots s
  · cases hok.symm.trans hd
  · exact ht.freed (freed_of_mem (hsame.holds h) hv hx hm)

/-- Any other slot is after the tick as the visits leave it. -/
theorem holds_tick {s : State} {v : Nat} {x : Voice} {r : Ring} (hq : s.QueueOk) (hr : s.RingOk)
    (h : s.Holds v x r s.admitAll.visits.s) (hv : v < 256)
    (hm : s.env.lineDraw = .fail → v ∉ s.admitAll.visits.contrib) : s.Holds v x r s.tick := by
  obtain ⟨u, hsame, ⟨-, ht⟩ | ⟨hd, ht⟩⟩ := tick_slots s
  · exact ht.holds (hsame.holds h)
  · exact ht.holds (holds_of_not_mem (hsame.holds h) (hsame.ringOk (ringOk_visits hq hr)) hv (hm hd))

/-- A slot contributes exactly where it is active after admission and supplies a frame (R250). -/
theorem mem_contrib_iff {s : State} (hq : s.QueueOk) (hr : s.RingOk) (v : Nat) :
    v ∈ s.admitAll.visits.contrib ↔ (s.admitAll.voiceAt v).active = true ∧ s.admitAll.supplies v ≠ [] := by
  rw [contrib_visits hq hr, List.mem_filter, mem_slotsWhere, decide_eq_true_eq]
  refine ⟨fun ⟨⟨_, ha⟩, hs⟩ => ⟨ha, hs⟩, fun ⟨ha, hs⟩ => ⟨⟨lt_of_inUse _ ?_, ha⟩, hs⟩⟩
  simp [Voice.inUse, ha]

/-! ### The tick, slot by slot -/

/-- Without a stream voice in use the ring is unbound (R27). -/
theorem ring_of_no_stream {s : State} (hr : s.RingOk) (h : ∀ u, (s.voiceAt u).streaming = false) :
    s.ring = ⟨false, false, 0, 0, []⟩ := by
  refine hr.unbound ?_
  by_contra hb
  have hown := hr.owner (by simpa using hb)
  rw [h] at hown
  cases hown

/-- A tick makes no voice a stream voice. -/
theorem no_stream_tick {s : State} (hq : s.QueueOk) (h : ∀ u, (s.voiceAt u).streaming = false) (u : Nat) :
    (s.tick.voiceAt u).streaming = false := by
  refine forall_voiceAt s.tick (p := fun x => x.streaming = false) rfl (forall_voices_tick
    (forall_mem_voices s fun v _ => h v) (fun v hv hx => ?_) (fun _ _ => rfl) (fun t v hx => ?_)) u
  · have hp := (hq.2 v).1 hv
    simpa [Voice.streaming, Voice.inUse, Voice.enter, hp] using hx
  · obtain ⟨p, st, e⟩ := voiceAt_readVoice_self v t
    rw [e]
    exact hx

theorem step_of_tick {s : State} {d : LineDraw} (hn : s.env.nextTurn = .mixer d) (ht : s.tickEnabled = true) :
    step s = .next s.taking.tick ∧ s.taking.env.lineDraw = d := by
  have ht' : s.taking.tickEnabled = true := ht
  constructor
  · rw [step_eq, hn]
    show Host.Outcome.next s.taking.mixerTurn = _
    rw [State.mixerTurn, if_pos ht']
  · show (s.env.advance.withDraws s.env.nextTurn).lineDraw = d
    rw [hn]
    rfl

/-- A PLAYING voice contributes where its read supplies a frame. -/
theorem mem_contrib_of_reads {s : State} {v : Nat} {y : Voice} {r : Ring} {fs : List StereoFrame} (hq : s.QueueOk)
    (hr : s.RingOk) (hu : (s.voiceAt v).inUse = true) (hst : (s.voiceAt v).state = .playing)
    (hread : s.Reads (s.voiceAt v).enter y r fs) : v ∈ s.admitAll.visits.contrib ↔ fs ≠ [] := by
  have he := voiceAt_admitAll_of_inUse hq hu
  have hsup : s.admitAll.supplies v = fs := by
    have hrd : s.admitAll.Reads (s.admitAll.voiceAt v) y r fs := by
      rw [he]
      exact reads_congr hread (by simp) (by simp) (by simp)
    rw [State.supplies, readVoice_eq hrd, he]
    exact if_pos hst
  rw [mem_contrib_iff hq hr, hsup, he]
  exact and_iff_right rfl

/-- A slot that is not in use is as it was after the tick. -/
theorem tick_of_not_inUse {s : State} {v : Nat} (hq : s.QueueOk) (hr : s.RingOk) (hv : v < 256)
    (hu : (s.voiceAt v).inUse = false) : s.Holds v (s.voiceAt v) s.ring s.tick := by
  refine holds_tick hq hr (visits_of_not_inUse hq hv hu) hv fun _ hm => ?_
  obtain ⟨ha, -⟩ := (mem_contrib_iff hq hr v).1 hm
  rw [voiceAt_admitAll_of_not_inUse hq hu] at ha
  simp [Voice.inUse, ha] at hu

section

variable {s : State} {v : Nat} (hq : s.QueueOk) (hr : s.RingOk) (hv : v < 256) (hu : (s.voiceAt v).inUse = true)
include hq hr hv hu

/-- A PAUSED voice supplies nothing, so that no failing line write removes it. -/
theorem tick_paused (hst : (s.voiceAt v).state = .paused) : s.Holds v (s.voiceAt v).enter s.ring s.tick := by
  refine holds_tick hq hr (visits_paused hq hr hv hu hst) hv fun _ hm => ((mem_contrib_iff hq hr v).1 hm).2 ?_
  unfold State.supplies
  rw [voiceAt_admitAll_of_inUse hq hu]
  exact if_neg (by simp [Voice.enter, hst])

/-- A PLAYING voice is read once; the tick frees it where the read stopped it or a line write of its frames fails. -/
theorem tick_playing {y : Voice} {r : Ring} {fs : List StereoFrame} (hst : (s.voiceAt v).state = .playing)
    (hread : s.Reads (s.voiceAt v).enter y r fs) :
    (y.state = .stopped ∨ s.env.lineDraw = .fail ∧ fs ≠ [] → s.tick.Freed v y) ∧
      (¬ (y.state = .stopped ∨ s.env.lineDraw = .fail ∧ fs ≠ []) → s.Holds v y r s.tick) := by
  obtain ⟨hfreed, hholds⟩ := visits_playing hq hr hv hu hst hread
  have hmem := mem_contrib_of_reads hq hr hu hst hread
  by_cases hstop : y.state = .stopped
  · exact ⟨fun _ => freed_tick (hfreed hstop), fun h => absurd (.inl hstop) h⟩
  · refine ⟨fun h => ?_, fun h => holds_tick hq hr (hholds hstop) hv fun hd hm => h (.inr ⟨hd, hmem.1 hm⟩)⟩
    obtain ⟨hd, hfs⟩ := h.resolve_left hstop
    obtain ⟨p, st, hy⟩ := slot_of_reads hread
    exact freed_tick_of_fail (hholds hstop) hv (by rw [hy]; simp [Voice.enter, Voice.inUse]) hd (hmem.2 hfs)

end

theorem removed_of_stopped {x : Voice} (hst : x.state = .stopped) (hp : x.pending = false) :
    x.removed = { x with active := false } := by
  unfold Voice.removed
  rw [← hst, ← hp]

/-- Settles O46: slot by slot the visit, then what the emission leaves of it; the ring is the one stream voice's. -/
theorem tickVisitsVoices : Obligations.TickVisitsVoices := by
  intro s t d v x hq hr hturn henabled hstep hv hx
  obtain ⟨htick, hdraw⟩ := step_of_tick hturn henabled
  obtain rfl : s.taking.tick = t := by
    rw [htick] at hstep
    injection hstep
  obtain rfl : x = (s.voiceAt v).enter := hx
  have hq : s.taking.QueueOk := hq
  have hr : s.taking.RingOk := hr
  refine ⟨fun hu => ⟨fun hst => ?stopped, fun hst => ?paused, fun y r fs hst hstream hclip => ?playing⟩,
    fun hu => ?notInUse, fun hnone => ?noStream⟩
  case stopped =>
    have hf := freed_tick (visits_stopped hq hr hv hu hst)
    exact ⟨hf.slot.trans (removed_of_stopped hst rfl), hf.bit, hf.irq, hf.ring⟩
  case paused => exact (tick_paused hq hr hv hu hst).of_active rfl
  case playing =>
    have hread : s.taking.Reads (s.taking.voiceAt v).enter y r fs := ⟨hstream, hclip⟩
    obtain ⟨p, st, rfl⟩ := slot_of_reads hread
    obtain ⟨hfreed, hholds⟩ := tick_playing hq hr hv hu hst hread
    rw [hdraw] at hfreed hholds
    refine ⟨fun h => ?_, fun h => (hholds h).of_active rfl⟩
    have hf := hfreed h
    exact ⟨hf.slot, hf.bit, hf.irq, hf.ring⟩
  case notInUse =>
    have hh := tick_of_not_inUse hq hr hv hu
    exact ⟨hh.slot, hh.bit⟩
  case noStream =>
    have hafter := ring_of_no_stream (ringOk_tick hq hr) (no_stream_tick hq hnone)
    exact hafter.trans (ring_of_no_stream hr hnone).symm

end Sys2Proof.Machine

/-! PROOFS. The family 30_encoding.md: the command word (R100, R101, R104, R105, R127). -/

namespace Sys2Proof

/-! ### Words and rows of the opcode map -/

/-- The law LegalWord holds of every command. -/
theorem Laws.LegalWord.all (i : Instr) : Laws.LegalWord.Statement i := by
  cases i with
  | nop => exact nop
  | resetStream => exact resetStream
  | readFrame => exact readFrame
  | decodeFrame => exact decodeFrame
  | loadClip c => exact loadClip c
  | playStream => exact playStream
  | clipDefine c => exact clipDefine c
  | clipFreeAll => exact clipFreeAll
  | mixerStart => exact mixerStart
  | mixerStop => exact mixerStop
  | mixerSync => exact mixerSync
  | playVoice c loop => exact playVoice c loop
  | pauseVoice v => exact pauseVoice v
  | resumeVoice v => exact resumeVoice v
  | stopVoice v => exact stopVoice v
  | setVolume v => exact setVolume v
  | setLoop v loop => exact setLoop v loop
  | bypassWrite c => exact bypassWrite c

/-- The opcode and the operands of a command name it. -/
theorem instrOf_operands (i : Instr) : instrOf i.opcode i.idx i.loopFlag = some i := by cases i <;> rfl

/-- Settles O1: the fields of a command's word are its opcode and operands (LegalWord), and these name the command. -/
theorem decodeOfEncode : Obligations.DecodeOfEncode := by
  intro i hw
  obtain ⟨hop, hidx, hloop, r, hr, hrow, hmask⟩ := Laws.LegalWord.all i hw
  rw [decode_ok_iff, hop, hidx, hloop]
  exact ⟨r, hr, hrow, hmask, instrOf_operands i⟩

/-- Settles O3: each word is the encoding of the command it stands for. -/
theorem listedWordsDecode : Obligations.ListedWordsDecode :=
  ⟨decodeOfEncode .nop rfl, decodeOfEncode .resetStream rfl, decodeOfEncode .readFrame rfl,
    decodeOfEncode .decodeFrame rfl, decodeOfEncode (.loadClip 7) rfl, decodeOfEncode .playStream rfl,
    decodeOfEncode (.clipDefine 5) rfl, decodeOfEncode .clipFreeAll rfl, decodeOfEncode .mixerStart rfl,
    decodeOfEncode .mixerStop rfl, decodeOfEncode .mixerSync rfl, decodeOfEncode (.playVoice 3 true) rfl,
    decodeOfEncode (.pauseVoice 2) rfl, decodeOfEncode (.resumeVoice 2) rfl, decodeOfEncode (.stopVoice 1) rfl,
    decodeOfEncode (.setVolume 255) rfl, decodeOfEncode (.setLoop 0 true) rfl, decodeOfEncode (.bypassWrite 1) rfl⟩

/-- How many low bits a row uses: OP, with IDX above it, with LOOP above both (R100). -/
def OpRow.width (r : OpRow) : Nat := if r.usesLoop then 17 else if r.usesIdx then 16 else 8

/-- A row's mask is that of its low bits. -/
theorem mask_eq_of_mem : ∀ r ∈ opTable, r.width < 32 ∧ r.mask = BitVec.ofNat 32 (2 ^ r.width - 1) := by decide

/-- The row of a command, and its operands where the row uses them. -/
theorem fields_of_instrOf {r : OpRow} (hr : r ∈ opTable) {idx : Nat} {loop : Bool} {i : Instr}
    (hi : instrOf r.op idx loop = some i) :
    i.opcode = r.op ∧ i.idx = (if r.usesIdx then idx else 0) ∧ i.loopFlag = (r.usesLoop && loop) ∧
      (idx < 256 → i.wf = true) := by
  fin_cases hr <;> obtain rfl := Option.some.inj hi <;>
    simp [Instr.opcode, Instr.idx, Instr.loopFlag, Instr.wf, fitsIdx]

/-- Every row names a command. -/
theorem exists_instrOf {r : OpRow} (hr : r ∈ opTable) (idx : Nat) (loop : Bool) :
    ∃ i, instrOf r.op idx loop = some i := by
  fin_cases hr <;> exact ⟨_, rfl⟩

/-- A word with a row's opcode and nothing outside the row's fields. -/
def OpRow.Fits (r : OpRow) (w : Word) : Prop := r.op = opField w ∧ w.toNat < 2 ^ r.width

/-- `decode_ok_iff` with the row's mask as a bound. -/
theorem decode_ok_iff_fits (w : Word) (i : Instr) :
    decode w = .ok i ↔ ∃ r ∈ opTable, r.Fits w ∧ instrOf r.op (idxField w).toNat (loopField w) = some i := by
  rw [decode_ok_iff]
  refine exists_congr fun r => and_congr_right fun hr => ?_
  obtain ⟨hlt, hmask⟩ := mask_eq_of_mem r hr
  rw [hmask, and_low_mask_iff w _ hlt, OpRow.Fits, and_assoc]
  exact and_congr_right fun hop => by rw [hop]

/-- A word is legal where it fits a row. -/
theorem exists_decode_iff (w : Word) : (∃ i, decode w = .ok i) ↔ ∃ r ∈ opTable, r.Fits w := by
  simp only [decode_ok_iff_fits]
  constructor
  · rintro ⟨_, r, hr, hfits, -⟩
    exact ⟨r, hr, hfits⟩
  · rintro ⟨r, hr, hfits⟩
    obtain ⟨i, hi⟩ := exists_instrOf hr (idxField w).toNat (loopField w)
    exact ⟨i, r, hr, hfits, hi⟩

/-- The opcodes of a width, in the order of the opcode map. -/
def opcodesOfWidth (n : Nat) : List Nat := (opTable.filter (fun r => r.width = n)).map (fun r => r.op.toNat)

theorem mem_opcodesOfWidth (n k : Nat) :
    k ∈ opcodesOfWidth n ↔ ∃ r ∈ opTable, r.width = n ∧ r.op.toNat = k := by
  simp [opcodesOfWidth, and_assoc]

theorem width_cases (r : OpRow) : r.width = 8 ∨ r.width = 16 ∨ r.width = 17 := by
  unfold OpRow.width
  split
  · exact .inr (.inr rfl)
  · split
    · exact .inr (.inl rfl)
    · exact .inl rfl

/-- The legal words, by the width of their rows. -/
theorem exists_decode_iff_width (w : Word) : (∃ i, decode w = .ok i) ↔
    (w.toNat % 256 ∈ opcodesOfWidth 8 ∧ w.toNat < 2 ^ 8) ∨
    (w.toNat % 256 ∈ opcodesOfWidth 16 ∧ w.toNat < 2 ^ 16) ∨
    (w.toNat % 256 ∈ opcodesOfWidth 17 ∧ w.toNat < 2 ^ 17) := by
  simp only [exists_decode_iff, mem_opcodesOfWidth, OpRow.Fits, ← BitVec.toNat_inj, opField_toNat]
  constructor
  · rintro ⟨r, hr, hop, hlt⟩
    rcases width_cases r with hn | hn | hn <;> rw [hn] at hlt
    · exact .inl ⟨⟨r, hr, hn, hop⟩, hlt⟩
    · exact .inr (.inl ⟨⟨r, hr, hn, hop⟩, hlt⟩)
    · exact .inr (.inr ⟨⟨r, hr, hn, hop⟩, hlt⟩)
  · rintro (⟨⟨r, hr, hn, hop⟩, hlt⟩ | ⟨⟨r, hr, hn, hop⟩, hlt⟩ | ⟨⟨r, hr, hn, hop⟩, hlt⟩)
    all_goals exact ⟨r, hr, hop, hn ▸ hlt⟩

/-- No row uses LOOP without IDX. -/
theorem usesIdx_of_usesLoop : ∀ r ∈ opTable, r.usesLoop = true → r.usesIdx = true := by decide

/-- The OP, IDX and LOOP fields that a row uses, in their places, make up a word within the row's bits. -/
theorem toNat_of_fields {r : OpRow} (hr : r ∈ opTable) {n : Nat} (hlt : n < 2 ^ r.width) :
    n % 2 ^ 8 + 2 ^ 8 * ((if r.usesIdx then n / 2 ^ 8 % 2 ^ 8 else 0) % 2 ^ 8) +
      2 ^ 16 * (if (r.usesLoop && decide (n / 2 ^ 16 % 2 = 1)) = true then 1 else 0) = n := by
  have hboth := usesIdx_of_usesLoop r hr
  unfold OpRow.width at hlt
  cases hl : r.usesLoop with
  | true =>
    simp only [hl, hboth hl, if_true, Bool.true_and, decide_eq_true_eq] at hlt ⊢
    split <;> omega
  | false =>
    cases hi : r.usesIdx <;> simp [hl, hi] at hlt ⊢ <;> omega

/-- A legal word is the word of its command. -/
theorem encode_of_decode {w : Word} {i : Instr} (h : decode w = .ok i) : encode i = w ∧ i.wf = true := by
  obtain ⟨r, hr, ⟨hop, hlt⟩, hi⟩ := (decode_ok_iff_fits w i).1 h
  obtain ⟨hopcode, hidx, hloop, hwf⟩ := fields_of_instrOf hr hi
  refine ⟨BitVec.eq_of_toNat_eq ?_, hwf (idxField w).isLt⟩
  rw [encode_toNat, hopcode, hop, opField_toNat, hidx, hloop, idxField_toNat, loopField_eq]
  exact toNat_of_fields hr hlt

/-- Settles O2: the legal words by the widths of the rows of the opcode map, and `encode_of_decode`. -/
theorem legalWords : Obligations.LegalWords := ⟨exists_decode_iff_width, fun _ _ => encode_of_decode⟩

end Sys2Proof

/-! PROOFS. The family 30_encoding.md: the CMD write (R101, R102, R105, R145, R215, R324, R325). -/

namespace Sys2Proof.Machine

/-- The start part of LOAD_CLIP: its two checks, then its load begins at CLIP_ALLOC. -/
theorem loadClipStart_latch (c : Nat) (s : State) :
    loadClipStart c (s.latch (.loadClip c)) =
      if s.nClips ≤ c then s.raise .badIndex 0x04 (BitVec.ofNat 8 c)
      else if s.ring.bound = true then s.raise .badState 0x04 (BitVec.ofNat 8 c)
      else
        { s with cur := some ⟨.loadClip c, s.arg0, s.arg1, .loading ⟨s.clips.alloc, 0, 0, 0, 0, 0⟩⟩
                 frame := none
                 flags := { s.flags with frameValid := false } } := rfl

/-- Settles O6: exec from an idle sequencer is the start part of the command, on the latched operands. -/
theorem commandStarts : Obligations.CommandStarts := by
  intro i s hidle
  rw [exec_of_idle i hidle]
  cases i with
  | loadClip c => exact congrArg _ (loadClipStart_latch c s)
  | _ => rfl

/-- The CMD write of a word that is no command records BAD_COMMAND. -/
theorem afterIssue_of_illegal {s : State} {w : Word} (hidle : s.cur = none) (hd : ∀ i, decode w ≠ .ok i) :
    s.afterIssue w = s.record .badCommand (opField w) (idxField w) := by
  have hbusy : s.busy = false := by simp [State.busy, hidle]
  cases h : decode w with
  | error e => simp [State.afterIssue, hbusy, h]
  | ok i => exact absurd h (hd i)

/-- The CMD write of any word while a command is in progress records CMD_BUSY. -/
theorem afterIssue_of_busy {s : State} {j : Job} (hj : s.cur = some j) (w : Word) :
    s.afterIssue w = s.record .cmdBusy (opField w) (idxField w) := by
  simp [State.afterIssue, State.busy, hj]

/-- Settles O7: the CMD write is IssueCommand in the state with the turn taken, and both refusals only record. -/
theorem rejectedWords : Obligations.RejectedWords := by
  refine ⟨fun s w hidle hturn hd => ?_, fun s w j hj hturn => ?_⟩
  · have hidle' : s.taking.cur = none := hidle
    rw [step_of_cmdWrite hturn, afterIssue_of_illegal hidle' hd]
    rfl
  · have hbusy : s.taking.cur = some j := hj
    rw [step_of_cmdWrite hturn, afterIssue_of_busy hbusy w]
    rfl

end Sys2Proof.Machine

/-! PROOFS. The family 30_encoding.md: the voice commands and the volume (R102, R103, R231 to R238, R253, R270). -/

namespace Sys2Proof.Machine

/-! ### Commands on a slot in use (R233 to R238) -/

/-- A voice command on a slot in use runs its own effect (R233). -/
theorem onVoice_of_inUse {op : Byte} {v : Nat} {act : State → State} {s : State} (hv : v < s.nVoices)
    (hu : (s.voiceAt v).inUse = true) : onVoice op v act s = act s := by
  rcases onVoice_cases op v act s with ⟨hge, -⟩ | ⟨-, hfree, -⟩ | ⟨-, -, h⟩
  · omega
  · rw [hfree] at hu
    cases hu
  · exact h

theorem pause_eq (x : Voice) :
    x.pause = { x with state := if x.state = .playing then .paused else x.state } := by
  unfold Voice.pause
  split <;> rfl

theorem resume_eq (x : Voice) :
    x.resume = { x with state := if x.state = .paused then .playing else x.state } := by
  unfold Voice.resume
  split <;> rfl

theorem setLoopEffect_of_clip {s : State} {v : Nat} (h : (s.voiceAt v).stream = false) (loop : Bool) :
    setLoopEffect v loop s = (s.setVoice v { s.voiceAt v with loop := loop }).complete 0 := by
  simp [setLoopEffect, h]

theorem setLoopEffect_of_stream {s : State} {v : Nat} (h : (s.voiceAt v).stream = true) (loop : Bool) :
    setLoopEffect v loop s = s.raise .badState 0x18 (BitVec.ofNat 8 v) := by
  simp only [setLoopEffect, h, if_true]
  rfl

/-- Settles O30: each voice command runs its own effect on a slot in use. -/
theorem voiceCommandResults : Obligations.VoiceCommandResults := by
  refine ⟨fun s j v hj hv hu => ⟨?pause, ?resume, ?stop⟩,
    fun s j v loop hj hv hu => ⟨?volume, fun hc => ?clip, fun hs => ?stream⟩⟩
  all_goals
    rw [exec_of_busy _ hj]
    simp only [bodyOf, onVoice_of_inUse hv hu]
  case pause => rw [pause_eq]; rfl
  case resume => rw [resume_eq]; rfl
  case stop => rfl
  case volume => rfl
  case clip => rw [setLoopEffect_of_clip hc loop]; rfl
  case stream => rw [setLoopEffect_of_stream hs loop]

/-! ### PLAY_VOICE (R232) -/

/-- The checks of a clip operand on a descriptor that exists, in their order. -/
theorem clipError_eq {s : State} {c : Nat} {d : ClipDesc} (hd : s.clips.descs[c]? = some d) :
    s.clipError c =
      if d.valid = false then some .unknownSoundKey else if d.rate ≠ 44100 then some .formatMismatch else none := by
  have hc : ¬ s.nClips ≤ c := Nat.not_le_of_lt (lt_of_getElem? s hd)
  simp [State.clipError, hc, descAt_of_getElem? s hd, Config.lineRate]

theorem clipError_of_ge {s : State} {c : Nat} (h : s.nClips ≤ c) : s.clipError c = some .badIndex := if_pos h

/-- PLAY_VOICE of a clip that fails a check raises the error of that check. -/
theorem playVoiceStep_of_clipError {s : State} {c : Nat} {e : ErrCode} (he : s.clipError c = some e) (loop : Bool)
    (j : Job) : playVoiceStep c loop j s = s.raise e 0x13 (BitVec.ofNat 8 c) := by
  simp only [playVoiceStep, he]
  rfl

theorem playVoiceStep_of_noSlot {s : State} {c : Nat} (hc : s.clipError c = none) (hv : s.freeSlot = none) (loop : Bool)
    (j : Job) : playVoiceStep c loop j s = s.raise .voiceLimit 0x13 (BitVec.ofNat 8 c) := by
  simp only [playVoiceStep, hc, hv]
  rfl

theorem playVoiceStep_of_freeSlot {s : State} {c v : Nat} (hc : s.clipError c = none) (hv : s.freeSlot = some v)
    (loop : Bool) (j : Job) : playVoiceStep c loop j s =
      (s.queueVoice v (newClipVoice c (s.descAt c) loop (volumeOperand j.arg0))).complete v := by
  simp only [playVoiceStep, hc, hv]

/-- Settles O28: the checks by `clipError_eq`, the slot by `freeSlot_eq_some_iff`. -/
theorem playVoice : Obligations.PlayVoice := by
  refine ⟨fun s j c v loop d hj hd hvalid hrate hv hfree hlow => ?plays, fun s j c loop hj =>
    ⟨fun hge => ?badIndex, fun d hd => ⟨fun hvalid => ?unknown, fun hvalid hrate => ?mismatch,
      fun hvalid hrate hfull => ?limit⟩⟩⟩
  all_goals rw [exec_of_busy (.playVoice c loop) hj]; refine congrArg _ ?_
  case plays =>
    have hc : s.clipError c = none := by simp [clipError_eq hd, hvalid, hrate]
    have hslot : s.freeSlot = some v := (freeSlot_eq_some_iff s v).2 ⟨hv, hfree, hlow⟩
    refine (playVoiceStep_of_freeSlot hc hslot loop j).trans ?_
    rw [descAt_of_getElem? s hd]
    rfl
  case badIndex => exact playVoiceStep_of_clipError (clipError_of_ge hge) loop j
  case unknown => exact playVoiceStep_of_clipError (by simp [clipError_eq hd, hvalid]) loop j
  case mismatch => exact playVoiceStep_of_clipError (by simp [clipError_eq hd, hvalid, hrate]) loop j
  case limit =>
    exact playVoiceStep_of_noSlot (by simp [clipError_eq hd, hvalid, hrate]) ((freeSlot_eq_none_iff s).2 hfull) loop j

/-! ### PLAY_STREAM (R270) -/

theorem streamChannels_eq (s : State) :
    s.streamChannels = if s.dec.init = true then s.dec.dch else s.hdr.fields.toNat / 2 ^ 21 % 4 := by
  simp [State.streamChannels, State.hdrChannels, BitVec.extractLsb'_toNat, Nat.shiftRight_eq_div_pow]

/-- A bound ring, or no frame yet. -/
theorem playStreamStep_of_badState {s : State} (h : s.ring.bound = true ∨ s.stream.nframes = 0) (j : Job) :
    playStreamStep j s = s.raise .badState 0x05 0 := by
  unfold playStreamStep
  by_cases hb : s.ring.bound = true
  · exact if_pos hb
  · exact (if_neg hb).trans (if_pos (h.resolve_left hb))

section
variable {s : State} (hb : s.ring.bound = false) (hn : s.stream.nframes ≠ 0)
include hb hn

theorem playStreamStep_of_rate (hr : s.hdr.sampleRate.toNat ≠ 44100) (j : Job) :
    playStreamStep j s = s.raise .formatMismatch 0x05 0 := by
  simp [playStreamStep, hb, hn, Config.lineRate, hr, Instr.opcode]

theorem playStreamStep_of_noSlot (hr : s.hdr.sampleRate.toNat = 44100) (hv : s.freeSlot = none) (j : Job) :
    playStreamStep j s = s.raise .voiceLimit 0x05 0 := by
  simp [playStreamStep, hb, hn, Config.lineRate, hr, hv, Instr.opcode]

theorem playStreamStep_of_freeSlot (hr : s.hdr.sampleRate.toNat = 44100) {v : Nat} (hv : s.freeSlot = some v)
    (j : Job) : playStreamStep j s =
      ({ s.queueVoice v (newStreamVoice s.streamChannels (volumeOperand j.arg0)) with
          ring := { bound := true, closed := false, voice := v, ch := s.streamChannels, buf := [] } }).complete v := by
  simp [playStreamStep, hb, hn, Config.lineRate, hr, hv]

end

/-- Settles O31: the checks case by case, the slot by `freeSlot_eq_some_iff`. -/
theorem playStreamResult : Obligations.PlayStreamResult := by
  intro s j v ch hj
  rw [exec_of_busy .playStream hj]
  refine ⟨fun hb => congrArg _ ?bound, fun _ hn => congrArg _ ?noFrame, fun hb hn hr => congrArg _ ?rate,
    fun hb hn hr hfull => congrArg _ ?limit, fun hb hn hr hv hfree hlow hch => congrArg _ ?plays⟩
  case bound => exact playStreamStep_of_badState (.inl hb) j
  case noFrame => exact playStreamStep_of_badState (.inr hn) j
  case rate => exact playStreamStep_of_rate hb hn hr j
  case limit => exact playStreamStep_of_noSlot hb hn hr ((freeSlot_eq_none_iff s).2 hfull) j
  case plays =>
    have hslot : s.freeSlot = some v := (freeSlot_eq_some_iff s v).2 ⟨hv, hfree, hlow⟩
    rw [hch, ← streamChannels_eq]
    exact playStreamStep_of_freeSlot hb hn hr hslot j

/-! ### Scaling (R103, R253) -/

/-- A sample times a volume of at most 1.0, shifted back, is a sample's number. -/
theorem scaled_range (x : Sample) {vol : Nat} (hvol : vol ≤ 32768) :
    -32768 ≤ x.toInt * vol / 32768 ∧ x.toInt * vol / 32768 ≤ 32767 := by
  have hlow : -32768 ≤ x.toInt := BitVec.le_toInt x
  have hhigh : x.toInt ≤ 32767 := Int.le_of_lt_add_one (BitVec.toInt_lt (x := x))
  have h0 : (0 : Int) ≤ vol := Int.natCast_nonneg vol
  have h1 : (vol : Int) ≤ 32768 := by exact_mod_cast hvol
  have hmin : -32768 * 32768 ≤ x.toInt * vol := by nlinarith
  have hmax : x.toInt * vol ≤ 32767 * 32768 := by nlinarith
  omega

/-- clamp16 leaves a sample's number alone. -/
theorem clamp16_of_range {y : Int} (h : -32768 ≤ y ∧ y ≤ 32767) : clamp16 y = y := by
  unfold clamp16
  omega

/-- A volume in [0, 32768] needs no clamping: scaling is the floor of the product. -/
theorem scale_eq (x : Sample) {vol : Nat} (hvol : vol ≤ 32768) : scale x vol = x.toInt * vol / 32768 :=
  clamp16_of_range (scaled_range x hvol)

/-- Settles O42: `scale_eq` at every volume, at 1.0 and at 0. -/
theorem scaleLaws : Obligations.ScaleLaws := by
  refine ⟨fun x vol hvol => ?range, fun x => ⟨?one, ?zero⟩, by decide, by decide, by decide, by decide⟩
  case range =>
    rw [scale_eq x hvol]
    exact ⟨rfl, scaled_range x hvol⟩
  case one =>
    rw [scale_eq x le_rfl]
    exact Int.mul_ediv_cancel _ (by decide)
  case zero =>
    rw [scale_eq x (Nat.zero_le _)]
    simp

end Sys2Proof.Machine

/-! PROOFS. The family 30_encoding.md: the clip store (R102, R106, R300, R301). -/

namespace Sys2Proof.Machine

/-- A format operand in numbers: bits 31:22 zero, CH 1 or 2, a rate that is not 0. -/
theorem formatOk_iff (w : Word) :
    formatOk w = true ↔ (w.toNat / 2 ^ 20 = 1 ∨ w.toNat / 2 ^ 20 = 2) ∧ w.toNat % 2 ^ 20 ≠ 0 := by
  have hw := w.isLt
  simp only [formatOk, formatCh, formatRate, Bool.and_eq_true, Bool.or_eq_true, decide_eq_true_eq, ← BitVec.toNat_inj,
    BitVec.extractLsb'_toNat, Nat.shiftRight_eq_div_pow, BitVec.toNat_ofNat]
  omega

/-- The fields of a format operand whose bits 31:22 are zero. -/
theorem format_fields {w : Word} (h : w.toNat / 2 ^ 20 = 1 ∨ w.toNat / 2 ^ 20 = 2) :
    formatRate w = w.toNat % 2 ^ 20 ∧ formatCh w = w.toNat / 2 ^ 20 := by
  simp only [formatCh, formatRate, BitVec.extractLsb'_toNat, Nat.shiftRight_eq_div_pow]
  omega

section
variable {s : State} {j : Job} {c : Nat}

theorem clipDefineStep_of_ge (hc : s.nClips ≤ c) : clipDefineStep c j s = s.raise .badIndex 0x08 (BitVec.ofNat 8 c) :=
  if_pos hc

theorem clipDefineStep_of_format (hc : c < s.nClips) (hf : ¬ formatOk j.arg1 = true) :
    clipDefineStep c j s = s.raise .badCommand 0x08 (BitVec.ofNat 8 c) := by
  simp [clipDefineStep, hc, hf, Instr.opcode, idx8]

theorem clipDefineStep_of_full (hc : c < s.nClips) (hf : formatOk j.arg1 = true)
    (hfull : s.cfg.clipMemSamples < s.clips.alloc + j.arg0.toNat * formatCh j.arg1) :
    clipDefineStep c j s = s.raise .clipFull 0x08 (BitVec.ofNat 8 c) := by
  simp [clipDefineStep, hc, hf, lengthOperand, hfull, Instr.opcode, idx8]

/-- CLIP_DEFINE with room zero-fills the cells of the clip, writes its descriptor and moves CLIP_ALLOC past it. -/
theorem clipDefineStep_of_room (hc : c < s.nClips) (hf : formatOk j.arg1 = true)
    (hroom : s.clips.alloc + j.arg0.toNat * formatCh j.arg1 ≤ s.cfg.clipMemSamples) :
    clipDefineStep c j s =
      { s with
        clips := { s.clips with
          mem := Memory.writeBlock s.clips.mem s.clips.alloc (List.replicate (j.arg0.toNat * formatCh j.arg1) 0)
          alloc := s.clips.alloc + j.arg0.toNat * formatCh j.arg1
          descs := s.clips.descs.set c ⟨true, s.clips.alloc, j.arg0.toNat, formatRate j.arg1, formatCh j.arg1⟩ }
        result := BitVec.ofNat 32 s.clips.alloc, cur := none, irqPend := s.irqPend ||| irqCmdDone } := by
  refine (if_neg (Nat.not_le_of_lt hc)).trans ((if_neg ?_).trans (if_neg (Nat.not_lt_of_le hroom)))
  simp [hf]

end

/-- A cell of a zero-filled region. -/
theorem Memory.read?_zeroFill {m : Memory} (hm : Memory.wf m = true) {base n a : Nat} (h1 : base ≤ a)
    (h2 : a < base + n) :
    Memory.read? (Memory.writeBlock m base (List.replicate n 0)) a = some 0 := by
  rw [Memory.read?_writeBlock hm, List.length_replicate, if_pos ⟨h1, h2⟩]
  exact List.getElem?_replicate_of_lt (by omega)

/-- A cell outside a zero-filled region. -/
theorem Memory.read?_zeroFill_of_outside {m : Memory} (hm : Memory.wf m = true) {base n a : Nat}
    (h : a < base ∨ base + n ≤ a) :
    Memory.read? (Memory.writeBlock m base (List.replicate n 0)) a = Memory.read? m a := by
  rw [Memory.read?_writeBlock hm, List.length_replicate, if_neg (by omega)]

/-- CLIP_FREE_ALL looks for a clip voice in use. -/
theorem any_onClip_iff (s : State) :
    s.voices.any (fun x => x.inUse && !x.stream) = true ↔ ∃ x ∈ s.voices, x.onClip = true := List.any_eq_true

theorem clipFreeAllStep_of_onClip {s : State} (h : ∃ x ∈ s.voices, x.onClip = true) (j : Job) :
    clipFreeAllStep j s = s.raise .clipBusy 0x09 0 := if_pos ((any_onClip_iff s).2 h)

theorem clipFreeAllStep_of_noClip {s : State} (h : ∀ x ∈ s.voices, x.onClip = false) (j : Job) :
    clipFreeAllStep j s =
      ({ s with clips := { s.clips with descs := List.replicate s.nClips .invalid, alloc := 0 } }).complete 0 := by
  have hnone : ¬ ∃ x ∈ s.voices, x.onClip = true := by
    rintro ⟨x, hx, hon⟩
    exact Bool.false_ne_true ((h x hx).symm.trans hon)
  unfold clipFreeAllStep
  rw [if_neg (mt (any_onClip_iff s).1 hnone), List.map_const']
  rfl

/-- Settles O27: the step of CLIP_DEFINE and of CLIP_FREE_ALL case by case, and the reads of a zero-filled region. -/
theorem clipDefineAndFreeAll : Obligations.ClipDefineAndFreeAll := by
  refine ⟨?defines, fun s j c hj => ?checks, fun s j hj => ?freeAll⟩
  case defines =>
    rintro s j c _ _ _ hm hj hc rfl rfl rfl hch12 hrate0 hroom
    have hf : formatOk j.arg1 = true := (formatOk_iff j.arg1).2 ⟨hch12, hrate0⟩
    obtain ⟨hrate, hch⟩ := format_fields hch12
    rw [← hch] at hroom
    rw [← hrate, ← hch]
    exact ⟨_, (exec_of_busy (.clipDefine c) hj).trans (congrArg _ (clipDefineStep_of_room hc hf hroom)), rfl, rfl,
      fun _ => Memory.read?_zeroFill hm, fun _ => Memory.read?_zeroFill_of_outside hm⟩
  case checks =>
    rw [exec_of_busy (.clipDefine c) hj]
    refine ⟨fun hc => congrArg _ (clipDefineStep_of_ge hc), fun hc hf => congrArg _ ?_,
      fun hc hf hfull => congrArg _ ?_⟩
    · exact clipDefineStep_of_format hc (mt (formatOk_iff j.arg1).1 hf)
    · refine clipDefineStep_of_full hc ((formatOk_iff j.arg1).2 hf) ?_
      rw [(format_fields hf.1).2]
      exact hfull
  case freeAll =>
    rw [exec_of_busy .clipFreeAll hj]
    exact ⟨fun h => congrArg _ (clipFreeAllStep_of_noClip h j), fun h => congrArg _ (clipFreeAllStep_of_onClip h j)⟩

end Sys2Proof.Machine

/-! PROOFS. The family 30_encoding.md: the layer decoder's frame and readers (R115, R116, R195, R197, R200, R202). -/

namespace Sys2Proof.Machine

/-! ### What decoding sees of a header (R115, R116) -/

/-- Headers that agree in all that decoding may depend on, in the mode extension in joint stereo only. -/
theorem codingOf_congr {f g : HeaderFields} (hversion : f.version = g.version) (hlayer : f.layer = g.layer)
    (hcrc : f.hasCrc = g.hasCrc) (hbitrate : f.bitrateIndex = g.bitrateIndex) (hsrate : f.srateIndex = g.srateIndex)
    (hpad : f.padded = g.padded) (hmode : f.mode = g.mode) (hext : f.mode = .jointStereo → f.modeExt = g.modeExt) :
    codingOf f = codingOf g := by
  unfold codingOf
  rw [hversion, hlayer, hcrc, hbitrate, hsrate, hpad]
  by_cases hj : f.mode = .jointStereo
  · rw [hext hj, hmode]
  · rw [if_neg hj, hmode, if_neg (hmode ▸ hj)]

theorem isBoundOf_codingOf (f : HeaderFields) : isBoundOf (codingOf f) = isBoundOf f := by
  by_cases hj : f.mode = .jointStereo
  · have he : (codingOf f).modeExt = f.modeExt := if_pos hj
    unfold isBoundOf
    rw [he]
    rfl
  · exact (if_neg (c := (codingOf f).mode = .jointStereo) hj).trans (if_neg hj).symm

theorem codingOf_codingOf (f : HeaderFields) : codingOf (codingOf f) = codingOf f :=
  codingOf_congr rfl rfl rfl rfl rfl rfl rfl fun hj => if_pos hj

theorem protectedBits_codingOf (f : HeaderFields) (data : List Byte) :
    protectedBits (codingOf f) data = protectedBits f data := by
  unfold protectedBits
  rw [isBoundOf_codingOf, codingOf_codingOf]
  rfl

section
variable {f g : Frame} (hcoding : codingOf f.fields = codingOf g.fields) (hpayload : f.payload = g.payload)
include hcoding

theorem layer_congr : f.fields.layer = g.fields.layer := (congrArg HeaderFields.layer hcoding :)

theorem version_congr : f.fields.version = g.fields.version := (congrArg HeaderFields.version hcoding :)

theorem channelsOf_congr : channelsOf f.fields = channelsOf g.fields := (congrArg channelsOf hcoding :)

theorem maskSubbands_congr : maskSubbands f.fields = maskSubbands g.fields := (congrArg maskSubbands hcoding :)

theorem sideInfoSize_congr : sideInfoSize f.fields = sideInfoSize g.fields := (congrArg sideInfoSize hcoding :)

include hpayload

theorem layerData_congr : layerData f.fields f.payload = layerData g.fields g.payload :=
  (congrArg₂ layerData hcoding hpayload :)

theorem protectedBits_congr :
    protectedBits f.fields (layerData f.fields f.payload) = protectedBits g.fields (layerData g.fields g.payload) := by
  rw [← protectedBits_codingOf f.fields, ← protectedBits_codingOf g.fields, hcoding,
    layerData_congr hcoding hpayload]

theorem sideInfo_congr : sideInfo f = sideInfo g := by
  rw [sideInfo, sideInfo, layerData_congr hcoding hpayload, sideInfoSize_congr hcoding]

theorem slotBytes_congr : slotBytes f = slotBytes g := by
  rw [slotBytes, slotBytes, layerData_congr hcoding hpayload, sideInfoSize_congr hcoding]

theorem mainData_congr (res : List Byte) : mainData f res = mainData g res := by
  unfold mainData mainDataBegin
  rw [sideInfo_congr hcoding hpayload, slotBytes_congr hcoding hpayload, version_congr hcoding]

theorem appendReservoir_congr (res : List Byte) : appendReservoir f res = appendReservoir g res := by
  unfold appendReservoir reservoirCap
  rw [slotBytes_congr hcoding hpayload, version_congr hcoding]

theorem decodeLayer_congr_frame (dec : Decoder) : decodeLayer f dec = decodeLayer g dec := by
  unfold decodeLayer
  rw [layer_congr hcoding, hcoding, layerData_congr hcoding hpayload, sideInfo_congr hcoding hpayload,
    mainData_congr hcoding hpayload]

theorem decodeWith_congr_frame (spf : Nat) (dec : Decoder) : decodeWith f spf dec = decodeWith g spf dec := by
  unfold decodeWith
  rw [layer_congr hcoding, channelsOf_congr hcoding, maskSubbands_congr hcoding,
    appendReservoir_congr hcoding hpayload, decodeLayer_congr_frame hcoding hpayload]

end

/-! ### The over-read rule (R195, R200) -/

/-- The answer of a layer decoder that ran to `r`: none where a reader has over-read. -/
def answerOf (r : Option DecodeOut × Reader × Reader) : Option DecodeOut :=
  if r.2.1.overRead = true ∨ r.2.2.overRead = true then none else r.1

/-- The layer decoder that decodes a frame. -/
def layerProg (f : Frame) (dec : Decoder) : DecodeProg :=
  match f.fields.layer with
  | .I => Config.decodeL1 (codingOf f.fields)
  | .II => Config.decodeL2 (codingOf f.fields)
  | .III => Config.decodeL3 (codingOf f.fields) dec.l3

/-- The layer decoder reads the layer data, for Layer III the side information and the main data. -/
theorem decodeLayer_eq_of_data {f : Frame} {dec : Decoder} {sideBytes main : List Byte}
    (hside : sideBytes = if f.fields.layer = .III then sideInfo f else layerData f.fields f.payload)
    (hmain : f.fields.layer = .III → mainData f dec.res = some main) (hnone : f.fields.layer ≠ .III → main = []) :
    decodeLayer f dec = answerOf (runDecoder (layerProg f dec) (.start sideBytes) (.start main)) := by
  unfold decodeLayer layerProg answerOf
  simp only [Bool.or_eq_true]
  rw [hside]
  cases hl : f.fields.layer with
  | I => rw [hnone (by simp [hl])]; rfl
  | II => rw [hnone (by simp [hl])]; rfl
  | III =>
    rw [hmain hl]
    rfl

/-! ### GetBits (R195) -/

/-- Bit k of the reader's bytes, most significant first, 0 past the end. -/
def Reader.bitAt (r : Reader) (k : Nat) : Bool :=
  if k < 8 * r.bytes.length then (r.bytes.getD (k / 8) 0).getLsbD (7 - k % 8) else false

theorem Reader.nextBit_eq (r : Reader) :
    r.nextBit = (r.bitAt r.cursor,
      { r with cursor := r.cursor + 1, overRead := r.overRead || decide (8 * r.bytes.length ≤ r.cursor) }) := by
  unfold Reader.nextBit Reader.bitAt
  split
  · next h => simp [Nat.not_le_of_lt h]
  · next h => simp [Nat.le_of_not_lt h]

/-- The reader after the loop: n bits further, over-read where one of them lies past the end. -/
theorem Reader.loop_snd (n : Nat) (v : Word) (r : Reader) :
    (Reader.loop n v r).2 =
      { r with cursor := r.cursor + n
               overRead := r.overRead || decide (0 < n ∧ 8 * r.bytes.length < r.cursor + n) } := by
  induction n generalizing v r with
  | zero => simp [Reader.loop]
  | succ n ih =>
    rw [Reader.loop, ih, Reader.nextBit_eq]
    simp only [Reader.mk.injEq, true_and]
    refine ⟨by omega, ?_⟩
    rw [Bool.or_assoc, ← Bool.decide_or]
    congr 2
    exact propext (by omega)

/-- The value with one bit shifted in. -/
theorem getLsbD_shiftIn (v : Word) (b : Bool) {k : Nat} (hk : k < 32) :
    ((v <<< 1) ||| (BitVec.ofBool b).setWidth 32).getLsbD k = if k = 0 then b else v.getLsbD (k - 1) := by
  cases k with
  | zero => simp
  | succ k => simp [hk, -BitVec.getLsbD_eq_getElem]

/-- The value after the loop: the n bits read, most significant first, below the bits of the value before it. -/
theorem Reader.getLsbD_loop (n : Nat) (v : Word) (r : Reader) {i : Nat} (hi : i < 32) :
    (Reader.loop n v r).1.getLsbD i = if i < n then r.bitAt (r.cursor + (n - 1 - i)) else v.getLsbD (i - n) := by
  induction n generalizing v r with
  | zero => simp [Reader.loop]
  | succ n ih =>
    rw [Reader.loop, ih, Reader.nextBit_eq, getLsbD_shiftIn v _ (Nat.lt_of_le_of_lt (Nat.sub_le i n) hi)]
    rcases Nat.lt_trichotomy i n with h | rfl | h
    · rw [if_pos h, if_pos (by omega)]
      exact congrArg r.bitAt (show r.cursor + 1 + (n - 1 - i) = r.cursor + (n + 1 - 1 - i) by omega)
    · simp
    · rw [if_neg (by omega), if_neg (by omega), if_neg (by omega), Nat.sub_sub]

/-- GetBits moves the cursor and sets the over-read flag (R195). -/
theorem Reader.getBits_snd (r : Reader) (n : Nat) :
    (r.getBits n).2 =
      { r with cursor := r.cursor + n
               overRead := r.overRead || decide (0 < n ∧ 8 * r.bytes.length < r.cursor + n) } :=
  Reader.loop_snd n 0 r

/-- The value of GetBits: the n bits from the cursor on, most significant first (R195). -/
theorem Reader.getLsbD_getBits (r : Reader) {n : Nat} (hn : n ≤ 32) (i : Nat) :
    (r.getBits n).1.getLsbD i = if i < n then r.bitAt (r.cursor + (n - 1 - i)) else false := by
  by_cases hi : i < 32
  · exact (Reader.getLsbD_loop n 0 r hi).trans (by simp)
  · rw [BitVec.getLsbD_of_ge _ _ (Nat.le_of_not_lt hi), if_neg (by omega)]

/-- Settles O24: the header through `codingOf`, the over-read rule through `answerOf`, GetBits bit by bit. -/
theorem layerDecoderContract : Obligations.LayerDecoderContract := by
  refine ⟨?header, ?runs, fun f dec hl h => decodeLayer_of_mainData_none hl h, fun _ _ _ => rfl,
    fun _ _ _ _ => ⟨rfl, rfl⟩, ?getBits⟩
  case header =>
    intro f g dec hpayload hversion hlayer hcrc hbitrate hsrate hpad hmode hext
    have hcoding := codingOf_congr hversion hlayer hcrc hbitrate hsrate hpad hmode hext
    exact ⟨fun spf => decodeWith_congr_frame hcoding hpayload spf dec, protectedBits_congr hcoding hpayload⟩
  case runs =>
    intro f dec p side body sideBytes main out rs rm hside hbody hp hsideBytes hmain hnone hrun
    have hprog : p = layerProg f dec := hp
    have hdata : body = layerData f.fields f.payload := hbody
    have hinfo : body.take side = sideInfo f := by
      rw [hside, hdata, ← sideInfoSize_eq]
      rfl
    rw [hinfo, hdata] at hsideBytes
    rw [decodeLayer_eq_of_data hsideBytes hmain hnone, ← hprog]
    exact congrArg answerOf hrun
  case getBits =>
    intro r n hn
    rw [Reader.getBits_snd]
    refine ⟨rfl, rfl, by simp, fun i hi => ?_, fun i hi => ?_⟩
    · rw [Reader.getLsbD_getBits r hn, if_neg (by omega)]
    · have hplace : n - 1 - (n - 1 - i) = i := by omega
      rw [Reader.getLsbD_getBits r hn, if_pos (by omega), hplace]
      rfl

end Sys2Proof.Machine

/-! PROOFS. The family 40_stream.md: the size of a frame (R158 to R164). -/

namespace Sys2Proof.Machine

/-! ### The frame length over the tables -/

/-- FrameLen of a table's bitrate and sample rate (R160). -/
def tableFrameLen (v : MpegVersion) (l : Layer) (kbps sr pad : Nat) : Nat :=
  if l = .I then (12 * (1000 * kbps) / sr + pad) * 4
  else if v = .v1 then 144 * (1000 * kbps) / sr + pad
  else 144 * (1000 * kbps) / sr / 2 + pad

theorem frameLenOf_eq_table (f : HeaderFields) :
    frameLenOf f = tableFrameLen f.version f.layer ((kbpsTable f.version f.layer).getD (f.bitrateIndex - 1) 0)
      (sampleRateOf f) (bit f.padded) := by
  unfold frameLenOf tableFrameLen bitrateOf bit
  cases f.layer <;> cases f.version <;> rfl

/-- The bounds of FrameLen over every entry of the tables, padded or not (R158, R163, R164). -/
theorem tableFrameLen_bounds : ∀ (v : MpegVersion) (l : Layer), ∀ kbps ∈ kbpsTable v l, ∀ sr ∈ srateTable v,
    ∀ pad ∈ [0, 1], 24 ≤ tableFrameLen v l kbps sr pad ∧ tableFrameLen v l kbps sr pad ≤ 1729 := by
  intro v l
  cases v <;> cases l <;> decide

/-- An MPEG-1 frame of Layer III has room for its larger side information (R162). -/
theorem tableFrameLen_v1 : ∀ kbps ∈ kbpsTable .v1 .III, ∀ sr ∈ srateTable .v1, ∀ pad ∈ [0, 1],
    39 ≤ tableFrameLen .v1 .III kbps sr pad := by
  decide

theorem getD_mem {l : List Nat} {n : Nat} (h : n < l.length) : l.getD n 0 ∈ l := by
  rw [List.getD_eq_getElem _ _ h]
  exact List.getElem_mem h

theorem bit_mem (b : Bool) : bit b ∈ [0, 1] := by cases b <;> decide

section
variable {h : Word} (hok : headerOk h = true)
include hok

/-- A legal header's bitrate index stands in its table (R152, R163). -/
theorem kbps_mem :
    (kbpsTable (fieldsOf h).version (fieldsOf h).layer).getD ((fieldsOf h).bitrateIndex - 1) 0 ∈
      kbpsTable (fieldsOf h).version (fieldsOf h).layer := by
  obtain ⟨-, -, -, hzero, hfree, -⟩ := (headerOk_iff h).1 hok
  have hlen : ∀ v l, (kbpsTable v l).length = 14 := by
    intro v l
    cases v <;> cases l <;> rfl
  have hindex : ∀ c : BitVec 4, c ≠ 0#4 → c ≠ 15#4 → c.toNat - 1 < 14 := by decide
  exact getD_mem (by rw [hlen]; exact hindex _ hzero hfree)

/-- A legal header's sample-rate index stands in its table (R152, R164). -/
theorem sampleRate_mem : sampleRateOf (fieldsOf h) ∈ srateTable (fieldsOf h).version := by
  obtain ⟨-, -, -, -, -, hrate⟩ := (headerOk_iff h).1 hok
  have hlen : ∀ v, (srateTable v).length = 3 := by
    intro v
    cases v <;> rfl
  have hindex : ∀ c : BitVec 2, c ≠ 3#2 → c.toNat < 3 := by decide
  exact getD_mem (by rw [hlen]; exact hindex _ hrate)

theorem frameLen_bounds : 24 ≤ frameLen h ∧ frameLen h ≤ 1729 := by
  unfold frameLen
  rw [frameLenOf_eq_table]
  exact tableFrameLen_bounds _ _ _ (kbps_mem hok) _ (sampleRate_mem hok) _ (bit_mem _)

theorem frameLen_v1 (hv : (fieldsOf h).version = .v1) (hl : (fieldsOf h).layer = .III) : 39 ≤ frameLen h := by
  have hk := kbps_mem hok
  have hr := sampleRate_mem hok
  rw [hv, hl] at hk
  rw [hv] at hr
  unfold frameLen
  rw [frameLenOf_eq_table, hv, hl]
  exact tableFrameLen_v1 _ hk _ hr _ (bit_mem _)

/-- Header, checksum and side information leave at least one byte of a Layer III frame (R162). -/
theorem slotCount_pos (hl : (fieldsOf h).layer = .III) : 1 ≤ slotCountOf (fieldsOf h) := by
  have hcrc : crcSize (fieldsOf h) ≤ 2 := by
    unfold crcSize
    split <;> decide
  have hlen := (frameLen_bounds hok).1
  have hv1 := fun hv => frameLen_v1 hok hv hl
  unfold frameLen at hlen hv1
  unfold slotCountOf
  rw [if_pos hl, sideInfoSize_eq]
  by_cases hv : (fieldsOf h).version = .v1
  · have := hv1 hv
    split_ifs <;> omega
  · split_ifs <;> omega

end

/-- Settles O17: a legal header's indexes stand in the tables, and the bounds hold for every entry. -/
theorem frameLengthBounds : Obligations.FrameLengthBounds :=
  ⟨fun _ => frameLen_bounds, by decide, by decide, by decide, by decide, fun _ => slotCount_pos⟩

end Sys2Proof.Machine

/-! PROOFS. The family 40_stream.md: the sequencer steps of READ_FRAME and LOAD_CLIP, by what SyncStep answers (R145 to R157, R215). -/

namespace Sys2Proof.Machine

/-! ### Acceptance (R154, R156, R170) -/

/-- What accepting the candidate `h` of a stream known to be MPEG leaves, its VBR side header apart (R154, R156). -/
def State.accepted (h : Word) (s : State) : State :=
  { s with
    frame := some { hdr := h, payload := slice s.stream.input 4 (frameLen h - 4), pending := true }
    hdr := headerRegisters h s.stream.pos (slice s.stream.input 4 (frameLen h - 4))
    stream := { s.stream with
      input := s.stream.input.drop (frameLen h), pos := s.stream.pos + frameLen h
      nframes := s.stream.nframes + 1, mode := .strict, kind := .mpeg
      word := if s.stream.mode = .initial then h &&& frozenMask else s.stream.word }
    flags := { s.flags with frameValid := true }
    irqPend := s.irqPend ||| irqFrame }

/-- What the search of the first frame for a VBR side header finds; later frames are not searched (R170, R175). -/
def State.vbrFound (h : Word) (s : State) : VbrResult :=
  if s.stream.mode = .initial then parseVbr (slice s.stream.input 4 (frameLen h - 4)) (fieldsOf h) else .absent

section
variable {s : State} {h : Word} (hm : s.stream.mode ≠ .failed)
include hm

theorem accept_eq (op : Byte) (h : Word) :
    (s.setKind .mpeg).accept op h = (s.accepted h).applyVbr op (s.vbrFound h) := by
  cases hmode : s.stream.mode with
  | failed => contradiction
  | initial => simp [State.accept, State.accepted, State.vbrFound, State.setKind, hmode]
  | strict => simp [State.accept, State.accepted, State.vbrFound, State.setKind, State.applyVbr, hmode]

/-- SyncStep accepts a confirmed candidate; a legal header's frame has at least the four bytes that SyncStep looks at. -/
theorem syncStep_confirmed (op : Byte) (k : Nat)
    (hk : s.stream.kind = .mpeg ∨ s.stream.kind = .unknown ∧ s.stream.input.take 4 ≠ riffTag)
    (hh : h = be32 s.stream.input 0) (hs : syncMark h s.stream.mode s.stream.word = true)
    (hc : frameLen h + 4 ≤ s.stream.input.length ∧
        syncMark (be32 s.stream.input (frameLen h)) s.stream.mode s.stream.word = true ∨
      s.stream.eos = true ∧ frameLen h ≤ s.stream.input.length ∧ s.stream.input.length < frameLen h + 4) :
    s.syncStep op k = (.frame, k, (s.accepted h).applyVbr op (s.vbrFound h)) := by
  have hlen := (frameLen_bounds (headerOk_of_syncMark hs)).1
  rw [syncStep_accepted op k hm hk (by omega) hh hs hc, accept_eq hm]

end

/-- Settles O13: SyncStep accepts the candidate, and READ_FRAME ends with RESULT 0. -/
theorem readFrameAccepts : Obligations.ReadFrameAccepts := by
  intro s j h n hj hm hk hh hn hs hc payload t
  subst hn
  have hpayload : slice s.stream.input 4 (frameLen h - 4) = payload := rfl
  rw [exec_of_busy .readFrame hj]
  simp only [bodyOf, readFrameStep, syncStep_confirmed hm _ _ hk hh hs hc, State.vbrFound, hpayload]
  split
  case isTrue =>
    cases parseVbr payload (fieldsOf h) <;>
      simp only [State.applyVbr, State.record, State.setEosSeen, State.complete, State.accepted, BitVec.or_assoc] <;> rfl
  case isFalse =>
    simp only [State.applyVbr, State.setEosSeen, State.complete, State.accepted, BitVec.or_assoc]
    rfl

/-- Settles O14: SyncStep on a rejected candidate, with the scan window not used up. -/
theorem readsSkipOneByte : Obligations.ReadsSkipOneByte := by
  intro s t j h hj hm hk hl hh hc ht
  subst ht
  refine ⟨fun k hp hwindow => ?_, fun c l hp hwindow => ?_⟩
  · rw [exec_of_busy .readFrame hj]
    simp only [bodyOf, readFrameStep, syncStep_rejected _ _ hm hk hl hh hc, hp, Progress.skipped, if_neg hwindow]
    rfl
  · rw [exec_of_busy (.loadClip c) hj]
    simp only [bodyOf, loadClipStep, syncStep_rejected _ _ hm hk hl hh hc, hp, Progress.load, if_neg hwindow]
    rfl

/-- Settles O15: SyncStep holds, and a hold has no effect at all. -/
theorem readsHoldForInput : Obligations.ReadsHoldForInput := by
  intro s j i hj hi he hm hk hc
  rcases hi with rfl | ⟨c, rfl⟩
  · obtain ⟨t, ht⟩ := syncStep_hold Instr.readFrame.opcode j.progress.skipped hm hk he hc
    rw [exec_of_busy .readFrame hj]
    simp only [bodyOf, readFrameStep, ht]
  · obtain ⟨t, ht⟩ := syncStep_hold (Instr.loadClip c).opcode (j.progress.load s.clips.alloc).skipped hm hk he hc
    rw [exec_of_busy (.loadClip c) hj]
    simp only [bodyOf, loadClipStep, ht]

/-- Settles O16: the end of the stream, a WAV stream, FAILED mode and a scan window used up, each by SyncStep's answer. -/
theorem readFrameEnds : Obligations.ReadFrameEnds := by
  refine ⟨fun s j hj he hm hk hc => ?ended, fun s j hj hm hk => ?wav, fun s j hj hm => ?failed,
    fun s j h hj hp hm hk hl hh hc => ?window⟩
  all_goals rw [exec_of_busy .readFrame hj]
  case ended =>
    simp only [bodyOf, readFrameStep, syncStep_ended _ _ hm hk he hc]
    rfl
  case wav =>
    simp only [bodyOf, readFrameStep, syncStep_wav _ _ hm hk]
    rfl
  case failed =>
    simp only [bodyOf, readFrameStep, syncStep_failed _ _ hm, State.complete, State.record, BitVec.or_assoc]
    rfl
  case window =>
    simp only [bodyOf, readFrameStep, syncStep_rejected _ _ hm hk hl hh hc, hp, Progress.skipped, if_true,
      State.complete, State.record, BitVec.or_assoc]
    rfl

/-- Settles O25: the same answers of SyncStep, and a clip where the stream ended with a frame decoded. -/
theorem loadClipEndsOrFails : Obligations.LoadClipEndsOrFails := by
  refine ⟨fun s j c l hj hp hn he hm hk hc => ?made, fun s j c l hj hp hn he hm hk hc => ?empty,
    fun s j c hj hm => ?failed, fun s j c l h hj hp hw hm hk hl hh hc => ?window, fun s j c hj hm hk => ?wav⟩
  all_goals rw [exec_of_busy (.loadClip c) hj]
  case made =>
    simp only [bodyOf, loadClipStep, syncStep_ended _ _ hm hk he hc, hp, Progress.load, loadClipEnd, if_neg hn]
    rfl
  case empty =>
    simp only [bodyOf, loadClipStep, syncStep_ended _ _ hm hk he hc, hp, Progress.load, loadClipEnd, if_pos hn,
      State.raise, BitVec.or_assoc]
    rfl
  case failed =>
    simp only [bodyOf, loadClipStep, syncStep_failed _ _ hm, State.raise, BitVec.or_assoc]
    rfl
  case window =>
    simp only [bodyOf, loadClipStep, syncStep_rejected _ _ hm hk hl hh hc, hp, Progress.load, if_pos hw,
      State.raise, BitVec.or_assoc]
    rfl
  case wav =>
    simp only [bodyOf, loadClipStep, syncStep_wav _ _ hm hk, State.raise, BitVec.or_assoc]
    rfl

end Sys2Proof.Machine

/-! PROOFS. The family 40_stream.md: the checksum of a frame (R168, R190, R196 to R198). -/

namespace Sys2Proof.Machine

/-! ### What checking the checksum leaves -/

/-- HDR_CRC, STATUS.CRC_ERR, CRC_ERR_COUNT and IRQ_PEND.CRC of `t` are as the check of `f` in the state `s` leaves them (R198). -/
structure CrcChecked (f : Frame) (s t : State) : Prop where
  checked : f.fields.hasCrc = true → t.hdr = { s.hdr with crcComputed := frameCrc f }
  agrees : f.fields.hasCrc = true → frameCrc f = s.hdr.crcStored →
    t.flags = s.flags ∧ t.counters.crcErrCount = s.counters.crcErrCount ∧
      t.irqPend &&& 0b01000#5 = s.irqPend &&& 0b01000#5
  differs : f.fields.hasCrc = true → frameCrc f ≠ s.hdr.crcStored →
    t.flags = { s.flags with crcErr := true } ∧ t.counters.crcErrCount = s.counters.crcErrCount + 1 ∧
      t.irqPend &&& 0b01000#5 = 0b01000#5
  absent : f.fields.hasCrc = false →
    t.hdr = s.hdr ∧ t.flags = s.flags ∧ t.counters.crcErrCount = s.counters.crcErrCount ∧
      t.irqPend &&& 0b01000#5 = s.irqPend &&& 0b01000#5

theorem crcChecked_checkCrc (f : Frame) (s : State) : CrcChecked f s (s.checkCrc f) := by
  have hset : ∀ x : BitVec 5, (x ||| irqCrc) &&& 0b01000#5 = 0b01000#5 := by decide
  rcases checkCrc_cases f s with ⟨hcrc, h⟩ | ⟨hcrc, hc, h⟩ | ⟨hcrc, hc, h⟩ <;> rw [h]
  · exact ⟨by simp [hcrc], by simp [hcrc], by simp [hcrc], fun _ => ⟨rfl, rfl, rfl, rfl⟩⟩
  · exact ⟨fun _ => rfl, fun _ _ => ⟨rfl, rfl, rfl⟩, fun _ hne => absurd hc hne, by simp [hcrc]⟩
  · exact ⟨fun _ => rfl, fun _ he => absurd he hc, fun _ _ => ⟨rfl, rfl, hset _⟩, by simp [hcrc]⟩

/-- What follows the check leaves its four results alone. -/
theorem CrcChecked.of_same {f : Frame} {s t u : State} (h : CrcChecked f s t) (hhdr : u.hdr = t.hdr)
    (hflags : u.flags = t.flags) (hcount : u.counters.crcErrCount = t.counters.crcErrCount)
    (hirq : u.irqPend &&& 0b01000#5 = t.irqPend &&& 0b01000#5) : CrcChecked f s u := by
  refine ⟨?_, ?_, ?_, ?_⟩
  · rw [hhdr]
    exact h.checked
  · rw [hflags, hcount, hirq]
    exact h.agrees
  · rw [hflags, hcount, hirq]
    exact h.differs
  · rw [hhdr, hflags, hcount, hirq]
    exact h.absent

theorem crcChecked_decodeCurrent (op : Byte) (f : Frame) (s : State) : CrcChecked f s (s.decodeCurrent op f).1 := by
  have hcheck := crcChecked_checkCrc f s
  have herror : ∀ x : BitVec 5, (x ||| irqError) &&& 0b01000#5 = x &&& 0b01000#5 := by decide
  rcases decodeCurrent_cases op f s with ⟨-, ys, l3, delay, h, -, -⟩ | h <;> rw [h]
  · exact hcheck.of_same rfl rfl rfl rfl
  · exact hcheck.of_same rfl rfl rfl (herror _)

/-- DECODE_FRAME on an undecoded frame ends with RESULT 2, the ring being full, or checks the checksum (R190). -/
theorem crcChecked_decodeFrameStep (j : Job) {s : State} {f : Frame} (hf : s.frame = some f) (hp : f.pending = true)
    (hresult : (decodeFrameStep j s).result ≠ 2) : CrcChecked f s (decodeFrameStep j s) := by
  have hcheck := crcChecked_decodeCurrent Instr.decodeFrame.opcode f s
  have hdone : ∀ x : BitVec 5, (x ||| irqCmdDone) &&& 0b01000#5 = x &&& 0b01000#5 := by decide
  have hstep : decodeFrameStep j s = if s.ringFull = true then s.complete 2
      else if (s.decodeCurrent Instr.decodeFrame.opcode f).2 = true then
        (s.decodeCurrent Instr.decodeFrame.opcode f).1.ringAppend.complete 0
      else (s.decodeCurrent Instr.decodeFrame.opcode f).1.complete 1 := by
    simp [decodeFrameStep, hf, hp]
  rw [hstep] at hresult ⊢
  split
  case isTrue hfull => exact absurd rfl (if_pos hfull ▸ hresult)
  case isFalse =>
    split
    · rw [ringAppend_eq]
      exact hcheck.of_same rfl rfl rfl (hdone _)
    · exact hcheck.of_same rfl rfl rfl (hdone _)

/-! ### The bits of a frame (R196, R197) -/

theorem getElem?_byteBits (b : Byte) {i : Nat} (hi : i < 8) : (byteBits b)[i]? = some (b.getLsbD (7 - i)) := by
  simp [byteBits, hi]

@[simp] theorem length_byteBits (b : Byte) : (byteBits b).length = 8 := by simp [byteBits]

theorem bytesBits_cons (b : Byte) (bs : List Byte) : bytesBits (b :: bs) = byteBits b ++ bytesBits bs := rfl

@[simp] theorem length_bytesBits (bs : List Byte) : (bytesBits bs).length = 8 * bs.length := by
  induction bs with
  | nil => rfl
  | cons b bs ih => rw [bytesBits_cons, List.length_append, length_byteBits, ih, List.length_cons]; omega

/-- Bit i of a byte sequence is bit 7 - i % 8 of byte i / 8. -/
theorem getElem?_bytesBits (bs : List Byte) (i : Nat) (hi : i < 8 * bs.length) :
    (bytesBits bs)[i]? = some ((bs.getD (i / 8) 0).getLsbD (7 - i % 8)) := by
  induction bs generalizing i with
  | nil => simp at hi
  | cons b bs ih =>
    rw [bytesBits_cons]
    by_cases h8 : i < 8
    · rw [List.getElem?_append_left (by simpa using h8), getElem?_byteBits b h8, Nat.div_eq_of_lt h8, Nat.mod_eq_of_lt h8]
      rfl
    · have hdiv : i / 8 = (i - 8) / 8 + 1 := by omega
      have hmod : i % 8 = (i - 8) % 8 := by omega
      rw [List.getElem?_append_right (by simpa using h8), length_byteBits, ih _ (by simp at hi; omega), hdiv, hmod]
      rfl

/-- The first n bits, missing ones 0, as a list of n places. -/
theorem takeBits_eq (n : Nat) (bits : List Bool) : takeBits n bits = (List.range n).map (fun i => bits.getD i false) := by
  unfold takeBits
  refine List.ext_getElem (by simp; omega) fun i hi hn => ?_
  have hi : i < n := by simpa using hn
  by_cases hb : i < bits.length
  · rw [List.getElem_append_left (by simp; omega)]
    simp [hb]
  · rw [List.getElem_append_right (by simp; omega)]
    simp [hb]

/-- Bits 15 to 0 of the header, in order (R197). -/
theorem bytesBits_header (h : Word) :
    bytesBits [h.extractLsb' 8 8, h.extractLsb' 0 8] = (List.range 16).map (fun i => h.getLsbD (15 - i)) := by
  have hbyte : ∀ m, (List.range 8).map (fun i => (h.extractLsb' m 8).getLsbD (7 - i)) =
      (List.range 8).map (fun i => h.getLsbD (m + (7 - i))) := by
    intro m
    refine List.map_congr_left fun i _ => ?_
    rw [BitVec.getLsbD_extractLsb', decide_eq_true (by omega), Bool.true_and]
  show byteBits _ ++ (byteBits _ ++ []) = _
  unfold byteBits
  rw [hbyte, hbyte]
  rfl

/-- The protected bits of a Layer I frame by its channel mode and bound (R197). -/
theorem protectedBits_layerI {f : HeaderFields} (hl : f.layer = .I) (data : List Byte) {b : Nat}
    (hb : b = (if f.mode = .jointStereo then isBoundOf f else 32)) :
    protectedBits f data = if f.mode = .mono then 128 else 4 * (2 * b + (32 - b)) := by
  have hmono : channelsOf f = 1 ↔ f.mode = .mono := by
    unfold channelsOf
    split <;> simp [*]
  subst hb
  simp only [protectedBits, hl, hmono]

theorem protectedBits_layerII {f : HeaderFields} (hl : f.layer = .II) (data : List Byte) :
    protectedBits f data = Config.l2ProtectedBits (codingOf f) data := by
  simp only [protectedBits, hl]

/-- The protected bits of a Layer III frame are its side information (R197). -/
theorem protectedBits_layerIII {f : HeaderFields} (hl : f.layer = .III) (data : List Byte) :
    protectedBits f data = 8 * sideInfoSize f := by
  simp only [protectedBits, hl]

theorem crc16_snoc (bs : List Bool) (x : Bool) :
    crc16 (bs ++ [x]) = if (crc16 bs).getLsbD 15 ≠ x then (crc16 bs <<< 1) ^^^ 0x8005#16 else crc16 bs <<< 1 := by
  have hbit : crc16 (bs ++ [x]) = crcBit (crc16 bs) x := by simp [crc16]
  rw [hbit]
  simp [crcBit]

/-- Settles O22: the check is what DecodeCurrent does first, and nothing after it touches its results. -/
theorem decodeFrameChecksCrc : Obligations.DecodeFrameChecksCrc := by
  refine ⟨?step, rfl, crc16_snoc, by decide +kernel, getElem?_bytesBits, ?bits⟩
  case step =>
    intro s t j f hj hf hp ht hresult
    rw [exec_of_busy .decodeFrame hj] at ht
    obtain rfl : decodeFrameStep j s = t := by injection ht
    have hcheck := crcChecked_decodeFrameStep j hf hp hresult
    exact ⟨fun hc => ⟨hcheck.checked hc, hcheck.agrees hc, hcheck.differs hc⟩, hcheck.absent⟩
  case bits =>
    intro f n b hcrc hb hn
    have hdata : layerData f.fields f.payload = f.payload.drop 2 := congrArg f.payload.drop (if_pos hcrc)
    have hbits : protectedBits f.fields (f.payload.drop 2) = n := by
      cases hl : f.fields.layer with
      | I =>
        rw [hl] at hn
        exact (protectedBits_layerI hl _ hb).trans hn.symm
      | II =>
        rw [hl] at hn
        exact (protectedBits_layerII hl _).trans hn.symm
      | III =>
        rw [hl] at hn
        rw [protectedBits_layerIII hl, sideInfoSize_eq]
        exact hn.symm
    unfold frameCrc
    dsimp only
    rw [hdata, bytesBits_header, takeBits_eq, hbits]

end Sys2Proof.Machine

/-! PROOFS. The family 40_stream.md: LOAD_CLIP on a confirmed candidate (R156, R190 to R207, R215). -/

namespace Sys2Proof.Machine

/-! ### An accepted frame in LOAD_CLIP (R215) -/

/-- What LOAD_CLIP leaves of the state `u` after acceptance, whatever becomes of the frame: only what `only` leaves open changes, the checksum is checked, and the decoder is `d` but for its filters and its reservoir. -/
structure LoadLeaves (u : State) (f : Frame) (d : Decoder) (t : State) : Prop where
  only : t = { u with
    frame := some { f with pending := false }
    cur := t.cur, clips := { u.clips with mem := t.clips.mem }, dec := t.dec, sink := t.sink
    err := t.err, irqPend := t.irqPend
    hdr := { u.hdr with crcComputed := t.hdr.crcComputed }
    flags := { u.flags with crcErr := t.flags.crcErr }
    counters := { u.counters with crcErrCount := t.counters.crcErrCount, skipCount := t.counters.skipCount } }
  irqs : t.irqPend &&& 0b10100#5 = u.irqPend &&& 0b10100#5
  crc : CrcChecked f u t
  dec : t.dec = { d with delay := t.dec.delay, l3 := t.dec.l3, res := reservoirAfter f u.dec.res }
  sink : t.sink = ⟨t.sink.samples, d.dch, 0⟩

/-- The frame decodes to `out`. -/
structure LoadDecoded (u : State) (f : Frame) (d : Decoder) (out : DecodeOut) (t : State) : Prop where
  l3 : t.dec.l3 = (if f.fields.layer = .III then out.l3 else d.l3)
  samples : (t.dec.delay, t.sink.samples) =
    synthesise (maskSubbands f.fields out.x) (u.hdr.samplesPerFrame.toNat / 32) 0 d.delay
  skips : t.counters.skipCount = u.counters.skipCount

/-- The decoded samples fit in clip memory: they stand at the write pointer and are counted. -/
structure LoadStored (j : Job) (l : LoadProgress) (u t : State) : Prop where
  err : t.err = u.err
  irq : t.irqPend &&& 0b00011#5 = u.irqPend &&& 0b00011#5
  cur : t.cur = some ⟨j.instr, j.arg0, j.arg1, .loading
    { base := l.base, w := l.w + t.sink.samples.length, nfr := l.nfr + 1
      ch := if l.nfr = 0 then t.dec.dch else l.ch
      rate := if l.nfr = 0 then t.dec.drate else l.rate
      skipped := 0 }⟩
  mem : t.clips.mem = Memory.writeBlock u.clips.mem (l.base + l.w) t.sink.samples

/-- The decoded samples do not fit: CLIP_FULL ends the load. -/
structure LoadFull (c : Nat) (u t : State) : Prop where
  err : t.err = u.err.record .clipFull 0x04 (BitVec.ofNat 8 c)
  irq : t.irqPend &&& 0b00011#5 = 0b00011#5
  cur : t.cur = none
  mem : t.clips.mem = u.clips.mem

/-- The frame is skipped and the load goes on. -/
structure LoadSkipped (j : Job) (l : LoadProgress) (u : State) (d : Decoder) (t : State) : Prop where
  l3 : t.dec.l3 = d.l3
  delay : t.dec.delay = d.delay
  samples : t.sink.samples = []
  skips : t.counters.skipCount = u.counters.skipCount + 1
  err : t.err = u.err.record .decodeError 0x04 0
  irq : t.irqPend &&& 0b00011#5 = u.irqPend &&& 0b00011#5 ||| 0b00010#5
  cur : t.cur = some { j with progress := .loading { l with skipped := 0 } }
  mem : t.clips.mem = u.clips.mem

/-- The step on a frame that decodes, as one case split on whether the samples fit. -/
theorem loadClipFrame_eq (c : Nat) (j : Job) (l : LoadProgress) {u : State} {f : Frame} (hf : u.frame = some f)
    (htrue : (u.decodeCurrent 0x04 f).2 = true) :
    let r := (u.decodeCurrent 0x04 f).1
    loadClipFrame c j l u =
      if u.cfg.clipMemSamples < l.base + l.w + r.sink.samples.length then r.raise .clipFull 0x04 (BitVec.ofNat 8 c)
      else
        { r with
          clips := { r.clips with mem := Memory.writeBlock r.clips.mem (l.base + l.w) r.sink.samples }
          cur := some ⟨j.instr, j.arg0, j.arg1, .loading
            { base := l.base, w := l.w + r.sink.samples.length, nfr := l.nfr + 1
              ch := if l.nfr = 0 then r.dec.dch else l.ch
              rate := if l.nfr = 0 then r.dec.drate else l.rate
              skipped := 0 }⟩ } := by
  have htrue' : (u.decodeCurrent (Instr.loadClip c).opcode f).2 = true := htrue
  simp only [loadClipFrame, hf, htrue', if_true, decodeCurrent_cfg]
  rfl

section
variable {u : State} {f : Frame} {d : Decoder} (c : Nat) (j : Job) (l : LoadProgress)
  (hd : initDecoder f u.hdr.sampleRate.toNat u.dec = d) (hf : u.frame = some f)
include hd hf

theorem loadClipFrame_decoded {out : DecodeOut} (hc : channelsOf f.fields = d.dch) (ho : decodeLayer f d = some out) :
    let t := loadClipFrame c j l u
    t.sink = (u.decodeCurrent 0x04 f).1.sink ∧ LoadLeaves u f d t ∧ LoadDecoded u f d out t ∧
      (l.base + l.w + t.sink.samples.length ≤ u.cfg.clipMemSamples → LoadStored j l u t) ∧
      (u.cfg.clipMemSamples < l.base + l.w + t.sink.samples.length → LoadFull c u t) := by
  obtain ⟨crc, crcErr, n, irq, hirq, hcrc⟩ := checkCrc_eq f u
  have hcheck := crcChecked_decodeCurrent 0x04 f u
  have hdec := decodeCurrent_of_some (op := 0x04) hd hc ho
  obtain ⟨t, ht⟩ : ∃ t, t = loadClipFrame c j l u := ⟨_, rfl⟩
  have hstep := ht.trans (loadClipFrame_eq c j l hf (congrArg Prod.snd hdec))
  rw [hcrc] at hdec
  rw [← ht]
  rw [hdec] at hcheck hstep ⊢
  by_cases hfit : u.cfg.clipMemSamples < l.base + l.w +
      (synthesise (maskSubbands f.fields out.x) (u.hdr.samplesPerFrame.toNat / 32) 0 d.delay).2.length
  case pos =>
    have hbits : ∀ x y : BitVec 5, (x ||| irqError ||| irqCmdDone) &&& 0b01000#5 = x &&& 0b01000#5 ∧
        (y &&& 0b10111#5 = 0#5 → (x ||| y ||| irqError ||| irqCmdDone) &&& 0b10100#5 = x &&& 0b10100#5 ∧
          (x ||| y ||| irqError ||| irqCmdDone) &&& 0b00011#5 = 0b00011#5) := by decide
    obtain ⟨hirqs, hends⟩ := (hbits u.irqPend irq).2 hirq
    obtain rfl := hstep.trans (if_pos hfit)
    exact ⟨rfl, ⟨rfl, hirqs, hcheck.of_same rfl rfl rfl (hbits _ 0).1, rfl, rfl⟩, ⟨rfl, rfl, rfl⟩,
      fun h => absurd hfit (Nat.not_lt.2 h), fun _ => ⟨rfl, hends, rfl, rfl⟩⟩
  case neg =>
    have hbits : ∀ x y : BitVec 5, y &&& 0b10111#5 = 0#5 →
        (x ||| y) &&& 0b10100#5 = x &&& 0b10100#5 ∧ (x ||| y) &&& 0b00011#5 = x &&& 0b00011#5 := by decide
    obtain ⟨hirqs, hgoes⟩ := hbits u.irqPend irq hirq
    obtain rfl := hstep.trans (if_neg hfit)
    exact ⟨rfl, ⟨rfl, hirqs, hcheck.of_same rfl rfl rfl rfl, rfl, rfl⟩, ⟨rfl, rfl, rfl⟩,
      fun _ => ⟨rfl, hgoes, rfl, rfl⟩, fun h => absurd h hfit⟩

theorem loadClipFrame_skipped (h : channelsOf f.fields ≠ d.dch ∨ decodeLayer f d = none) :
    LoadLeaves u f d (loadClipFrame c j l u) ∧ LoadSkipped j l u d (loadClipFrame c j l u) := by
  obtain ⟨crc, crcErr, n, irq, hirq, hcrc⟩ := checkCrc_eq f u
  have hcheck := crcChecked_decodeCurrent 0x04 f u
  have hdec := decodeCurrent_of_none (op := 0x04) hd h
  have hbits : ∀ x y : BitVec 5, y &&& 0b10111#5 = 0#5 →
      (x ||| y ||| irqError) &&& 0b10100#5 = x &&& 0b10100#5 ∧
      (x ||| y ||| irqError) &&& 0b00011#5 = x &&& 0b00011#5 ||| 0b00010#5 := by decide
  obtain ⟨hirqs, herror⟩ := hbits u.irqPend irq hirq
  have hstep : loadClipFrame c j l u = (u.decodeCurrent 0x04 f).1.goOn j (.loading { l with skipped := 0 }) := by
    have hfalse : (u.decodeCurrent (Instr.loadClip c).opcode f).2 = false := congrArg Prod.snd hdec
    simp only [loadClipFrame, hf, hfalse]
    rfl
  rw [hstep]
  refine ⟨⟨?_, ?_, hcheck.of_same rfl rfl rfl rfl, ?_, ?_⟩, ?_⟩ <;> rw [hdec, hcrc]
  · rfl
  · exact hirqs
  · rfl
  · rfl
  · exact ⟨rfl, rfl, rfl, rfl, rfl, herror, rfl, rfl⟩

end

/-! ### The state that acceptance leaves -/

/-- HDR_SAMPLES_PER_FRAME by layer and version (R167). -/
theorem samplesPerFrameOf_layers (f : HeaderFields) :
    samplesPerFrameOf f = (if f.layer = .I then 384 else if f.layer = .II ∨ f.version = .v1 then 1152 else 576) := by
  unfold samplesPerFrameOf
  cases f.layer <;> cases f.version <;> rfl

/-- What the decode that follows acceptance finds in `u`: the frame and its header registers, and all else as in `s`. -/
structure AcceptedBy (h : Word) (s u : State) : Prop where
  frame : u.frame = some { hdr := h, payload := slice s.stream.input 4 (frameLen h - 4), pending := true }
  hdr : u.hdr = headerRegisters h s.stream.pos (slice s.stream.input 4 (frameLen h - 4))
  dec : u.dec = s.dec
  clips : u.clips = s.clips
  counters : u.counters = s.counters
  cfg : u.cfg = s.cfg
  crcErr : u.flags.crcErr = s.flags.crcErr
  crcIrq : u.irqPend &&& 0b01000#5 = s.irqPend &&& 0b01000#5

theorem acceptedBy_applyVbr (op : Byte) (h : Word) (v : VbrResult) (s : State) :
    AcceptedBy h s ((s.accepted h).applyVbr op v) := by
  have hbits : ∀ x : BitVec 5, (x ||| irqFrame) &&& 0b01000#5 = x &&& 0b01000#5 ∧
      (x ||| irqFrame ||| irqError) &&& 0b01000#5 = x &&& 0b01000#5 := by decide
  obtain ⟨hframe, herror⟩ := hbits s.irqPend
  cases v with
  | absent => exact ⟨rfl, rfl, rfl, rfl, rfl, rfl, rfl, hframe⟩
  | corrupt => exact ⟨rfl, rfl, rfl, rfl, rfl, rfl, rfl, herror⟩
  | found r => exact ⟨rfl, rfl, rfl, rfl, rfl, rfl, rfl, hframe⟩

/-- A LOAD_CLIP step on a confirmed candidate is its step on the frame that acceptance leaves. -/
theorem exec_loadClip_confirmed {s : State} {j : Job} {l : LoadProgress} {h : Word} (c : Nat) (hj : s.cur = some j)
    (hp : j.progress = .loading l) (hm : s.stream.mode ≠ .failed)
    (hk : s.stream.kind = .mpeg ∨ s.stream.kind = .unknown ∧ s.stream.input.take 4 ≠ riffTag)
    (hh : h = be32 s.stream.input 0) (hs : syncMark h s.stream.mode s.stream.word = true)
    (hc : frameLen h + 4 ≤ s.stream.input.length ∧
        syncMark (be32 s.stream.input (frameLen h)) s.stream.mode s.stream.word = true ∨
      s.stream.eos = true ∧ frameLen h ≤ s.stream.input.length ∧ s.stream.input.length < frameLen h + 4) :
    exec (.loadClip c) s = .next (loadClipFrame c j l ((s.accepted h).applyVbr 0x04 (s.vbrFound h))) := by
  rw [exec_of_busy (.loadClip c) hj]
  simp only [bodyOf, loadClipStep, syncStep_confirmed hm _ _ hk hh hs hc, hp, Progress.load]
  rfl

/-! ### The outcomes of the step -/

/-- A stored frame's samples, cell by cell, and every other cell as before. -/
theorem LoadStored.reads {j : Job} {l : LoadProgress} {u t : State} (h : LoadStored j l u t) (hm : u.MemOk) :
    (∀ i x, t.sink.samples[i]? = some x → Memory.read? t.clips.mem (l.base + l.w + i) = some x) ∧
    (∀ i, i < l.base + l.w ∨ l.base + l.w + t.sink.samples.length ≤ i →
      Memory.read? t.clips.mem i = Memory.read? u.clips.mem i) := by
  refine ⟨fun i x hx => ?_, fun i hi => ?_⟩ <;> rw [h.mem, Memory.read?_writeBlock hm]
  · obtain ⟨hlt, -⟩ := List.getElem?_eq_some_iff.1 hx
    rw [if_pos (by omega), Nat.add_sub_cancel_left, hx]
  · rw [if_neg (by omega)]

section
variable {u t : State} {f : Frame} {d : Decoder}

/-- The clauses on the checksum's results, of a frame that carries one. -/
theorem LoadLeaves.crcShown (h : LoadLeaves u f d t) (hc : f.fields.hasCrc = true) :
    t.hdr.crcComputed = frameCrc f ∧
    (frameCrc f = u.hdr.crcStored →
      t.flags.crcErr = u.flags.crcErr ∧ t.counters.crcErrCount = u.counters.crcErrCount ∧
        t.irqPend &&& 0b01000#5 = u.irqPend &&& 0b01000#5) ∧
    (frameCrc f ≠ u.hdr.crcStored →
      t.flags.crcErr = true ∧ t.counters.crcErrCount = u.counters.crcErrCount + 1 ∧
        t.irqPend &&& 0b01000#5 = 0b01000#5) := by
  refine ⟨by rw [h.crc.checked hc], fun he => ?_, fun hne => ?_⟩
  · obtain ⟨hflags, hcount, hirq⟩ := h.crc.agrees hc he
    exact ⟨congrArg StatusFlags.crcErr hflags, hcount, hirq⟩
  · obtain ⟨hflags, hcount, hirq⟩ := h.crc.differs hc hne
    exact ⟨congrArg StatusFlags.crcErr hflags, hcount, hirq⟩

/-- Of a frame without a checksum they are as before. -/
theorem LoadLeaves.crcKept (h : LoadLeaves u f d t) (hc : f.fields.hasCrc = false) :
    t.hdr.crcComputed = u.hdr.crcComputed ∧ t.flags.crcErr = u.flags.crcErr ∧
      t.counters.crcErrCount = u.counters.crcErrCount ∧ t.irqPend &&& 0b01000#5 = u.irqPend &&& 0b01000#5 := by
  obtain ⟨hregs, hflags, hcount, hirq⟩ := h.crc.absent hc
  exact ⟨congrArg HdrRegs.crcComputed hregs, congrArg StatusFlags.crcErr hflags, hcount, hirq⟩

end

/-- Settles O26: acceptance, then the one condition that decides between a decoded and a skipped frame, then whether the samples fit. -/
theorem loadClipStoresFrame : Obligations.LoadClipStoresFrame := by
  intro s a j c n side start cap spf l h f payload body res v d hmem hsink hj hp hm hk hh hn hs hc hpayload hframe hv ha
    hside hbody hstart hcap hres hspf hd
  subst hn hpayload
  obtain rfl : s.vbrFound h = v := hv.symm
  obtain ⟨u, hu⟩ : ∃ u, u = (s.accepted h).applyVbr 0x04 (s.vbrFound h) := ⟨_, rfl⟩
  have hexec := exec_loadClip_confirmed c hj hp hm hk hh hs hc
  have hacc := acceptedBy_applyVbr 0x04 h (s.vbrFound h) s
  have huok := sinkOk_accept 0x04 h (s := s.setKind .mpeg) hsink
  rw [accept_eq hm] at huok
  rw [← hu] at hexec hacc huok
  have hum : u.MemOk := memOk_of_clips_eq hmem hacc.clips
  have hf : u.frame = some f := by rw [hframe]; exact hacc.frame
  have hau : a = { u with frame := some { f with pending := false } } := by
    rw [ha, hu, hframe]
    cases s.vbrFound h <;> simp only [State.applyVbr, State.record, State.accepted, BitVec.or_assoc] <;> rfl
  have hbody' : body = f.payload.drop (if f.fields.hasCrc = true then 2 else 0) := by rw [hframe] at hbody ⊢; exact hbody
  have hspf' : u.hdr.samplesPerFrame.toNat = spf := by
    rw [hacc.hdr, samplesPerFrame_toNat, samplesPerFrameOf_layers, hspf, hframe]
    rfl
  have hinit : initDecoder f u.hdr.sampleRate.toNat u.dec = d := by
    rw [hd, hacc.dec, hau]
    rfl
  subst hau
  have hdinit : d.init = true := hinit ▸ initDecoder_init f _ u.dec
  have hdres : d.res = s.dec.res := hinit ▸ (initDecoder_res f _ u.dec).trans (congrArg Decoder.res hacc.dec)
  have decoded := fun out hc ho => loadClipFrame_decoded (out := out) c j l hinit hf hc ho
  have skipped := loadClipFrame_skipped c j l hinit hf
  obtain ⟨t, ht⟩ : ∃ t, t = loadClipFrame c j l u := ⟨_, rfl⟩
  rw [← ht] at hexec decoded skipped
  have hleaves : LoadLeaves u f d t := by
    rcases decodes_or_skipped f d with ⟨out, hc, ho⟩ | h
    · exact (decoded out hc ho).2.1
    · exact (skipped h).1
  have hdch : t.dec.dch = d.dch := (congrArg Decoder.dch hleaves.dec).trans rfl
  have hdrate : t.dec.drate = d.drate := (congrArg Decoder.drate hleaves.dec).trans rfl
  have hsinkch : t.sink.ch = d.dch := congrArg Sink.ch hleaves.sink
  rw [← hacc.crcErr, ← hacc.crcIrq, ← hacc.counters, ← hacc.clips, ← hacc.cfg]
  refine ⟨t, hexec, hleaves.only, hleaves.irqs, hleaves.crcShown, ?noCrc, (congrArg Decoder.init hleaves.dec).trans hdinit,
    hsinkch.trans hdch.symm, congrArg Sink.addr hleaves.sink, ?kept, ?fresh, ?reservoir, ?short, hdch, hdrate, ?decoded,
    ?skipped, ?outcome⟩
  case noCrc =>
    intro hc
    obtain ⟨hcomputed, hkept⟩ := hleaves.crcKept hc
    exact ⟨hcomputed.trans (congrArg HdrRegs.crcComputed hacc.hdr), hkept⟩
  case kept =>
    intro hi
    rw [hdch, hdrate, ← hinit, hacc.dec, initDecoder_of_init f _ hi]
    exact ⟨rfl, rfl⟩
  case fresh =>
    intro hi
    rw [hdch, hdrate, ← hinit, hacc.dec]
    exact initDecoder_fresh f _ hi
  case reservoir =>
    have hreservoir : t.dec.res = reservoirAfter f s.dec.res := hacc.dec ▸ congrArg Decoder.res hleaves.dec
    rw [hreservoir, hres]
    exact reservoirAfter_eq s.dec.res hside hbody' hcap
  case short =>
    intro hl hshort
    have hnone : mainData f d.res = none := by
      rw [hdres, mainData_eq _ hside hbody' hstart, if_pos hshort]
    exact (skipped (.inr (decodeLayer_of_mainData_none hl hnone))).2.samples
  case decoded =>
    intro out X hc ho hX
    obtain rfl : X = maskSubbands f.fields out.x := by
      funext c i k
      exact hX c i k
    obtain ⟨-, -, hto, -, -⟩ := decoded out hc ho
    exact ⟨hto.skips, hto.l3, hspf' ▸ hto.samples⟩
  case skipped =>
    intro h
    obtain ⟨-, hto⟩ := skipped h
    exact ⟨hto.skips, hto.l3, hto.delay⟩
  case outcome =>
    rcases decodes_or_skipped f d with ⟨out, hc, ho⟩ | h
    · left
      obtain ⟨hsinkEq, -, hto, stored, full⟩ := decoded out hc ho
      have htrue : (u.decodeCurrent 0x04 f).2 = true := congrArg Prod.snd (decodeCurrent_of_some (op := 0x04) hinit hc ho)
      obtain ⟨-, hsamples⟩ := sink_decoded huok htrue
      rw [← hsinkEq, hsinkch, hspf', ← hdch] at hsamples
      refine ⟨hdch.trans hc.symm, hsamples, hto.skips, fun hfit => ?_, fun hfit => ?_⟩
      · have hst := stored hfit
        exact ⟨hst.err, hst.irq, hst.cur, hst.reads hum⟩
      · have hst := full hfit
        exact ⟨hst.err, hst.irq, hst.cur, hst.mem⟩
    · right
      obtain ⟨-, hto⟩ := skipped h
      refine ⟨hto.samples, hto.skips, hto.err, hto.irq, hto.cur, hto.mem, fun hi => ?_⟩
      rw [hto.delay, hto.l3, ← hinit, hacc.dec, initDecoder_of_init f _ hi]
      exact ⟨rfl, rfl⟩

end Sys2Proof.Machine

/-! PROOFS. The family 41_decoder.md: a DECODE_FRAME that decodes nothing, and the synthesis filter bank (R190, R205 to R207, R274). -/

namespace Sys2Proof.Machine

/-! ### DECODE_FRAME that decodes nothing (R190, R274) -/

theorem decodeFrameStep_of_not_pending (j : Job) {s : State} (h : ∀ f, s.frame = some f → f.pending = false) :
    decodeFrameStep j s = s.raise .noFrame 0x03 0 := by
  unfold decodeFrameStep
  cases hf : s.frame with
  | none => rfl
  | some f =>
    dsimp only
    rw [h f hf]
    rfl

theorem decodeFrameStep_of_ringFull (j : Job) {s : State} {f : Frame} (hf : s.frame = some f) (hp : f.pending = true)
    (hfull : s.ringFull = true) : decodeFrameStep j s = s.complete 2 := by
  unfold decodeFrameStep
  rw [hf]
  dsimp only
  rw [hp, if_neg (by decide), if_pos hfull]

theorem ringFull_iff (s : State) :
    s.ringFull = true ↔ s.ring.bound = true ∧ s.ring.closed = false ∧
      s.cfg.ringCap - s.ring.buf.length < s.hdr.samplesPerFrame.toNat := by
  simp [State.ringFull, and_assoc]

/-- Settles O20: NO_FRAME by the frame that is absent or decoded, RESULT 2 by the ring's room. -/
theorem decodeFrameRefuses : Obligations.DecodeFrameRefuses := by
  refine ⟨fun s j hj hframe => ?_, fun s j f hj hf hp hbound hopen hroom => ?_⟩
  · have hstep : bodyOf .decodeFrame j s = s.raise .noFrame 0x03 0 := decodeFrameStep_of_not_pending j hframe
    have hirq : s.irqPend ||| irqError ||| irqCmdDone = s.irqPend ||| 0b00011#5 := BitVec.or_assoc _ _ _
    rw [exec_of_busy .decodeFrame hj, hstep, ← hirq]
    rfl
  · have hfull : s.ringFull = true := (ringFull_iff s).mpr ⟨hbound, hopen, hroom⟩
    have hstep : bodyOf .decodeFrame j s = s.complete 2 := decodeFrameStep_of_ringFull j hf hp hfull
    rw [exec_of_busy .decodeFrame hj, hstep]
    rfl

/-! ### A delay line over one time slot (R205) -/

theorem getD_shiftDelay_of_lt (v : List Num) (x : Nat → Num) {i : Nat} (hi : i < 64) (z : Num) :
    (shiftDelay v x).getD i z = Config.synth.newValue x i := by
  rw [List.getD_eq_getElem?_getD, shiftDelay, List.getElem?_append_left (by simpa using hi)]
  simp [hi]

theorem getD_shiftDelay_of_ge (v : List Num) (x : Nat → Num) {i : Nat} (hi : 64 ≤ i) (hi' : i < 1024) (z : Num) :
    (shiftDelay v x).getD i z = v.getD (i - 64) z := by
  rw [List.getD_eq_getElem?_getD, shiftDelay, List.getElem?_append_right (by simpa using hi), List.length_map,
    List.length_range, List.getElem?_take_of_lt (by omega), List.getD_eq_getElem?_getD]

/-- The two halves of each 64 places of U (R205). -/
theorem uIndex_halves (i : Nat) {j : Nat} (hj : j < 32) :
    uIndex (64 * i + j) = 128 * i + j ∧ uIndex (64 * i + 32 + j) = 128 * i + 96 + j := by
  unfold uIndex
  constructor
  · rw [if_pos (by omega)]
    omega
  · rw [if_neg (by omega)]
    omega

theorem uIndex_lt {n : Nat} (hn : n < 512) : uIndex n < 1024 := by
  unfold uIndex
  split <;> omega

/-! ### The delay lines before each time slot (R205, R207) -/

section
variable (x : Nat → Nat → Nat → Num) (delay : List (List Num))

/-- The delay line of channel `c` before time slot `t`. -/
def delayLine : Nat → Nat → List Num
  | 0, c => delay.getD c []
  | t + 1, c => shiftDelay (delayLine t c) (x c t)

/-- The delay lines of all channels before time slot `t`. -/
def delayLines (t : Nat) : List (List Num) := (List.range delay.length).map (delayLine x delay t)

@[simp] theorem length_delayLines (t : Nat) : (delayLines x delay t).length = delay.length := by simp [delayLines]

theorem delayLines_zero : delayLines x delay 0 = delay := by
  refine List.ext_getElem (length_delayLines x delay 0) fun c _ hc => ?_
  simp [delayLines, delayLine, hc]

theorem mapIdx_shiftDelay_delayLines (t : Nat) :
    (delayLines x delay t).mapIdx (fun c v => shiftDelay v (x c t)) = delayLines x delay (t + 1) := by
  refine List.ext_getElem (by simp) fun c _ _ => ?_
  simp [delayLines, delayLine]

/-- The filter bank from time slot `t` on: the lines after its last slot, and the slots' samples one after the other. -/
theorem synthesise_delayLines (n t : Nat) :
    synthesise x n t (delayLines x delay t) =
      (delayLines x delay (t + n),
        (List.range n).flatMap (fun k => interleave ((delayLines x delay (t + k + 1)).map slotSamples))) := by
  induction n generalizing t with
  | zero => rfl
  | succ n ih =>
    have hslot : ∀ k, t + 1 + k = t + (k + 1) := by omega
    rw [synthesise, mapIdx_shiftDelay_delayLines, ih, List.range_succ_eq_map, List.flatMap_cons, List.flatMap_map]
    simp only [hslot, Nat.add_zero]

theorem synthesise_eq (n : Nat) :
    synthesise x n 0 delay =
      (delayLines x delay n,
        (List.range n).flatMap (fun k => interleave ((delayLines x delay (k + 1)).map slotSamples))) := by
  have hblocks := synthesise_delayLines x delay n 0
  simpa only [delayLines_zero, Nat.zero_add] using hblocks

end

/-! ### The place of a sample (R205, R207) -/

/-- A place of a concatenation of blocks that all have `m` places. -/
theorem getElem?_flatMap_range {α : Type} {block : Nat → List α} {m : Nat} (hlen : ∀ k, (block k).length = m)
    {n k i : Nat} (hk : k < n) (hi : i < m) : ((List.range n).flatMap block)[k * m + i]? = (block k)[i]? := by
  have htotal : ∀ l, ((List.range l).flatMap block).length = l * m := by
    intro l
    simp [List.length_flatMap, hlen]
  induction n with
  | zero => omega
  | succ n ih =>
    rw [List.range_succ, List.flatMap_append, List.flatMap_singleton]
    rcases Nat.lt_succ_iff_lt_or_eq.mp hk with hlt | rfl
    · have hplace : k * m + i < n * m := by
        calc k * m + i < k * m + m := by omega
          _ = (k + 1) * m := by ring
          _ ≤ n * m := Nat.mul_le_mul_right m hlt
      rw [List.getElem?_append_left (by rwa [htotal]), ih hlt]
    · rw [List.getElem?_append_right (by rw [htotal]; omega), htotal, Nat.add_sub_cancel_left]

theorem getElem?_interleave (lines : List (List Num)) {j c : Nat} (hj : j < 32) (hc : c < lines.length) :
    (interleave (lines.map slotSamples))[j * lines.length + c]? = some (toS16 (slotOutput (lines.getD c []) j)) := by
  unfold interleave
  rw [getElem?_flatMap_range (by simp) hj hc]
  simp [slotSamples, hj, hc]

/-- The sample of place j of slot t and channel c (R205, R207). -/
theorem getElem?_synthesise (x : Nat → Nat → Nat → Num) (delay : List (List Num)) {n t j c : Nat} (ht : t < n)
    (hj : j < 32) (hc : c < delay.length) :
    (synthesise x n 0 delay).2[(32 * t + j) * delay.length + c]? =
      some (toS16 (slotOutput (delayLine x delay (t + 1) c) j)) := by
  have hplace : (32 * t + j) * delay.length + c = t * (32 * delay.length) + (j * delay.length + c) := by ring
  have hin : j * delay.length + c < 32 * delay.length := by
    calc j * delay.length + c < (j + 1) * delay.length := by rw [Nat.succ_mul]; omega
      _ ≤ 32 * delay.length := Nat.mul_le_mul_right _ hj
  have hslot := getElem?_interleave (delayLines x delay (t + 1)) hj (by simpa using hc)
  rw [length_delayLines] at hslot
  rw [synthesise_eq, hplace, getElem?_flatMap_range (by simp) ht hin, hslot]
  simp [delayLines, hc]

/-! ### Silence (R206) -/

/-- A delay line created zero, after `t` time slots whose subband samples are all zero. -/
def silentLine (t : Nat) : List Num :=
  (fun v => shiftDelay v (fun _ => Config.synth.zero))^[t] (List.replicate 1024 Config.synth.zero)

theorem silentLine_succ (t : Nat) : silentLine (t + 1) = shiftDelay (silentLine t) (fun _ => Config.synth.zero) :=
  Function.iterate_succ_apply' _ _ _

theorem getD_silentLine (t : Nat) {i : Nat} (hi : i < 1024) :
    (silentLine t).getD i Config.synth.zero = Config.synth.silentValue t i := by
  induction t generalizing i with
  | zero =>
    rw [SynthArith.silentValue, if_neg (Nat.not_lt_zero _)]
    exact List.getD_replicate _ hi
  | succ t ih =>
    rw [silentLine_succ]
    by_cases hnew : i < 64
    · rw [getD_shiftDelay_of_lt _ _ hnew, SynthArith.silentValue, if_pos (by omega), Nat.mod_eq_of_lt hnew]
    · have hdiv : i / 64 = (i - 64) / 64 + 1 := by omega
      have hmod : i % 64 = (i - 64) % 64 := by omega
      rw [getD_shiftDelay_of_ge _ _ (by omega) hi, ih (by omega)]
      simp only [SynthArith.silentValue, hdiv, hmod, Nat.add_lt_add_iff_right]

/-- Every output of every silent time slot is zero, by the law of the configuration. -/
theorem slotOutput_silentLine (n : Nat) {j : Nat} (hj : j < 32) :
    slotOutput (silentLine (n + 1)) j = Config.synth.zero := by
  refine Eq.trans (congrArg Config.synth.sum (List.map_congr_left fun i hi => ?_))
    (Config.synthesis.silent (n + 1) j (by omega) hj)
  have hu : uIndex (j + 32 * i) < 1024 := uIndex_lt (by have := List.mem_range.mp hi; omega)
  rw [synthU, getD_silentLine (n + 1) hu]

/-- Settles O23: V is read off the delay line of each channel and U off the line after the shift; silence by `slotOutput_silentLine`. -/
theorem synthesisAndSilence : Obligations.SynthesisAndSilence := by
  refine ⟨fun x n delay => ?_, fun i j _ hj => uIndex_halves i hj, fun n j hj => slotOutput_silentLine n hj⟩
  obtain ⟨hlines, hsamples⟩ := synthesise_lengths x n 0 delay
  refine ⟨fun t c i => (delayLine x delay t c).getD i Config.synth.zero, fun t c i => synthU (delayLine x delay (t + 1) c) i,
    fun _ _ => rfl, fun t c i hi => getD_shiftDelay_of_lt _ _ hi _, fun t c i hi hi' => getD_shiftDelay_of_ge _ _ hi hi' _,
    fun t c i j _ hj => ?halves, hlines, fun c i hc _ => ?last, hsamples.trans (by ring),
    fun t j c ht hj hc => getElem?_synthesise x delay ht hj hc⟩
  case halves =>
    obtain ⟨hlow, hhigh⟩ := uIndex_halves i hj
    simp only [synthU, hlow, hhigh, and_self]
  case last =>
    rw [synthesise_eq]
    simp [delayLines, hc]

end Sys2Proof.Machine

/-! PROOFS. The family 42_mixer.md: the operand of a voice command, and the mixer commands (R233, R242 to R248, R252, R256, R262, R266). -/

namespace Sys2Proof.Machine

/-! ### The operand of a voice command (R233) -/

theorem onVoice_of_ge {s : State} {v : Nat} (h : s.nVoices ≤ v) (op : Byte) (act : State → State) :
    onVoice op v act s = s.raise .badIndex op (BitVec.ofNat 8 v) := if_pos h

theorem onVoice_of_free {s : State} {v : Nat} (hv : v < s.nVoices) (hu : (s.voiceAt v).inUse = false) (op : Byte)
    (act : State → State) : onVoice op v act s = s.complete 1 :=
  (if_neg (Nat.not_le_of_lt hv)).trans (if_pos (by simp [hu]))

/-- Each of the five commands is the check of its slot number, then its own effect; the effect completes with RESULT 0, SET_LOOP's on a clip voice. -/
theorem exec_voiceCommand {s : State} {j : Job} {v : Nat} {loop : Bool} {i : Instr} (hj : s.cur = some j)
    (hi : i ∈ [Instr.pauseVoice v, .resumeVoice v, .stopVoice v, .setVolume v, .setLoop v loop]) :
    ∃ act : State → State, exec i s = .next (onVoice i.opcode v act s) ∧
      ((i = .setLoop v loop → (s.voiceAt v).stream = false) → ∃ x, act s = (s.setVoice v x).complete 0) := by
  rw [exec_of_busy i hj]
  simp only [List.mem_cons, List.not_mem_nil, or_false] at hi
  rcases hi with rfl | rfl | rfl | rfl | rfl
  · exact ⟨fun s => (s.setVoice v (s.voiceAt v).pause).complete 0, rfl, fun _ => ⟨_, rfl⟩⟩
  · exact ⟨fun s => (s.setVoice v (s.voiceAt v).resume).complete 0, rfl, fun _ => ⟨_, rfl⟩⟩
  · exact ⟨fun s => (s.setVoice v { s.voiceAt v with state := .stopped }).complete 0, rfl, fun _ => ⟨_, rfl⟩⟩
  · exact ⟨fun s => (s.setVoice v { s.voiceAt v with vol := volumeOperand j.arg0 }).complete 0, rfl, fun _ => ⟨_, rfl⟩⟩
  · exact ⟨setLoopEffect v loop, rfl, fun hc => ⟨_, setLoopEffect_of_clip (hc rfl) loop⟩⟩

/-- Settles O29: the three ends of `onVoice`. -/
theorem voiceOperandCheck : Obligations.VoiceOperandCheck := by
  intro s j v loop i hj hi
  obtain ⟨act, hexec, hact⟩ := exec_voiceCommand hj hi
  rw [hexec]
  refine ⟨fun hv => congrArg _ (onVoice_of_ge hv _ _), fun hv hu => congrArg _ (onVoice_of_free hv hu _ _),
    fun hv hu hclip => ?_⟩
  obtain ⟨x, hx⟩ := hact hclip
  rw [onVoice_of_inUse hv hu, hx]
  exact ⟨_, rfl, rfl, rfl, rfl⟩

/-! ### MIXER_START and MIXER_SYNC (R242, R248) -/

theorem mixerStartStep_of_running {s : State} (hr : s.mixer.running = true) (j : Job) :
    mixerStartStep j s = s.complete 0 := if_pos hr

theorem mixerStartStep_of_noLine {s : State} (hr : s.mixer.running = false) (hl : s.cfg.linePresent = false) (j : Job) :
    mixerStartStep j s = s.raise .hardwareLineUnavailable 0x10 0 := by
  simp [mixerStartStep, hr, hl, Instr.opcode]

theorem mixerStartStep_of_line {s : State} (hr : s.mixer.running = false) (hl : s.cfg.linePresent = true) (j : Job) :
    mixerStartStep j s =
      ({ s with line := ⟨true, []⟩, mixer := { s.mixer with running := true } }).complete 0 := by
  simp [mixerStartStep, hr, hl]

theorem mixerSyncStep_of_noTick {s : State} (ht : s.tickEnabled = false) (j : Job) :
    mixerSyncStep j s = s.complete 0 := by
  simp [mixerSyncStep, ht]

theorem mixerSyncStep_of_first {s : State} {j : Job} (hp : j.progress ≠ .syncing) (ht : s.tickEnabled = true) :
    mixerSyncStep j s = ({ s with mixer := { s.mixer with syncreq := true } }).goOn j .syncing := by
  simp [mixerSyncStep, hp, ht]

theorem mixerSyncStep_of_done {s : State} {j : Job} (hp : j.progress = .syncing) (hs : s.mixer.syncreq = false) :
    mixerSyncStep j s = s.complete 0 := by
  simp [mixerSyncStep, hp, hs]

theorem mixerSyncStep_of_waiting {s : State} {j : Job} (hp : j.progress = .syncing) (hs : s.mixer.syncreq = true)
    (ht : s.tickEnabled = true) : mixerSyncStep j s = s := by
  simp [mixerSyncStep, hp, hs, ht]

/-- Settles O32: the two commands case by case. -/
theorem mixerStartAndSync : Obligations.MixerStartAndSync := by
  refine ⟨fun s j hj => ?start, fun s j hj => ?sync⟩
  case start =>
    rw [exec_of_busy .mixerStart hj]
    exact ⟨fun hr => congrArg _ (mixerStartStep_of_running hr j),
      fun hr hl => congrArg _ (mixerStartStep_of_noLine hr hl j),
      fun hr hl => congrArg _ (mixerStartStep_of_line hr hl j)⟩
  case sync =>
    rw [exec_of_busy .mixerSync hj]
    exact ⟨fun ht => congrArg _ (mixerSyncStep_of_noTick ht j),
      fun hp ht => congrArg _ (mixerSyncStep_of_first hp ht),
      fun hp hs => congrArg _ (mixerSyncStep_of_done hp hs),
      fun hp hs ht => congrArg _ (mixerSyncStep_of_waiting hp hs ht)⟩

/-! ### MIXER_STOP (R244, R256) -/

/-- What the poison pill changes outside the slots: the queue is emptied and the mixer stops. -/
theorem mixer_poison (s : State) : s.poison.mixer = { s.mixer with fifo := [], running := false } := by
  show { (s.removeVoices (s.slotsWhere Voice.inUse)).mixer with fifo := [], running := false } = _
  rw [removeVoices_mixer]

/-- The poison pill sets the STOPPED_MASK bits of the slots in use. -/
theorem getLsbD_stopped_poison (s : State) {v : Nat} (hv : v < 256) :
    s.poison.stopped.getLsbD v = (s.stopped.getLsbD v || (s.voiceAt v).inUse) := by
  show (s.removeVoices (s.slotsWhere Voice.inUse)).stopped.getLsbD v = _
  have hmem : v ∈ s.slotsWhere Voice.inUse ↔ (s.voiceAt v).inUse = true :=
    (mem_slotsWhere s).trans (and_iff_right_of_imp (lt_of_inUse s))
  rw [getLsbD_stopped_removeVoices s _ v hv, Bool.decide_congr hmem, Bool.decide_eq_true]

/-- The poison pill makes VOICE_STOPPED pending where a slot is in use. -/
theorem irqPend_poison (s : State) :
    ((∀ v, (s.voiceAt v).inUse = false) → s.poison.irqPend = s.irqPend) ∧
    (∀ v, (s.voiceAt v).inUse = true → s.poison.irqPend = s.irqPend ||| irqVoiceStopped) := by
  have hirq : s.poison.irqPend = _ := irqPend_removeVoices s (s.slotsWhere Voice.inUse)
  refine ⟨fun hnone => hirq.trans (if_pos ?_), fun v hu => hirq.trans (if_neg ?_)⟩
  · refine List.eq_nil_iff_forall_not_mem.2 fun v hm => ?_
    have hu := ((mem_slotsWhere s).1 hm).2
    rw [hnone v] at hu
    cases hu
  · exact List.ne_nil_of_mem ((mem_slotsWhere s).2 ⟨lt_of_inUse s hu, hu⟩)

/-- The poison pill touches no other interrupt. -/
theorem irqPend_poison_and (s : State) : s.poison.irqPend &&& 0b11011#5 = s.irqPend &&& 0b11011#5 := by
  have hor : ∀ x : BitVec 5, (x ||| irqVoiceStopped) &&& 0b11011#5 = x &&& 0b11011#5 := by decide
  by_cases hu : ∃ v, (s.voiceAt v).inUse = true
  · obtain ⟨v, hu⟩ := hu
    rw [(irqPend_poison s).2 v hu, hor]
  · rw [(irqPend_poison s).1 (by simpa using hu)]

/-- Two words that agree under a mask agree under a part of it. -/
theorem and_eq_of_and_eq {w : Nat} {x y m k : BitVec w} (h : x &&& m = y &&& m) (hk : m &&& k = k) :
    x &&& k = y &&& k := by
  rw [← hk, ← BitVec.and_assoc, h, BitVec.and_assoc]

theorem mixerStopStep_of_drain {s : State} {j : Job} (hp : j.progress ≠ .draining)
    (hd : s.mixer.running = true ∧ s.line.isOpen = true) : mixerStopStep j s = s.poison.goOn j .draining := by
  simp [mixerStopStep, hp, hd]

theorem mixerStopStep_of_noDrain {s : State} {j : Job} (hp : j.progress ≠ .draining)
    (hd : ¬ (s.mixer.running = true ∧ s.line.isOpen = true)) : mixerStopStep j s = s.poison.complete 0 :=
  (if_neg hp).trans (if_neg (by simpa using hd))

theorem mixerStopStep_of_drained {s : State} {j : Job} (hp : j.progress = .draining)
    (hd : s.line.buf = [] ∨ s.env.timeout = true) :
    mixerStopStep j s = ({ s with line := ⟨false, []⟩ }).complete 0 := by
  simp [mixerStopStep, hp, hd]

theorem mixerStopStep_of_waiting {s : State} {j : Job} (hp : j.progress = .draining) (hb : s.line.buf ≠ [])
    (ht : s.env.timeout = false) : mixerStopStep j s = s := by
  simp [mixerStopStep, hp, hb, ht]

/-- The state `t` is the poison pill's, but for how the command goes on: `cur`, RESULT and CMD_DONE. -/
structure State.PoisonedTo (s t : State) : Prop where
  only : t = { s.poison with cur := t.cur, result := t.result, irqPend := t.irqPend }
  irq : t.irqPend &&& 0b11110#5 = s.poison.irqPend &&& 0b11110#5

theorem poisonedTo_first {s : State} {j : Job} (hp : j.progress ≠ .draining) : s.PoisonedTo (mixerStopStep j s) := by
  by_cases hd : s.mixer.running = true ∧ s.line.isOpen = true
  · rw [mixerStopStep_of_drain hp hd]
    exact ⟨rfl, rfl⟩
  · have hor : ∀ x : BitVec 5, (x ||| irqCmdDone) &&& 0b11110#5 = x &&& 0b11110#5 := by decide
    rw [mixerStopStep_of_noDrain hp hd]
    exact ⟨rfl, hor _⟩

section

variable {s t : State} (h : s.PoisonedTo t)
include h

theorem State.PoisonedTo.voiceAt (v : Nat) : t.voiceAt v = s.poison.voiceAt v := by
  rw [h.only]
  rfl

theorem State.PoisonedTo.frame :
    t = { s with
          voices := t.voices, stopped := t.stopped, ring := t.ring, irqPend := t.irqPend, result := t.result
          cur := t.cur, mixer := { s.mixer with fifo := [], running := false } } := by
  rw [h.only, poison_only, mixer_poison]

theorem State.PoisonedTo.irq_kept : t.irqPend &&& 0b11010#5 = s.irqPend &&& 0b11010#5 :=
  (and_eq_of_and_eq h.irq (by decide)).trans (and_eq_of_and_eq (irqPend_poison_and s) (by decide))

/-- VOICE_STOPPED as the poison pill leaves it. -/
theorem State.PoisonedTo.irq_stopped : t.irqPend &&& 0b00100#5 = s.poison.irqPend &&& 0b00100#5 :=
  and_eq_of_and_eq h.irq (by decide)

theorem State.PoisonedTo.stopped {v : Nat} (hv : v < 256) :
    t.stopped.getLsbD v = (s.stopped.getLsbD v || (s.voiceAt v).inUse) := by
  rw [h.only]
  exact getLsbD_stopped_poison s hv

/-- A slot in use is removed. -/
theorem State.PoisonedTo.inUse {v : Nat} (hu : (s.voiceAt v).inUse = true) :
    t.voiceAt v = (s.voiceAt v).removed ∧ (v < 256 → t.stopped.getLsbD v = true) ∧
      t.irqPend &&& 0b00100#5 = 0b00100#5 := by
  have hor : ∀ x : BitVec 5, (x ||| irqVoiceStopped) &&& 0b00100#5 = 0b00100#5 := by decide
  refine ⟨?_, fun hv => ?_, ?_⟩
  · rw [h.voiceAt, voiceAt_poison, if_pos hu]
  · rw [h.stopped hv, hu, Bool.or_true]
  · rw [h.irq_stopped, (irqPend_poison s).2 v hu, hor]

/-- A slot that is not in use stays as it is. -/
theorem State.PoisonedTo.not_inUse {v : Nat} (hu : (s.voiceAt v).inUse = false) :
    t.voiceAt v = s.voiceAt v ∧ t.stopped.getLsbD v = s.stopped.getLsbD v := by
  refine ⟨by rw [h.voiceAt, voiceAt_poison, if_neg (by simp [hu])], ?_⟩
  by_cases hv : v < 256
  · rw [h.stopped hv, hu, Bool.or_false]
  · rw [BitVec.getLsbD_of_ge _ _ (by omega), BitVec.getLsbD_of_ge _ _ (by omega)]

end

/-- Settles O33: the first step is the poison pill with how the command goes on, and the drain is a case split. -/
theorem mixerStop : Obligations.MixerStop := by
  refine ⟨fun s j hj hp => ?first, fun s j hj hp => ?drain⟩ <;> rw [exec_of_busy .mixerStop hj]
  case first =>
    have h : s.PoisonedTo (mixerStopStep j s) := poisonedTo_first hp
    have hring : (mixerStopStep j s).ring = s.poison.ring := by rw [h.only]
    refine ⟨_, rfl, h.frame, h.irq_kept, fun hnone => ?_, ?_, fun v => h.inUse, fun v => h.not_inUse, fun hs => ?_,
      fun hs => ?_, fun hd => ?_, fun hd => ?_⟩
    · exact h.irq_stopped.trans (by rw [(irqPend_poison s).1 hnone])
    · exact (congrArg (fun t => t.voices.length) h.only).trans (length_voices_poison s)
    · exact hring.trans ((ring_poison s).1 hs)
    · exact hring.trans ((ring_poison s).2 hs)
    · show (mixerStopStep j s).cur = _ ∧ (mixerStopStep j s).result = _ ∧ (mixerStopStep j s).irqPend &&& _ = _
      rw [mixerStopStep_of_drain hp hd]
      exact ⟨rfl, poison_result s, and_eq_of_and_eq (irqPend_poison_and s) (by decide)⟩
    · have hor : ∀ x : BitVec 5, (x ||| irqCmdDone) &&& 0b00001#5 = 0b00001#5 := by decide
      show (mixerStopStep j s).cur = _ ∧ (mixerStopStep j s).result = _ ∧ (mixerStopStep j s).irqPend &&& _ = _
      rw [mixerStopStep_of_noDrain hp hd]
      exact ⟨rfl, rfl, hor _⟩
  case drain =>
    exact ⟨fun hd => congrArg _ (mixerStopStep_of_drained hp hd),
      fun hb ht => congrArg _ (mixerStopStep_of_waiting hp hb ht)⟩

/-! ### A line write, and BYPASS_WRITE (R262, R266) -/

/-- A line write that the oracle lets through appends its frames and counts them (R262, R263). -/
theorem lineWrite_of_ok {s : State} (hd : s.env.lineDraw = .ok) (fs : List StereoFrame) :
    s.lineWrite fs =
      { s with
        line := { s.line with buf := s.line.buf ++ fs }
        counters := { s.counters with samplesOut := s.counters.samplesOut + BitVec.ofNat 32 fs.length }
        obs := { s.obs with lineWrites := s.obs.lineWrites ++ [⟨fs, .ok⟩] } } := by
  simp [State.lineWrite, State.lineOk, hd]

/-- A failing line write is observed, and does nothing. -/
theorem lineWrite_of_fail {s : State} (hd : s.env.lineDraw = .fail) (fs : List StereoFrame) :
    s.lineWrite fs = { s with obs := { s.obs with lineWrites := s.obs.lineWrites ++ [⟨fs, .fail⟩] } } := by
  simp [State.lineWrite, State.lineOk, hd]

theorem bypassStep_of_initial {j : Job} (hp : j.progress = .initial) (c : Nat) (s : State) :
    bypassStep c j s = bypassFirst c j s := by
  simp only [bypassStep, hp]

theorem bypassStep_of_bypass {j : Job} {d : ClipDesc} {i : Nat} (hp : j.progress = .bypass d i) (c : Nat) (s : State) :
    bypassStep c j s = bypassLater c j d i s := by
  simp only [bypassStep, hp]

/-- BYPASS_WRITE of a clip that fails a check raises the error of that check. -/
theorem bypassFirst_of_clipError {s : State} {c : Nat} {e : ErrCode} (he : s.clipError c = some e) (j : Job) :
    bypassFirst c j s = s.raise e 0x19 (BitVec.ofNat 8 c) := by
  simp only [bypassFirst, he]
  rfl

theorem bypassFirst_of_closed {s : State} {c : Nat} (he : s.clipError c = none) (ho : s.line.isOpen = false) (j : Job) :
    bypassFirst c j s = s.raise .badState 0x19 (BitVec.ofNat 8 c) := by
  simp [bypassFirst, he, ho, Instr.opcode, idx8]

theorem bypassFirst_of_open {s : State} {c : Nat} (he : s.clipError c = none) (ho : s.line.isOpen = true) (j : Job) :
    bypassFirst c j s = s.goOn j (.bypass (s.descAt c) 0) := by
  simp [bypassFirst, he, ho]

section

variable {s : State} {j : Job} {d : ClipDesc} {i : Nat} (c : Nat)

theorem bypassLater_of_end (hi : i = d.len) : bypassLater c j d i s = s.complete d.len := if_pos hi

theorem bypassLater_of_noRoom (hi : i ≠ d.len)
    (hroom : s.cfg.lineCap - s.line.buf.length < min s.cfg.mixBlock (d.len - i)) : bypassLater c j d i s = s :=
  (if_neg hi).trans (if_pos hroom)

variable (hi : i ≠ d.len) (hroom : min s.cfg.mixBlock (d.len - i) ≤ s.cfg.lineCap - s.line.buf.length)
include hi hroom

theorem bypassLater_of_ok (hd : s.env.lineDraw = .ok) :
    bypassLater c j d i s =
      (s.lineWrite (bypassChunk s.clips.mem d i (min s.cfg.mixBlock (d.len - i)))).goOn j
        (.bypass d (i + min s.cfg.mixBlock (d.len - i))) :=
  (if_neg hi).trans ((if_neg (Nat.not_lt_of_le hroom)).trans (if_pos (by simp [State.lineOk, hd])))

theorem bypassLater_of_fail (hd : s.env.lineDraw = .fail) :
    bypassLater c j d i s =
      ((s.lineWrite (bypassChunk s.clips.mem d i (min s.cfg.mixBlock (d.len - i)))).record .lineWriteFail 0x19
        (BitVec.ofNat 8 c)).complete i :=
  (if_neg hi).trans ((if_neg (Nat.not_lt_of_le hroom)).trans (if_neg (by simp [State.lineOk, hd])))

end

theorem length_bypassChunk (m : Memory) (d : ClipDesc) (i k : Nat) : (bypassChunk m d i k).length = k := by
  simp [bypassChunk]

/-- Settles O34: the checks by `clipError_eq`, the later steps by the clip's end, the line's room and the draw. -/
theorem bypassWrite : Obligations.BypassWrite := by
  refine ⟨fun s j c hj hp => ?first, fun s j c i k d chunk hj hp hk hchunk => ?later⟩ <;>
    rw [exec_of_busy (.bypassWrite c) hj]
  case first =>
    have hfirst : bodyOf (.bypassWrite c) j s = bypassFirst c j s := bypassStep_of_initial hp c s
    rw [hfirst]
    refine ⟨fun hge => congrArg _ ?badIndex, fun d hd => ⟨fun hv => congrArg _ ?unknown,
      fun hv hr => congrArg _ ?mismatch, fun hv hr ho => congrArg _ ?closed, fun hv hr ho => congrArg _ ?starts⟩⟩
    case badIndex => exact bypassFirst_of_clipError (clipError_of_ge hge) j
    case unknown => exact bypassFirst_of_clipError (by simp [clipError_eq hd, hv]) j
    case mismatch => exact bypassFirst_of_clipError (by simp [clipError_eq hd, hv, hr]) j
    case closed => exact bypassFirst_of_closed (by simp [clipError_eq hd, hv, hr]) ho j
    case starts =>
      rw [bypassFirst_of_open (by simp [clipError_eq hd, hv, hr]) ho, descAt_of_getElem? s hd]
      rfl
  case later =>
    have hlater : bodyOf (.bypassWrite c) j s = bypassLater c j d i s := bypassStep_of_bypass hp c s
    obtain rfl : chunk = bypassChunk s.clips.mem d i k := hchunk
    subst hk
    rw [hlater]
    refine ⟨fun hi => congrArg _ (bypassLater_of_end c hi),
      fun hi hroom => congrArg _ (bypassLater_of_noRoom c hi hroom),
      fun hi hroom hd => congrArg _ ?ok, fun hi hroom hd => congrArg _ ?fail⟩
    case ok =>
      rw [bypassLater_of_ok c hi hroom hd, lineWrite_of_ok hd, length_bypassChunk]
      rfl
    case fail =>
      have hirq : s.irqPend ||| irqError ||| irqCmdDone = s.irqPend ||| 0b00011#5 := BitVec.or_assoc _ _ _
      rw [bypassLater_of_fail c hi hroom hd, lineWrite_of_fail hd, ← hirq]
      rfl

end Sys2Proof.Machine

/-! PROOFS. The family 42_mixer.md: what one read of a voice gives (R252, R271). -/

namespace Sys2Proof.Machine

/-! ### The read of a clip voice (R252) -/

theorem wrapPos_of_lt {x : Voice} (h : x.pos < x.len) (lp : Bool) : wrapPos lp x = some x.pos :=
  if_neg (Nat.not_le_of_lt h)

theorem wrapPos_of_end {x : Voice} (h : x.pos = x.len) : wrapPos false x = none :=
  if_pos h.ge

/-- With loop the position past the last frame wraps to 0. -/
theorem wrapPos_loop {x : Voice} (h : x.pos ≤ x.len) : wrapPos true x = some (x.pos % x.len) := by
  rcases h.lt_or_eq with hlt | heq
  · rw [wrapPos_of_lt hlt, Nat.mod_eq_of_lt hlt]
  · rw [heq, Nat.mod_self]
    exact if_pos heq.ge

/-- The loop of ReadClip without loop: the frames left, up to n, and a stop where fewer were left. -/
theorem readClipLoop_noLoop (m : Memory) (n : Nat) {x : Voice} (hst : x.state = .playing) (hpos : x.pos ≤ x.len) :
    readClipLoop m false n x =
      ({ x with
          pos := x.pos + min n (x.len - x.pos)
          state := if x.len - x.pos < n then .stopped else .playing },
        (List.range (min n (x.len - x.pos))).map (fun i => clipFrame m x.base x.ch (x.pos + i))) := by
  induction n generalizing x with
  | zero => simp [readClipLoop, ← hst]
  | succ n ih =>
    rw [readClipLoop]
    rcases hpos.lt_or_eq with hlt | heq
    · have hmin : min (n + 1) (x.len - x.pos) = min n (x.len - (x.pos + 1)) + 1 := by omega
      have hleft : x.len - (x.pos + 1) < n ↔ x.len - x.pos < n + 1 := by omega
      rw [wrapPos_of_lt hlt, hmin, List.range_succ_eq_map, List.map_cons, List.map_map]
      dsimp only
      rw [ih (x := { x with pos := x.pos + 1 }) hst hlt]
      simp only [hleft, Function.comp_def, Nat.succ_eq_add_one, Nat.add_zero, Nat.add_assoc, Nat.add_comm 1]
    · rw [wrapPos_of_end heq]
      simp [heq]

/-- The loop of ReadClip with loop: n frames, wrapping, and the position one past the last. -/
theorem readClipLoop_loop (m : Memory) (n : Nat) {x : Voice} (hlen : x.len ≠ 0) (hpos : x.pos ≤ x.len) :
    readClipLoop m true n x =
      ({ x with pos := if n = 0 then x.pos else (x.pos + n - 1) % x.len + 1 },
        (List.range n).map (fun i => clipFrame m x.base x.ch ((x.pos + i) % x.len))) := by
  induction n generalizing x with
  | zero => rfl
  | succ n ih =>
    have hlt : x.pos % x.len < x.len := Nat.mod_lt _ (Nat.pos_of_ne_zero hlen)
    have hframe : ∀ i, (x.pos % x.len + 1 + i) % x.len = (x.pos + (i + 1)) % x.len := fun i => by
      rw [Nat.add_assoc, Nat.mod_add_mod, Nat.add_comm 1]
    have hlast : (if n = 0 then x.pos % x.len + 1 else (x.pos % x.len + 1 + n - 1) % x.len + 1) =
        (x.pos + n) % x.len + 1 := by
      split
      · next hn => simp [hn]
      · rw [Nat.add_right_comm, Nat.add_sub_cancel, Nat.mod_add_mod]
    rw [readClipLoop, wrapPos_loop hpos, List.range_succ_eq_map, List.map_cons, List.map_map]
    dsimp only
    rw [ih (x := { x with pos := x.pos % x.len + 1 }) hlen hlt]
    simp only [hframe, hlast, Function.comp_def, Nat.succ_eq_add_one, Nat.add_zero, Nat.succ_ne_zero, if_false,
      Nat.add_succ_sub_one]

theorem readClip_of_not_playing {x : Voice} (h : x.state ≠ .playing) (m : Memory) (n : Nat) (lp : Bool) :
    readClip m n lp x = (x, []) := if_pos h

theorem readClip_of_empty {x : Voice} (hst : x.state = .playing) (h : x.len = 0) (m : Memory) (n : Nat) (lp : Bool) :
    readClip m n lp x = ({ x with state := .stopped }, []) :=
  (if_neg (not_not.2 hst)).trans (if_pos h)

theorem readClip_of_playing {x : Voice} (hst : x.state = .playing) (h : x.len ≠ 0) (m : Memory) (n : Nat) (lp : Bool) :
    readClip m n lp x = readClipLoop m lp n x :=
  (if_neg (not_not.2 hst)).trans (if_neg h)

/-! ### The read of a stream voice (R271) -/

theorem readStream_of_not_playing {x : Voice} (h : x.state ≠ .playing) (n : Nat) (r : Ring) :
    readStream n x r = (x, r, []) := if_pos h

theorem readStream_of_playing {x : Voice} (h : x.state = .playing) (n : Nat) (r : Ring) :
    readStream n x r =
      ({ x with
          pos := x.pos + min n r.buf.length
          state := if min n r.buf.length < n ∧ r.closed = true then .stopped else .playing },
        { r with buf := r.buf.drop (min n r.buf.length) },
        (r.buf.take (min n r.buf.length)).map RingFrame.toStereo) := by
  rw [readStream, if_neg (not_not.2 h), h]

/-- Settles O43: the two loops by induction on the frames wanted, the stream read as it is defined. -/
theorem voiceReads : Obligations.VoiceReads := by
  refine ⟨fun m n lp x r h => ?idle,
    fun m n lp x hst hpos => ⟨fun h => ?empty, fun h hlp => ?noLoop, fun h hlp => ?loop⟩, fun _ _ _ _ => rfl, fun n k x r h hk => ?stream⟩
  case idle => exact ⟨readClip_of_not_playing h m n lp, readStream_of_not_playing h n r⟩
  case empty => exact readClip_of_empty hst h m n lp
  case noLoop => rw [readClip_of_playing hst h, hlp, readClipLoop_noLoop m n hst hpos]
  case loop => rw [readClip_of_playing hst h, hlp, readClipLoop_loop m n h hpos]
  case stream =>
    rw [readStream_of_playing h, hk]
    refine congrArg _ (congrArg _ (List.map_congr_left fun f _ => ?_))
    cases f <;> rfl

end Sys2Proof.Machine

/-! PROOFS. The family 42_mixer.md: when a tick is enabled, and the block it writes (R250 to R257, R262, R263, R321). -/

namespace Sys2Proof.Machine

/-! ### When a tick is enabled (R257) -/

/-- A voice gives the tick work: it is to be removed, or it plays and its read can answer. -/
theorem hasWork_iff (r : Ring) (x : Voice) :
    x.hasWork r = true ↔ x.active = true ∧
      (x.state = .stopped ∨ x.state = .playing ∧ (x.stream = false ∨ r.buf ≠ [] ∨ r.closed = true)) := by
  simp [Voice.hasWork, List.length_pos_iff, or_assoc]

theorem tickEnabled_iff (s : State) :
    s.tickEnabled = true ↔
      s.mixer.running = true ∧ s.line.isOpen = true ∧ s.cfg.mixBlock ≤ s.cfg.lineCap - s.line.buf.length ∧
      (s.mixer.fifo ≠ [] ∨ ∃ x ∈ s.voices, x.hasWork s.ring = true) := by
  simp only [State.tickEnabled, Bool.and_eq_true, Bool.or_eq_true, decide_eq_true_eq, Bool.not_eq_true',
    List.isEmpty_eq_false_iff, List.any_eq_true, and_assoc]
  rfl

/-- Where no tick is enabled the mixer's turn does nothing. -/
theorem step_of_noTick {s : State} {d : LineDraw} (hn : s.env.nextTurn = .mixer d) (ht : s.tickEnabled = false) :
    step s = .next s.taking := by
  have ht' : s.taking.tickEnabled = false := ht
  rw [step_eq, hn]
  exact congrArg _ (if_neg (by simp [ht']))

/-- The mixer's step where a tick is enabled is that tick, with the draw of its turn. -/
theorem eq_tick_of_step {s t : State} {d : LineDraw} (hn : s.env.nextTurn = .mixer d) (ht : s.tickEnabled = true)
    (h : step s = .next t) : t = s.taking.tick ∧ d = s.taking.env.lineDraw := by
  obtain ⟨htick, hdraw⟩ := step_of_tick hn ht
  exact ⟨Host.Outcome.next.inj (h.symm.trans htick), hdraw.symm⟩

/-! ### What a tick leaves of the mixer and of the line -/

/-- A tick empties the queue and clears syncreq. -/
theorem mixer_tick (s : State) : s.tick.mixer = { s.mixer with fifo := [], syncreq := false } := by
  rcases tick_cases s with ⟨-, h⟩ | ⟨u, rfl, ⟨-, h⟩ | ⟨-, r, rfl, h⟩⟩ <;> rw [h] <;> simp

/-- The block of a tick, over what the visits accumulated. -/
def State.tickBlock (s : State) : List StereoFrame := emitBlock s.admitAll.visits.acc

theorem length_tickBlock (s : State) : s.tickBlock.length = s.cfg.mixBlock := by
  simp [State.tickBlock]

/-- Emission with a line write that succeeds is that write. -/
theorem emit_of_ok {s : State} (hd : s.env.lineDraw = .ok) (acc : List (Int × Int)) (vs : List Nat) :
    s.emit acc vs = s.lineWrite (emitBlock acc) := if_pos (by simp [State.lineOk, hd])

/-- After a failing line write the contributing voices are removed, and LINE_WRITE_FAIL names the first (R255, R321). -/
theorem emit_of_fail {s : State} (hd : s.env.lineDraw = .fail) (acc : List (Int × Int)) (vs : List Nat) :
    s.emit acc vs =
      ((s.lineWrite (emitBlock acc)).removeInUse vs).record .lineWriteFail 0xFF (BitVec.ofNat 8 (vs.headD 0)) :=
  if_neg (by simp [State.lineOk, hd])

/-- A tick to which no voice contributes writes nothing. -/
theorem tick_of_noContrib {s : State} (hc : s.admitAll.visits.contrib = []) :
    s.tick.line = s.line ∧ s.tick.counters = s.counters ∧ s.tick.obs = s.obs ∧ s.tick.err = s.err := by
  have htick : s.tick = { s.admitAll.visits.s with mixer := { s.admitAll.visits.s.mixer with syncreq := false } } := by
    simp [State.tick, hc]
  rw [htick]
  simp

/-- A tick to which voices contribute makes the one line write of its block, and what follows a failing one. -/
theorem tick_of_contrib {s : State} (hc : s.admitAll.visits.contrib ≠ []) :
    s.tick.obs = { s.obs with lineWrites := s.obs.lineWrites ++ [⟨s.tickBlock, s.env.lineDraw⟩] } ∧
    (s.env.lineDraw = .ok →
      s.tick.line = { s.line with buf := s.line.buf ++ s.tickBlock } ∧ s.tick.err = s.err ∧
      s.tick.counters = { s.counters with samplesOut := s.counters.samplesOut + BitVec.ofNat 32 s.cfg.mixBlock }) ∧
    (s.env.lineDraw = .fail →
      s.tick.line = s.line ∧ s.tick.counters = s.counters ∧
      s.tick.err = s.err.record .lineWriteFail 0xFF (BitVec.ofNat 8 (s.admitAll.visits.contrib.headD 0)) ∧
      s.tick.irqPend &&& 0b00010#5 = 0b00010#5) := by
  have hdraw : s.admitAll.visits.s.env.lineDraw = s.env.lineDraw := by simp
  have htick : s.tick =
      let e := s.admitAll.visits.s.emit s.admitAll.visits.acc s.admitAll.visits.contrib
      { e with mixer := { e.mixer with syncreq := false } } := by
    simp [State.tick, hc]
  rw [htick]
  cases hd : s.env.lineDraw with
  | ok =>
    rw [emit_of_ok (hdraw.trans hd), lineWrite_of_ok (hdraw.trans hd)]
    simp [State.tickBlock]
  | fail =>
    have hor : ∀ x : BitVec 5, (x ||| irqError) &&& 0b00010#5 = 0b00010#5 := by decide
    rw [emit_of_fail (hdraw.trans hd), lineWrite_of_fail (hdraw.trans hd)]
    simp [State.tickBlock, hor]

/-- No voice contributes exactly where no active voice supplies a frame. -/
theorem contrib_eq_nil_iff {s : State} (hq : s.QueueOk) (hr : s.RingOk) :
    s.admitAll.visits.contrib = [] ↔
      ∀ v, (s.admitAll.voiceAt v).active = true → s.admitAll.supplies v = [] := by
  simp only [List.eq_nil_iff_forall_not_mem, mem_contrib_iff hq hr, not_and, not_not]

/-- The lowest active voice that supplies a frame heads the contributing ones. -/
theorem headD_contrib {s : State} {v : Nat} (hq : s.QueueOk) (hr : s.RingOk)
    (ha : (s.admitAll.voiceAt v).active = true) (hs : s.admitAll.supplies v ≠ [])
    (hlow : ∀ u, u < v → (s.admitAll.voiceAt u).active = true → s.admitAll.supplies u = []) :
    s.admitAll.visits.contrib.headD 0 = v := by
  have hlt : v < s.admitAll.voices.length := lt_of_inUse _ (by simp [Voice.inUse, ha])
  rw [contrib_visits hq hr]
  exact headD_filter_slotsWhere hlt ha (decide_eq_true hs) fun u hu hau => decide_eq_false (not_not.2 (hlow u hu hau))

/-- Settles O44: the tick's two forms, chosen by whether a voice contributes. -/
theorem tickWritesOneBlock : Obligations.TickWritesOneBlock := by
  refine ⟨fun s => ?enabled, fun s d hturn => ⟨step_of_noTick hturn, fun ht => ?only⟩,
    fun s t d hq hr hturn ht hstep => ?writes⟩
  case enabled => simp only [tickEnabled_iff, hasWork_iff]
  case only =>
    refine ⟨_, (step_of_tick hturn ht).1, ?_⟩
    conv_lhs => rw [tick_only, mixer_tick]
    rfl
  case writes =>
    obtain ⟨rfl, rfl⟩ := eq_tick_of_step hturn ht hstep
    have hq : s.taking.QueueOk := hq
    have hr : s.taking.RingOk := hr
    simp only [← (admitAll_taking s _).1, ← (admitAll_taking s _).2]
    refine ⟨fun hnone => tick_of_noContrib ((contrib_eq_nil_iff hq hr).2 hnone), fun v ha hs hlow => ?_⟩
    obtain ⟨hobs, hok, hfail⟩ := tick_of_contrib (mt (contrib_eq_nil_iff hq hr).1 fun hnone => hs (hnone v ha))
    rw [headD_contrib hq hr ha hs hlow] at hfail
    exact ⟨s.taking.tickBlock, length_tickBlock _, hobs, hok, hfail⟩

/-! ### The block is the mix (R253, R255) -/

/-- What voice v adds to frame i of the mix, left and right. -/
def State.share (s : State) (i v : Nat) : Int × Int :=
  (((s.supplies v)[i]?.map (fun f => scale f.l (s.voiceAt v).vol)).getD 0,
   ((s.supplies v)[i]?.map (fun f => scale f.r (s.voiceAt v).vol)).getD 0)

/-- Frame i of the mix is the sum of the active voices' shares. -/
theorem mixedFrame_eq (s : State) (i : Nat) :
    s.mixedFrame i = ((s.slotsWhere Voice.active).map (s.share i)).sum := by
  unfold State.mixedFrame
  generalize s.slotsWhere Voice.active = vs
  induction vs with
  | nil => rfl
  | cons v vs ih =>
    simp only [List.map_cons, List.sum_cons]
    rw [← ih]
    rfl

/-- The visits of `vs` add the shares of its voices, each as it is before any visit. -/
theorem getElem?_acc_foldl_visit {a : State} {vs : List Nat} {m : Mix} (hn : vs.Nodup) (h : m.Agrees a vs)
    (hs : a.OneStream vs) (i : Nat) :
    (vs.foldl visit m).acc[i]? = m.acc[i]?.map (· + (vs.map (a.share i)).sum) := by
  induction vs generalizing m with
  | nil => simp
  | cons v vs ih =>
    have hv : m.s.supplies v = a.supplies v := supplies_congr (h.voices v (by simp)) h.cfg h.clips (h.ring v (by simp))
    have hacc : (visit m v).acc[i]? = m.acc[i]?.map (· + a.share i v) := by
      rw [acc_visit, getElem?_addFrames, hv, h.voices v (by simp)]
      rfl
    rw [List.foldl_cons, ih (List.nodup_cons.1 hn).2 (agrees_visit hn h hs) hs.tail, hacc, Option.map_map]
    simp only [Function.comp_def, add_assoc, List.map_cons, List.sum_cons]

/-- Before its one clamping, frame i of the block of a tick is that of the mix. -/
theorem getElem?_acc_visits {s : State} (hq : s.QueueOk) (hr : s.RingOk) {i : Nat} (hi : i < s.cfg.mixBlock) :
    s.admitAll.visits.acc[i]? = some (s.admitAll.mixedFrame i) := by
  have hcfg : i < s.admitAll.cfg.mixBlock := by simpa using hi
  refine (getElem?_acc_foldl_visit (nodup_slotsWhere _ _) ⟨fun _ _ => rfl, rfl, rfl, fun _ _ _ => rfl⟩
    (oneStream_admitAll hq hr).2 i).trans ?_
  rw [List.getElem?_replicate_of_lt hcfg, mixedFrame_eq, Option.map_some]
  exact congrArg some (zero_add _)

/-- Taking a turn does not change the mix. -/
theorem mixedFrame_taking (s : State) (i : Nat) : s.taking.admitAll.mixedFrame i = s.admitAll.mixedFrame i := by
  have hslots : s.taking.admitAll.slotsWhere Voice.active = s.admitAll.slotsWhere Voice.active := by
    simp only [State.slotsWhere, (admitAll_taking s _).1, length_voices_admitAll]
    rfl
  simp only [State.mixedFrame, hslots, (admitAll_taking s _).1, (admitAll_taking s _).2]

/-- Settles O45: the write is the tick's block, each frame of it the mix of the shares. -/
theorem tickMixesVoices : Obligations.TickMixesVoices := by
  intro s t d w hq hr hturn ht hstep hw i hi
  obtain ⟨rfl, -⟩ := eq_tick_of_step hturn ht hstep
  have hobs : s.taking.obs.lineWrites = s.obs.lineWrites := rfl
  by_cases hc : s.taking.admitAll.visits.contrib = []
  · obtain ⟨-, -, hnone, -⟩ := tick_of_noContrib hc
    rw [hnone, hobs] at hw
    exact absurd hw (by simp)
  · obtain ⟨hone, -, -⟩ := tick_of_contrib hc
    obtain rfl : ⟨s.taking.tickBlock, s.taking.env.lineDraw⟩ = w := by
      rw [hone] at hw
      simpa [hobs] using hw
    have hacc := getElem?_acc_visits (s := s.taking) hq hr hi
    rw [mixedFrame_taking] at hacc
    show (emitBlock _)[i]? = _
    rw [emitBlock, List.getElem?_map, hacc]
    rfl

end Sys2Proof.Machine

/-! PROOFS. The family 42_mixer.md: the line writes of a step and of a run, and their count in SAMPLES_OUT (R262, R263, R345, R392). -/

namespace Sys2Proof.Machine

/-! ### Which parts of a step leave SAMPLES_OUT alone -/

@[simp] theorem samplesOut_reject (k : Nat) (s : State) :
    (s.reject k).2.2.counters.samplesOut = s.counters.samplesOut := by
  unfold State.reject
  split <;> rfl

@[simp] theorem samplesOut_scan (op : Byte) (k : Nat) (s : State) :
    (s.scan op k).2.2.counters.samplesOut = s.counters.samplesOut := by
  unfold State.scan
  split <;> simp

@[simp] theorem samplesOut_syncStep (op : Byte) (k : Nat) (s : State) :
    (s.syncStep op k).2.2.counters.samplesOut = s.counters.samplesOut := by
  unfold State.syncStep
  repeat' split
  all_goals simp

@[simp] theorem samplesOut_checkCrc (f : Frame) (s : State) :
    (s.checkCrc f).counters.samplesOut = s.counters.samplesOut := by
  rcases checkCrc_cases f s with ⟨-, h⟩ | ⟨-, -, h⟩ | ⟨-, -, h⟩ <;> rw [h]

@[simp] theorem samplesOut_decodeCurrent (op : Byte) (f : Frame) (s : State) :
    (s.decodeCurrent op f).1.counters.samplesOut = s.counters.samplesOut := by
  rcases decodeCurrent_cases op f s with ⟨-, ys, l3, delay, h, -, -⟩ | h <;> rw [h]
  · exact samplesOut_checkCrc f s
  · exact samplesOut_checkCrc f s

theorem samplesOut_readFrameStep (j : Job) (s : State) :
    (readFrameStep j s).counters.samplesOut = s.counters.samplesOut := by
  have h := samplesOut_syncStep Instr.readFrame.opcode j.progress.skipped s
  unfold readFrameStep
  dsimp only
  split
  · rfl
  all_goals next hq =>
    rw [hq] at h
    simpa using h

theorem samplesOut_decodeFrameStep (j : Job) (s : State) :
    (decodeFrameStep j s).counters.samplesOut = s.counters.samplesOut := by
  unfold decodeFrameStep
  dsimp only
  repeat' split
  all_goals simp

theorem samplesOut_loadClipFrame (c : Nat) (j : Job) (l : LoadProgress) (s : State) :
    (loadClipFrame c j l s).counters.samplesOut = s.counters.samplesOut := by
  unfold loadClipFrame
  dsimp only
  repeat' split
  all_goals simp

theorem samplesOut_loadClipStep (c : Nat) (j : Job) (s : State) :
    (loadClipStep c j s).counters.samplesOut = s.counters.samplesOut := by
  have h := samplesOut_syncStep (Instr.loadClip c).opcode (j.progress.load s.clips.alloc).skipped s
  unfold loadClipStep
  dsimp only
  split
  · rfl
  all_goals next hq =>
    rw [hq] at h
    simpa [samplesOut_loadClipFrame] using h

/-! ### At most one line write -/

/-- The frames of the line writes that succeeded. -/
def okFrames (ws : List LineWrite) : Nat :=
  ((ws.filter (fun w => decide (w.draw = .ok))).map (fun w => w.frames.length)).sum

theorem okFrames_append (ws vs : List LineWrite) : okFrames (ws ++ vs) = okFrames ws + okFrames vs := by
  simp [okFrames]

/-- From `s` to `t` the line writes `ws` were made, and SAMPLES_OUT grew by the frames of those that succeeded. -/
structure State.Wrote (s : State) (ws : List LineWrite) (t : State) : Prop where
  writes : t.obs.lineWrites = s.obs.lineWrites ++ ws
  count : t.counters.samplesOut = s.counters.samplesOut + BitVec.ofNat 32 (okFrames ws)

section

variable {s t u : State}

theorem wrote_nil (hw : t.obs.lineWrites = s.obs.lineWrites) (hc : t.counters.samplesOut = s.counters.samplesOut) :
    s.Wrote [] t :=
  ⟨by rw [hw, List.append_nil], by rw [hc]; exact (BitVec.add_zero _).symm⟩

theorem State.Wrote.trans {ws vs : List LineWrite} (h1 : s.Wrote ws t) (h2 : t.Wrote vs u) : s.Wrote (ws ++ vs) u where
  writes := by rw [h2.writes, h1.writes, List.append_assoc]
  count := by rw [h2.count, h1.count, okFrames_append, BitVec.ofNat_add, BitVec.add_assoc]

/-- From `s` to `t` at most one line write was made. -/
def State.WroteOne (s t : State) : Prop := ∃ ws : List LineWrite, ws.length ≤ 1 ∧ s.Wrote ws t

theorem wroteOne_of_none (h : s.Wrote [] t) : s.WroteOne t := ⟨[], Nat.zero_le _, h⟩

theorem State.WroteOne.then_none (h : s.WroteOne t) (h' : t.Wrote [] u) : s.WroteOne u := by
  obtain ⟨ws, hone, hws⟩ := h
  exact ⟨ws, hone, by simpa using hws.trans h'⟩

theorem State.Wrote.then_one (h : s.Wrote [] t) (h' : t.WroteOne u) : s.WroteOne u := by
  obtain ⟨ws, hone, hws⟩ := h'
  exact ⟨ws, hone, h.trans hws⟩

end

/-- LineWrite is one line write, counted where the oracle lets it through (R262, R263). -/
theorem wroteOne_lineWrite (fs : List StereoFrame) (s : State) : s.WroteOne (s.lineWrite fs) := by
  cases hd : s.env.lineDraw with
  | ok =>
    rw [lineWrite_of_ok hd]
    exact ⟨[⟨fs, .ok⟩], Nat.le_refl _, rfl, by simp [okFrames]⟩
  | fail =>
    rw [lineWrite_of_fail hd]
    exact ⟨[⟨fs, .fail⟩], Nat.le_refl _, rfl, by simp [okFrames]⟩

/-- A tick makes a line write where a voice supplied a frame (R255). -/
theorem wroteOne_tick (s : State) : s.WroteOne s.tick := by
  have hvisits : s.Wrote [] s.admitAll.visits.s := wrote_nil (by simp) (by simp)
  have hwrite := hvisits.then_one (wroteOne_lineWrite (emitBlock s.admitAll.visits.acc) s.admitAll.visits.s)
  rcases tick_cases s with ⟨-, h⟩ | ⟨u, rfl, ⟨-, h⟩ | ⟨-, r, rfl, h⟩⟩ <;> rw [h]
  · exact wroteOne_of_none (hvisits.trans (wrote_nil rfl rfl))
  · exact hwrite.then_none (wrote_nil rfl rfl)
  · exact hwrite.then_none (wrote_nil (by simp) (by simp))

/-- A later step of BYPASS_WRITE makes a line write where it has room for its chunk (R266). -/
theorem wroteOne_bypassLater (c : Nat) (j : Job) (d : ClipDesc) (i : Nat) (s : State) :
    s.WroteOne (bypassLater c j d i s) := by
  unfold bypassLater
  dsimp only
  repeat' split
  · exact wroteOne_of_none (wrote_nil rfl rfl)
  · exact wroteOne_of_none (wrote_nil rfl rfl)
  · exact (wroteOne_lineWrite _ s).then_none (wrote_nil rfl rfl)
  · exact (wroteOne_lineWrite _ s).then_none (wrote_nil rfl rfl)

theorem wroteOne_bypassStep (c : Nat) (j : Job) (s : State) : s.WroteOne (bypassStep c j s) := by
  unfold bypassStep
  split
  · exact wroteOne_bypassLater _ _ _ _ _
  all_goals exact wroteOne_of_none (wrote_nil (by simp) (by simp))

/-- Of the commands only BYPASS_WRITE writes to the line; RESET_STREAM clears the other counters, not SAMPLES_OUT (R140). -/
theorem wroteOne_body (i : Instr) (j : Job) (s : State) : s.WroteOne (bodyOf i j s) := by
  cases i with
  | bypassWrite c => exact wroteOne_bypassStep c j s
  | resetStream => exact wroteOne_of_none (wrote_nil rfl rfl)
  | readFrame => exact wroteOne_of_none (wrote_nil (by simp [bodyOf]) (samplesOut_readFrameStep j s))
  | decodeFrame => exact wroteOne_of_none (wrote_nil (by simp [bodyOf]) (samplesOut_decodeFrameStep j s))
  | loadClip c => exact wroteOne_of_none (wrote_nil (by simp [bodyOf]) (samplesOut_loadClipStep c j s))
  | pauseVoice | resumeVoice | stopVoice | setVolume | setLoop =>
    rw [voiceCommand_only rfl j s]
    exact wroteOne_of_none (wrote_nil rfl rfl)
  | _ => exact wroteOne_of_none (wrote_nil (by simp [bodyOf]) (by simp [bodyOf]))

/-- The line sends bytes; it observes no line write. -/
theorem lineWrites_lineTurn (s : State) : s.lineTurn.obs.lineWrites = s.obs.lineWrites := by
  unfold State.lineTurn
  repeat' split
  all_goals rfl

/-- A step makes at most one line write: a tick's or BYPASS_WRITE's. -/
theorem wroteOne_step {s t : State} (h : step s = .next t) : s.WroteOne t :=
  step_establishes (I := fun u => s.Wrote [] u) (K := fun u => s.WroteOne u)
    (env := fun _ _ h => ⟨h.writes, h.count⟩) (same := fun _ h => wroteOne_of_none h)
    (answer := fun _ _ h => h.then_none (wrote_nil rfl rfl))
    (record := fun _ _ _ _ h => h.then_none (wrote_nil rfl rfl))
    (read := fun _ r h => wroteOne_of_none (h.trans (wrote_nil (by simp) (by simp))))
    (reg := fun _ r v h => wroteOne_of_none (h.trans (wrote_nil (by simp) (by simp))))
    (start := fun _ _ i _ _ h => wroteOne_of_none (h.trans (wrote_nil (by simp) (by simp))))
    (body := fun u j _ h => h.then_one (wroteOne_body j.instr j u))
    (mixer := fun u _ h => h.then_one (wroteOne_tick u))
    (line := fun u h => wroteOne_of_none (h.trans (wrote_nil (lineWrites_lineTurn u) (by simp))))
    (wrote_nil rfl rfl) h

/-! ### The line writes of a run (R392) -/

/-- Over n turns of a run some line writes were made, and counted. -/
theorem exists_wrote_run {σ : Nat → Turn} {r : Nat → State} (h : Scheduled σ r) (n : Nat) :
    ∃ ws, (r 0).Wrote ws (r n) := by
  induction n with
  | zero => exact ⟨[], wrote_nil rfl rfl⟩
  | succ n ih =>
    obtain ⟨ws, hws⟩ := ih
    obtain ⟨vs, -, hvs⟩ := wroteOne_step (h n)
    have hturn : (r n).Wrote [] ((r n).withTurn (σ n)) := wrote_nil rfl rfl
    exact ⟨_, hws.trans (hturn.trans hvs)⟩

theorem observedWrites_of_wrote {r : Nat → State} {n : Nat} {ws : List LineWrite} (h : (r 0).Wrote ws (r n)) :
    observedWrites r n = ws := by
  rw [observedWrites, h.writes, List.drop_left]

/-- Settles O51: step by step at most one line write, and a run by induction on its turns. -/
theorem samplesOutCountsLineWrites : Obligations.SamplesOutCountsLineWrites := by
  refine ⟨fun s t h => ?step, fun σ r n h => ?run⟩
  case step =>
    obtain ⟨ws, hone, hws⟩ := wroteOne_step h
    exact ⟨ws, hone, hws.writes, hws.count⟩
  case run =>
    obtain ⟨ws, hws⟩ := exists_wrote_run h n
    rw [observedWrites_of_wrote hws]
    exact ⟨hws.writes, hws.count⟩

end Sys2Proof.Machine

/-! PROOFS. The family 43_host_access.md: NOP, the input port, reads, and CLIP_DATA (R81, R83, R290 to R298). -/

namespace Sys2Proof.Machine

/-- Settles O11: the one sequencer step of NOP completes with RESULT 0. -/
theorem nopResult : Obligations.NopResult := fun _ _ hj => exec_of_busy .nop hj

/-! ### The input port (R293, R294) -/

theorem pushByte_of_overflow {s : State} (h : s.stream.eos = true ∨ s.stream.input.length = s.cfg.inCap) (b : Byte) :
    s.pushByte b = s.record .inOverflow noOp 0 := by
  unfold State.pushByte
  rcases h with h | h
  · exact if_pos h
  · rw [if_pos h, ite_self]

theorem pushByte_of_room {s : State} (he : s.stream.eos = false) (hl : s.stream.input.length ≠ s.cfg.inCap) (b : Byte) :
    s.pushByte b = { s with stream := { s.stream with input := s.stream.input ++ [b] } } := by
  unfold State.pushByte
  rw [if_neg (ne_true_of_eq_false he), if_neg hl]

/-- Settles O39: the writes of IN_DATA and IN_CTRL at their offsets, each by its cases. -/
theorem inputPort : Obligations.InputPort := by
  refine fun s v => ⟨fun hturn => ?data, fun hturn => ?ctrl⟩
  case data =>
    rw [step_of_writeAt (r := .inData) rfl rfl (by decide) hturn]
    exact ⟨fun h => congrArg _ (pushByte_of_overflow (s := s.taking) h _),
      fun he hl => congrArg _ (pushByte_of_room (s := s.taking) he hl _)⟩
  case ctrl =>
    rw [step_of_writeAt (r := .inCtrl) rfl rfl (by decide) hturn]
    exact ⟨fun h => congrArg _ (if_pos h), fun h => congrArg _ (if_neg (ne_true_of_eq_false h))⟩

/-! ### Reads (R83, R291, R296, R298) -/

/-- A read of 32 bits at a mapped aligned offset has the register's side effect and answers its value before the step. -/
theorem step_of_readAt {s : State} {a : BitVec 13} {r : Reg} (hr : regAt s.nVoices a.toNat = some r)
    (ha : a.toNat % 4 = 0) (hn : s.env.nextTurn = .host (.read a .w32)) :
    step s = .next ((s.taking.readEffect r).answer (s.regValue r)) := by
  have hreg : s.taking.accessed a .w32 = some r := (if_pos ⟨rfl, ha⟩).trans hr
  rw [step_of_read hn, State.hostRead, hreg]
  rfl

theorem readEffect_of_other {r : Reg} (hc : r ≠ .clipData) (hp : r ≠ .pcmData) (s : State) : s.readEffect r = s := by
  unfold State.readEffect
  rw [if_neg hc, if_neg hp]

theorem readEffect_clipData_of_lt {s : State} (h : s.clips.addr.toNat < s.cfg.clipMemSamples) :
    s.readEffect .clipData = s.nextClipAddr := if_pos h

theorem readEffect_clipData_of_ge {s : State} (h : s.cfg.clipMemSamples ≤ s.clips.addr.toNat) :
    s.readEffect .clipData = s.nextClipAddr.record .badAccess noOp 0 := if_neg (Nat.not_lt_of_le h)

/-- PCM_ADDR saturates at 4095, its greatest value. -/
theorem nextPcmAddr_eq (s : State) :
    s.nextPcmAddr = { s with
      sink := { s.sink with addr := if s.sink.addr.toNat < 4095 then s.sink.addr + 1 else s.sink.addr } } := by
  unfold State.nextPcmAddr
  by_cases h : s.sink.addr = 4095#12
  · simp [h]
  · have hlt : s.sink.addr.toNat < 4095 := by bv_omega
    rw [if_neg h, if_pos hlt]

/-- Settles O36: CLIP_DATA and PCM_DATA by their side effects, every other register by having none. -/
theorem readSideEffects : Obligations.ReadSideEffects := by
  refine ⟨fun s a r hturn haligned hreg hc hp => ?other, fun s hturn hlt => ?cell, fun s hturn hge => ?past,
    fun s hturn => ?pcm⟩
  case other =>
    have hclip : r ≠ .clipData := fun e => hc (BitVec.eq_of_toNat_eq (regAt_clipData (e ▸ hreg)))
    have hpcm : r ≠ .pcmData := fun e => hp (BitVec.eq_of_toNat_eq (regAt_pcmData (e ▸ hreg)))
    rw [step_of_readAt hreg haligned hturn, readEffect_of_other hclip hpcm]
    rfl
  case cell =>
    have hvalue : s.regValue .clipData = _ := if_pos hlt
    rw [step_of_readAt (r := .clipData) rfl rfl hturn, readEffect_clipData_of_lt (s := s.taking) hlt, hvalue]
    rfl
  case past =>
    have hvalue : s.regValue .clipData = 0 := if_neg (Nat.not_lt_of_le hge)
    rw [step_of_readAt (r := .clipData) rfl rfl hturn, readEffect_clipData_of_ge (s := s.taking) hge, hvalue]
    rfl
  case pcm =>
    have heffect : s.taking.readEffect .pcmData = s.taking.nextPcmAddr := rfl
    have hvalue : s.regValue .pcmData = _ := pcmDataWord_eq s
    rw [step_of_readAt (r := .pcmData) rfl rfl hturn, heffect, nextPcmAddr_eq, hvalue]
    rfl

/-! ### Writes to CLIP_DATA (R297) -/

theorem cellBusy_iff (a : Nat) (s : State) :
    s.cellBusy a = true ↔ ∃ x ∈ s.voices, x.onClip = true ∧ x.base ≤ a ∧ a < x.base + x.len * x.ch := by
  simp [State.cellBusy, Voice.onClip, Voice.covers, and_assoc]

section
variable {s : State}

theorem clipDataWrite_of_past (h : s.cfg.clipMemSamples ≤ s.clips.addr.toNat) (x : Sample) :
    s.clipDataWrite x = s.nextClipAddr.record .badAccess noOp 0 := if_pos h

theorem clipDataWrite_of_busy (h : s.clips.addr.toNat < s.cfg.clipMemSamples)
    (hb : s.cellBusy s.clips.addr.toNat = true) (x : Sample) :
    s.clipDataWrite x = s.nextClipAddr.record .clipBusy noOp 0 :=
  (if_neg (Nat.not_le_of_lt h)).trans (if_pos hb)

theorem clipDataWrite_of_room (h : s.clips.addr.toNat < s.cfg.clipMemSamples)
    (hb : ¬ s.cellBusy s.clips.addr.toNat = true) (x : Sample) :
    s.clipDataWrite x =
      { s with clips := { s.clips with mem := Memory.write s.clips.mem s.clips.addr.toNat x, addr := s.clips.addr + 1 } } :=
  (if_neg (Nat.not_le_of_lt h)).trans (if_neg hb)

end

/-- Settles O40: the two refusals, and the write of one cell as later reads see it. -/
theorem clipDataWrite : Obligations.ClipDataWrite := by
  rintro s v _ hm hturn rfl
  rw [step_of_writeAt (r := .clipData) rfl rfl (by decide) hturn]
  refine ⟨fun hpast => ?_, fun hlt hbusy => ?_, fun hlt hidle => ?_⟩
  · exact congrArg _ (clipDataWrite_of_past (s := s.taking) hpast _)
  · exact congrArg _ (clipDataWrite_of_busy (s := s.taking) hlt ((cellBusy_iff _ s).2 hbusy) _)
  · have hfree : ¬ s.cellBusy s.clips.addr.toNat = true := by
      rw [cellBusy_iff]
      rintro ⟨x, hx, hon, hin⟩
      exact hidle x hx hon hin
    refine ⟨_, congrArg _ (clipDataWrite_of_room (s := s.taking) hlt hfree _), ?_, fun n hn => ?_⟩
    · exact (Memory.read?_write hm _ _ _).trans (if_pos rfl)
    · exact (Memory.read?_write hm _ _ _).trans (if_neg hn)

end Sys2Proof.Machine

/-! PROOFS. The family 43_host_access.md: a clip is immutable while it is played (R297, R300, R379). -/

namespace Sys2Proof.Machine

/-! ### What each part of a step may write -/

/-- CLIP_DATA refuses the cells of a clip in use (R297), and no other register reaches the cells. -/
theorem read?_regWrite_of_cellBusy {s : State} {a : Nat} (hm : s.MemOk) (hb : s.cellBusy a = true) (r : Reg) (v : Word) :
    Memory.read? (s.regWrite r v).clips.mem a = Memory.read? s.clips.mem a := by
  cases r with
  | clipData =>
    show Memory.read? (s.clipDataWrite _).clips.mem a = _
    rcases Nat.lt_or_ge s.clips.addr.toNat s.cfg.clipMemSamples with hlt | hpast
    · by_cases haddr : s.cellBusy s.clips.addr.toNat = true
      · rw [clipDataWrite_of_busy hlt haddr]
        rfl
      · have hne : a ≠ s.clips.addr.toNat := fun e => haddr (e ▸ hb)
        rw [clipDataWrite_of_room hlt haddr]
        exact (Memory.read?_write hm _ _ _).trans (if_neg hne)
    · rw [clipDataWrite_of_past hpast]
      rfl
  | inData => simp [State.regWrite]
  | inCtrl =>
    simp only [State.regWrite]
    split <;> rfl
  | _ => rfl

/-- A block written from `base` on leaves the cells below it as they were. -/
theorem Memory.read?_writeBlock_of_lt {m : Memory} (hm : Memory.wf m = true) {base a : Nat} (h : a < base)
    (xs : List Sample) : Memory.read? (Memory.writeBlock m base xs) a = Memory.read? m a := by
  rw [Memory.read?_writeBlock hm, if_neg (by omega)]

/-- LOAD_CLIP stores above the allocator pointer, where its region lies (R215). -/
theorem read?_loadClipStep_of_lt {s : State} {j : Job} {a : Nat} (c : Nat) (hm : s.MemOk) (hs : s.ClipsOk)
    (hj : s.cur = some j) (ha : a < s.clips.alloc) :
    Memory.read? (loadClipStep c j s).clips.mem a = Memory.read? s.clips.mem a := by
  obtain ⟨hbase, -⟩ := clipsOk_load hs (hs.cur j hj)
  cases loadEffect_step c j s with
  | held h => rw [h]
  | failed clips _ | same _ clips _ => rw [clips]
  | ended _ clips _ => rw [clips]
  | stored xs _ _ _ _ clips _ =>
    rw [clips]
    exact Memory.read?_writeBlock_of_lt hm (by omega) xs

/-- CLIP_DEFINE clears cells from the allocator pointer on, or fails (R300). -/
theorem read?_clipDefineStep_of_lt {s : State} {a : Nat} (c : Nat) (j : Job) (hm : s.MemOk) (ha : a < s.clips.alloc) :
    Memory.read? (clipDefineStep c j s).clips.mem a = Memory.read? s.clips.mem a := by
  unfold clipDefineStep
  dsimp only
  repeat' split
  · rfl
  · rfl
  · rfl
  · exact Memory.read?_writeBlock_of_lt hm ha _

/-- No command changes a cell below the allocator pointer. -/
theorem read?_body_of_lt {s : State} {j : Job} {a : Nat} (i : Instr) (hm : s.MemOk) (hs : s.ClipsOk)
    (hj : s.cur = some j) (ha : a < s.clips.alloc) :
    Memory.read? (bodyOf i j s).clips.mem a = Memory.read? s.clips.mem a := by
  cases i with
  | loadClip c => exact read?_loadClipStep_of_lt c hm hs hj ha
  | clipDefine c => exact read?_clipDefineStep_of_lt c j hm ha
  | clipFreeAll =>
    show Memory.read? (clipFreeAllStep j s).clips.mem a = _
    unfold clipFreeAllStep
    split <;> rfl
  | pauseVoice | resumeVoice | stopVoice | setVolume | setLoop => rw [voiceCommand_only rfl j s]
  | _ => simp [bodyOf]

/-! ### The step -/

/-- The region of a clip voice in use lies below the allocator pointer (R57). -/
theorem lt_alloc_of_cellBusy {s : State} {a : Nat} (hs : s.ClipsOk) (hb : s.cellBusy a = true) : a < s.clips.alloc := by
  obtain ⟨x, hx, hon, -, ha⟩ := (cellBusy_iff a s).1 hb
  obtain ⟨-, hle⟩ := hs.voices x hx hon
  exact Nat.lt_of_lt_of_le ha hle

/-- The cell `a` reads `x` and lies in the region of a clip voice in use, in a state that meets the invariants of the clip store. -/
structure State.PlaysCell (a : Nat) (x : Option Sample) (s : State) : Prop where
  memOk : s.MemOk
  clipsOk : s.ClipsOk
  busy : s.cellBusy a = true
  reads : Memory.read? s.clips.mem a = x

/-- Whatever a step does, a cell that is played reads as before after it. -/
theorem State.PlaysCell.read?_step {s t : State} {a : Nat} {x : Option Sample} (hs : s.PlaysCell a x)
    (h : step s = .next t) : Memory.read? t.clips.mem a = x :=
  step_establishes (I := State.PlaysCell a x) (K := fun u => Memory.read? u.clips.mem a = x)
    (env := fun _ _ h => ⟨h.memOk, h.clipsOk, h.busy, h.reads⟩)
    (same := fun _ h => h.reads)
    (answer := fun _ _ h => h)
    (record := fun _ _ _ _ h => h)
    (read := fun u r h => by rw [mem_readEffect r u, h.reads])
    (reg := fun _ r v h => (read?_regWrite_of_cellBusy h.memOk h.busy r v).trans h.reads)
    (start := fun _ _ _ _ _ h => by simpa using h.reads)
    (body := fun _ j hj h =>
      (read?_body_of_lt j.instr h.memOk h.clipsOk hj (lt_alloc_of_cellBusy h.clipsOk h.busy)).trans h.reads)
    (mixer := fun _ _ h => by simpa using h.reads)
    (line := fun _ h => by simpa using h.reads) hs h

/-- Settles O58: CLIP_DATA refuses the cells of a clip in use, and every command writes at or above CLIP_ALLOC, where no such clip lies. -/
theorem playedClipImmutable : Obligations.PlayedClipImmutable := by
  intro s t x a hm hs hstep hx hon hbase hend
  have hbusy : s.cellBusy a = true := (cellBusy_iff a s).2 ⟨x, hx, hon, hbase, hend⟩
  have hplays : s.PlaysCell a (Memory.read? s.clips.mem a) := ⟨hm, hs, hbusy, rfl⟩
  exact hplays.read?_step hstep

end Sys2Proof.Machine

/-! PROOFS. The family 60_exceptions.md: how errors are recorded and commands end (R322, R325), and that every started command ends (R326, R391, R392). -/

namespace Sys2Proof.Machine

/-! ### Recording, raising, completing, and a placed command word (R322, R325; log 4) -/

theorem record_of_noError {s : State} (h : s.err.code = .none) (e : ErrCode) (op idx : Byte) :
    s.record e op idx = { s with err := ⟨e, op, idx, false⟩, irqPend := s.irqPend ||| 0b00010#5 } := by
  simp [State.record, ErrReg.record, h, irqError]

theorem record_of_error {s : State} (h : s.err.code ≠ .none) (e : ErrCode) (op idx : Byte) :
    s.record e op idx = { s with err := { s.err with ovf := true }, irqPend := s.irqPend ||| 0b00010#5 } := by
  simp [State.record, ErrReg.record, h, irqError]

/-- One raise sets both ERROR and CMD_DONE. -/
theorem raise_eq (s : State) (e : ErrCode) (op idx : Byte) :
    s.raise e op idx = { s.record e op idx with cur := none, irqPend := s.irqPend ||| 0b00011#5 } := by
  have hbits : irqError ||| irqCmdDone = 0b00011#5 := by decide
  rw [State.raise, BitVec.or_assoc, hbits]

/-- Settles O8: each operation by definition, STATUS.ERR by the fields of the status word. -/
theorem recordRaiseComplete : Obligations.RecordRaiseComplete :=
  ⟨fun _ e op idx h => record_of_noError h e op idx, fun _ e op idx h => record_of_error h e op idx, raise_eq,
    fun s => (statusWord_fields s).2.1, fun _ _ => rfl⟩

/-- A placed word is issued to the block with no command in progress. -/
theorem withFetchWord_encode (s : State) (i : Instr) :
    s.withFetchWord 32 (encode i).toNat = s.withCommand (encode i) := by
  simp [State.withFetchWord, Nat.mod_eq_of_lt (encode i).isLt]

/-- A command that the CMD write leaves in progress is the next sequencer turn's; one that it ends or refuses is the next turn's CMD write. -/
theorem withCommand_of_decode {w : Word} {i : Instr} (s : State) (hd : decode w = .ok i) :
    (∃ (j : Job) (t : State), t.cur = some j ∧ j.instr = i ∧ s.withCommand w = t.withTurn (.sequencer .ok false)) ∨
    s.withCommand w = State.withTurn (cmdWriteTurn w) { s with cur := none } := by
  generalize hu : ({ s with cur := none } : State) = u
  have hissue : u.issueCommand w = .next (startOf i (u.latch i)) := by
    rw [issueCommand_eq, afterIssue_of_idle (by rw [← hu]) hd]
  have hplaced : s.withCommand w = if (startOf i (u.latch i)).busy
      then (startOf i (u.latch i)).withTurn (.sequencer .ok false) else u.withTurn (cmdWriteTurn w) := by
    unfold State.withCommand
    dsimp only
    rw [hu, hissue]
  rw [hplaced]
  cases hc : (startOf i (u.latch i)).cur with
  | none => exact .inr (if_neg (by simp [State.busy, hc]))
  | some j => exact .inl ⟨j, _, hc, by rw [cur_start hc], if_pos (by simp [State.busy, hc])⟩

/-- Settles O5: the placed word's step is the command's sequencer step, or its CMD write where that ends or refuses it. -/
theorem placedWordRuns : Obligations.PlacedWordRuns := by
  intro s i hi
  have hd : decode (encode i) = .ok i := decodeOfEncode i hi
  rw [withFetchWord_encode]
  rcases withCommand_of_decode s hd with ⟨j, t, hj, rfl, e⟩ | e <;> rw [e]
  · exact step_of_sequencer (s := t.withTurn (.sequencer .ok false)) hj rfl
  · exact step_of_legalCmdWrite (s := State.withTurn (cmdWriteTurn (encode i)) { s with cur := none }) rfl rfl hd

/-! ### The turns of a run while a command is in progress -/

/-- The next state of a run is what the turn taken makes of it, with that turn's draws. -/
theorem Scheduled.next {σ : Nat → Turn} {r : Nat → State} (h : Scheduled σ r) (n : Nat) :
    r (n + 1) = ((r n).drawing (σ n)).afterTurn (σ n) := step_next_iff.1 (h n)

theorem cfg_of_scheduled {σ : Nat → Turn} {r : Nat → State} (h : Scheduled σ r) {m n : Nat} (hmn : m ≤ n) :
    (r n).cfg = (r m).cfg := by
  induction n, hmn using Nat.le_induction with
  | base => rfl
  | succ n _ ih => exact (sameConfig_step (h n)).cfg.trans ih

/-- An idle sequencer is woken by the host only. -/
theorem cur_next_of_idle {σ : Nat → Turn} {r : Nat → State} (h : Scheduled σ r) {n : Nat} (hc : (r n).cur = none)
    (hσ : agentOf (σ n) ≠ .host) : (r (n + 1)).cur = none := by
  rw [h.next n]
  cases hturn : σ n with
  | host a => exact absurd (by rw [hturn]; rfl) hσ
  | sequencer d b =>
    have hidle : ((r n).drawing (.sequencer d b)).cur = none := hc
    simp only [State.afterTurn, State.afterSequencer, hidle]
  | mixer d =>
    have hidle : ((r n).drawing (.mixer d)).cur = none := hc
    simp only [State.afterTurn, State.mixerTurn]
    split <;> simp [hidle]
  | line => exact (lineTurn_cur (r n)).trans hc

/-- What a host turn leaves alone while a command is in progress: the command, what the mixer and the line work on, and the stream once it has ended. -/
structure State.HostKeeps (s t : State) : Prop where
  cfg : t.cfg = s.cfg
  cur : t.cur = s.cur
  voices : t.voices = s.voices
  ring : t.ring = s.ring
  mixer : t.mixer = s.mixer
  line : t.line = s.line
  stream : s.stream.eos = true → t.stream = s.stream

theorem hostKeeps_drawing (t : Turn) (s : State) : s.HostKeeps (s.drawing t) :=
  ⟨rfl, rfl, rfl, rfl, rfl, rfl, fun _ => rfl⟩

theorem stream_regWrite_of_eos {s : State} (he : s.stream.eos = true) (r : Reg) (v : Word) :
    (s.regWrite r v).stream = s.stream := by
  cases r with
  | inData =>
    show (s.pushByte _).stream = _
    rw [pushByte_of_overflow (.inl he)]
    rfl
  | inCtrl =>
    simp only [State.regWrite]
    split
    · rw [← he]
    · rfl
  | clipData => simp [State.regWrite]
  | _ => rfl

theorem hostKeeps_read (a : BitVec 13) (w : AccessWidth) (s : State) : s.HostKeeps (s.hostRead a w) := by
  rcases hostRead_cases a w s with ⟨-, e⟩ | ⟨x, -, e⟩ <;> rw [e]
  · exact ⟨rfl, rfl, rfl, rfl, rfl, rfl, fun _ => rfl⟩
  · exact ⟨readEffect_cfg x s, readEffect_cur x s, readEffect_voices x s, readEffect_ring x s, readEffect_mixer x s,
      readEffect_line x s, fun _ => readEffect_stream x s⟩

/-- A command word written while a command is in progress is refused (R324). -/
theorem hostKeeps_write {s : State} {j : Job} (hj : s.cur = some j) (a : BitVec 13) (w : AccessWidth) (v : Word) :
    s.HostKeeps (s.afterWrite a w v) := by
  have hrecord : ∀ e op idx, s.HostKeeps (s.record e op idx) := fun _ _ _ => ⟨rfl, rfl, rfl, rfl, rfl, rfl, fun _ => rfl⟩
  unfold State.afterWrite State.afterIssue
  rw [if_pos (by simp [State.busy, hj])]
  split
  · exact hrecord _ _ _
  · next x _ =>
    split
    · exact hrecord _ _ _
    · exact ⟨regWrite_cfg x v s, regWrite_cur x v s, regWrite_voices x v s, regWrite_ring x v s, regWrite_mixer x v s,
        regWrite_line x v s, fun he => stream_regWrite_of_eos he x v⟩

theorem afterSequencer_of_busy {s : State} {j : Job} (hj : s.cur = some j) : s.afterSequencer = bodyOf j.instr j s := by
  simp only [State.afterSequencer, hj]

/-- What a turn can do while the command `j` is in progress. -/
inductive State.BusyStep (s : State) (j : Job) : Turn → State → Prop where
  | host (a : HostAccess) {t : State} (kept : s.HostKeeps t) : s.BusyStep j (.host a) t
  | sequencer (d : LineDraw) (b : Bool) :
      s.BusyStep j (.sequencer d b) (bodyOf j.instr j (s.drawing (.sequencer d b)))
  | tick (d : LineDraw) (enabled : s.tickEnabled = true) : s.BusyStep j (.mixer d) (s.drawing (.mixer d)).tick
  | noTick (d : LineDraw) (disabled : s.tickEnabled = false) : s.BusyStep j (.mixer d) (s.drawing (.mixer d))
  | line : s.BusyStep j .line s.lineTurn

theorem busyStep {s : State} {j : Job} (hj : s.cur = some j) (t : Turn) :
    s.BusyStep j t ((s.drawing t).afterTurn t) := by
  rcases t with (⟨a, w⟩ | ⟨a, w, v⟩) | ⟨d, b⟩ | d | _
  · exact .host _ (hostKeeps_read a w s)
  · exact .host _ (hostKeeps_write hj a w v)
  · have hturn : (s.drawing (.sequencer d b)).afterSequencer = bodyOf j.instr j (s.drawing (.sequencer d b)) :=
      afterSequencer_of_busy (s := s.drawing (.sequencer d b)) hj
    show s.BusyStep j _ (s.drawing (.sequencer d b)).afterSequencer
    rw [hturn]
    exact .sequencer d b
  · show s.BusyStep j _ (s.drawing (.mixer d)).mixerTurn
    unfold State.mixerTurn
    split
    · next ht => exact .tick d ht
    · next ht => exact .noTick d (Bool.eq_false_of_not_eq_true ht)
  · exact .line

/-- A state with the same command in progress, and the same stream once that has ended: what another agent's turn leaves to the sequencer. -/
def State.SameWork (s t : State) : Prop := t.cur = s.cur ∧ (s.stream.eos = true → t.stream = s.stream)

theorem sameWork_of_busyStep {s u : State} {j : Job} {t : Turn} (h : s.BusyStep j t u) (ht : agentOf t ≠ .sequencer) :
    s.SameWork u := by
  cases h with
  | host a kept => exact ⟨kept.cur, kept.stream⟩
  | sequencer d b => exact absurd rfl ht
  | tick d _ => exact ⟨tick_cur _, fun _ => tick_stream _⟩
  | noTick d _ => exact ⟨rfl, fun _ => rfl⟩
  | line => exact ⟨lineTurn_cur s, fun _ => lineTurn_stream s⟩

/-- A sequencer turn is enabled where the command's step has an effect. -/
theorem enables_sequencer_iff {s : State} {j : Job} (hj : s.cur = some j) (d : LineDraw) (b : Bool) :
    s.enables (.sequencer d b) ↔
      bodyOf j.instr j (s.drawing (.sequencer d b)) ≠ s.drawing (.sequencer d b) := by
  show (s.drawing (.sequencer d b)).sequencerTurn ≠ _ ↔ _
  rw [sequencerTurn_eq, afterSequencer_of_busy (s := s.drawing (.sequencer d b)) hj, ne_eq, Host.Outcome.next.injEq]

/-! ### Fairness and ranks (R391) -/

/-- No weakly fair run has in every state an agent that can move and whose moves lower a rank, where a turn that does not lower the rank leaves it, and that agent, as they are. -/
theorem WeaklyFair.false_of_rank {σ : Nat → Turn} {r : Nat → State} (hf : WeaklyFair σ r) {α : Type} [Preorder α]
    [WellFoundedLT α] (rank : State → α) (helper : State → Agent) {n : Nat}
    (notHost : ∀ m, n ≤ m → helper (r m) ≠ .host)
    (enabled : ∀ m, n ≤ m → ∃ t, agentOf t = helper (r m) ∧ (r m).enables t)
    (step : ∀ m, n ≤ m → rank (r (m + 1)) < rank (r m) ∨
      rank (r (m + 1)) = rank (r m) ∧ helper (r (m + 1)) = helper (r m) ∧
        ¬ (agentOf (σ m) = helper (r m) ∧ (r m).enables (σ m))) : False := by
  suffices h : ∀ a m, n ≤ m → rank (r m) = a → False from h _ n le_rfl rfl
  intro a
  induction a using WellFoundedLT.induction with
  | ind a ih =>
  rintro m hm rfl
  have steady : ∀ p, m ≤ p → rank (r p) = rank (r m) ∧ helper (r p) = helper (r m) := by
    intro p hp
    induction p, hp using Nat.le_induction with
    | base => exact ⟨rfl, rfl⟩
    | succ p hp ihp =>
      rcases step p (hm.trans hp) with hlt | ⟨hr, hh, -⟩
      · exact (ih _ (ihp.1 ▸ hlt) (p + 1) (by omega) rfl).elim
      · exact ⟨hr.trans ihp.1, hh.trans ihp.2⟩
  obtain ⟨p, hp, hagent, hen⟩ := hf (helper (r m)) m (notHost m hm) fun p hp => by
    have := enabled p (hm.trans hp)
    rwa [(steady p hp).2] at this
  rcases step p (hm.trans hp) with hlt | ⟨-, -, hno⟩
  · exact ih _ ((steady p hp).1 ▸ hlt) (p + 1) (by omega) rfl
  · exact hno ⟨hagent.trans (steady p hp).2.symm, hen⟩

/-- From n on a command `i` is in progress in a weakly fair run, and never ends. -/
structure NeverEnds (σ : Nat → Turn) (r : Nat → State) (n : Nat) (i : Instr) : Prop where
  scheduled : Scheduled σ r
  fair : WeaklyFair σ r
  running : ∀ m, n ≤ m → ∃ j, (r m).cur = some j ∧ j.instr = i

/-- How far a command in progress is from its end: what is left of it, and the states in which it waits for the turn of another agent, the one awaited. -/
structure Measure (α : Type) where
  left : State → α
  waits : State → Bool
  awaited : Agent

namespace Measure
variable {α : Type} [Preorder α] (M : Measure α)

/-- The agent on whose turn the end of the command depends. -/
def helper (s : State) : Agent := if M.waits s then M.awaited else .sequencer

/-- The command has ended, or less is left of it. -/
def Advances (s t : State) : Prop := t.cur = none ∨ M.left t < M.left s

/-- Another agent's turn `turn` leaves less of the command; or as much, waiting as before, and it is no turn that the command waits for. -/
def Allows (s : State) (turn : Turn) (t : State) : Prop :=
  M.left t < M.left s ∨
  M.left t = M.left s ∧ M.waits t = M.waits s ∧ (M.waits s = true → agentOf turn = M.awaited → ¬ s.enables turn)

theorem Allows.lowers_or_leaves {M : Measure α} {s t : State} {turn : Turn} (h : M.Allows s turn t)
    (hturn : agentOf turn ≠ .sequencer) :
    M.left t < M.left s ∨
    M.left t = M.left s ∧ M.helper t = M.helper s ∧ ¬ (agentOf turn = M.helper s ∧ s.enables turn) := by
  refine h.imp_right fun ⟨hleft, hwaits, hno⟩ => ⟨hleft, by rw [helper, helper, hwaits], fun ⟨hagent, hen⟩ => ?_⟩
  unfold helper at hagent
  split at hagent
  · next hw => exact hno hw hagent hen
  · exact hturn hagent

/-- From n on `M` measures the command `i` in the run `r`. -/
structure Fits (r : Nat → State) (n : Nat) (i : Instr) : Prop where
  awaited : M.awaited = .mixer ∨ M.awaited = .line
  kept : ∀ m t, n ≤ m → (r m).HostKeeps t → M.left t = M.left (r m) ∧ M.waits t = M.waits (r m)
  /-- A sequencer step advances the command, or holds. -/
  step : ∀ m j d b, n ≤ m → (r m).cur = some j →
    M.Advances (r m) (bodyOf i j ((r m).drawing (.sequencer d b))) ∨
    bodyOf i j ((r m).drawing (.sequencer d b)) = (r m).drawing (.sequencer d b)
  /-- Where the command does not wait, some draws let its step advance it. -/
  can : ∀ m j, n ≤ m → (r m).cur = some j → M.waits (r m) = false →
    ∃ d b, M.Advances (r m) (bodyOf i j ((r m).drawing (.sequencer d b)))
  /-- Where it waits, the awaited agent can move. -/
  enabled : ∀ m, n ≤ m → M.waits (r m) = true → ∃ t, agentOf t = M.awaited ∧ (r m).enables t
  tick : ∀ m d, n ≤ m → (r m).tickEnabled = true → M.Allows (r m) (.mixer d) ((r m).drawing (.mixer d)).tick
  line : ∀ m, n ≤ m → M.Allows (r m) .line (r m).lineTurn

end Measure

section
variable {σ : Nat → Turn} {r : Nat → State} {n : Nat} {i : Instr}

theorem NeverEnds.later (h : NeverEnds σ r n i) {m : Nat} (hm : n ≤ m) : NeverEnds σ r m i :=
  ⟨h.scheduled, h.fair, fun p hp => h.running p (hm.trans hp)⟩

theorem NeverEnds.busyStep (h : NeverEnds σ r n i) {m : Nat} {j : Job} (hj : (r m).cur = some j) :
    (r m).BusyStep j (σ m) (r (m + 1)) := by
  rw [h.scheduled.next m]
  exact Machine.busyStep hj (σ m)

/-- A step of the run from a state in which the command is in progress lowers the measure, or is no enabled step of the agent on which the command depends. -/
theorem NeverEnds.lowers_or_leaves (h : NeverEnds σ r n i) {α : Type} [Preorder α] {M : Measure α} (hM : M.Fits r n i)
    {m : Nat} (hm : n ≤ m) :
    M.left (r (m + 1)) < M.left (r m) ∨
    M.left (r (m + 1)) = M.left (r m) ∧ M.helper (r (m + 1)) = M.helper (r m) ∧
      ¬ (agentOf (σ m) = M.helper (r m) ∧ (r m).enables (σ m)) := by
  obtain ⟨j, hj, rfl⟩ := h.running m hm
  obtain ⟨j', hj', -⟩ := h.running (m + 1) (by omega)
  have hbusy := h.busyStep hj
  generalize r (m + 1) = u at hbusy hj' ⊢
  generalize σ m = t at hbusy ⊢
  cases hbusy with
  | sequencer d b =>
    rcases hM.step m j d b hm hj with (hnone | hlt) | e
    · exact absurd (hj'.symm.trans hnone) (by simp)
    · exact .inl hlt
    · obtain ⟨hleft, hwaits⟩ := hM.kept m _ hm (hostKeeps_drawing (.sequencer d b) (r m))
      rw [e]
      exact .inr ⟨hleft, by rw [Measure.helper, Measure.helper, hwaits],
        fun hen => (enables_sequencer_iff hj d b).1 hen.2 e⟩
  | host a hkept =>
    obtain ⟨hleft, hwaits⟩ := hM.kept m _ hm hkept
    have hnot : agentOf (.host a) ≠ M.awaited := by rcases hM.awaited with e | e <;> simp [e, agentOf]
    exact Measure.Allows.lowers_or_leaves (.inr ⟨hleft, hwaits, fun _ ha => absurd ha hnot⟩) (by simp [agentOf])
  | noTick d hno =>
    obtain ⟨hleft, hwaits⟩ := hM.kept m _ hm (hostKeeps_drawing (.mixer d) (r m))
    exact Measure.Allows.lowers_or_leaves
      (.inr ⟨hleft, hwaits, fun _ _ hen => absurd (hno.symm.trans hen) (by simp)⟩) (by simp [agentOf])
  | tick d ht => exact (hM.tick m d hm ht).lowers_or_leaves (by simp [agentOf])
  | line => exact (hM.line m hm).lowers_or_leaves (by simp [agentOf])

/-- A command with a measure ends: the agent on which it depends can always move. -/
theorem NeverEnds.false_of_measure (h : NeverEnds σ r n i) {α : Type} [Preorder α] [WellFoundedLT α] {M : Measure α}
    (hM : M.Fits r n i) : False := by
  refine h.fair.false_of_rank M.left M.helper (n := n) (fun m _ => ?notHost) (fun m hm => ?enabled)
    fun m hm => h.lowers_or_leaves hM hm
  all_goals unfold Measure.helper
  case notHost => rcases hM.awaited with e | e <;> rw [e] <;> split <;> simp
  case enabled =>
    split
    · next hw => exact hM.enabled m hm hw
    · next hw =>
      obtain ⟨j, hj, rfl⟩ := h.running m hm
      obtain ⟨d, b, hadv⟩ := hM.can m j hm hj (Bool.eq_false_of_not_eq_true hw)
      refine ⟨.sequencer d b, rfl, (enables_sequencer_iff hj d b).2 fun e => ?_⟩
      rw [e] at hadv
      rcases hadv with hnone | hlt
      · exact absurd (hj.symm.trans hnone) (by simp)
      · exact absurd hlt ((hM.kept m _ hm (hostKeeps_drawing _ _)).1 ▸ lt_irrefl _)

/-- A measure for a command that waits for no other agent. -/
def Measure.alone (left : State → Nat) : Measure Nat := ⟨left, fun _ => false, .line⟩

/-- Such a measure fits where what is left depends on the command, and the ended stream, alone. -/
theorem fits_alone (left : State → Nat) (same : ∀ m t, n ≤ m → (r m).SameWork t → left t = left (r m))
    (step : ∀ m j d b, n ≤ m → (r m).cur = some j →
      (Measure.alone left).Advances (r m) (bodyOf i j ((r m).drawing (.sequencer d b))) ∨
      bodyOf i j ((r m).drawing (.sequencer d b)) = (r m).drawing (.sequencer d b))
    (can : ∀ m j, n ≤ m → (r m).cur = some j →
      ∃ d b, (Measure.alone left).Advances (r m) (bodyOf i j ((r m).drawing (.sequencer d b)))) :
    (Measure.alone left).Fits r n i where
  awaited := .inr rfl
  kept m t hm hk := ⟨same m t hm ⟨hk.cur, hk.stream⟩, rfl⟩
  step := step
  can m j hm hj _ := can m j hm hj
  enabled _ _ hw := by cases hw
  tick m _ hm _ := .inr ⟨same m _ hm ⟨tick_cur _, fun _ => tick_stream _⟩, rfl, nofun⟩
  line m hm := .inr ⟨same m _ hm ⟨lineTurn_cur _, fun _ => lineTurn_stream _⟩, rfl, nofun⟩

end

/-! ### The commands of one step -/

/-- The commands whose first sequencer step is their last. -/
def isOneStep : Instr → Bool
  | .readFrame | .loadClip _ | .mixerStop | .mixerSync | .bypassWrite _ => false
  | _ => true

theorem cur_onVoice {act : State → State} {s : State} (h : (act s).cur = none) (op : Byte) (v : Nat) :
    (onVoice op v act s).cur = none := by
  rcases onVoice_cases op v act s with ⟨-, e⟩ | ⟨-, -, e⟩ | ⟨-, -, e⟩ <;> rw [e]
  · rfl
  · rfl
  · exact h

theorem cur_body_of_oneStep {i : Instr} (hi : isOneStep i = true) (j : Job) (s : State) : (bodyOf i j s).cur = none := by
  cases i with
  | readFrame | loadClip | mixerStop | mixerSync | bypassWrite => cases hi
  | nop | resetStream => rfl
  | decodeFrame | playStream | clipDefine | clipFreeAll | mixerStart | playVoice =>
    simp only [bodyOf, decodeFrameStep, playStreamStep, clipDefineStep, clipFreeAllStep, mixerStartStep, playVoiceStep]
    repeat' split
    all_goals rfl
  | pauseVoice v | resumeVoice v | stopVoice v | setVolume v => exact cur_onVoice rfl _ v
  | setLoop v loop =>
    refine cur_onVoice ?_ _ v
    unfold setLoopEffect
    split <;> rfl

theorem NeverEnds.false_of_oneStep {σ : Nat → Turn} {r : Nat → State} {n : Nat} {i : Instr} (h : NeverEnds σ r n i)
    (hi : isOneStep i = true) : False :=
  h.false_of_measure (fits_alone (fun _ => 0) (fun _ _ _ _ => rfl)
    (fun _ j _ _ _ _ => .inl (.inl (cur_body_of_oneStep hi j _)))
    (fun _ j _ _ => ⟨.ok, false, .inl (cur_body_of_oneStep hi j _)⟩))

/-! ### READ_FRAME and LOAD_CLIP after the end of the input (R150, R176) -/

theorem candidate_ne_wait {st : Stream} (he : st.eos = true) : candidate st ≠ .wait := by
  unfold candidate
  dsimp only
  repeat' split
  all_goals simp_all

theorem four_le_of_candidate_rejected {st : Stream} (h : candidate st = .rejected) : 4 ≤ st.input.length := by
  by_contra hlt
  rw [candidate, if_pos (by omega)] at h
  split at h <;> cases h

/-- SyncStep answered, and where it goes on with the command it took bytes from the input. -/
def State.Consumes (s : State) (a : SyncOutcome × Nat × State) : Prop :=
  a.1 ≠ .hold ∧ (a.1 = .cont ∨ a.1 = .frame → a.2.2.stream.input.length < s.stream.input.length)

theorem consumes_scan (op : Byte) (k : Nat) {s : State} (he : s.stream.eos = true) : s.Consumes (s.scan op k) := by
  unfold State.scan
  cases hc : candidate s.stream with
  | wait => exact absurd hc (candidate_ne_wait he)
  | ended => exact ⟨by simp, by simp⟩
  | accepted h =>
    obtain ⟨-, hmark, hfour, -⟩ := of_candidate_accepted hc
    have hlen := (frameLen_bounds (headerOk_of_syncMark hmark)).1
    refine ⟨by simp, fun _ => ?_⟩
    show (s.accept op h).stream.input.length < _
    rw [(accept_stream op h s).1, List.length_drop]
    omega
  | rejected =>
    have hfour := four_le_of_candidate_rejected hc
    show s.Consumes (s.reject k)
    unfold State.reject
    split
    · exact ⟨by simp, by simp⟩
    · exact ⟨by simp, fun _ => by simp only [List.length_drop]; omega⟩

theorem consumes_syncStep (op : Byte) (k : Nat) {s : State} (he : s.stream.eos = true) :
    s.Consumes (s.syncStep op k) := by
  unfold State.syncStep
  split
  · exact ⟨by simp, by simp⟩
  · split
    · exact ⟨by simp, by simp⟩
    · exact consumes_scan op k he
    · split
      · exact ⟨by simp, by simp⟩
      · split
        · exact ⟨by simp, by simp⟩
        · exact consumes_scan (s := s.setKind .mpeg) op k he

/-- The bytes of the input that are still to be read. -/
def State.inputLeft (s : State) : Nat := s.stream.input.length

theorem advances_readFrameStep (j : Job) {s : State} (he : s.stream.eos = true) :
    (Measure.alone State.inputLeft).Advances s (readFrameStep j s) := by
  have hc := consumes_syncStep Instr.readFrame.opcode j.progress.skipped he
  unfold readFrameStep
  dsimp only
  split <;> rename_i hq <;> rw [hq] at hc
  · exact absurd rfl hc.1
  · exact .inr (hc.2 (.inl rfl))
  all_goals exact .inl rfl

theorem advances_loadClipStep (c : Nat) (j : Job) {s : State} (he : s.stream.eos = true) :
    (Measure.alone State.inputLeft).Advances s (loadClipStep c j s) := by
  have hc := consumes_syncStep (Instr.loadClip c).opcode (j.progress.load s.clips.alloc).skipped he
  unfold loadClipStep
  dsimp only
  split <;> rename_i hq <;> rw [hq] at hc
  · exact absurd rfl hc.1
  · exact .inr (hc.2 (.inl rfl))
  · exact .inl rfl
  · exact .inl rfl
  · unfold loadClipEnd
    dsimp only
    split <;> exact .inl rfl
  · refine .inr ?_
    show (loadClipFrame c j _ _).stream.input.length < _
    rw [loadClipFrame_stream]
    exact hc.2 (.inr rfl)

theorem eos_syncStep (op : Byte) (k : Nat) {s : State} (hh : (s.syncStep op k).1 ≠ .hold) :
    (s.syncStep op k).2.2.stream.eos = s.stream.eos := by
  have he := syncStep_effect op k s
  generalize s.syncStep op k = a at he hh
  cases he with
  | hold => exact absurd rfl hh
  | settle | giveUp | skip => rfl
  | frame h _ _ =>
    show ((s.setKind .mpeg).accept op h).stream.eos = _
    rw [(accept_stream op h _).1]
    rfl

theorem eos_body {i : Instr} (hi : i ≠ .resetStream) (j : Job) (s : State) :
    (bodyOf i j s).stream.eos = s.stream.eos := by
  rcases stream_body i j s hi with ⟨e, -, -⟩ | ⟨op, k, hh, e, -, -⟩ <;> rw [e]
  exact eos_syncStep op k hh

/-- The input stays ended while such a command runs: only RESET_STREAM opens it again. -/
theorem NeverEnds.eos {σ : Nat → Turn} {r : Nat → State} {n : Nat} {i : Instr} (h : NeverEnds σ r n i)
    (hi : i ≠ .resetStream) (he : (r n).stream.eos = true) (m : Nat) (hm : n ≤ m) : (r m).stream.eos = true := by
  induction m, hm using Nat.le_induction with
  | base => exact he
  | succ m hm ih =>
    obtain ⟨j, hj, rfl⟩ := h.running m hm
    have hbusy := h.busyStep hj
    by_cases hseq : agentOf (σ m) = .sequencer
    · generalize r (m + 1) = u at hbusy ⊢
      generalize σ m = t at hbusy hseq
      cases hbusy with
      | sequencer d b => exact (eos_body hi j _).trans ih
      | _ => cases hseq
    · rw [(sameWork_of_busyStep hbusy hseq).2 ih, ih]

/-- READ_FRAME and LOAD_CLIP end once the input has: what they do not end on they take from it. -/
theorem NeverEnds.false_of_read {σ : Nat → Turn} {r : Nat → State} {n : Nat} {i : Instr} (h : NeverEnds σ r n i)
    (hi : i = .readFrame ∨ ∃ c, i = .loadClip c) (he : (r n).stream.eos = true) : False := by
  have hadv : ∀ (j : Job) (s : State), s.stream.eos = true → (Measure.alone State.inputLeft).Advances s (bodyOf i j s) := by
    rcases hi with rfl | ⟨c, rfl⟩
    · exact fun j s => advances_readFrameStep j
    · exact fun j s => advances_loadClipStep c j
  have heos := h.eos (by rcases hi with rfl | ⟨c, rfl⟩ <;> simp) he
  exact h.false_of_measure <| fits_alone State.inputLeft
    (fun m t hm hsame => congrArg (fun st : Stream => st.input.length) (hsame.2 (heos m hm)))
    (fun m j d b hm _ => .inl (hadv j ((r m).drawing (.sequencer d b)) (heos m hm)))
    (fun m j hm _ => ⟨.ok, false, hadv j ((r m).drawing (.sequencer .ok false)) (heos m hm)⟩)

/-! ### MIXER_STOP (R244) -/

/-- The phases that MIXER_STOP has before its drain: the poison pill, where it does not drain yet. -/
def State.stopPhases (s : State) : Nat := if s.cur.map Job.progress = some .draining then 0 else 1

/-- MIXER_STOP waits only in the drain, while the line has frames and no timeout is drawn. -/
theorem advances_mixerStopStep {s : State} {j : Job} (hj : s.cur = some j) :
    (Measure.alone State.stopPhases).Advances s (mixerStopStep j s) ∨
      s.env.timeout = false ∧ mixerStopStep j s = s := by
  unfold mixerStopStep
  split
  · split
    · exact .inl (.inl rfl)
    · next hwait => exact .inr ⟨by simp_all, rfl⟩
  · next hp =>
    split
    · exact .inl (.inr (by simp [Measure.alone, State.stopPhases, hj, hp]))
    · exact .inl (.inl rfl)

/-- MIXER_STOP ends: a turn with the timeout is at hand in the whole of the drain. -/
theorem NeverEnds.false_of_mixerStop {σ : Nat → Turn} {r : Nat → State} {n : Nat} (h : NeverEnds σ r n .mixerStop) :
    False :=
  h.false_of_measure <| fits_alone State.stopPhases (fun m t _ hsame => by simp [State.stopPhases, hsame.1])
    (fun m j d b _ hj => (advances_mixerStopStep (s := (r m).drawing (.sequencer d b)) hj).imp_right And.right)
    (fun m j _ hj => ⟨.ok, true,
      (advances_mixerStopStep (s := (r m).drawing (.sequencer .ok true)) hj).resolve_right fun h => by cases h.1⟩)

/-! ### What the turns of the mixer and the line leave to a waiting command -/

theorem tickEnabled_of_hostKeeps {s t : State} (h : s.HostKeeps t) : t.tickEnabled = s.tickEnabled := by
  rw [Bool.eq_iff_iff]
  simp only [tickEnabled_iff, h.cfg, h.voices, h.ring, h.mixer, h.line]

theorem isOpen_tick (s : State) : s.tick.line.isOpen = s.line.isOpen :=
  tick_keeps (I := fun t => t.line.isOpen = s.line.isOpen) (enter := by simp) (remove := fun _ _ h _ => h)
    (read := fun _ _ h _ => by simpa using h)
    (lineWrite := fun _ _ h _ _ _ => by
      unfold State.lineWrite
      dsimp only
      split <;> exact h)
    (record := fun _ _ _ _ h => h) (syncreq := fun _ h => h)

theorem isOpen_lineTurn (s : State) : s.lineTurn.line.isOpen = s.line.isOpen := by
  unfold State.lineTurn
  repeat' split
  all_goals rfl

/-- A line that can move takes a frame. -/
theorem length_line_lt_of_open {s : State} (ho : s.line.isOpen = true) (hb : s.line.buf ≠ []) :
    s.lineTurn.line.buf.length < s.line.buf.length := by
  obtain ⟨f, rest, e⟩ := List.exists_cons_of_ne_nil hb
  simp [lineTurn_of_open ho e, e]

/-- The room that the line makes takes no tick away. -/
theorem tickEnabled_lineTurn {s : State} (h : s.tickEnabled = true) : s.lineTurn.tickEnabled = true := by
  obtain ⟨hrun, hopen, hroom, hwork⟩ := (tickEnabled_iff s).1 h
  have hlen := length_line_lineTurn s
  refine (tickEnabled_iff _).2 ⟨by simpa using hrun, (isOpen_lineTurn s).trans hopen, ?_, by simpa using hwork⟩
  rw [lineTurn_cfg]
  omega

/-! ### MIXER_SYNC (R248) -/

/-- The command in progress is MIXER_SYNC's wait for a tick, and its request stands while a tick is enabled. -/
def State.awaitsTick (s : State) : Bool :=
  decide (s.cur.map Job.progress = some .syncing) && s.mixer.syncreq && s.tickEnabled

/-- MIXER_SYNC makes its request, waits for the tick, and ends once the request is served. -/
def State.syncPhases (s : State) : Nat :=
  if s.cur.map Job.progress = some .syncing then (if s.mixer.syncreq then (if s.tickEnabled then 1 else 2) else 0)
  else 2

/-- What is left of MIXER_SYNC. -/
def syncMeasure : Measure Nat := ⟨State.syncPhases, State.awaitsTick, .mixer⟩

theorem syncMeasure_kept {s t : State} (h : s.HostKeeps t) :
    t.syncPhases = s.syncPhases ∧ t.awaitsTick = s.awaitsTick := by
  simp only [State.syncPhases, State.awaitsTick, h.cur, h.mixer, tickEnabled_of_hostKeeps h, and_self]

/-- MIXER_SYNC waits for nothing but a tick. -/
theorem advances_mixerSyncStep {s : State} {j : Job} (hj : s.cur = some j) (hw : s.awaitsTick = false) :
    syncMeasure.Advances s (mixerSyncStep j s) := by
  cases ht : s.tickEnabled with
  | false =>
    rw [mixerSyncStep_of_noTick ht]
    exact .inl rfl
  | true =>
    by_cases hp : j.progress = .syncing
    · have hreq : s.mixer.syncreq = false := by simpa [State.awaitsTick, hj, hp, ht] using hw
      rw [mixerSyncStep_of_done hp hreq]
      exact .inl rfl
    · rw [mixerSyncStep_of_first hp ht]
      have hlater : (State.goOn j .syncing { s with mixer := { s.mixer with syncreq := true } }).syncPhases = 1 :=
        (if_pos rfl).trans ((if_pos rfl).trans (if_pos ht))
      have hnow : s.syncPhases = 2 := by simp [State.syncPhases, hj, hp]
      exact .inr (hlater.trans_lt (Nat.one_lt_two.trans_eq hnow.symm))

theorem mixerSyncStep_of_awaitsTick {s : State} {j : Job} (hj : s.cur = some j) (hw : s.awaitsTick = true) :
    mixerSyncStep j s = s := by
  obtain ⟨⟨hp, hreq⟩, ht⟩ : (j.progress = .syncing ∧ s.mixer.syncreq = true) ∧ s.tickEnabled = true := by
    simpa [State.awaitsTick, hj] using hw
  exact mixerSyncStep_of_waiting hp hreq ht

/-- A tick serves the request of MIXER_SYNC. -/
theorem syncMeasure_tick {s : State} {j : Job} (hj : s.cur = some j) (ht : s.tickEnabled = true) (d : LineDraw) :
    syncMeasure.Allows s (.mixer d) (s.drawing (.mixer d)).tick := by
  have hcur : (s.drawing (.mixer d)).cur = some j := hj
  by_cases hp : j.progress = .syncing
  · cases hreq : s.mixer.syncreq with
    | true => exact .inl (by simp [syncMeasure, State.syncPhases, hj, hcur, hp, hreq, ht, mixer_tick])
    | false =>
      exact .inr (by simp [syncMeasure, State.syncPhases, State.awaitsTick, hj, hcur, hp, hreq, mixer_tick])
  · exact .inr (by simp [syncMeasure, State.syncPhases, State.awaitsTick, hj, hcur, hp])

/-- The line's turn leaves the tick that MIXER_SYNC waits for enabled, and may enable one. -/
theorem syncMeasure_line {s : State} {j : Job} (hj : s.cur = some j) : syncMeasure.Allows s .line s.lineTurn := by
  by_cases hp : j.progress = .syncing
  · cases hreq : s.mixer.syncreq with
    | false => exact .inr (by simp [syncMeasure, State.syncPhases, State.awaitsTick, hj, hp, hreq])
    | true =>
      cases ht : s.tickEnabled with
      | true =>
        have ht' := tickEnabled_lineTurn ht
        exact .inr (by simp [syncMeasure, State.syncPhases, State.awaitsTick, ht, ht', agentOf])
      | false =>
        cases ht' : s.lineTurn.tickEnabled with
        | true => exact .inl (by simp [syncMeasure, State.syncPhases, hj, hp, hreq, ht, ht'])
        | false => exact .inr (by simp [syncMeasure, State.syncPhases, State.awaitsTick, ht, ht'])
  · exact .inr (by simp [syncMeasure, State.syncPhases, State.awaitsTick, hj, hp])

/-- The measure of MIXER_SYNC fits: the tick that it waits for stays enabled until it is taken. -/
theorem syncMeasure_fits {σ : Nat → Turn} {r : Nat → State} {n : Nat} (h : NeverEnds σ r n .mixerSync) :
    syncMeasure.Fits r n .mixerSync where
  awaited := .inl rfl
  kept _ _ _ hk := syncMeasure_kept hk
  step m j d b _ hj := by
    cases hw : (r m).awaitsTick with
    | true => exact .inr (mixerSyncStep_of_awaitsTick (s := (r m).drawing (.sequencer d b)) hj hw)
    | false => exact .inl (advances_mixerSyncStep (s := (r m).drawing (.sequencer d b)) hj hw)
  can m j _ hj hw := ⟨.ok, false, advances_mixerSyncStep (s := (r m).drawing (.sequencer .ok false)) hj hw⟩
  enabled _ _ hw := ⟨.mixer .ok, rfl, (Bool.and_eq_true_iff.1 hw).2⟩
  tick m d hm ht := by
    obtain ⟨j, hj, -⟩ := h.running m hm
    exact syncMeasure_tick hj ht d
  line m hm := by
    obtain ⟨j, hj, -⟩ := h.running m hm
    exact syncMeasure_line hj

/-! ### BYPASS_WRITE where no tick takes the line's room (R266; log 13) -/

/-- What a sequencer step of BYPASS_WRITE can do: end, copy the descriptor, hold for room in the line, or write a chunk. -/
inductive BypassEffect (j : Job) (s t : State) : Prop where
  | ended (cur : t.cur = none)
  | first (d : ClipDesc) (new : ∀ d k, j.progress ≠ .bypass d k) (isOpen : s.line.isOpen = true)
      (goesOn : t = s.goOn j (.bypass d 0))
  | held (d : ClipDesc) (k : Nat) (progress : j.progress = .bypass d k)
      (noRoom : s.lineRoom < min s.cfg.mixBlock (d.len - k)) (same : t = s)
  | wrote (d : ClipDesc) (k : Nat) (fs : List StereoFrame) (progress : j.progress = .bypass d k) (more : k ≠ d.len)
      (length : fs.length = min s.cfg.mixBlock (d.len - k))
      (cur : t.cur = some { j with progress := .bypass d (k + fs.length) })
      (line : t.line = { s.line with buf := s.line.buf ++ fs })

theorem bypassEffect_first (c : Nat) {s : State} {j : Job} (hp : ∀ d k, j.progress ≠ .bypass d k) :
    BypassEffect j s (bypassFirst c j s) := by
  unfold bypassFirst
  dsimp only
  split
  · exact .ended rfl
  · split
    · exact .ended rfl
    · next ho => exact .first _ hp (by simpa using ho) rfl

theorem bypassEffect_later (c : Nat) {s : State} {j : Job} {d : ClipDesc} {k : Nat} (hp : j.progress = .bypass d k) :
    BypassEffect j s (bypassLater c j d k s) := by
  by_cases hk : k = d.len
  · rw [bypassLater_of_end c hk]
    exact .ended rfl
  · by_cases hroom : min s.cfg.mixBlock (d.len - k) ≤ s.cfg.lineCap - s.line.buf.length
    · cases hd : s.env.lineDraw with
      | fail =>
        rw [bypassLater_of_fail c hk hroom hd]
        exact .ended rfl
      | ok =>
        rw [bypassLater_of_ok c hk hroom hd]
        refine .wrote d k (bypassChunk s.clips.mem d k _) hp hk (length_bypassChunk _ _ _ _) ?_ ?_
        · rw [length_bypassChunk]
          rfl
        · rw [State.goOn_line, lineWrite_of_ok hd]
    · exact .held d k hp (Nat.lt_of_not_le hroom) (bypassLater_of_noRoom c hk (Nat.lt_of_not_le hroom))

theorem bypassEffect_step (c : Nat) (j : Job) (s : State) : BypassEffect j s (bypassStep c j s) := by
  unfold bypassStep
  split
  · next d k hp => exact bypassEffect_later c hp
  all_goals
    rename_i hp
    exact bypassEffect_first c (by simp [hp])

/-- BYPASS_WRITE has an open line, and has not passed the end of its clip. -/
def State.BypassOk (s : State) : Prop :=
  ∀ d k, s.cur.map Job.progress = some (.bypass d k) → k ≤ d.len ∧ s.line.isOpen = true

theorem bypassOk_of_eq {s t : State} (hs : s.BypassOk) (hcur : t.cur = s.cur) (hopen : t.line.isOpen = s.line.isOpen) :
    t.BypassOk := fun d k h => by
  rw [hopen]
  exact hs d k (hcur ▸ h)

theorem bypassOk_bypassStep {s : State} {j : Job} (c : Nat) (hs : s.BypassOk) (hj : s.cur = some j) :
    (bypassStep c j s).BypassOk := by
  have he := bypassEffect_step c j s
  generalize bypassStep c j s = t at he ⊢
  intro d k h
  cases he with
  | ended cur => simp [cur] at h
  | first d' _ ho e =>
    subst e
    obtain ⟨rfl, rfl⟩ : d' = d ∧ 0 = k := by simpa using h
    exact ⟨Nat.zero_le _, ho⟩
  | held _ _ _ _ e => exact e ▸ hs d k (e ▸ h)
  | wrote d' k' fs hp _ hlen cur line =>
    obtain ⟨hle, ho⟩ := hs d' k' (by simp [hj, hp])
    obtain ⟨rfl, rfl⟩ : d' = d ∧ k' + fs.length = k := by simpa [cur] using h
    exact ⟨by omega, by rw [line]; exact ho⟩

theorem NeverEnds.bypassOk {σ : Nat → Turn} {r : Nat → State} {n c : Nat} (h : NeverEnds σ r n (.bypassWrite c))
    (hn : (r n).BypassOk) (m : Nat) (hm : n ≤ m) : (r m).BypassOk := by
  induction m, hm using Nat.le_induction with
  | base => exact hn
  | succ m hm ih =>
    obtain ⟨j, hj, hi⟩ := h.running m hm
    have hbusy := h.busyStep hj
    generalize r (m + 1) = u at hbusy ⊢
    generalize σ m = t at hbusy
    cases hbusy with
    | host a kept => exact bypassOk_of_eq ih kept.cur (by rw [kept.line])
    | sequencer d b =>
      rw [hi]
      exact bypassOk_bypassStep c (s := (r m).drawing (.sequencer d b)) ih hj
    | tick d _ => exact bypassOk_of_eq ih (tick_cur _) (isOpen_tick _)
    | noTick d _ => exact ih
    | line => exact bypassOk_of_eq ih (lineTurn_cur _) (isOpen_lineTurn _)

/-- BYPASS_WRITE holds: the line has no room for its next chunk. -/
def State.awaitsRoom (s : State) : Bool :=
  match s.cur.map Job.progress with
  | some (.bypass d k) => decide (s.lineRoom < min s.cfg.mixBlock (d.len - k))
  | _ => false

/-- Each frame of the clip is still to be written and then taken by the line, each frame in the line to be taken; ⊤ before the descriptor is copied. -/
def State.framesLeft (s : State) : WithTop Nat :=
  match s.cur.map Job.progress with
  | some (.bypass d k) => .some (2 * (d.len - k) + s.line.buf.length)
  | _ => ⊤

/-- What is left of BYPASS_WRITE. -/
def bypassMeasure : Measure (WithTop Nat) := ⟨State.framesLeft, State.awaitsRoom, .line⟩

theorem bypassMeasure_of_bypass {s : State} {d : ClipDesc} {k : Nat} (h : s.cur.map Job.progress = some (.bypass d k)) :
    s.framesLeft = .some (2 * (d.len - k) + s.line.buf.length) ∧
    s.awaitsRoom = decide (s.lineRoom < min s.cfg.mixBlock (d.len - k)) := by
  simp only [State.framesLeft, State.awaitsRoom, h, and_self]

theorem bypassMeasure_of_new {s : State} (h : ∀ d k, s.cur.map Job.progress ≠ some (.bypass d k)) :
    s.framesLeft = ⊤ ∧ s.awaitsRoom = false := by
  unfold State.framesLeft State.awaitsRoom
  split
  · next hp => exact absurd hp (h _ _)
  · exact ⟨rfl, rfl⟩

theorem bypassMeasure_kept {s t : State} (h : s.HostKeeps t) :
    t.framesLeft = s.framesLeft ∧ t.awaitsRoom = s.awaitsRoom := by
  unfold State.framesLeft State.awaitsRoom State.lineRoom
  rw [h.cur, h.line, h.cfg]
  exact ⟨rfl, rfl⟩

theorem mixBlock_bounds {p : Params} (h : p.legal = true) : 1 ≤ p.mixBlock ∧ p.mixBlock ≤ p.lineCap := by
  simp only [Params.legal, Bool.and_eq_true, decide_eq_true_eq] at h
  tauto

/-- With room in the line BYPASS_WRITE writes a chunk, where it does not end. -/
theorem advances_bypassStep {s : State} {j : Job} (c : Nat) (hcfg : s.cfg.legal = true) (hs : s.BypassOk)
    (hj : s.cur = some j) (hw : s.awaitsRoom = false) : bypassMeasure.Advances s (bypassStep c j s) := by
  have he := bypassEffect_step c j s
  generalize bypassStep c j s = t at he ⊢
  cases he with
  | ended cur => exact .inl cur
  | first d new _ e =>
    subst e
    refine .inr ?_
    show (s.goOn j (.bypass d 0)).framesLeft < s.framesLeft
    rw [(bypassMeasure_of_new (s := s) (by simpa [hj] using new)).1,
      (bypassMeasure_of_bypass (s := s.goOn j (.bypass d 0)) rfl).1]
    exact WithTop.coe_lt_top _
  | held d k hp noRoom _ =>
    rw [(bypassMeasure_of_bypass (s := s) (d := d) (k := k) (by simp [hj, hp])).2] at hw
    exact absurd noRoom (of_decide_eq_false hw)
  | wrote d k fs hp more hlen cur line =>
    have hnow : s.cur.map Job.progress = some (.bypass d k) := by simp [hj, hp]
    have hle := (hs d k hnow).1
    have hblock := (mixBlock_bounds hcfg).1
    refine .inr ?_
    show t.framesLeft < s.framesLeft
    rw [(bypassMeasure_of_bypass hnow).1, (bypassMeasure_of_bypass (s := t) (by rw [cur]; rfl)).1, line]
    refine WithTop.coe_lt_coe.2 ?_
    rw [List.length_append]
    omega

theorem bypassStep_of_awaitsRoom {s : State} {j : Job} (c : Nat) (hj : s.cur = some j) (hw : s.awaitsRoom = true) :
    bypassStep c j s = s := by
  by_cases hp : ∃ d k, j.progress = .bypass d k
  · obtain ⟨d, k, hp⟩ := hp
    rw [(bypassMeasure_of_bypass (s := s) (d := d) (k := k) (by simp [hj, hp])).2] at hw
    have hroom : s.lineRoom < min s.cfg.mixBlock (d.len - k) := of_decide_eq_true hw
    rw [bypassStep_of_bypass hp]
    exact bypassLater_of_noRoom c (fun hk => by simp [hk] at hroom) hroom
  · push Not at hp
    rw [(bypassMeasure_of_new (s := s) (by simpa [hj] using hp)).2] at hw
    cases hw

/-- A frame that the line takes is one less to come. -/
theorem bypassMeasure_line (s : State) : bypassMeasure.Allows s .line s.lineTurn := by
  by_cases hen : s.line.isOpen = true ∧ s.line.buf ≠ []
  · by_cases hp : ∃ d k, s.cur.map Job.progress = some (.bypass d k)
    · obtain ⟨d, k, hp⟩ := hp
      have hlt := length_line_lt_of_open hen.1 hen.2
      refine .inl ?_
      show s.lineTurn.framesLeft < s.framesLeft
      rw [(bypassMeasure_of_bypass hp).1, (bypassMeasure_of_bypass (s := s.lineTurn) (by rwa [lineTurn_cur])).1]
      exact WithTop.coe_lt_coe.2 (by omega)
    · push Not at hp
      obtain ⟨hleft, hwaits⟩ := bypassMeasure_of_new hp
      obtain ⟨hleft', hwaits'⟩ := bypassMeasure_of_new (s := s.lineTurn) (by rwa [lineTurn_cur])
      exact .inr ⟨hleft'.trans hleft.symm, hwaits'.trans hwaits.symm, fun h => absurd (hwaits.symm.trans h) (by simp)⟩
  · have hidle : s.lineTurn = s := lineTurn_of_idle (by
      by_cases ho : s.line.isOpen = true
      · exact .inr (not_not.1 fun hb => hen ⟨ho, hb⟩)
      · exact .inl (Bool.eq_false_of_not_eq_true ho))
    rw [hidle]
    exact .inr ⟨rfl, rfl, fun _ _ h => hen h⟩

/-- While BYPASS_WRITE waits for room the line has a frame to take. -/
theorem line_enabled_of_awaitsRoom {s : State} (hcfg : s.cfg.legal = true) (hs : s.BypassOk) (hw : s.awaitsRoom = true) :
    s.enables .line := by
  by_cases hp : ∃ d k, s.cur.map Job.progress = some (.bypass d k)
  · obtain ⟨d, k, hp⟩ := hp
    rw [(bypassMeasure_of_bypass hp).2] at hw
    have hroom : s.cfg.lineCap - s.line.buf.length < min s.cfg.mixBlock (d.len - k) := of_decide_eq_true hw
    have hcap := (mixBlock_bounds hcfg).2
    refine ⟨(hs d k hp).2, fun hempty => ?_⟩
    rw [hempty, List.length_nil] at hroom
    omega
  · push Not at hp
    rw [(bypassMeasure_of_new hp).2] at hw
    cases hw

/-- The measure of BYPASS_WRITE fits where no tick is enabled: the line makes room for it, and nothing else takes that. -/
theorem bypassMeasure_fits {r : Nat → State} {n c : Nat} (legal : ∀ m, n ≤ m → (r m).cfg.legal = true)
    (ok : ∀ m, n ≤ m → (r m).BypassOk) (noTick : ∀ m, n ≤ m → (r m).tickEnabled = false) :
    bypassMeasure.Fits r n (.bypassWrite c) where
  awaited := .inr rfl
  kept _ _ _ hk := bypassMeasure_kept hk
  step m j d b hm hj := by
    cases hw : (r m).awaitsRoom with
    | true => exact .inr (bypassStep_of_awaitsRoom (s := (r m).drawing (.sequencer d b)) c hj hw)
    | false =>
      exact .inl (advances_bypassStep (s := (r m).drawing (.sequencer d b)) c (legal m hm) (ok m hm) hj hw)
  can m j hm hj hw :=
    ⟨.ok, false, advances_bypassStep (s := (r m).drawing (.sequencer .ok false)) c (legal m hm) (ok m hm) hj hw⟩
  enabled m hm hw := ⟨.line, rfl, line_enabled_of_awaitsRoom (legal m hm) (ok m hm) hw⟩
  tick m _ hm ht := absurd ((noTick m hm).symm.trans ht) (by simp)
  line m _ := bypassMeasure_line (r m)

/-! ### Every started command ends, and so does the run (R326, R391, R392) -/

/-- A command that a step starts has its first progress record. -/
theorem progress_of_started {s t : State} {j : Job} (h : step s = .next t) (hc : s.cur = none) (hj : t.cur = some j) :
    ∃ alloc, j.progress = startProgress alloc j.instr :=
  step_establishes (I := fun u => u.cur = none)
    (K := fun u => ∀ j, u.cur = some j → ∃ alloc, j.progress = startProgress alloc j.instr)
    (env := fun _ _ h => h) (same := fun _ h j hj => by cases h.symm.trans hj) (answer := fun _ _ h => h)
    (record := fun _ _ _ _ h => h)
    (read := fun u x h j hj => by cases h.symm.trans ((readEffect_cur x u).symm.trans hj))
    (reg := fun u x v h j hj => by cases h.symm.trans ((regWrite_cur x v u).symm.trans hj))
    (start := fun _ _ _ _ _ _ j hj => by
      obtain rfl := cur_start hj
      exact ⟨_, rfl⟩)
    (body := fun _ _ hj h => by cases h.symm.trans hj)
    (mixer := fun u _ h j hj => by cases h.symm.trans ((tick_cur u).symm.trans hj))
    (line := fun u h j hj => by cases h.symm.trans ((lineTurn_cur u).symm.trans hj)) hc h j hj

theorem bypassOk_of_started {s t : State} (h : step s = .next t) (hc : s.cur = none) : t.BypassOk := by
  intro d k hp
  cases hj : t.cur with
  | none => simp [hj] at hp
  | some j =>
    obtain ⟨alloc, hstart⟩ := progress_of_started h hc hj
    have hp : startProgress alloc j.instr = .bypass d k := by simpa [hj, hstart] using hp
    unfold startProgress at hp
    split at hp <;> cases hp

/-- A command in progress stays the one it is, or ends. -/
theorem neverEnds_of_started {σ : Nat → Turn} {r : Nat → State} {n : Nat} {j : Job} (hsched : Scheduled σ r)
    (hfair : WeaklyFair σ r) (hj : (r n).cur = some j) (hbusy : ∀ m, n ≤ m → (r m).cur ≠ none) :
    NeverEnds σ r n j.instr := by
  refine ⟨hsched, hfair, fun m hm => ?_⟩
  induction m, hm using Nat.le_induction with
  | base => exact ⟨j, hj, rfl⟩
  | succ m hm ih =>
    obtain ⟨j', hj', hi⟩ := ih
    rcases runningCommandKept ((r m).withTurn (σ m)) (r (m + 1)) j' hj' (hsched m) with ⟨p, hp⟩ | ⟨hnone, -⟩
    · exact ⟨_, hp, hi⟩
    · exact absurd hnone (hbusy (m + 1) (by omega))

/-- Each command by its measure: READ_FRAME and LOAD_CLIP from the end of the input on, BYPASS_WRITE from the last tick on (R326, log 13). -/
theorem startedCommand_ends {σ : Nat → Turn} {r : Nat → State} {n : Nat} {j : Job} (hsched : Scheduled σ r)
    (hfair : WeaklyFair σ r) (hcfg : (r n).cfg.legal = true) (hc : (r n).cur = none) (hj : (r (n + 1)).cur = some j)
    (heos : j.instr = .readFrame ∨ (∃ c, j.instr = .loadClip c) → ∃ m, n < m ∧ (r m).stream.eos = true)
    (hticks : (∃ c, j.instr = .bypassWrite c) → ∃ k, ∀ m, k ≤ m → (r m).tickEnabled = false) :
    ∃ m, n < m ∧ (r m).cur = none := by
  by_contra hbusy
  push Not at hbusy
  have h := neverEnds_of_started hsched hfair hj hbusy
  have hfirst : (r (n + 1)).BypassOk := bypassOk_of_started (s := (r n).withTurn (σ n)) (hsched n) hc
  generalize j.instr = i at h heos hticks
  have hread : ¬ (i = .readFrame ∨ ∃ c, i = .loadClip c) := fun hi => by
    obtain ⟨m, hm, he⟩ := heos hi
    exact (h.later hm).false_of_read hi he
  cases i with
  | readFrame => exact hread (.inl rfl)
  | loadClip c => exact hread (.inr ⟨c, rfl⟩)
  | mixerStop => exact h.false_of_mixerStop
  | mixerSync => exact h.false_of_measure (syncMeasure_fits h)
  | bypassWrite c =>
    obtain ⟨k, hk⟩ := hticks ⟨c, rfl⟩
    have hok := h.bypassOk hfirst
    have hlegal : ∀ m, n ≤ m → (r m).cfg.legal = true := fun m hm => by rw [cfg_of_scheduled hsched hm, hcfg]
    exact (h.later (le_max_left (n + 1) k)).false_of_measure (bypassMeasure_fits (fun m hm => hlegal m (by omega))
      (fun m hm => hok m (by omega)) fun m hm => hk m (by omega))
  | _ => exact h.false_of_oneStep rfl

/-- In a fair run that meets what its commands ask for, the block is idle again and again: a new command needs the host, whose accesses end at k. -/
theorem exists_idle_after {σ : Nat → Turn} {r : Nat → State} {k l : Nat} (hsched : Scheduled σ r)
    (hfair : WeaklyFair σ r) (hcfg : (r 0).cfg.legal = true) (hc : (r 0).cur = none) (hdone : HostDone σ k)
    (heos : (r k).stream.eos = true) (hticks : ∀ m, l ≤ m → (r m).tickEnabled = false) (p : Nat) :
    ∃ m, p ≤ m ∧ (r m).cur = none := by
  induction p with
  | zero => exact ⟨0, le_rfl, hc⟩
  | succ p ih =>
    obtain ⟨m, hm, hidle⟩ := ih
    rcases Nat.lt_or_eq_of_le hm with hlt | rfl
    · exact ⟨m, hlt, hidle⟩
    cases hj : (r (p + 1)).cur with
    | none => exact ⟨p + 1, le_rfl, hj⟩
    | some j =>
      have hp : p < k := by
        by_contra hk
        have hnone := cur_next_of_idle hsched hidle (hdone p (by omega))
        exact absurd (hj.symm.trans hnone) (by simp)
      exact startedCommand_ends hsched hfair (by rw [cfg_of_scheduled hsched p.zero_le, hcfg]) hidle hj
        (fun _ => ⟨k, hp, heos⟩) fun _ => ⟨l, hticks⟩

theorem quiescent_iff (s : State) : s.quiescent = true ↔ s.cur = none ∧ s.tickEnabled = false := by
  simp [State.quiescent, State.busy]

/-- A run that is quiescent at some point with the host done ends at exactly one point, the first such. -/
theorem runEnds_unique {σ : Nat → Turn} {r : Nat → State} (h : ∃ n, HostDone σ n ∧ (r n).quiescent = true) :
    ∃ n, RunEnds σ r n ∧ ∀ m, RunEnds σ r m → m = n := by
  classical
  have hends : RunEnds σ r (Nat.find h) := ⟨Nat.find_spec h, fun _ hk => Nat.find_min h hk⟩
  exact ⟨_, hends, fun m hm => le_antisymm (not_lt.1 fun hlt => hm.2 _ hlt hends.1) (Nat.find_min' h hm.1)⟩

/-- Settles O10: a command that never ended would have a measure that a fair agent lowers without end; and a run comes to rest at the first idle point past the host's last access and the last tick. -/
theorem startedCommandsEnd : Obligations.StartedCommandsEnd := by
  refine ⟨fun σ r n j hsched hfair hcfg hc hj heos hticks => ?started,
    fun σ r k hsched hfair hcfg hc hdone heos hceased => ?ends⟩
  case started => exact startedCommand_ends hsched hfair hcfg hc hj heos hticks
  case ends =>
    obtain ⟨l, hticks⟩ := hceased
    obtain ⟨m, hm, hidle⟩ := exists_idle_after hsched hfair hcfg hc hdone heos hticks (max k l)
    obtain ⟨n, hends, hunique⟩ := runEnds_unique (σ := σ) (r := r)
      ⟨m, fun p hp => hdone p (by omega), (quiescent_iff _).2 ⟨hidle, hticks m (by omega)⟩⟩
    obtain ⟨hcur, htick⟩ := (quiescent_iff _).1 hends.1.2
    exact ⟨n, hends, hunique, hcur, htick, hends.1.1⟩

end Sys2Proof.Machine

/-! PROOFS. The family 70_reset_and_hazards.md: the state after reset (R6, R361). -/

namespace Sys2Proof.Machine

/-! ### The slots and descriptors of the reset state -/

@[simp] theorem reset_nVoices : State.reset.nVoices = 256 := List.length_replicate

@[simp] theorem reset_nClips : State.reset.nClips = 256 := List.length_replicate

theorem reset_voices_free : ∀ x ∈ State.reset.voices, x = .free := fun _ => List.eq_of_mem_replicate

theorem reset_descs_invalid : ∀ d ∈ State.reset.clips.descs, d = .invalid := fun _ => List.eq_of_mem_replicate

@[simp] theorem reset_voiceAt (v : Nat) : State.reset.voiceAt v = .free :=
  forall_voiceAt State.reset (p := (· = .free)) rfl reset_voices_free v

/-- What every free slot meets, every slot of the reset state meets. -/
theorem reset_forall_voices {p : Voice → Prop} (h : p .free) : ∀ x ∈ State.reset.voices, p x :=
  fun x hx => reset_voices_free x hx ▸ h

/-! ### Its invariants -/

theorem reset_slotsOk : State.reset.SlotsOk := reset_forall_voices ⟨nofun, Nat.zero_le _⟩

theorem reset_positionsOk : State.reset.PositionsOk := reset_forall_voices fun _ => le_rfl

theorem reset_queueOk : State.reset.QueueOk :=
  ⟨List.nodup_nil, fun v => iff_of_false List.not_mem_nil (by simp [Voice.free])⟩

theorem reset_stoppedOk : State.reset.StoppedOk := fun _ _ => BitVec.getLsbD_zero

theorem reset_ringOk : State.reset.RingOk := ringOk_unbound rfl fun v => by rw [reset_voiceAt]; rfl

theorem reset_buffersOk : State.reset.BuffersOk := ⟨Nat.zero_le _, Nat.zero_le _, Nat.zero_le _⟩

theorem reset_jobOk : State.reset.JobOk := nofun

theorem reset_syncOk : State.reset.SyncOk := ⟨fun _ => ⟨rfl, rfl⟩, nofun⟩

theorem reset_sinkOk : State.reset.SinkOk :=
  ⟨Nat.zero_le _, Nat.zero_le _, Nat.zero_le _, Nat.zero_le _, rfl, nofun, fun h => absurd rfl h⟩

/-- No cell lies below the allocator pointer, no descriptor is valid and no slot is in use. -/
theorem reset_clipsOk : State.reset.ClipsOk := by
  refine ⟨Nat.zero_le _, nofun, fun d hd hvalid => ?_, reset_forall_voices nofun, nofun⟩
  rw [reset_descs_invalid d hd] at hvalid
  exact absurd hvalid nofun

theorem reset_configLegal : State.reset.configLegal = true := by
  have hparams : State.reset.cfg.legal = true := by decide
  simp [State.configLegal, hparams]

/-- Settles O59: at reset nothing is queued, bound, in use or in progress, so that every invariant holds of empty buffers and free slots. -/
theorem resetMeetsInvariants : Obligations.ResetMeetsInvariants :=
  ⟨reset_mem_wf, reset_slotsOk, reset_queueOk, reset_positionsOk, reset_stoppedOk, reset_ringOk, reset_buffersOk,
    reset_jobOk, reset_syncOk, reset_sinkOk, reset_clipsOk, reset_configLegal⟩

/-! ### What its registers show -/

/-- The eight parameter registers show the configuration, as every parameter is below 2^32. -/
theorem reset_params_shown :
    let s := State.reset
    (s.regValue .paramNVoices).toNat = s.nVoices ∧ (s.regValue .paramNClips).toNat = s.nClips ∧
    (s.regValue .paramMixBlock).toNat = s.cfg.mixBlock ∧ (s.regValue .paramClipMem).toNat = s.cfg.clipMemSamples ∧
    (s.regValue .paramInCap).toNat = s.cfg.inCap ∧ (s.regValue .paramRingCap).toNat = s.cfg.ringCap ∧
    (s.regValue .paramLineCap).toNat = s.cfg.lineCap ∧ (s.regValue .paramMaxResync).toNat = s.cfg.maxResync :=
  ⟨toNat_ofNat_of_lt (by simp), toNat_ofNat_of_lt (by simp), toNat_ofNat_of_lt (by decide),
    toNat_ofNat_of_lt (by decide), toNat_ofNat_of_lt (by decide), toNat_ofNat_of_lt (by decide),
    toNat_ofNat_of_lt (by decide), toNat_ofNat_of_lt (by decide)⟩

/-- Settles O60: the stored elements and the views over them by evaluation; the voice slots and descriptors because each list is copies of one entry; the parameter registers because nothing is cut off. -/
theorem resetState : Obligations.ResetState := by
  obtain ⟨hVoices, hClips, hMixBlock, hClipMem, hInCap, hRingCap, hLineCap, hMaxResync⟩ := reset_params_shown
  exact ⟨rfl, rfl, rfl, rfl, rfl, rfl, rfl, rfl, rfl, rfl, rfl, rfl, rfl, rfl, rfl, rfl, rfl, rfl, rfl, rfl, rfl, rfl,
    rfl, rfl, rfl, rfl, rfl, rfl, reset_descs_invalid, rfl, rfl, rfl, rfl, rfl,
    hVoices, hClips, hMixBlock, hClipMem, hInCap, hRingCap, hLineCap, hMaxResync,
    rfl, rfl, rfl, rfl, rfl, rfl, reset_voices_free, rfl⟩

end Sys2Proof.Machine
